-- ==== Sys2Proof/Word.lean ====
section
/-! DEFINITION. The bit vectors of the engine: command and register words, context bytes,
samples and coefficients, register numbers. -/

namespace Sys2Proof

/-- A 32-bit command word, P register or CSR value (R21, R26, R90). -/
abbrev Word := BitVec 32

/-- A context byte or a byte of a stream (R33, R40). -/
abbrev Byte := BitVec 8

/-- A signed 16-bit sample of WB or coefficient of a store (R38, R39), as its two's complement
pattern: `toInt` is the mathematical value. -/
abbrev Sample := BitVec 16

/-- The 4-bit number of a P register, as the `rd` and `ra` fields hold it (R91). -/
abbrev RegNum := BitVec 4

/-- `wrap16` of R11: the 16-bit pattern of any integer. -/
abbrev wrap16 (v : Int) : Sample := BitVec.ofInt 16 v

end Sys2Proof
end

