-- ==== Sys2Proof/Syntax.lean ====
section
/-! DEFINITION. The commands of the engine: one constructor per row of the opcode table (R94). -/

namespace Sys2Proof

/-- A command with its fields (R91 to R94). A store number `s` is `false` for CS0 and `true` for
CS1 (R93). -/
inductive Instr where
  /-- `NOP` (R121). -/
  | nop
  /-- `LI rd, imm16` (R122). -/
  | li (rd : RegNum) (imm : BitVec 16)
  /-- `LUI rd, imm16` (R123). -/
  | lui (rd : RegNum) (imm : BitVec 16)
  /-- `LD rd, sp, (ra)` (R124). -/
  | ld (rd : RegNum) (sp : BitVec 4) (ra : RegNum)
  /-- `ST rd, sp, (ra)` (R125). -/
  | st (rd : RegNum) (sp : BitVec 4) (ra : RegNum)
  /-- `RESET` (R126). -/
  | reset
  /-- `AC.EINIT` (R142). -/
  | acEinit
  /-- `AC.DINIT` (R156). -/
  | acDinit
  /-- `AC.ENC rd, ctx` (R150). -/
  | acEnc (rd : RegNum) (ctx : Byte)
  /-- `AC.DEC rd, ctx` (R161). -/
  | acDec (rd : RegNum) (ctx : Byte)
  /-- `AC.ENCP rd` (R151). -/
  | acEncp (rd : RegNum)
  /-- `AC.DECP rd` (R162). -/
  | acDecp (rd : RegNum)
  /-- `AC.ENCB rd` (R152). -/
  | acEncb (rd : RegNum)
  /-- `AC.DECB rd` (R163). -/
  | acDecb (rd : RegNum)
  /-- `AC.CLOSE` (R153). -/
  | acClose
  /-- `BPC.INIT` (R224). -/
  | bpcInit
  /-- `BPC.SLICE rd` (R246). -/
  | bpcSlice (rd : RegNum)
  /-- `CS.CREATE s, ra` (R205). -/
  | csCreate (s : Bool) (ra : RegNum)
  /-- `CS.DESTROY s` (R206). -/
  | csDestroy (s : Bool)
  /-- `CS.SCATTER s, ra` (R207). -/
  | csScatter (s : Bool) (ra : RegNum)
  /-- `CS.GATHER s, ra` (R209). -/
  | csGather (s : Bool) (ra : RegNum)
  /-- `WT.FWD ra, begin, end` (R186). -/
  | wtFwd (ra : RegNum) (lo hi : Byte)
  /-- `WT.BWD ra, begin, end` (R187). -/
  | wtBwd (ra : RegNum) (lo hi : Byte)
  /-- `WT.RGB2YCC ra` (R189). -/
  | wtRgb2ycc (ra : RegNum)
  /-- `WT.YCC2RGB ra` (R190). -/
  | wtYcc2rgb (ra : RegNum)
  deriving DecidableEq, Repr

end Sys2Proof
end

