-- ==== Sys2Proof/WellFormed.lean ====
section
/-! DEFINITION. Which commands are legal (R95): the space number names a space, and a run of operand
registers stays inside the file. Every other field is legal at every value. -/

namespace Sys2Proof

/-- The run of `k` registers from `ra` does not pass P15 (R95). -/
def RegNum.runFits (ra : RegNum) (k : Nat) : Bool := decide (ra.toNat + k ≤ 16)

/-- The space number is one of 0 to 4 (R60, R95). -/
def spaceAssigned (sp : BitVec 4) : Bool := decide (sp.toNat < 5)

/-- R95's conditions on the fields of a command. -/
def Instr.wellFormed : Instr → Bool
  | .nop => true
  | .li _ _ => true
  | .lui _ _ => true
  | .ld _ sp _ => spaceAssigned sp
  | .st _ sp _ => spaceAssigned sp
  | .reset => true
  | .acEinit => true
  | .acDinit => true
  | .acEnc _ _ => true
  | .acDec _ _ => true
  | .acEncp _ => true
  | .acDecp _ => true
  | .acEncb _ => true
  | .acDecb _ => true
  | .acClose => true
  | .bpcInit => true
  | .bpcSlice _ => true
  | .csCreate _ ra => RegNum.runFits ra 2
  | .csDestroy _ => true
  | .csScatter _ ra => RegNum.runFits ra 2
  | .csGather _ ra => RegNum.runFits ra 2
  | .wtFwd ra _ _ => RegNum.runFits ra 4
  | .wtBwd ra _ _ => RegNum.runFits ra 4
  | .wtRgb2ycc ra => RegNum.runFits ra 4
  | .wtYcc2rgb ra => RegNum.runFits ra 4

end Sys2Proof
end

