-- ==== Sys2Proof/Decode.lean ====
section
/-! DEFINITION. The decoder of command words (R90 to R96), total and rejecting by name, and the
encoder (R98), both written from the formats of R92 and the opcode map of R94. -/

namespace Sys2Proof

/-- Why a word is no command (R95, R96). Each is IllegalCommand to the engine. -/
inductive DecodeError where
  /-- The `op` value is unassigned (R96). -/
  | unassignedOp
  /-- A reserved bit of the format is 1 (R92, R95). -/
  | reservedBit
  /-- A space number of 5 to 15 (R95). -/
  | reservedSpace
  /-- A run of operand registers passes P15 (R95). -/
  | registerRun
  deriving DecidableEq, Repr

/-- Bits [31:24] of a command word (R91). -/
def opField (w : Word) : BitVec 8 := w.extractLsb' 24 8

/-- Bits [23:20] of a command word (R91). -/
def rdField (w : Word) : RegNum := w.extractLsb' 20 4

/-- Bits [19:16] of a command word (R91). -/
def raField (w : Word) : RegNum := w.extractLsb' 16 4

/-- Bits [15:0] of a command word (R91). -/
def immField (w : Word) : BitVec 16 := w.extractLsb' 0 16

/-- A command word from its four fields (R91, R98). -/
def packWord (op : BitVec 8) (rd ra : RegNum) (imm : BitVec 16) : Word := op ++ rd ++ ra ++ imm

/-- Accept `i` if the reserved bits of its format are 0, as `ok` says, and then only if it meets
R95's conditions; `bad` names the condition that the command can break. -/
def acceptWord (ok : Bool) (bad : DecodeError) (i : Instr) : Except DecodeError Instr :=
  if ok then (if i.wellFormed then .ok i else .error bad) else .error .reservedBit

/-- Format Z: no operand (R92). -/
def formatZ (w : Word) (i : Instr) : Except DecodeError Instr :=
  acceptWord (rdField w == 0 && raField w == 0 && immField w == 0) .reservedBit i

/-- Format I: `rd` and a 16-bit immediate (R92, R93). -/
def formatI (w : Word) (mk : RegNum → BitVec 16 → Instr) : Except DecodeError Instr :=
  acceptWord (raField w == 0) .reservedBit (mk (rdField w) (immField w))

/-- Format M: `rd`, `ra` and a space number in `imm[3:0]` (R92, R93). -/
def formatM (w : Word) (mk : RegNum → BitVec 4 → RegNum → Instr) : Except DecodeError Instr :=
  acceptWord ((immField w).extractLsb' 4 12 == 0) .reservedSpace
    (mk (rdField w) ((immField w).extractLsb' 0 4) (raField w))

/-- Format C: `rd` and a context address in `imm[7:0]` (R92, R93). -/
def formatC (w : Word) (mk : RegNum → Byte → Instr) : Except DecodeError Instr :=
  acceptWord (raField w == 0 && (immField w).extractLsb' 8 8 == 0) .reservedBit
    (mk (rdField w) ((immField w).extractLsb' 0 8))

/-- Format R: `rd` alone (R92). -/
def formatR (w : Word) (mk : RegNum → Instr) : Except DecodeError Instr :=
  acceptWord (raField w == 0 && immField w == 0) .reservedBit (mk (rdField w))

/-- Format S: a store number in `imm[0]` and `ra` (R92, R93). -/
def formatS (w : Word) (mk : Bool → RegNum → Instr) : Except DecodeError Instr :=
  acceptWord (rdField w == 0 && (immField w).extractLsb' 1 15 == 0) .registerRun
    (mk ((immField w).getLsbD 0) (raField w))

/-- Format S0: a store number in `imm[0]` alone (R92, R93). -/
def formatS0 (w : Word) (mk : Bool → Instr) : Except DecodeError Instr :=
  acceptWord (rdField w == 0 && raField w == 0 && (immField w).extractLsb' 1 15 == 0) .reservedBit
    (mk ((immField w).getLsbD 0))

/-- Format W: `ra`, `begin` in `imm[15:8]` and `end` in `imm[7:0]` (R92, R93). -/
def formatW (w : Word) (mk : RegNum → Byte → Byte → Instr) : Except DecodeError Instr :=
  acceptWord (rdField w == 0) .registerRun
    (mk (raField w) ((immField w).extractLsb' 8 8) ((immField w).extractLsb' 0 8))

/-- Format K: `ra` alone (R92). -/
def formatK (w : Word) (mk : RegNum → Instr) : Except DecodeError Instr :=
  acceptWord (rdField w == 0 && immField w == 0) .registerRun (mk (raField w))

/-- The opcode map of R94. -/
def decode (w : Word) : Except DecodeError Instr :=
  match (opField w).toNat with
  | 0x00 => formatZ w .nop
  | 0x01 => formatI w .li
  | 0x02 => formatI w .lui
  | 0x03 => formatM w .ld
  | 0x04 => formatM w .st
  | 0x0F => formatZ w .reset
  | 0x10 => formatZ w .acEinit
  | 0x11 => formatZ w .acDinit
  | 0x12 => formatC w .acEnc
  | 0x13 => formatC w .acDec
  | 0x14 => formatR w .acEncp
  | 0x15 => formatR w .acDecp
  | 0x16 => formatR w .acEncb
  | 0x17 => formatR w .acDecb
  | 0x18 => formatZ w .acClose
  | 0x20 => formatZ w .bpcInit
  | 0x21 => formatR w .bpcSlice
  | 0x30 => formatS w .csCreate
  | 0x31 => formatS0 w .csDestroy
  | 0x32 => formatS w .csScatter
  | 0x33 => formatS w .csGather
  | 0x40 => formatW w .wtFwd
  | 0x41 => formatW w .wtBwd
  | 0x42 => formatK w .wtRgb2ycc
  | 0x43 => formatK w .wtYcc2rgb
  | _ => .error .unassignedOp

/-- The immediate that holds a store number in bit 0 (R93). -/
def storeImm (s : Bool) : BitVec 16 := if s then 1 else 0

/-- The word of a command: `op << 24 | rd << 20 | ra << 16 | imm` (R94, R98). -/
def encode : Instr → Word
  | .nop => packWord 0x00 0 0 0
  | .li rd imm => packWord 0x01 rd 0 imm
  | .lui rd imm => packWord 0x02 rd 0 imm
  | .ld rd sp ra => packWord 0x03 rd ra ((0 : BitVec 12) ++ sp)
  | .st rd sp ra => packWord 0x04 rd ra ((0 : BitVec 12) ++ sp)
  | .reset => packWord 0x0F 0 0 0
  | .acEinit => packWord 0x10 0 0 0
  | .acDinit => packWord 0x11 0 0 0
  | .acEnc rd ctx => packWord 0x12 rd 0 ((0 : Byte) ++ ctx)
  | .acDec rd ctx => packWord 0x13 rd 0 ((0 : Byte) ++ ctx)
  | .acEncp rd => packWord 0x14 rd 0 0
  | .acDecp rd => packWord 0x15 rd 0 0
  | .acEncb rd => packWord 0x16 rd 0 0
  | .acDecb rd => packWord 0x17 rd 0 0
  | .acClose => packWord 0x18 0 0 0
  | .bpcInit => packWord 0x20 0 0 0
  | .bpcSlice rd => packWord 0x21 rd 0 0
  | .csCreate s ra => packWord 0x30 0 ra (storeImm s)
  | .csDestroy s => packWord 0x31 0 0 (storeImm s)
  | .csScatter s ra => packWord 0x32 0 ra (storeImm s)
  | .csGather s ra => packWord 0x33 0 ra (storeImm s)
  | .wtFwd ra lo hi => packWord 0x40 0 ra (lo ++ hi)
  | .wtBwd ra lo hi => packWord 0x41 0 ra (lo ++ hi)
  | .wtRgb2ycc ra => packWord 0x42 0 ra 0
  | .wtYcc2rgb ra => packWord 0x43 0 ra 0

/-- The word whose low `nbits` bits are those of `w` and whose other bits are 0. -/
def tableWord (nbits w : Nat) : Word := BitVec.ofNat 32 (w % 2 ^ nbits)

/-- The command the decoder reads from a word given by its bits (the host's name). A command word is
one 32-bit value (R61 (c)), so no byte order enters. -/
def decodeTableWord (nbits w : Nat) : Option Instr := (decode (tableWord nbits w)).toOption

end Sys2Proof
end

