-- ==== Sys2Proof/Config.lean ====
section
/-! DEFINITION. The configuration record `Cfg` of R7. Its fixed fields are definitions. Its OPEN
fields are either data of the record `Config`, which a machine carries in its state and which no
step changes (log entry 1), or, for the two colour functions and the record the reset machine has,
constants with no body, of which nothing can be proved (log entries 2 and 3). -/

namespace Sys2Proof

/-- The OPEN fields of `Cfg` that are data (R7). Every value of this type satisfies the constraints
of R7, because each field holds what the constraint leaves free (U11: a violating configuration is
rejected at construction). -/
structure Config where
  /-- `Cfg.PROB[k] - 1`: so `1 <= PROB[k] <= 0x8000`. -/
  probPred : Vector (BitVec 15) 256
  /-- `Cfg.CONFIRM`. -/
  confirm : Vector Byte 256
  /-- `Cfg.FLIP`. -/
  flip : Vector Byte 256
  /-- The exponents of `Cfg.QLO_INIT[4..15]`; the first four thresholds are fixed by R7. -/
  qloExp : Vector (Fin 24) 12
  /-- The exponents of `Cfg.QHI_INIT[1..9]`. -/
  qhiExp : Vector (Fin 24) 9
  /-- `Cfg.WB_WORDS - 1`: so `1 <= WB_WORDS <= 2^32`. -/
  wbWordsPred : BitVec 32
  /-- `Cfg.ARENA_BUCKETS`; `none` is the default, `64 * NB` of the store. -/
  arena : Option Nat
  deriving DecidableEq, Repr, Inhabited

/-- `Cfg.FILL` (R7, R157). -/
def Config.fill : Byte := 0xFF

/-- `Cfg.CTX_INIT` (R7, R33). -/
def Config.ctxInit : Byte := 0x00

/-- `Cfg.NB_MAX` (R7): what CS.CREATE's check of the dimensions implies. -/
def Config.nbMax : Nat := 2048 * 2048

/-- `Cfg.PROB[k]` (R7). -/
def Config.prob (c : Config) (k : Byte) : Nat :=
  (c.probPred[k.toNat]'k.isLt).toNat + 1

/-- The new value of a context byte `k` (R150, R161, R165): CONFIRM when the bit had the predicted
value, FLIP when it had not. -/
def Config.adapt (c : Config) (k : Byte) (confirmed : Bool) : Byte :=
  if confirmed then c.confirm[k.toNat]'k.isLt else c.flip[k.toNat]'k.isLt

/-- A threshold `2^e` (R7: every entry is a power of two, exponent at most 23). -/
def Config.threshold (e : Fin 24) : BitVec 24 := BitVec.ofNat 24 (2 ^ e.val)

/-- `Cfg.QLO_INIT[0..15]` (R7). -/
def Config.qloInit (c : Config) : Vector (BitVec 24) 16 :=
  #v[0x4000, 0x8000, 0x8000, 0x10000,
     Config.threshold c.qloExp[0], Config.threshold c.qloExp[1], Config.threshold c.qloExp[2],
     Config.threshold c.qloExp[3], Config.threshold c.qloExp[4], Config.threshold c.qloExp[5],
     Config.threshold c.qloExp[6], Config.threshold c.qloExp[7], Config.threshold c.qloExp[8],
     Config.threshold c.qloExp[9], Config.threshold c.qloExp[10], Config.threshold c.qloExp[11]]

/-- `Cfg.QHI_INIT[1..9]` (R7); index `b - 1` holds the threshold of subband `b`. -/
def Config.qhiInit (c : Config) : Vector (BitVec 24) 9 :=
  #v[Config.threshold c.qhiExp[0], Config.threshold c.qhiExp[1], Config.threshold c.qhiExp[2],
     Config.threshold c.qhiExp[3], Config.threshold c.qhiExp[4], Config.threshold c.qhiExp[5],
     Config.threshold c.qhiExp[6], Config.threshold c.qhiExp[7], Config.threshold c.qhiExp[8]]

/-- `Cfg.WB_WORDS` (R7). -/
def Config.wbWords (c : Config) : Nat := c.wbWordsPred.toNat + 1

/-- The exponents of R7's default `QLO_INIT[4..15]`. Not the reset machine's: R7 leaves them OPEN. -/
def Config.defaultQloExp : Vector (Fin 24) 12 := #v[16, 16, 16, 16, 16, 16, 16, 16, 17, 17, 17, 17]

/-- The exponents of R7's default `QHI_INIT[1..9]`. Not the reset machine's: R7 leaves them OPEN. -/
def Config.defaultQhiExp : Vector (Fin 24) 9 := #v[17, 17, 18, 18, 18, 19, 18, 18, 19]

/-! The OPEN values. None has a body. -/

/-- `Cfg.rgb2ycc` (R7, R189): three unsigned bytes to three signed bytes. -/
opaque Config.rgb2ycc : Byte → Byte → Byte → Byte × Byte × Byte

/-- `Cfg.ycc2rgb` (R7, R190): three signed bytes to three unsigned bytes. -/
opaque Config.ycc2rgb : Byte → Byte → Byte → Byte × Byte × Byte

/-- The machine's own `Cfg.PROB` table, less one. -/
opaque Config.openProbPred : Vector (BitVec 15) 256

/-- The machine's own `Cfg.CONFIRM` table. -/
opaque Config.openConfirm : Vector Byte 256

/-- The machine's own `Cfg.FLIP` table. -/
opaque Config.openFlip : Vector Byte 256

/-- The machine's own exponents of `Cfg.QLO_INIT[4..15]`. -/
opaque Config.openQloExp : Vector (Fin 24) 12

/-- The machine's own exponents of `Cfg.QHI_INIT[1..9]`. -/
opaque Config.openQhiExp : Vector (Fin 24) 9

/-- The machine's own `Cfg.WB_WORDS`, less one. -/
opaque Config.openWbWordsPred : BitVec 32

/-- The machine's own `Cfg.ARENA_BUCKETS`. -/
opaque Config.openArena : Option Nat

/-- The contents of WB at power-on, unspecified (R39, U9), as any list of writes. -/
opaque Config.powerOnCells : List (Nat × Sample)

/-- The configuration of the machine that `State.reset` describes. -/
def Config.installed : Config :=
  { probPred := Config.openProbPred
    confirm := Config.openConfirm
    flip := Config.openFlip
    qloExp := Config.openQloExp
    qhiExp := Config.openQhiExp
    wbWordsPred := Config.openWbWordsPred
    arena := Config.openArena }

end Sys2Proof
end

