-- ==== Sys2Proof/Machine/Mem.lean ====
section
/-! DEFINITION. Memories as plain data: element-addressed memories in one canonical form (the
context memory, whose cells are `Host.Cell`, and the work buffer), and the partial map of buckets of
a coefficient store (R38). -/

namespace Sys2Proof.Machine

/-- A memory of `w`-bit elements: the elements that differ from 0, at strictly rising indices. An
unlisted index reads as 0, which is `Config.ctxInit` for contexts and, for the work buffer, only this
representation's convention, since the power-on contents list any samples (log entry 3). -/
abbrev Mem (w : Nat) := List (Nat × BitVec w)

/-- What an unlisted index reads as. -/
def Mem.unlisted (w : Nat) : BitVec w := 0

/-- One element. -/
def Mem.read {w : Nat} : Mem w → Nat → BitVec w
  | [], _ => Mem.unlisted w
  | (b, v) :: m, a => if b = a then v else Mem.read m a

/-- Write one element, keeping the canonical form. -/
def Mem.write {w : Nat} : Mem w → Nat → BitVec w → Mem w
  | [], a, v => if v = Mem.unlisted w then [] else [(a, v)]
  | (b, u) :: m, a, v =>
    if a < b then (if v = Mem.unlisted w then (b, u) :: m else (a, v) :: (b, u) :: m)
    else if a = b then (if v = Mem.unlisted w then m else (a, v) :: m)
    else (b, u) :: Mem.write m a v

/-- Write the elements of a list at the indices paired with them, in order. -/
def Mem.writeAll {w : Nat} (m : Mem w) (cells : List (Nat × BitVec w)) : Mem w :=
  cells.foldl (fun m c => m.write c.1 c.2) m

/-- The canonical memory of `limit` elements that a list of writes leaves. -/
def Mem.ofCells {w : Nat} (limit : Nat) (cells : List (Nat × BitVec w)) : Mem w :=
  Mem.writeAll [] (cells.filter fun c => decide (c.1 < limit))

/-- The canonical form of `m` from index `lo` up to `limit`. -/
def Mem.wfFrom {w : Nat} (limit : Nat) : Nat → Mem w → Bool
  | _, [] => true
  | lo, (a, v) :: m =>
    decide (lo ≤ a) && decide (a < limit) && decide (v ≠ Mem.unlisted w) &&
      Mem.wfFrom limit (a + 1) m

/-- The canonical form of a memory of `limit` elements: strictly rising indices below `limit`, no
element equal to what an unlisted index reads as. -/
def Mem.wf {w : Nat} (limit : Nat) (m : Mem w) : Bool := Mem.wfFrom limit 0 m

/-- Sixteen coefficients (R38). -/
abbrev Bucket := Vector Sample 16

/-- The allocated buckets of a store, by strictly rising key; the key of bucket `bk` of block `blk`
is `64 * blk + bk` (R38). A bucket of sixteen zeros is still allocated. -/
abbrev BucketMap := List (Nat × Bucket)

/-- A bucket of sixteen zeros (R204). -/
def zeroBucket : Bucket := Vector.replicate 16 0

/-- The bucket at a key, if it is allocated. -/
def BucketMap.find : BucketMap → Nat → Option Bucket
  | [], _ => none
  | (k, b) :: m, a => if k = a then some b else BucketMap.find m a

/-- Give the bucket at a key new contents, allocating it if it is not in the map. -/
def BucketMap.put : BucketMap → Nat → Bucket → BucketMap
  | [], a, v => [(a, v)]
  | (k, b) :: m, a, v =>
    if a < k then (a, v) :: (k, b) :: m
    else if a = k then (a, v) :: m
    else (k, b) :: BucketMap.put m a v

/-- Strictly rising keys from `lo` up to `limit`. -/
def BucketMap.wfFrom (limit : Nat) : Nat → BucketMap → Bool
  | _, [] => true
  | lo, (k, _) :: m => decide (lo ≤ k) && decide (k < limit) && BucketMap.wfFrom limit (k + 1) m

/-- The canonical form of a bucket map with keys below `limit`. -/
def BucketMap.wf (limit : Nat) (m : BucketMap) : Bool := BucketMap.wfFrom limit 0 m

end Sys2Proof.Machine
end

