-- ==== Sys2Proof/Machine/State.lean ====
section
/-! DEFINITION. The architectural state of one engine (R20), the reasons a step can stop, and the
state after power-on reset (R42, R291). State is plain data. -/

namespace Sys2Proof.Machine

/-- The mode of the ArithmeticCoder, AC_MODE (R31). Value 3 never occurs (U13). -/
inductive AcMode where
  /-- IDLE (0): no session is open. -/
  | idle
  /-- ENC (1): an encoding session is open. -/
  | enc
  /-- DEC (2): a decoding session is open. -/
  | dec
  deriving DecidableEq, Repr

/-- The ArithmeticCoder's registers (R29 to R31) and its byte streams (R40). -/
structure Coder where
  /-- AC_MODE, 2 bits. -/
  mode : AcMode
  /-- A: the low bound of the interval. -/
  a : BitVec 16
  /-- SUBEND: the part of the code value still in the window. -/
  subend : BitVec 16
  /-- BUFFER: the last 24 provisional code bits. -/
  buffer : BitVec 24
  /-- NRUN: undecided digits older than BUFFER, unbounded (D34). -/
  nrun : Nat
  /-- DELAY: leading bits still to be swallowed. -/
  delay : BitVec 8
  /-- OBYTE: bits collected for the next byte. -/
  obyte : BitVec 8
  /-- SCOUNT: how many bits OBYTE holds. -/
  scount : BitVec 3
  /-- CODE: the received code value in the window. -/
  code : BitVec 16
  /-- FENCE: below it no renormalisation is needed. -/
  fence : BitVec 16
  /-- IBUF: input bits read ahead. -/
  ibuf : BitVec 32
  /-- ISCOUNT: how many bits of IBUF are unread. -/
  iscount : BitVec 6
  /-- IN: the attached bytes. -/
  input : List Byte
  /-- INPOS: the index of the next byte of IN. -/
  inpos : Nat
  /-- OUT: the bytes produced. -/
  output : List Byte
  deriving DecidableEq, Repr

/-- The BitplaneCodec's schedule registers (R34, R35). -/
structure Schedule where
  /-- CURBIT: the current bit-plane. -/
  curbit : BitVec 8
  /-- CURBAND: the current subband, a 4-bit counter in 0..9. -/
  curband : Fin 10
  /-- DONE: the schedule has terminated. -/
  done : Bool
  /-- QLO[0..15]. -/
  qlo : Vector (BitVec 24) 16
  /-- QHI[1..9]; index `b - 1` holds QHI[b]. -/
  qhi : Vector (BitVec 24) 9
  deriving DecidableEq, Repr

/-- A coefficient store (R37, R38). NALLOC is the length of `buckets` (R38). -/
structure Store where
  /-- VALID. -/
  valid : Bool
  /-- IW: the logical width. -/
  iw : BitVec 16
  /-- IH: the logical height. -/
  ih : BitVec 16
  /-- BW: the width rounded up to a multiple of 32. -/
  bw : BitVec 17
  /-- BH: the height rounded up to a multiple of 32. -/
  bh : BitVec 17
  /-- NB: the number of blocks. -/
  nb : BitVec 23
  /-- The allocated buckets. -/
  buckets : BucketMap
  deriving DecidableEq, Repr

/-- One thing the host does at the engine's ports: issue a command word (R13), one of the four host
actions of R70, or a request on the reader port (R74). -/
inductive HostAction where
  /-- Issue a command word. -/
  | command (w : Word)
  /-- Attach an input stream. -/
  | attach (bytes : List Byte)
  /-- Take the output stream. -/
  | take
  /-- Read the status port. -/
  | readStatus
  /-- Read the P registers. -/
  | readRegisters
  /-- Ask the reader port for coefficient `n` of block `blk` of store `s`. -/
  | readCoefficient (s : Bool) (blk n : Nat)
  deriving DecidableEq, Repr

/-- What the ports last answered the host (R70, R74). The model's own record of what leaves the
engine; no command reads or writes it. -/
inductive Reply where
  /-- Nothing has been answered yet. -/
  | none
  /-- The action was refused (R70). -/
  | refused
  /-- The input was attached. -/
  | attached
  /-- The bytes *take* returned. -/
  | taken (bytes : List Byte)
  /-- FAULTED, FAULT, FAULTINFO. -/
  | status (faulted : Bool) (fault : BitVec 16) (info : Word)
  /-- P0 to P15. -/
  | registers (x : Vector Word 16)
  /-- The reader port's answer; nothing for a store that is not valid (R301). -/
  | coefficient (v : Option Sample)
  deriving DecidableEq, Repr

/-- The engine's faults (R261, R262). A fault is taken in the state (R270); it does not end a run. -/
inductive FaultKind where
  /-- FormatError, code 1; never raised by the engine (R261). -/
  | format
  /-- AllocationError, code 2. -/
  | allocation
  /-- LogicError, code 3, subcode 1: wrong AC mode. -/
  | logicMode
  /-- LogicError, code 3, subcode 2: store not valid, or already valid. -/
  | logicStore
  /-- LogicError, code 3, subcode 3: an operand value outside its domain. -/
  | logicOperand
  /-- IllegalCommand, code 4. -/
  | illegal
  /-- AddressError, code 5. -/
  | address
  deriving DecidableEq, Repr

/-- The reasons a step could stop with a fault of the model: none. Every fault of the engine is a
next state (R270), and every command has an effect in every state, so no constructor is needed and
nobody raises one. -/
inductive Fault : Type
  deriving DecidableEq, Repr

/-- The reasons a step could refuse. -/
inductive Refusal where
  /-- Raised by `exec` alone, for a command whose meaning is not written yet; safe. No arm of
  `exec` raises it: every command has its meaning. -/
  | notModelled (mnemonic : String)
  deriving DecidableEq, Repr

/-- The whole state (R20). `cfg`, `port` and `reply` are the model's own fields (log entries 1
and 4). -/
structure State where
  /-- The configuration record `Cfg` (R7); no step changes it. -/
  cfg : Config
  /-- P0 to P15 (R21). -/
  x : Vector Word 16
  /-- FAULTED (R27). -/
  faulted : Bool
  /-- FAULT: code in [7:0], subcode in [15:8] (R26, R27). -/
  fault : BitVec 16
  /-- FAULTINFO: the command word that faulted (R27). -/
  faultInfo : Word
  /-- The AC unit's registers and streams (R29 to R31, R40). -/
  coder : Coder
  /-- CTX, 256 context bytes (R33). -/
  ctx : Mem 8
  /-- The BPC unit's registers (R34, R35). -/
  sched : Schedule
  /-- Store CS0 (R37, R38). -/
  cs0 : Store
  /-- Store CS1 (R37, R38). -/
  cs1 : Store
  /-- WB, the work buffer (R39). -/
  wb : Mem 16
  /-- What the host does next, first thing first. -/
  port : List HostAction
  /-- What the ports last answered. -/
  reply : Reply
  deriving DecidableEq, Repr

/-- The coder after reset (R42). -/
def Coder.reset : Coder :=
  { mode := .idle, a := 0, subend := 0, buffer := 0, nrun := 0, delay := 0, obyte := 0,
    scount := 0, code := 0, fence := 0, ibuf := 0, iscount := 0, input := [], inpos := 0,
    output := [] }

/-- The schedule after reset and after BPC.INIT (R34, R35, R224). -/
def Schedule.initial (cfg : Config) : Schedule :=
  { curbit := 0, curband := 0, done := false, qlo := cfg.qloInit, qhi := cfg.qhiInit }

/-- A store after reset and after CS.DESTROY (R37, R206). -/
def Store.empty : Store :=
  { valid := false, iw := 0, ih := 0, bw := 0, bh := 0, nb := 0, buckets := [] }

/-- The state after reset of a machine with configuration `cfg` and work buffer `wb`, with the
ports as given (R42). -/
def State.resetWith (cfg : Config) (wb : Mem 16) (port : List HostAction) (reply : Reply) : State :=
  { cfg := cfg, x := Vector.replicate 16 0, faulted := false, fault := 0, faultInfo := 0,
    coder := Coder.reset, ctx := [], sched := Schedule.initial cfg, cs0 := Store.empty,
    cs1 := Store.empty, wb := wb, port := port, reply := reply }

/-- The state after power-on reset (R290, R291): WB is unspecified, the host has issued nothing. -/
def State.reset : State :=
  State.resetWith Config.installed (Mem.ofCells Config.installed.wbWords Config.powerOnCells) [] .none

end Sys2Proof.Machine
end

