-- ==== Sys2Proof/Machine/Ops.lean ====
section
/-! DEFINITION. The named operations every command is built from: the P registers, the parts of the
state, taking a fault (R270), the way back from one (R126, R269), and the common frame of a command's
execution (R97, R120). -/

namespace Sys2Proof.Machine

/-! ## P registers (R21) -/

/-- `x[r]`. -/
def State.reg (s : State) (r : RegNum) : Word := s.x[r.toNat]'r.isLt

/-- `x[r + k]`, the k-th register of a run (R21, R95). A run of a legal command never passes P15. -/
def State.regRun (s : State) (r : RegNum) (k : Nat) : Nat := (s.reg (r + BitVec.ofNat 4 k)).toNat

/-- `x[r] <- v`. -/
def State.setReg (s : State) (r : RegNum) (v : Word) : State :=
  { s with x := s.x.set r.toNat v r.isLt }

/-- The bit a source register carries: bit 0, bits 31:1 ignored (R150, U10). -/
def State.regBit (s : State) (r : RegNum) : Bool := (s.reg r).getLsbD 0

/-- A decoded bit as a register value: 0 or 1 (R161). -/
def bitWord (b : Bool) : Word := if b then 1 else 0

/-! ## Parts of the state -/

/-- The state with another coder. -/
def State.setCoder (s : State) (c : Coder) : State := { s with coder := c }

/-- The state with another context memory. -/
def State.setCtx (s : State) (m : Mem 8) : State := { s with ctx := m }

/-- `Ctx[c]` (R33). -/
def State.ctxAt (s : State) (c : Byte) : Byte := s.ctx.read c.toNat

/-- `Ctx[c] <- v` (R33). -/
def State.setCtxAt (s : State) (c : Byte) (v : Byte) : State := s.setCtx (s.ctx.write c.toNat v)

/-- The state with another schedule. -/
def State.setSched (s : State) (q : Schedule) : State := { s with sched := q }

/-- The state with another work buffer. -/
def State.setWb (s : State) (m : Mem 16) : State := { s with wb := m }

/-- Store CS0 or CS1 (R93, R200). -/
def State.store (s : State) (i : Bool) : Store := if i then s.cs1 else s.cs0

/-- The state with another store CS0 or CS1. -/
def State.setStore (s : State) (i : Bool) (st : Store) : State :=
  if i then { s with cs1 := st } else { s with cs0 := st }

/-- The state with another answer at the ports. -/
def State.setReply (s : State) (r : Reply) : State := { s with reply := r }

/-! ## Faults (R261, R262, R270) -/

/-- The fault code, FAULT[7:0] (R261). -/
def faultCode : FaultKind → BitVec 8
  | .format => 1
  | .allocation => 2
  | .logicMode => 3
  | .logicStore => 3
  | .logicOperand => 3
  | .illegal => 4
  | .address => 5

/-- The fault subcode, FAULT[15:8] (R262). -/
def faultSub : FaultKind → BitVec 8
  | .format => 0
  | .allocation => 0
  | .logicMode => 1
  | .logicStore => 2
  | .logicOperand => 3
  | .illegal => 0
  | .address => 0

/-- The value of FAULT: `code | (sub << 8)` (R270). -/
def faultWord (k : FaultKind) : BitVec 16 := faultSub k ++ faultCode k

/-- The fault entry sequence (R270): FAULT, FAULTINFO and FAULTED are written, nothing else is saved,
and there is no handler to go to. -/
def State.takeFault (s : State) (k : FaultKind) (w : Word) : State :=
  { s with faulted := true, fault := faultWord k, faultInfo := w }

/-- The effect of RESET (R126, R291), the only way out of a fault (R269): every piece of state takes
its reset value but WB, which is unchanged. The configuration and the ports are no state of the
engine. -/
def State.resetCommand (s : State) : State := State.resetWith s.cfg s.wb s.port s.reply

/-! ## The frame of a command (R97, R120) -/

/-- What a command's execution comes to: it ran to its end, or a fault stopped it in a state where
exactly the steps before the fault have taken effect (R265). -/
inductive Effect where
  /-- It ran to its end. -/
  | done (s : State)
  /-- A fault of this kind stopped it. -/
  | stop (k : FaultKind) (s : State)
  deriving DecidableEq, Repr

/-- Go on after an execution that ran to its end. -/
def Effect.andThen (e : Effect) (f : State → Effect) : Effect :=
  match e with
  | .done s => f s
  | .stop k s => .stop k s

/-- The fault of the first check that fails, in the order given (R97, R264). -/
def firstFault : List (Bool × FaultKind) → Option FaultKind
  | [] => none
  | (ok, k) :: cs => if ok then firstFault cs else some k

/-- What the execution of the command with word `w` leaves (R270). -/
def Effect.settle (e : Effect) (w : Word) : State :=
  match e with
  | .done s => s
  | .stop k s => s.takeFault k w

/-- Every command but RESET (R97, R120): refused without any change while FAULTED (R271); then
legality (R95), then the command's own checks of steps 3 to 5 in order, then its effect. -/
def runCommand (i : Instr) (s : State) (checks : List (Bool × FaultKind))
    (effect : State → Effect) : Host.Outcome State Fault Refusal :=
  if s.faulted then .next s
  else match firstFault ((i.wellFormed, .illegal) :: checks) with
    | some k => .next (s.takeFault k (encode i))
    | none => .next ((effect s).settle (encode i))

end Sys2Proof.Machine
end

