-- ==== Sys2Proof/Machine/Coder.lean ====
section
/-! DEFINITION. The helper procedures of the ArithmeticCoder (R143 to R163), on the coder's registers
and streams alone. Arithmetic is on unbounded integers, reduced where the spec reduces it (R10). -/

namespace Sys2Proof.Machine

/-- `Clamp(z)` (R143). -/
def clampSplit (z a : Nat) : Nat := min z (0x6000 + ((z + a) >>> 2))

/-! ## Encoder -/

/-- `EmitByte(b)` (R146). -/
def Coder.emitByte (c : Coder) (b : Byte) : Coder := { c with output := c.output ++ [b] }

/-- `OutBit(b)` (R145). -/
def Coder.outBit (c : Coder) (b : Bool) : Coder :=
  if 0 < c.delay.toNat then
    (if c.delay.toNat < 0xFF then { c with delay := c.delay - 1 } else c)
  else
    let obyte := (c.obyte <<< 1) ||| (if b then 1 else 0)
    if c.scount.toNat + 1 = 8 then { c.emitByte obyte with scount := 0, obyte := 0 }
    else { c with obyte := obyte, scount := c.scount + 1 }

/-- `repeat n times OutBit(b)`. -/
def Coder.outBits : Nat → Bool → Coder → Coder
  | 0, _, c => c
  | n + 1, b, c => Coder.outBits n b (c.outBit b)

/-- Release the run of undecided digits as `n` bits `b` and clear NRUN (R144). -/
def Coder.releaseRun (c : Coder) (b : Bool) : Coder :=
  { Coder.outBits c.nrun b c with nrun := 0 }

/-- `ZEmit(b)`, `b` in -2..1 (R144). Lean's `/` and `%` on `Int` by a positive number are the floor
and the non-negative remainder. -/
def Coder.zEmit (c : Coder) (b : Int) : Coder :=
  let t : Int := 2 * (c.buffer.toNat : Int) + b
  let top : Int := t / 2 ^ 24
  let c' := { c with buffer := BitVec.ofInt 24 t }
  if top = 1 then (c'.outBit true).releaseRun false
  else if top = -1 then (c'.outBit false).releaseRun true
  else { c' with nrun := c'.nrun + 1 }

/-- `EShift()` (R147) from working values `a` of A and `sub` of SUBEND, the latter of up to 17
bits. -/
def Coder.eShift (c : Coder) (a sub : Nat) : Coder :=
  { c.zEmit (1 - ((sub >>> 15 : Nat) : Int)) with
    a := BitVec.ofNat 16 (a <<< 1), subend := BitVec.ofNat 16 (sub <<< 1) }

/-- `EncMps(z)` (R148). -/
def Coder.encMps (c : Coder) (z : Nat) : Coder := c.eShift z c.subend.toNat

/-- `while A >= 0x8000: EShift()` (R149), at most `fuel` times; 16 doublings clear any 16-bit A. -/
def Coder.eShifts : Nat → Coder → Nat → Nat → Coder
  | 0, c, a, sub => { c with a := BitVec.ofNat 16 a, subend := BitVec.ofNat 16 sub }
  | fuel + 1, c, a, sub =>
    if 0x8000 ≤ a then
      let c' := c.eShift a sub
      Coder.eShifts fuel c' c'.a.toNat c'.subend.toNat
    else { c with a := BitVec.ofNat 16 a, subend := BitVec.ofNat 16 sub }

/-- `EncLps(z)` (R149). -/
def Coder.encLps (c : Coder) (z : Nat) : Coder :=
  let zc := 0x10000 - z
  Coder.eShifts 16 c (c.a.toNat + zc) (c.subend.toNat + zc)

/-- The interval part of AC.ENC (R150) for a table entry `prob` and a predicted value `mps`. -/
def Coder.encodeAdaptive (c : Coder) (prob : Nat) (mps bit : Bool) : Coder :=
  let z := c.a.toNat + prob
  if bit ≠ mps then c.encLps (clampSplit z c.a.toNat)
  else if 0x8000 ≤ z then c.encMps (clampSplit z c.a.toNat)
  else { c with a := BitVec.ofNat 16 z }

/-- The pass-through split (R151, R162). -/
def splitPass (a : Nat) : Nat := 0x8000 + (a >>> 1)

/-- The balanced split (R152, R163). -/
def splitBalanced (a : Nat) : Nat := 0x8000 + ((3 * a) >>> 3)

/-- AC.ENCP and AC.ENCB (R151, R152): bit 1 takes the side below the split `z`. -/
def Coder.encodeSplit (c : Coder) (z : Nat) (bit : Bool) : Coder :=
  if bit then c.encLps z else c.encMps z

/-- The registers AC.EINIT loads (R142). -/
def Coder.openEncoder (c : Coder) : Coder :=
  { c with a := 0, subend := 0, buffer := 0xFFFFFF, nrun := 0, delay := 25, obyte := 0,
           scount := 0, output := [], mode := .enc }

/-- The flush loop of AC.CLOSE (R153) on the working value `sub` of SUBEND: at most 26 turns, since
SUBEND is 0 after one turn and 24 more fill BUFFER with ones. -/
def Coder.flushTurns : Nat → Coder → Nat → Coder
  | 0, c, sub => { c with subend := BitVec.ofNat 16 sub }
  | fuel + 1, c, sub =>
    if c.buffer ≠ 0xFFFFFF ∨ sub ≠ 0 then
      Coder.flushTurns fuel (c.zEmit (1 - ((sub >>> 15 : Nat) : Int))) ((sub <<< 1) % 0x10000)
    else { c with subend := BitVec.ofNat 16 sub }

/-- `while SCOUNT > 0: OutBit(1)` (R153), at most `fuel` times. -/
def Coder.padByte : Nat → Coder → Coder
  | 0, c => c
  | fuel + 1, c => if 0 < c.scount.toNat then Coder.padByte fuel (c.outBit true) else c

/-- SUBEND as AC.CLOSE rounds it (R153). -/
def roundSubend (sub : Nat) : Nat :=
  if 0x8000 < sub then 0x10000 else if 0 < sub then 0x8000 else sub

/-- AC.CLOSE in ENC mode (R153). The padding takes at most 7 turns when DELAY is 0; the fuel also
covers a DELAY that still swallows. -/
def Coder.closeEncoder (c : Coder) : Coder :=
  let c1 := Coder.flushTurns 26 c (roundSubend c.subend.toNat)
  let c2 := (c1.outBit true).releaseRun false
  { Coder.padByte (c2.delay.toNat + 8) c2 with delay := 0xFF, mode := .idle }

/-! ## Decoder -/

/-- `NextByte()` (R157): past the end of IN it is `Cfg.FILL` and INPOS stays. -/
def Coder.nextByte (c : Coder) : Byte × Coder :=
  match c.input[c.inpos]? with
  | some b => (b, { c with inpos := c.inpos + 1 })
  | none => (Config.fill, c)

/-- `Preload()` (R158), at most `fuel` bytes; four are enough from any ISCOUNT. -/
def Coder.preload : Nat → Coder → Coder
  | 0, c => c
  | fuel + 1, c =>
    if c.iscount.toNat ≤ 24 then
      let (b, c') := c.nextByte
      Coder.preload fuel
        { c' with ibuf := (c'.ibuf <<< 8) ||| b.setWidth 32, iscount := c'.iscount + 8 }
    else c

/-- `FENCE <- min(CODE, 0x7FFF)`. -/
def Coder.setFence (c : Coder) : Coder :=
  { c with fence := BitVec.ofNat 16 (min c.code.toNat 0x7FFF) }

/-- The end of DecLps and DecMps (R159, R160): refill, then FENCE. -/
def Coder.refill (c : Coder) : Coder :=
  (if c.iscount.toNat < 16 then Coder.preload 4 c else c).setFence

/-- The number of leading 1 bits of the 16-bit value `a`, looking at `fuel` bits. -/
def leadingOnes : Nat → Nat → Nat
  | 0, _ => 0
  | fuel + 1, a => if 0x8000 ≤ a then leadingOnes fuel ((a <<< 1) % 0x10000) + 1 else 0

/-- Shift `sh` input bits into the window: the common body of DecLps and DecMps (R159, R160). -/
def Coder.shiftIn (c : Coder) (sh a code : Nat) : Coder :=
  let left := c.iscount.toNat - sh
  Coder.refill
    { c with
      iscount := BitVec.ofNat 6 left
      a := BitVec.ofNat 16 (a <<< sh)
      code := BitVec.ofNat 16
        ((code <<< sh) % 0x10000 ||| ((c.ibuf.toNat >>> left) &&& (2 ^ sh - 1))) }

/-- `DecLps(z)` (R159). -/
def Coder.decLps (c : Coder) (z : Nat) : Coder :=
  let zc := 0x10000 - z
  let a := c.a.toNat + zc
  c.shiftIn (leadingOnes 16 a) a (c.code.toNat + zc)

/-- `DecMps(z)` (R160). -/
def Coder.decMps (c : Coder) (z : Nat) : Coder := c.shiftIn 1 z c.code.toNat

/-- The interval part of AC.DEC (R161) for a table entry `prob` and a predicted value `mps`. -/
def Coder.decodeAdaptive (c : Coder) (prob : Nat) (mps : Bool) : Bool × Coder :=
  let z := c.a.toNat + prob
  if z ≤ c.fence.toNat then (mps, { c with a := BitVec.ofNat 16 z })
  else
    let z' := clampSplit z c.a.toNat
    if c.code.toNat < z' then (!mps, c.decLps z') else (mps, c.decMps z')

/-- AC.DECP and AC.DECB (R162, R163) at the split `z`. -/
def Coder.decodeSplit (c : Coder) (z : Nat) : Bool × Coder :=
  if c.code.toNat < z then (true, c.decLps z) else (false, c.decMps z)

/-- AC.DINIT (R156). -/
def Coder.openDecoder (c : Coder) : Coder :=
  let c0 := { c with inpos := 0, a := 0 }
  let (hi, c1) := c0.nextByte
  let (lo, c2) := c1.nextByte
  let c3 := Coder.preload 4 { c2 with code := hi ++ lo, ibuf := 0, iscount := 0 }
  { c3.setFence with mode := .dec }

/-! ## Coding calls on the state, shared by the AC commands and BPC.SLICE -/

/-- AC.ENC's pseudocode (R150) for a given bit: the interval, then the context (R165). -/
def State.encodeCtx (s : State) (c : Byte) (bit : Bool) : State :=
  let k := s.ctxAt c
  let mps := k.getLsbD 0
  (s.setCoder (s.coder.encodeAdaptive (s.cfg.prob k) mps bit)).setCtxAt c
    (s.cfg.adapt k (bit == mps))

/-- AC.DEC's pseudocode (R161) without the write of `x[rd]`. -/
def State.decodeCtx (s : State) (c : Byte) : Bool × State :=
  let k := s.ctxAt c
  let mps := k.getLsbD 0
  let r := s.coder.decodeAdaptive (s.cfg.prob k) mps
  (r.1, (s.setCoder r.2).setCtxAt c (s.cfg.adapt k (r.1 == mps)))

/-- AC.ENCP's pseudocode (R151). -/
def State.encodePass (s : State) (bit : Bool) : State :=
  s.setCoder (s.coder.encodeSplit (splitPass s.coder.a.toNat) bit)

/-- AC.DECP's pseudocode (R162) without the write of `x[rd]`. -/
def State.decodePass (s : State) : Bool × State :=
  let r := s.coder.decodeSplit (splitPass s.coder.a.toNat)
  (r.1, s.setCoder r.2)

/-- AC.ENCB's pseudocode (R152). -/
def State.encodeBalanced (s : State) (bit : Bool) : State :=
  s.setCoder (s.coder.encodeSplit (splitBalanced s.coder.a.toNat) bit)

/-- AC.DECB's pseudocode (R163) without the write of `x[rd]`. -/
def State.decodeBalanced (s : State) : Bool × State :=
  let r := s.coder.decodeSplit (splitBalanced s.coder.a.toNat)
  (r.1, s.setCoder r.2)

end Sys2Proof.Machine
end

