-- ==== Sys2Proof/Machine/ArithmeticCoder.lean ====
section
/-! DEFINITION. The commands of the ArithmeticCoder unit (R140 to R163). -/

namespace Sys2Proof.Machine

/-- The coder is in a mode that the command accepts, else LogicError 1 (R140). -/
def modeCheck (s : State) (m : AcMode) : Bool × FaultKind :=
  (decide (s.coder.mode = m), .logicMode)

/-- `AC.EINIT` (R142). -/
def execAcEinit (s : State) : Host.Outcome State Fault Refusal :=
  runCommand .acEinit s [modeCheck s .idle] fun s => .done (s.setCoder s.coder.openEncoder)

/-- `AC.DINIT` (R156). -/
def execAcDinit (s : State) : Host.Outcome State Fault Refusal :=
  runCommand .acDinit s [modeCheck s .idle] fun s => .done (s.setCoder s.coder.openDecoder)

/-- `AC.ENC rd, ctx` (R150). -/
def execAcEnc (rd : RegNum) (ctx : Byte) (s : State) : Host.Outcome State Fault Refusal :=
  runCommand (.acEnc rd ctx) s [modeCheck s .enc] fun s => .done (s.encodeCtx ctx (s.regBit rd))

/-- `AC.DEC rd, ctx` (R161). -/
def execAcDec (rd : RegNum) (ctx : Byte) (s : State) : Host.Outcome State Fault Refusal :=
  runCommand (.acDec rd ctx) s [modeCheck s .dec] fun s =>
    let r := s.decodeCtx ctx
    .done (r.2.setReg rd (bitWord r.1))

/-- `AC.ENCP rd` (R151). -/
def execAcEncp (rd : RegNum) (s : State) : Host.Outcome State Fault Refusal :=
  runCommand (.acEncp rd) s [modeCheck s .enc] fun s => .done (s.encodePass (s.regBit rd))

/-- `AC.DECP rd` (R162). -/
def execAcDecp (rd : RegNum) (s : State) : Host.Outcome State Fault Refusal :=
  runCommand (.acDecp rd) s [modeCheck s .dec] fun s =>
    let r := s.decodePass
    .done (r.2.setReg rd (bitWord r.1))

/-- `AC.ENCB rd` (R152). -/
def execAcEncb (rd : RegNum) (s : State) : Host.Outcome State Fault Refusal :=
  runCommand (.acEncb rd) s [modeCheck s .enc] fun s => .done (s.encodeBalanced (s.regBit rd))

/-- `AC.DECB rd` (R163). -/
def execAcDecb (rd : RegNum) (s : State) : Host.Outcome State Fault Refusal :=
  runCommand (.acDecb rd) s [modeCheck s .dec] fun s =>
    let r := s.decodeBalanced
    .done (r.2.setReg rd (bitWord r.1))

/-- What AC.CLOSE does to the coder (R153): in ENC mode a flush, in DEC mode only the mode. -/
def Coder.close (c : Coder) : Coder :=
  match c.mode with
  | .enc => c.closeEncoder
  | .dec => { c with mode := .idle }
  | .idle => c

/-- `AC.CLOSE` (R153). -/
def execAcClose (s : State) : Host.Outcome State Fault Refusal :=
  runCommand .acClose s [(decide (s.coder.mode ≠ .idle), .logicMode)] fun s =>
    .done (s.setCoder s.coder.close)

end Sys2Proof.Machine
end

