-- ==== Sys2Proof/Machine/Store.lean ====
section
/-! DEFINITION. The coefficient primitives and the geometry of the CoefficientStore (R201 to R205). -/

namespace Sys2Proof.Machine

/-- NALLOC: the number of allocated buckets (R38). -/
def Store.nalloc (st : Store) : Nat := st.buckets.length

/-- The key of the bucket that holds coefficient `n` of block `blk` (R38, R102). -/
def bucketKeyOf (blk n : Nat) : Nat := 64 * blk + n / 16

/-- The position of coefficient `n` in its bucket (R102). -/
def posOf (n : Nat) : Fin 16 := ⟨n % 16, Nat.mod_lt n (by decide)⟩

/-- `CoefRead(s, blk, n)` (R203). -/
def Store.coefRead (st : Store) (blk n : Nat) : Sample :=
  match st.buckets.find (bucketKeyOf blk n) with
  | some b => b[posOf n]
  | none => 0

/-- `CoefRead` as a mathematical value. -/
def Store.coefInt (st : Store) (blk n : Nat) : Int := (st.coefRead blk n).toInt

/-- `Cfg.ARENA_BUCKETS` as the store meets it (R7, R204): the configured number, else `64 * NB`. -/
def Store.arenaLimit (cfg : Config) (st : Store) : Nat := cfg.arena.getD (64 * st.nb.toNat)

/-- `CoefWrite(s, blk, n, v)` (R204): `none` is AllocationError with nothing written. -/
def Store.coefWrite (cfg : Config) (st : Store) (blk n : Nat) (v : Sample) : Option Store :=
  match st.buckets.find (bucketKeyOf blk n) with
  | some b => some { st with buckets := st.buckets.put (bucketKeyOf blk n) (b.set (posOf n) v) }
  | none =>
    if st.arenaLimit cfg ≤ st.nalloc then none
    else some
      { st with buckets := st.buckets.put (bucketKeyOf blk n) (zeroBucket.set (posOf n) v) }

/-- `CoefWrite` on store `i` of the state, with the fault it may raise. -/
def State.coefWrite (s : State) (i : Bool) (blk n : Nat) (v : Sample) : Effect :=
  match (s.store i).coefWrite s.cfg blk n v with
  | some st => .done (s.setStore i st)
  | none => .stop .allocation s

/-- `ceil(n / 32)`. -/
def blocksAcross (n : Nat) : Nat := (n + 31) / 32

/-- The store CS.CREATE makes (R201, R205). -/
def Store.create (w h : Nat) : Store :=
  { valid := true
    iw := BitVec.ofNat 16 w
    ih := BitVec.ofNat 16 h
    bw := BitVec.ofNat 17 (32 * blocksAcross w)
    bh := BitVec.ofNat 17 (32 * blocksAcross h)
    nb := BitVec.ofNat 23 (blocksAcross w * blocksAcross h)
    buckets := [] }

/-- Bit `i` of `n` as a number. -/
def bitOf (n i : Nat) : Nat := (n >>> i) % 2

/-- `col(n)` (R202): the even bits of `n`, low to high, are the column's bits high to low. -/
def zigzagCol (n : Nat) : Nat :=
  bitOf n 0 * 16 + bitOf n 2 * 8 + bitOf n 4 * 4 + bitOf n 6 * 2 + bitOf n 8

/-- `row(n)` (R202): the odd bits of `n`, low to high, are the row's bits high to low. -/
def zigzagRow (n : Nat) : Nat :=
  bitOf n 1 * 16 + bitOf n 3 * 8 + bitOf n 5 * 4 + bitOf n 7 * 2 + bitOf n 9

/-- The index in WB of coefficient `n` of block `blk`, for a rectangle at `base` with row stride
`rs` (R201, R202, R207, R209). -/
def Store.sampleIndex (st : Store) (base rs blk n : Nat) : Nat :=
  let across := st.bw.toNat / 32
  base + (32 * (blk / across) + zigzagRow n) * rs + 32 * (blk % across) + zigzagCol n

end Sys2Proof.Machine
end

