-- ==== Sys2Proof/Machine/Operands.lean ====
section
/-! DEFINITION. Operand forms: the five memory spaces LD and ST reach (R60 to R66), the CSR space
(R26, R63), and the rectangles and planes of the work buffer (R181, R189, R207). -/

namespace Sys2Proof.Machine

/-- A count as a CSR shows it: saturated at `2^32 - 1` (R26, U18). -/
def saturate32 (n : Nat) : Word := BitVec.ofNat 32 (min n (2 ^ 32 - 1))

/-- The value of a one-bit field. -/
def flagBit (b : Bool) : BitVec 1 := if b then 1 else 0

/-- AC_MODE's two bits (R26, R31). -/
def modeBits : AcMode → BitVec 2
  | .idle => 0
  | .enc => 1
  | .dec => 2

/-- STATUS (R26). -/
def State.status (s : State) : Word :=
  (0 : BitVec 26) ++ flagBit s.faulted ++ flagBit s.cs1.valid ++ flagBit s.cs0.valid ++
    flagBit s.sched.done ++ modeBits s.coder.mode

/-- The CSRs of one store, by their distance from the first (R26). -/
def Store.csr (st : Store) (k : Nat) : Option Word :=
  match k with
  | 0 => some (st.iw.setWidth 32)
  | 1 => some (st.ih.setWidth 32)
  | 2 => some (st.bw.setWidth 32)
  | 3 => some (st.bh.setWidth 32)
  | 4 => some (st.nb.setWidth 32)
  | 5 => some (BitVec.ofNat 32 st.nalloc)
  | _ => none

/-- The AC unit's CSRs, by their distance from 0x10 (R26). -/
def Coder.csr (c : Coder) (k : Nat) : Option Word :=
  match k with
  | 0 => some (c.a.setWidth 32)
  | 1 => some (c.subend.setWidth 32)
  | 2 => some (c.buffer.setWidth 32)
  | 3 => some (saturate32 c.nrun)
  | 4 => some (c.delay.setWidth 32)
  | 5 => some (c.obyte.setWidth 32)
  | 6 => some (c.scount.setWidth 32)
  | 7 => some (c.code.setWidth 32)
  | 8 => some (c.fence.setWidth 32)
  | 9 => some c.ibuf
  | 10 => some (c.iscount.setWidth 32)
  | 11 => some (saturate32 c.inpos)
  | 12 => some (saturate32 c.output.length)
  | _ => none

/-- The schedule's CSRs, by their address (R26): CURBIT, CURBAND, QLO, QHI. -/
def Schedule.csr (q : Schedule) (a : Nat) : Option Word :=
  if a = 0x20 then some (q.curbit.setWidth 32)
  else if a = 0x21 then some (BitVec.ofNat 32 q.curband.val)
  else if 0x30 ≤ a then
    if a < 0x40 then (q.qlo[a - 0x30]?).map fun t => t.setWidth 32
    else if 0x41 ≤ a then (q.qhi[a - 0x41]?).map fun t => t.setWidth 32
    else none
  else none

/-- A read of space CSR (R26, R63): `none` where the address is not a register. -/
def State.csrRead (s : State) (a : Nat) : Option Word :=
  if a = 0x00 then some s.status
  else if a = 0x01 then some (s.fault.setWidth 32)
  else if a = 0x02 then some s.faultInfo
  else if a < 0x10 then none
  else if a < 0x20 then s.coder.csr (a - 0x10)
  else if a < 0x50 then s.sched.csr a
  else if a < 0x58 then s.cs0.csr (a - 0x50)
  else s.cs1.csr (a - 0x58)

/-- The number of coefficients a store's space has (R60). -/
def Store.elements (st : Store) : Nat := if st.valid then 1024 * st.nb.toNat else 0

/-- A read of space CS0 or CS1 (R62). -/
def Store.spaceRead (st : Store) (a : Nat) : Option Word :=
  if a < st.elements then some ((st.coefRead (a / 1024) (a % 1024)).signExtend 32) else none

/-- `MemRead(sp, a)` (R62): `none` is AddressError. A reserved space number is refused before
(R95) and has no elements. -/
def State.memRead (s : State) (sp : BitVec 4) (a : Nat) : Option Word :=
  match sp.toNat with
  | 0 => s.csrRead a
  | 1 => if a < 256 then some ((s.ctx.read a).setWidth 32) else none
  | 2 => if a < s.cfg.wbWords then some ((s.wb.read a).signExtend 32) else none
  | 3 => s.cs0.spaceRead a
  | 4 => s.cs1.spaceRead a
  | _ => none

/-- A write of space CS0 or CS1 (R62). -/
def State.storeSpaceWrite (s : State) (i : Bool) (a : Nat) (v : Word) : Effect :=
  if a < (s.store i).elements then s.coefWrite i (a / 1024) (a % 1024) (v.setWidth 16)
  else .stop .address s

/-- `MemWrite(sp, a, v)` (R62). -/
def State.memWrite (s : State) (sp : BitVec 4) (a : Nat) (v : Word) : Effect :=
  match sp.toNat with
  | 1 => if a < 256 then .done (s.setCtx (s.ctx.write a (v.setWidth 8))) else .stop .address s
  | 2 =>
    if a < s.cfg.wbWords then .done (s.setWb (s.wb.write a (v.setWidth 16)))
    else .stop .address s
  | 3 => s.storeSpaceWrite false a v
  | 4 => s.storeSpaceWrite true a v
  | _ => .stop .address s

/-- The rectangle of `w` by `h` samples at `base` with row stride `rs` lies inside WB, computed
without wrap-around (R181, R207). -/
def State.rectInWb (s : State) (base w h rs : Nat) : Bool :=
  decide (base + (h - 1) * rs + w ≤ s.cfg.wbWords)

/-- A plane of `n` samples at `base` lies inside WB (R189). -/
def State.planeInWb (s : State) (base n : Nat) : Bool := decide (base + n ≤ s.cfg.wbWords)

end Sys2Proof.Machine
end

