-- ==== Sys2Proof/Machine/Flags.lean ====
section
/-! DEFINITION. Flags. The engine has no condition codes (R25); its flags are the coefficient state
flags of BPC.SLICE (R101, R222) with their aggregates, and the predicates on thresholds they are
computed from (R225 to R227). -/

namespace Sys2Proof.Machine

/-- A state: a set of the four flags (R101). -/
abbrev Flags := BitVec 4

/-- ZERO = 1 (R101). -/
def flagZero : Flags := 1

/-- ACTIVE = 2 (R101). -/
def flagActive : Flags := 2

/-- NEW = 4 (R101). -/
def flagNew : Flags := 4

/-- UNK = 8 (R101). -/
def flagUnk : Flags := 8

/-- `(f & g) != 0` (R222). -/
def Flags.has (f g : Flags) : Bool := f &&& g ≠ 0

/-- The OR of member states (R101, R222). -/
def Flags.union (fs : List Flags) : Flags := fs.foldl (· ||| ·) 0

/-- The first bucket of a subband (R103, R223). -/
def bandFirst (b : Fin 10) : Nat :=
  match b with
  | 0 => 0
  | 1 => 1
  | 2 => 2
  | 3 => 3
  | 4 => 4
  | 5 => 8
  | 6 => 12
  | 7 => 16
  | 8 => 32
  | 9 => 48

/-- The number of buckets of a subband (R103, R223). -/
def bandBuckets (b : Fin 10) : Nat :=
  match b with
  | 0 => 1
  | 1 => 1
  | 2 => 1
  | 3 => 1
  | 4 => 4
  | 5 => 4
  | 6 => 4
  | 7 => 16
  | 8 => 16
  | 9 => 16

/-- `thr(b, i)` (R225). -/
def Schedule.thr (q : Schedule) (b : Fin 10) (i : Fin 16) : Nat :=
  if h : b.val = 0 then q.qlo[i].toNat
  else (q.qhi[b.val - 1]'(by have := b.isLt; omega)).toNat

/-- A threshold is in range (R226). -/
def inRange (t : Nat) : Bool := decide (0 < t) && decide (t < 0x8000)

/-- The sixteen positions of a bucket, in order. -/
def positions : List (Fin 16) := [0, 1, 2, 3, 4, 5, 6, 7, 8, 9, 10, 11, 12, 13, 14, 15]

/-- `SliceEmpty(b)` (R227). All positions of a subband other than 0 share one threshold. -/
def Schedule.sliceEmpty (q : Schedule) (b : Fin 10) : Bool :=
  positions.all fun i => !inRange (q.thr b i)

/-- The store with the decoder-visible values, `T` of R221: CS1 when encoding, CS0 otherwise. -/
def State.targetIndex (s : State) : Bool := decide (s.coder.mode = .enc)

/-- The state of one coefficient as prepared (R232, R233): the same in both directions but for the
test of the source, which only an encoder has. -/
def State.prepareCoef (s : State) (b : Fin 10) (blk n : Nat) (i : Fin 16) : Flags :=
  let t := s.sched.thr b i
  if b = 0 ∧ inRange t = false then flagZero
  else if (s.store s.targetIndex).coefInt blk n ≠ 0 then flagActive
  else if s.coder.mode = .enc ∧ t ≤ (s.cs0.coefInt blk n).natAbs then flagNew ||| flagUnk
  else flagUnk

end Sys2Proof.Machine
end

