-- ==== Sys2Proof/Machine/BitplaneCodec.lean ====
section
/-! DEFINITION. The BitplaneCodec unit: BPC.INIT and BPC.SLICE (R220 to R247). -/

namespace Sys2Proof.Machine

/-! ## BPC.INIT (R224) -/

/-- The BPC unit's contexts, `Ctx[0..111]`, at their initial value (R109, R224). -/
def clearBpcContexts (m : Mem 8) : Mem 8 :=
  m.writeAll ((List.range 112).map fun c => (c, Config.ctxInit))

/-- `BPC.INIT` (R224). -/
def execBpcInit (s : State) : Host.Outcome State Fault Refusal :=
  runCommand .bpcInit s [] fun s =>
    .done ((s.setSched (Schedule.initial s.cfg)).setCtx (clearBpcContexts s.ctx))

/-! ## The schedule (R228, R229) -/

/-- A vector with every entry halved. -/
def halveAll {n : Nat} (v : Vector (BitVec 24) n) : Vector (BitVec 24) n :=
  ⟨(v.toList.map fun t : BitVec 24 => t >>> 1).toArray, by simp⟩

/-- The halving step of R228: all of QLO for subband 0, else the one `QHI[b]`. -/
def Schedule.halve (q : Schedule) (b : Fin 10) : Schedule :=
  if h : b.val = 0 then { q with qlo := halveAll q.qlo }
  else
    have hb : b.val - 1 < 9 := by have := b.isLt; omega
    { q with qhi := q.qhi.set (b.val - 1) (q.qhi[b.val - 1] >>> 1) hb }

/-- Every threshold is zero (R228, R229). -/
def Schedule.exhausted (q : Schedule) : Bool :=
  q.qlo.toList.all (fun t => t == 0) && q.qhi.toList.all (fun t => t == 0)

/-- The position after (CURBIT, CURBAND) (R228). -/
def Schedule.nextPosition (q : Schedule) : Schedule :=
  if h : q.curband.val + 1 < 10 then { q with curband := ⟨q.curband.val + 1, h⟩ }
  else { q with curband := 0, curbit := q.curbit + 1 }

/-- `Advance(b)` (R228). -/
def Schedule.advance (q : Schedule) (b : Fin 10) : Schedule :=
  let q' := (q.halve b).nextPosition
  { q' with done := q'.done || q'.exhausted }

/-! ## Coding one block (R230 to R241) -/

/-- The kind of a Code call (R230): adaptive on a context, or balanced. -/
inductive CodeKind where
  /-- `A`, on the context at this CTX address. -/
  | adaptive (c : Nat)
  /-- `B`. -/
  | balanced
  deriving DecidableEq, Repr

/-- `Code(kind, c, b)` (R230): the bit coded and the state after. BPC.SLICE does not run in IDLE
(R246), where this codes nothing. -/
def State.code (s : State) (k : CodeKind) (b : Bool) : Bool × State :=
  match s.coder.mode, k with
  | .enc, .adaptive c => (b, s.encodeCtx (BitVec.ofNat 8 c) b)
  | .enc, .balanced => (b, s.encodeBalanced b)
  | .dec, .adaptive c => s.decodeCtx (BitVec.ofNat 8 c)
  | .dec, .balanced => s.decodeBalanced
  | .idle, _ => (b, s)

/-- The working state of one bucket inside a block (R36): its number `B(bk)`, the states of its
coefficients as prepared, and its aggregate. -/
structure BucketWork where
  /-- `B(bk)` (R231). -/
  bucket : Nat
  /-- `cstate[bk]`, by position. -/
  cstate : Fin 16 → Flags
  /-- `bstate[bk]`. -/
  bstate : Flags

/-- `n(bk, i)` (R231). -/
def BucketWork.coef (w : BucketWork) (i : Fin 16) : Nat := 16 * w.bucket + i.val

/-- Prepare one bucket (R232, R233). -/
def State.prepareBucket (s : State) (b : Fin 10) (blk bk : Nat) : BucketWork :=
  let cs : Fin 16 → Flags := fun i => s.prepareCoef b blk (16 * bk + i.val) i
  { bucket := bk, cstate := cs, bstate := Flags.union (positions.map cs) }

/-- Prepare the subband's buckets of a block (R232, R233). -/
def State.prepare (s : State) (b : Fin 10) (blk : Nat) : List BucketWork :=
  (List.range (bandBuckets b)).map fun bk => s.prepareBucket b blk (bandFirst b + bk)

/-- The root bit (R234), on `Ctx[0]`: the block aggregate and the state after. -/
def State.rootBit (s : State) (b : Fin 10) (bb : Flags) : Flags × State :=
  if bandBuckets b < 16 ∨ Flags.has bb flagActive then (bb ||| flagNew, s)
  else if Flags.has bb flagUnk then
    let r := s.code (.adaptive 0) (Flags.has bb flagNew)
    (if r.1 then bb ||| flagNew else bb, r.2)
  else (bb, s)

/-- `BucketKey(bk)` for bucket number `bk` (R236). -/
def State.bucketKey (s : State) (b : Fin 10) (blk bk : Nat) (bb : Flags) : Nat :=
  let t := s.store s.targetIndex
  let k := if b.val = 0 then 0
    else min ([0, 1, 2, 3].countP fun j => decide (t.coefInt blk (4 * bk + j) ≠ 0)) 3
  if Flags.has bb flagActive then k + 4 else k

/-- The bucket bits (R235), on `BUCKET[b][key]` (R109). -/
def State.bucketBits (b : Fin 10) (blk : Nat) (bb : Flags) :
    List BucketWork → State → List BucketWork × State
  | [], s => ([], s)
  | w :: ws, s =>
    if Flags.has w.bstate flagUnk then
      let r := s.code (.adaptive (32 + 8 * b.val + s.bucketKey b blk w.bucket bb))
        (Flags.has w.bstate flagNew)
      let rest := State.bucketBits b blk bb ws r.2
      ({ w with bstate := if r.1 then w.bstate ||| flagNew else w.bstate } :: rest.1, rest.2)
    else
      let rest := State.bucketBits b blk bb ws s
      (w :: rest.1, rest.2)

/-- `Activate(bk, i)` (R238) for coefficient `n` at threshold `t`. -/
def State.activate (s : State) (blk n t : Nat) : Effect :=
  let r := s.code .balanced (decide (s.cs0.coefInt blk n < 0))
  if s.coder.mode = .enc then
    r.2.coefWrite true blk n (wrap16 (t + t >>> 1 : Nat))
  else
    let h := t >>> 1
    let v : Int := (t : Int) + h - (h >>> 2 : Nat)
    r.2.coefWrite false blk n (wrap16 (if r.1 then -v else v))

/-- The positions of one newly active bucket (R237), on `START[c]` (R109). The flag that R237 adds to
`cstate` is read by nothing later in the block (R239 and R240 look at ACTIVE), so it is not kept. -/
def State.newCoefs (b : Fin 10) (blk : Nat) (w : BucketWork) :
    List (Fin 16) → Nat → State → Effect
  | [], _, s => .done s
  | i :: is, run, s =>
    if Flags.has (w.cstate i) flagUnk then
      let c := min run 7 + (if Flags.has w.bstate flagActive then 8 else 0)
      let r := s.code (.adaptive (16 + c)) (Flags.has (w.cstate i) flagNew)
      if r.1 then
        (r.2.activate blk (w.coef i) (s.sched.thr b i)).andThen (State.newCoefs b blk w is 0)
      else State.newCoefs b blk w is (run - 1) r.2
    else State.newCoefs b blk w is run s

/-- The initial value of `run` (R237): the undecided coefficients of the bucket. -/
def BucketWork.undecided (w : BucketWork) : Nat :=
  positions.countP fun i => Flags.has (w.cstate i) flagUnk

/-- The new-coefficient pass over the buckets of a block whose `bb` has NEW (R237). -/
def State.newPass (b : Fin 10) (blk : Nat) : List BucketWork → State → Effect
  | [], s => .done s
  | w :: ws, s =>
    (if Flags.has w.bstate flagNew then State.newCoefs b blk w positions w.undecided s
      else .done s).andThen (State.newPass b blk ws)

/-- Refine one coefficient, encoder (R239), on `Ctx[1]` or with the balanced coder (R241). -/
def State.refineEnc (s : State) (blk n t : Nat) : Effect :=
  let co : Int := (s.cs0.coefInt blk n).natAbs
  let ec := s.cs1.coefInt blk n
  let pix : Bool := decide (ec ≤ co)
  let r := s.code (if ec ≤ 3 * t then .adaptive 1 else .balanced) pix
  r.2.coefWrite true blk n (wrap16 (ec - (if pix then 0 else t) + (t >>> 1 : Nat)))

/-- Refine one coefficient, decoder (R240). -/
def State.refineDec (s : State) (blk n t : Nat) : Effect :=
  let v := s.cs0.coefInt blk n
  let co : Int := v.natAbs
  let close : Bool := decide (co ≤ 3 * t)
  let r := s.code (if close then .adaptive 1 else .balanced) false
  let co1 : Int := if close then co + (t >>> 2 : Nat) else co
  let co2 : Int := if r.1 then co1 + (t >>> 1 : Nat) else co1 - t + (t >>> 1 : Nat)
  r.2.coefWrite false blk n (wrap16 (if 0 < v then co2 else -co2))

/-- Refine the positions of one bucket that were ACTIVE at prepare (R239, R240). -/
def State.refineCoefs (b : Fin 10) (blk : Nat) (w : BucketWork) :
    List (Fin 16) → State → Effect
  | [], s => .done s
  | i :: is, s =>
    (if Flags.has (w.cstate i) flagActive then
      (if s.coder.mode = .enc then s.refineEnc blk (w.coef i) (s.sched.thr b i)
        else s.refineDec blk (w.coef i) (s.sched.thr b i))
      else .done s).andThen (State.refineCoefs b blk w is)

/-- The refinement pass over the buckets of a block whose `bb` has ACTIVE (R239, R240). -/
def State.refinePass (b : Fin 10) (blk : Nat) : List BucketWork → State → Effect
  | [], s => .done s
  | w :: ws, s =>
    (if Flags.has w.bstate flagActive then State.refineCoefs b blk w positions s
      else .done s).andThen (State.refinePass b blk ws)

/-- One block (R231): prepare, root bit, bucket bits, new-coefficient pass, refinement pass. -/
def State.codeBlock (b : Fin 10) (blk : Nat) (s : State) : Effect :=
  let ws := s.prepare b blk
  let r := s.rootBit b (Flags.union (ws.map (·.bstate)))
  let p := if Flags.has r.1 flagNew then State.bucketBits b blk r.1 ws r.2 else (ws, r.2)
  let e := if Flags.has r.1 flagNew then State.newPass b blk p.1 p.2 else .done p.2
  e.andThen fun s' => if Flags.has r.1 flagActive then State.refinePass b blk p.1 s' else .done s'

/-- Blocks in order (R231). -/
def State.codeBlocks (b : Fin 10) : List Nat → State → Effect
  | [], s => .done s
  | blk :: blks, s => (State.codeBlock b blk s).andThen (State.codeBlocks b blks)

/-! ## BPC.SLICE (R246, R247) -/

/-- The checks of BPC.SLICE, in order (R246). -/
def sliceChecks (s : State) : List (Bool × FaultKind) :=
  [(decide (s.coder.mode ≠ .idle), .logicMode),
   (s.cs0.valid && (decide (s.coder.mode ≠ .enc) || s.cs1.valid), .logicStore),
   (decide (s.coder.mode ≠ .enc) ||
      (decide (s.cs1.iw = s.cs0.iw) && decide (s.cs1.ih = s.cs0.ih)), .logicOperand)]

/-- The coding of the current slice, without the Advance (R246). -/
def State.codeSlice (s : State) : Effect :=
  if s.sched.sliceEmpty s.sched.curband then .done s
  else State.codeBlocks s.sched.curband (List.range s.cs0.nb.toNat) s

/-- The Advance and the result of BPC.SLICE (R228, R246, R247). -/
def State.finishSlice (rd : RegNum) (s : State) : State :=
  let q := s.sched.advance s.sched.curband
  (s.setSched q).setReg rd (bitWord (!q.done))

/-- `BPC.SLICE rd` (R246). -/
def execBpcSlice (rd : RegNum) (s : State) : Host.Outcome State Fault Refusal :=
  runCommand (.bpcSlice rd) s (sliceChecks s) fun s =>
    if s.sched.done then .done (s.setReg rd 0)
    else s.codeSlice.andThen fun s' => .done (State.finishSlice rd s')

end Sys2Proof.Machine
end

