-- ==== Sys2Proof/Machine/CoefficientStore.lean ====
section
/-! DEFINITION. The commands of the CoefficientStore (R205 to R209). -/

namespace Sys2Proof.Machine

/-- A dimension CS.CREATE accepts (R205). -/
def dimensionOk (n : Nat) : Bool := decide (0 < n) && decide (n ≤ 65535)

/-- `CS.CREATE s, ra` (R205). -/
def execCsCreate (i : Bool) (ra : RegNum) (s : State) : Host.Outcome State Fault Refusal :=
  runCommand (.csCreate i ra) s
    [(!(s.store i).valid, .logicStore),
     (dimensionOk (s.regRun ra 0) && dimensionOk (s.regRun ra 1), .logicOperand)] fun s =>
    .done (s.setStore i (Store.create (s.regRun ra 0) (s.regRun ra 1)))

/-- `CS.DESTROY s` (R206). -/
def execCsDestroy (i : Bool) (s : State) : Host.Outcome State Fault Refusal :=
  runCommand (.csDestroy i) s [((s.store i).valid, .logicStore)] fun s =>
    .done (s.setStore i Store.empty)

/-- The checks of CS.SCATTER and CS.GATHER, in order (R207, R209). -/
def moveChecks (s : State) (i : Bool) (ra : RegNum) : List (Bool × FaultKind) :=
  let st := s.store i
  [(st.valid, .logicStore),
   (decide (st.bw.toNat ≤ s.regRun ra 1), .logicOperand),
   (s.rectInWb (s.regRun ra 0) st.bw.toNat st.bh.toNat (s.regRun ra 1), .address)]

/-- Write coefficients of block `blk` in order, until one fails (R207). -/
def State.coefWrites (i : Bool) (blk : Nat) : List (Nat × Sample) → State → Effect
  | [], s => .done s
  | (n, v) :: cs, s => (s.coefWrite i blk n v).andThen (State.coefWrites i blk cs)

/-- One bucket of CS.SCATTER (R207): skipped if its samples are all zero and it is not allocated. -/
def State.scatterBucket (i : Bool) (base rs blk bk : Nat) (s : State) : Effect :=
  let st := s.store i
  let t := (List.range 16).map fun j =>
    (16 * bk + j, s.wb.read (st.sampleIndex base rs blk (16 * bk + j)))
  if (t.any fun c => decide (c.2 ≠ 0)) || (st.buckets.find (64 * blk + bk)).isSome then
    State.coefWrites i blk t s
  else .done s

/-- The buckets of CS.SCATTER by their number `64 * blk + bk`, in order (R207). -/
def State.scatterBuckets (i : Bool) (base rs : Nat) : List Nat → State → Effect
  | [], s => .done s
  | q :: qs, s =>
    (State.scatterBucket i base rs (q / 64) (q % 64) s).andThen (State.scatterBuckets i base rs qs)

/-- `CS.SCATTER s, ra` (R207). -/
def execCsScatter (i : Bool) (ra : RegNum) (s : State) : Host.Outcome State Fault Refusal :=
  runCommand (.csScatter i ra) s (moveChecks s i ra) fun s =>
    State.scatterBuckets i (s.regRun ra 0) (s.regRun ra 1)
      (List.range (64 * (s.store i).nb.toNat)) s

/-- The samples CS.GATHER writes, in order: coefficient number `1024 * blk + n` at its index
(R209). -/
def Store.gatherCells (st : Store) (base rs : Nat) : List (Nat × Sample) :=
  (List.range (1024 * st.nb.toNat)).map fun q =>
    (st.sampleIndex base rs (q / 1024) (q % 1024), st.coefRead (q / 1024) (q % 1024))

/-- `CS.GATHER s, ra` (R209). -/
def execCsGather (i : Bool) (ra : RegNum) (s : State) : Host.Outcome State Fault Refusal :=
  runCommand (.csGather i ra) s (moveChecks s i ra) fun s =>
    .done (s.setWb (s.wb.writeAll
      ((s.store i).gatherCells (s.regRun ra 0) (s.regRun ra 1))))

end Sys2Proof.Machine
end

