-- ==== Sys2Proof/Machine/System.lean ====
section
/-! DEFINITION. The system commands NOP, LI, LUI, LD, ST and RESET (R121 to R126). -/

namespace Sys2Proof.Machine

/-- `NOP` (R121). -/
def execNop (s : State) : Host.Outcome State Fault Refusal :=
  runCommand .nop s [] fun s => .done s

/-- `LI rd, imm16` (R122). -/
def execLi (rd : RegNum) (imm : BitVec 16) (s : State) : Host.Outcome State Fault Refusal :=
  runCommand (.li rd imm) s [] fun s => .done (s.setReg rd (imm.setWidth 32))

/-- `LUI rd, imm16` (R123). -/
def execLui (rd : RegNum) (imm : BitVec 16) (s : State) : Host.Outcome State Fault Refusal :=
  runCommand (.lui rd imm) s [] fun s =>
    .done (s.setReg rd (imm ++ (s.reg rd).extractLsb' 0 16))

/-- `LD rd, sp, (ra)` (R124). -/
def execLd (rd : RegNum) (sp : BitVec 4) (ra : RegNum) (s : State) :
    Host.Outcome State Fault Refusal :=
  runCommand (.ld rd sp ra) s [] fun s =>
    match s.memRead sp (s.reg ra).toNat with
    | some v => .done (s.setReg rd v)
    | none => .stop .address s

/-- `ST rd, sp, (ra)` (R125). -/
def execSt (rd : RegNum) (sp : BitVec 4) (ra : RegNum) (s : State) :
    Host.Outcome State Fault Refusal :=
  runCommand (.st rd sp ra) s [] fun s => s.memWrite sp (s.reg ra).toNat (s.reg rd)

/-- `RESET` (R126): the one command that FAULTED does not refuse (R271). -/
def execReset (s : State) : Host.Outcome State Fault Refusal :=
  .next s.resetCommand

end Sys2Proof.Machine
end

