-- ==== Sys2Proof/Machine/WaveletTransform.lean ====
section
/-! DEFINITION. The WaveletTransform unit (R180 to R192). A line is taken out of WB, lifted as a list,
and put back; the samples of a line have distinct indices, so this is the in-place procedure. -/

namespace Sys2Proof.Machine

/-! ## Lifting of one line (R182, R183) -/

/-- A line of samples. -/
abbrev Line := List Sample

/-- The sample at an index clamped to `lo..hi` (R182). -/
def Line.clamped (v : Line) (lo hi j : Int) : Int :=
  (v.getD (min (max j lo) hi).toNat 0).toInt

/-- `E(j)` (R182): the even samples, the nearest one replicated; the last even index is
`2 * ((K-1)/2)`. -/
def Line.evenAt (v : Line) (j : Int) : Int := Line.clamped v 0 (2 * ((v.length - 1) / 2) : Nat) j

/-- `O(j)` (R182): the odd samples, the nearest one replicated; the last odd index is
`2 * (K/2) - 1`. -/
def Line.oddAt (v : Line) (j : Int) : Int := Line.clamped v 1 ((2 * (v.length / 2) : Nat) - 1) j

/-- The prediction of odd sample `k` (R182). Lean's `/` by a positive number is the floor. -/
def Line.predict (v : Line) (k : Nat) : Int :=
  let k : Int := k
  (-(Line.evenAt v (k - 3)) + 9 * Line.evenAt v (k - 1) + 9 * Line.evenAt v (k + 1)
    - Line.evenAt v (k + 3) + 8) / 16

/-- What the update adds to even sample `k` (R182). -/
def Line.update (v : Line) (k : Nat) : Int :=
  let k : Int := k
  (Line.oddAt v (k - 1) + Line.oddAt v (k + 1) + 2) / 4

/-- Change the odd samples by `f`, which reads only even ones. -/
def Line.onOdd (v : Line) (f : Nat → Int) : Line :=
  v.mapIdx fun k x => if k % 2 = 1 then wrap16 (x.toInt + f k) else x

/-- Change the even samples by `f`, which reads only odd ones. -/
def Line.onEven (v : Line) (f : Nat → Int) : Line :=
  v.mapIdx fun k x => if k % 2 = 0 then wrap16 (x.toInt + f k) else x

/-- Forward lifting (R182): predict, then update. -/
def Line.forward (v : Line) : Line :=
  if v.length < 2 then v
  else
    let p := Line.onOdd v fun k => -(Line.predict v k)
    Line.onEven p fun k => Line.update p k

/-- Inverse lifting (R183): undo the update, then the predict. -/
def Line.inverse (v : Line) : Line :=
  if v.length < 2 then v
  else
    let u := Line.onEven v fun k => -(Line.update v k)
    Line.onOdd u fun k => Line.predict u k

/-! ## Passes (R184, R185) -/

/-- `ceil(n / s)`. -/
def ceilDiv (n s : Nat) : Nat := (n + s - 1) / s

/-- Lift the line whose `k`-th sample is at `index k`, `k < len`. -/
def liftLine (lift : Line → Line) (len : Nat) (index : Nat → Nat) (m : Mem 16) : Mem 16 :=
  let line := (List.range len).map fun k => m.read (index k)
  m.writeAll ((lift line).mapIdx fun k x => (index k, x))

/-- The rectangle of a WT command: base, width, height, row stride (R181). -/
structure Rect where
  /-- The index of sample (0, 0). -/
  base : Nat
  /-- The width. -/
  w : Nat
  /-- The height. -/
  h : Nat
  /-- The row stride. -/
  rs : Nat
  deriving DecidableEq, Repr

/-- The index of sample (x, y) (R181). -/
def Rect.index (r : Rect) (x y : Nat) : Nat := r.base + y * r.rs + x

/-- The horizontal pass at scale `s` (R184). -/
def horizontalPass (lift : Line → Line) (r : Rect) (s : Nat) (m : Mem 16) : Mem 16 :=
  (List.range (ceilDiv r.h s)).foldl
    (fun m y => liftLine lift (ceilDiv r.w s) (fun k => r.index (k * s) (y * s)) m) m

/-- The vertical pass at scale `s` (R185). -/
def verticalPass (lift : Line → Line) (r : Rect) (s : Nat) (m : Mem 16) : Mem 16 :=
  (List.range (ceilDiv r.w s)).foldl
    (fun m x => liftLine lift (ceilDiv r.h s) (fun k => r.index (x * s) (k * s)) m) m

/-- The scales from `lo` up to, not including, `hi`, both powers of two in 1..32, rising (R186). -/
def scales (lo hi : Nat) : List Nat :=
  [1, 2, 4, 8, 16].filter fun s => decide (lo ≤ s) && decide (s < hi)

/-- The passes of WT.FWD (R186): scales rising, horizontal before vertical. -/
def forwardTransform (r : Rect) (lo hi : Nat) (m : Mem 16) : Mem 16 :=
  (scales lo hi).foldl
    (fun m s => verticalPass Line.forward r s (horizontalPass Line.forward r s m)) m

/-- The passes of WT.BWD (R187): scales falling, vertical before horizontal. -/
def inverseTransform (r : Rect) (lo hi : Nat) (m : Mem 16) : Mem 16 :=
  (scales lo hi).reverse.foldl
    (fun m s => horizontalPass Line.inverse r s (verticalPass Line.inverse r s m)) m

/-- The operand block of WT.FWD and WT.BWD (R181). -/
def State.rectAt (s : State) (ra : RegNum) : Rect :=
  { base := s.regRun ra 0, w := s.regRun ra 1, h := s.regRun ra 2, rs := s.regRun ra 3 }

/-- A scale number is one of 1, 2, 4, 8, 16, 32 (R181). -/
def isScale (n : Nat) : Bool := decide (n ∈ [1, 2, 4, 8, 16, 32])

/-- The checks of WT.FWD and WT.BWD, in R181's order. -/
def scaleChecks (s : State) (ra : RegNum) (lo hi : Byte) : List (Bool × FaultKind) :=
  let r := s.rectAt ra
  [(isScale lo.toNat && isScale hi.toNat && decide (lo.toNat ≤ hi.toNat) && decide (r.w ≠ 0) &&
      decide (r.h ≠ 0) && decide (r.w ≤ r.rs), .logicOperand),
   (s.rectInWb r.base r.w r.h r.rs, .address)]

/-- `WT.FWD ra, begin, end` (R186). -/
def execWtFwd (ra : RegNum) (lo hi : Byte) (s : State) : Host.Outcome State Fault Refusal :=
  runCommand (.wtFwd ra lo hi) s (scaleChecks s ra lo hi) fun s =>
    .done (s.setWb (forwardTransform (s.rectAt ra) lo.toNat hi.toNat s.wb))

/-- `WT.BWD ra, begin, end` (R187). -/
def execWtBwd (ra : RegNum) (lo hi : Byte) (s : State) : Host.Outcome State Fault Refusal :=
  runCommand (.wtBwd ra lo hi) s (scaleChecks s ra lo hi) fun s =>
    .done (s.setWb (inverseTransform (s.rectAt ra) lo.toNat hi.toNat s.wb))

/-! ## Colour commands (R189 to R191) -/

/-- An RGB component as read from a sample: its low byte (R191). -/
def byteOfSample (v : Sample) : Byte := v.setWidth 8

/-- A YCbCr component as read from a sample: clamped to -128..127 (R190, R191). -/
def clampToByte (v : Sample) : Byte := BitVec.ofInt 8 (min (max v.toInt (-128)) 127)

/-- One iteration of the loop of R189 or R190 at offset `i`: read three samples, then write three. -/
def colourStep (f : Sample → Sample → Sample → Sample × Sample × Sample) (b0 b1 b2 : Nat)
    (m : Mem 16) (i : Nat) : Mem 16 :=
  let r := f (m.read (b0 + i)) (m.read (b1 + i)) (m.read (b2 + i))
  m.writeAll [(b0 + i, r.1), (b1 + i, r.2.1), (b2 + i, r.2.2)]

/-- The loop of R189 and R190: `i = 0 .. n-1` in order. -/
def colourLoop (f : Sample → Sample → Sample → Sample × Sample × Sample) (b0 b1 b2 n : Nat)
    (m : Mem 16) : Mem 16 :=
  (List.range n).foldl (colourStep f b0 b1 b2) m

/-- R189's body: low bytes in, signed bytes out, sign-extended into the sample (R191). -/
def rgbToYcc (r g b : Sample) : Sample × Sample × Sample :=
  let v := Config.rgb2ycc (byteOfSample r) (byteOfSample g) (byteOfSample b)
  (v.1.signExtend 16, v.2.1.signExtend 16, v.2.2.signExtend 16)

/-- R190's body: clamped signed bytes in, unsigned bytes out (R191). -/
def yccToRgb (y cb cr : Sample) : Sample × Sample × Sample :=
  let v := Config.ycc2rgb (clampToByte y) (clampToByte cb) (clampToByte cr)
  (v.1.setWidth 16, v.2.1.setWidth 16, v.2.2.setWidth 16)

/-- The checks of the colour commands: three planes inside WB (R189). -/
def planeChecks (s : State) (ra : RegNum) : List (Bool × FaultKind) :=
  let n := s.regRun ra 3
  [(s.planeInWb (s.regRun ra 0) n && s.planeInWb (s.regRun ra 1) n &&
      s.planeInWb (s.regRun ra 2) n, .address)]

/-- `WT.RGB2YCC ra` (R189). -/
def execWtRgb2ycc (ra : RegNum) (s : State) : Host.Outcome State Fault Refusal :=
  runCommand (.wtRgb2ycc ra) s (planeChecks s ra) fun s =>
    .done (s.setWb (colourLoop rgbToYcc (s.regRun ra 0) (s.regRun ra 1) (s.regRun ra 2)
      (s.regRun ra 3) s.wb))

/-- `WT.YCC2RGB ra` (R190). -/
def execWtYcc2rgb (ra : RegNum) (s : State) : Host.Outcome State Fault Refusal :=
  runCommand (.wtYcc2rgb ra) s (planeChecks s ra) fun s =>
    .done (s.setWb (colourLoop yccToRgb (s.regRun ra 0) (s.regRun ra 1) (s.regRun ra 2)
      (s.regRun ra 3) s.wb))

end Sys2Proof.Machine
end

