-- ==== Sys2Proof/Machine/Dispatch.lean ====
section
/-! DEFINITION. One arm per command. -/

namespace Sys2Proof.Machine

-- The meaning of a command in a state.
def exec (i : Instr) (s : State) : Host.Outcome State Fault Refusal :=
  match i with
  | .nop => Sys2Proof.Machine.execNop s
  | .li rd imm => Sys2Proof.Machine.execLi rd imm s
  | .lui rd imm => Sys2Proof.Machine.execLui rd imm s
  | .ld rd sp ra => Sys2Proof.Machine.execLd rd sp ra s
  | .st rd sp ra => Sys2Proof.Machine.execSt rd sp ra s
  | .reset => Sys2Proof.Machine.execReset s
  | .acEinit => Sys2Proof.Machine.execAcEinit s
  | .acDinit => Sys2Proof.Machine.execAcDinit s
  | .acEnc rd ctx => Sys2Proof.Machine.execAcEnc rd ctx s
  | .acDec rd ctx => Sys2Proof.Machine.execAcDec rd ctx s
  | .acEncp rd => Sys2Proof.Machine.execAcEncp rd s
  | .acDecp rd => Sys2Proof.Machine.execAcDecp rd s
  | .acEncb rd => Sys2Proof.Machine.execAcEncb rd s
  | .acDecb rd => Sys2Proof.Machine.execAcDecb rd s
  | .acClose => Sys2Proof.Machine.execAcClose s
  | .bpcInit => Sys2Proof.Machine.execBpcInit s
  | .bpcSlice rd => Sys2Proof.Machine.execBpcSlice rd s
  | .csCreate b ra => Sys2Proof.Machine.execCsCreate b ra s
  | .csDestroy b => Sys2Proof.Machine.execCsDestroy b s
  | .csScatter b ra => Sys2Proof.Machine.execCsScatter b ra s
  | .csGather b ra => Sys2Proof.Machine.execCsGather b ra s
  | .wtFwd ra lo hi => Sys2Proof.Machine.execWtFwd ra lo hi s
  | .wtBwd ra lo hi => Sys2Proof.Machine.execWtBwd ra lo hi s
  | .wtRgb2ycc ra => Sys2Proof.Machine.execWtRgb2ycc ra s
  | .wtYcc2rgb ra => Sys2Proof.Machine.execWtYcc2rgb ra s

end Sys2Proof.Machine
end

