-- ==== Sys2Proof/Machine/Port.lean ====
section
/-! DEFINITION. What the host does at the ports (R70, R74, R271), and how a command word reaches the
engine. -/

namespace Sys2Proof.Machine

/-- The host has done its first action: it leaves the port. -/
def State.popPort (s : State) : State := { s with port := s.port.tail }

/-- *attach*(bytes) (R70). -/
def State.attach (s : State) (bytes : List Byte) : State :=
  if s.coder.mode ≠ .dec ∧ s.faulted = false then
    (s.setCoder { s.coder with input := bytes, inpos := 0 }).setReply .attached
  else s.setReply .refused

/-- *take*() (R70). -/
def State.take (s : State) : State :=
  if s.coder.mode ≠ .enc then
    (s.setCoder { s.coder with output := [] }).setReply (.taken s.coder.output)
  else s.setReply .refused

/-- *read status* (R70, R271). -/
def State.readStatus (s : State) : State := s.setReply (.status s.faulted s.fault s.faultInfo)

/-- *read registers* (R70). -/
def State.readRegisters (s : State) : State := s.setReply (.registers s.x)

/-- A request on the reader port (R74, R301): no answer where the store is not valid or has no such
coefficient. -/
def State.readCoefficient (s : State) (i : Bool) (blk n : Nat) : State :=
  let st := s.store i
  s.setReply (.coefficient
    (if st.valid = true ∧ blk < st.nb.toNat ∧ n < 1024 then some (st.coefRead blk n) else none))

/-- A word that is no command: refused while FAULTED (R271), else IllegalCommand (R95, R96, R97). -/
def State.rejectWord (s : State) (w : Word) : State :=
  if s.faulted then s else s.takeFault .illegal w

/-- The state with a command word as the next thing the host does. -/
def State.offer (s : State) (w : Word) : State := { s with port := .command w :: s.port }

end Sys2Proof.Machine
end

