-- ==== Sys2Proof/Machine/Step.lean ====
section
/-! DEFINITION. One step: the host's next action at the ports (R13, R70). A command is one step
(R302). -/

namespace Sys2Proof.Machine

/-- Do the host's next action. With none, the engine waits (R292). A word that decodes is executed, and
`exec` refuses it while FAULTED (R97, R271); a word that does not is rejected. -/
def step (s : State) : Host.Outcome State Fault Refusal :=
  match s.port with
  | [] => .next s
  | .command w :: _ =>
    match decode w with
    | .ok i => exec i s.popPort
    | .error _ => .next (s.popPort.rejectWord w)
  | .attach bytes :: _ => .next (s.popPort.attach bytes)
  | .take :: _ => .next s.popPort.take
  | .readStatus :: _ => .next s.popPort.readStatus
  | .readRegisters :: _ => .next s.popPort.readRegisters
  | .readCoefficient i blk n :: _ => .next (s.popPort.readCoefficient i blk n)

/-- The state in which the host's next action is to issue the word with these bits. -/
def State.withFetchWord (s : State) (nbits w : Nat) : State := s.offer (tableWord nbits w)

end Sys2Proof.Machine
end

