-- ==== Sys2Proof/Safety.lean ====
section
/-! DEFINITION. The terms statements use: the invariants of the engine (the coder's bounds, R32; the
shape of the stores, R37 and R38; the canonical form of every memory; the place in the schedule, R34,
R35, R228 and R229; the fault record, R27 and R272), the tables of the encoding and of the faults (R92,
R95, R263), the numbers a coding session stands for (R71, R141), what a line of the transform becomes
(R182), and the Code calls of a slice with the values they leave (R225 to R242). -/

namespace Sys2Proof.Machine

/-- The byte assembler of an open encoding session (R29, R32): DELAY is at most 25, no bit is collected
while bits are still swallowed, and OBYTE holds exactly the SCOUNT bits collected. -/
def Coder.AssemblerOk (c : Coder) : Prop :=
  c.delay.toNat ≤ 25 ∧ (0 < c.delay.toNat → c.scount.toNat = 0) ∧
    c.obyte.toNat < 2 ^ c.scount.toNat

/-- The window of an open decoding session (R30, R32). -/
def Coder.WindowOk (c : Coder) : Prop :=
  c.a.toNat ≤ c.code.toNat ∧ c.fence.toNat = min c.code.toNat 0x7FFF ∧
    16 ≤ c.iscount.toNat ∧ c.iscount.toNat ≤ 32

/-- The bounds of the coder's registers at a command boundary (R32, R40). -/
def Coder.Bounded (c : Coder) : Prop :=
  c.a.toNat < 0x8000 ∧ c.inpos ≤ c.input.length ∧
    (c.mode = .enc → c.AssemblerOk) ∧ (c.mode = .dec → c.WindowOk)

/-- The shape of a store (R37, R38, R201, R205, R206): a valid store has dimensions 1 to 65535, the
geometry that follows from them and a canonical bucket map; any other store is empty. -/
def Store.WellShaped (st : Store) : Prop :=
  if st.valid = true then
    0 < st.iw.toNat ∧ 0 < st.ih.toNat ∧
      st.bw.toNat = 32 * blocksAcross st.iw.toNat ∧
      st.bh.toNat = 32 * blocksAcross st.ih.toNat ∧
      st.nb.toNat = blocksAcross st.iw.toNat * blocksAcross st.ih.toNat ∧
      st.buckets.wf (64 * st.nb.toNat) = true
  else st = Store.empty

/-- Every memory of the engine is canonical and inside its address space. -/
def State.MemoriesOk (s : State) : Prop :=
  s.ctx.wf 256 = true ∧ s.wb.wf s.cfg.wbWords = true ∧ s.cs0.WellShaped ∧ s.cs1.WellShaped

/-- No store holds more buckets than its arena has (R204, R261). -/
def State.ArenasOk (s : State) : Prop :=
  s.cs0.nalloc ≤ s.cs0.arenaLimit s.cfg ∧ s.cs1.nalloc ≤ s.cs1.arenaLimit s.cfg

/-- How many slices of subband `b` have been advanced over when the schedule stands at bit-plane
`curbit` and subband `curband` (R228). -/
def slicesOver (q : Schedule) (b : Nat) : Nat :=
  q.curbit.toNat + if b < q.curband.val then 1 else 0

/-- The thresholds are the initial ones halved once for each slice of their subband that is past, DONE
says that all are zero, and CURBIT is at most 24 (R34, R35, R228, R229). -/
def Schedule.OnCourse (cfg : Config) (q : Schedule) : Prop :=
  q.curbit.toNat ≤ 24 ∧
    (∀ i : Fin 16, q.qlo[i] = cfg.qloInit[i] >>> slicesOver q 0) ∧
    (∀ b : Fin 9, q.qhi[b] = cfg.qhiInit[b] >>> slicesOver q (b.val + 1)) ∧
    q.done = q.exhausted

/-- The fault record (R27, R261, R262, R272): nothing is recorded without a fault, and a recorded
fault is one of those the engine raises. -/
def State.FaultRecordOk (s : State) : Prop :=
  if s.faulted = true then
    s.fault ∈ ([0x0002, 0x0103, 0x0203, 0x0303, 0x0004, 0x0005] : List (BitVec 16))
  else s.fault = 0 ∧ s.faultInfo = 0

/-- The two states agree in everything but the P registers. -/
def State.SameButRegisters (s t : State) : Prop := t = { s with x := t.x }

/-- The two states agree in everything but the coder. -/
def State.SameButCoder (s t : State) : Prop := t = { s with coder := t.coder }

/-- The two states agree in everything but the coder and the context memory. -/
def State.SameButCoding (s t : State) : Prop := t = { s with coder := t.coder, ctx := t.ctx }

/-- The two states agree in everything but the work buffer. -/
def State.SameButWb (s t : State) : Prop := t = { s with wb := t.wb }

/-- The two stores have the same descriptor (R37). -/
def Store.SameDescriptor (a b : Store) : Prop := b = { a with buckets := b.buckets }

/-- The bucket `bk` of block `blk` is allocated (R38). -/
abbrev Store.Allocated (st : Store) (blk bk : Nat) : Prop :=
  (st.buckets.find (64 * blk + bk)).isSome = true

/-- `q'` is `q` after the Advance of R228. -/
def Schedule.AdvancedTo (q q' : Schedule) : Prop :=
  (∀ i : Fin 16, q'.qlo[i] = if q.curband = 0 then q.qlo[i] >>> 1 else q.qlo[i]) ∧
    (∀ b : Fin 9, q'.qhi[b] = if q.curband.val = b.val + 1 then q.qhi[b] >>> 1 else q.qhi[b]) ∧
    (if q.curband = 9 then q'.curband = 0 ∧ q'.curbit = q.curbit + 1
      else q'.curband.val = q.curband.val + 1 ∧ q'.curbit = q.curbit) ∧
    (q'.done = true ↔ q.done = true ∨
      ((∀ i : Fin 16, q'.qlo[i] = 0) ∧ ∀ b : Fin 9, q'.qhi[b] = 0))

/-! ## Tables -/

/-- The reserved bits of the format of an assigned opcode (R92, R94); nothing for an unassigned one. -/
def reservedBits (op : Nat) : Option Word :=
  if op ∈ [0x00, 0x0F, 0x10, 0x11, 0x18, 0x20] then some 0x00FFFFFF
  else if op ∈ [0x01, 0x02] then some 0x000F0000
  else if op ∈ [0x03, 0x04] then some 0x0000FFF0
  else if op ∈ [0x12, 0x13] then some 0x000FFF00
  else if op ∈ [0x14, 0x15, 0x16, 0x17, 0x21] then some 0x000FFFFF
  else if op ∈ [0x30, 0x32, 0x33] then some 0x00F0FFFE
  else if op = 0x31 then some 0x00FFFFFE
  else if op ∈ [0x40, 0x41] then some 0x00F00000
  else if op ∈ [0x42, 0x43] then some 0x00F0FFFF
  else none

/-- How many registers an opcode reads from `ra` on (R95); 0 where it reads no run. -/
def registerRun (op : Nat) : Nat :=
  if op ∈ [0x30, 0x32, 0x33] then 2 else if op ∈ [0x40, 0x41, 0x42, 0x43] then 4 else 0

/-- The faults a well-formed command can raise (R263). -/
def mayRaise : Instr → List FaultKind
  | .nop | .li _ _ | .lui _ _ | .reset | .bpcInit => []
  | .ld _ _ _ => [.address]
  | .st _ _ _ => [.address, .allocation]
  | .acEinit | .acDinit | .acEnc _ _ | .acEncp _ | .acEncb _ | .acDec _ _ | .acDecp _ | .acDecb _
  | .acClose => [.logicMode]
  | .bpcSlice _ => [.logicMode, .logicStore, .logicOperand, .allocation]
  | .csCreate _ _ => [.logicStore, .logicOperand]
  | .csDestroy _ => [.logicStore]
  | .csScatter _ _ => [.logicStore, .logicOperand, .address, .allocation]
  | .csGather _ _ => [.logicStore, .logicOperand, .address]
  | .wtFwd _ _ _ | .wtBwd _ _ _ => [.logicOperand, .address]
  | .wtRgb2ycc _ | .wtYcc2rgb _ => [.address]

/-! ## What a coding session stands for -/

/-- The bits of a byte, most significant first (R71). -/
def byteBits (b : Byte) : List Bool := [7, 6, 5, 4, 3, 2, 1, 0].map fun j => b.getLsbD j

/-- The low `n` bits of OBYTE, the first collected first (R145). -/
def collectedBits (obyte : BitVec 8) (n : Nat) : List Bool :=
  (List.range n).map fun j => obyte.getLsbD (n - 1 - j)

/-- The bits delivered so far: those of OUT and those collected for its next byte (R71, R145). -/
def Coder.delivered (c : Coder) : List Bool :=
  c.output.flatMap byteBits ++ collectedBits c.obyte c.scount.toNat

/-- The number a sequence of bits stands for when 1 is the digit 1 and 0 the digit -1 (R144). -/
def signedValue (bits : List Bool) : Int :=
  bits.foldl (fun v b => 2 * v + if b then 1 else -1) 0

/-- The code number of an encoder whose bits are no longer swallowed: the delivered bits, NRUN
undecided digits 0, BUFFER, and SUBEND, as one number (R141, R144, R147). -/
def Coder.codeNumber (c : Coder) : Int :=
  ((signedValue c.delivered * 2 ^ c.nrun) * 2 ^ 24 + (c.buffer.toNat : Int) + 1) * 2 ^ 16 -
    (c.subend.toNat : Int)

/-- Bit `j` of the input a decoder has not shifted into CODE: first the unread bits of IBUF, then IN from
INPOS on, then the bits of the fill (R30, R71, R157). -/
def Coder.unread (c : Coder) (j : Nat) : Bool :=
  if j < c.iscount.toNat then c.ibuf.getLsbD (c.iscount.toNat - 1 - j)
  else
    let i := j - c.iscount.toNat
    (c.input.getD (c.inpos + i / 8) Config.fill).getLsbD (7 - i % 8)

/-- The first `n` bits of what is unread, as a number. -/
def Coder.unreadNumber (c : Coder) (n : Nat) : Nat :=
  (List.range n).foldl (fun v j => 2 * v + (c.unread j).toNat) 0

/-- `m` doublings bring `a`, in 0x8000 to 0xFFFF, below 0x8000 and no fewer do: `m` is the number of its
leading ones (R149, R159). -/
def LeadingOnes (a m : Nat) : Prop :=
  1 ≤ m ∧ m ≤ 16 ∧ 0x10000 - 2 ^ (16 - m) ≤ a ∧ (m = 16 ∨ a < 0x10000 - 2 ^ (15 - m))

/-- `c'` is an encoder after `c`: the mode, IN and the decoder's registers stay, and OUT only grows. -/
def Coder.EncodesTo (c c' : Coder) : Prop :=
  c' = { c with a := c'.a, subend := c'.subend, buffer := c'.buffer, nrun := c'.nrun,
                delay := c'.delay, obyte := c'.obyte, scount := c'.scount, output := c'.output } ∧
    c.output <+: c'.output

/-- `c'` is the decoder `c` after `m` doublings of the interval `[a, 0x10000)` and of the code value
`code`: exactly the next `m` input bits are shifted in, FENCE and the read-ahead are renewed, and no
encoder register changes (R159, R160). -/
def Coder.DecodesTo (c c' : Coder) (m a code : Nat) : Prop :=
  c' = { c with a := c'.a, code := c'.code, fence := c'.fence, ibuf := c'.ibuf,
                iscount := c'.iscount, inpos := c'.inpos } ∧
    c'.a.toNat = a * 2 ^ m % 0x10000 ∧
    c'.code.toNat = code * 2 ^ m % 0x10000 + c.unreadNumber m ∧
    c'.fence.toNat = min c'.code.toNat 0x7FFF ∧
    ∀ j, c'.unread j = c.unread (j + m)

/-! ## What a line of the transform becomes -/

/-- `w` is the line `v` of `len` samples after forward lifting (R182): every odd sample is the residual of
its prediction from the even ones, every even sample has absorbed a quarter of its two neighbouring
residuals, the nearest sample of a phase standing in beyond the ends; a line of one stays. -/
def LiftsTo (len : Nat) (v w : Nat → Sample) : Prop :=
  let even := fun j : Int => (v (min (max j 0) (2 * ((len - 1) / 2) : Nat)).toNat).toInt
  let odd := fun j : Int => (w (min (max j 1) ((2 * (len / 2) : Nat) - 1)).toNat).toInt
  ∀ k : Nat, k < len → w k =
    if len < 2 then v k
    else wrap16 (
      if k % 2 = 1 then
        (v k).toInt - (-(even (k - 3)) + 9 * even (k - 1) + 9 * even (k + 1) - even (k + 3) + 8) / 16
      else (v k).toInt + (odd (k - 1) + odd (k + 1) + 2) / 4)

/-! ## What a slice codes

The calls of a slice are listed from the state before it and from the values of its bits, in closed form,
once for both directions: a call reads nothing that an earlier call of the slice has written but the
coder and the contexts. -/

/-- A Code call: its kind with its context, and the value of its bit (R230). -/
abbrev CodeCall := CodeKind × Bool

/-- The state after these Code calls in order, if each of them has the value listed (R230). -/
def State.codeAll : List CodeCall → State → Option State
  | [], s => some s
  | (k, bit) :: calls, s => if (s.code k bit).1 = bit then State.codeAll calls (s.code k bit).2 else none

/-- The values of the bits of a slice, by block, bucket number and coefficient number. -/
structure SliceBits where
  /-- The root bit of a block (R234). -/
  root : Nat → Bool
  /-- The bit of a bucket (R235). -/
  bucket : Nat → Nat → Bool
  /-- Whether a coefficient becomes nonzero (R237). -/
  announced : Nat → Nat → Bool
  /-- The sign of an announced coefficient, true for negative (R238). -/
  negative : Nat → Nat → Bool
  /-- The refinement bit of a coefficient (R239, R240). -/
  upper : Nat → Nat → Bool

/-- The first bucket and the number of buckets of each subband (R103, R223). -/
def bandTable : List (Nat × Nat) :=
  [(0, 1), (1, 1), (2, 1), (3, 1), (4, 4), (8, 4), (12, 4), (16, 16), (32, 16), (48, 16)]

/-- The bucket numbers of the current subband, rising. -/
def State.sliceBuckets (s : State) : List Nat :=
  let band := bandTable.getD s.sched.curband.val (0, 0)
  (List.range band.2).map (band.1 + ·)

/-- The threshold of coefficient `n` in the current slice (R225). -/
def State.sliceThr (s : State) (n : Nat) : Nat := s.sched.thr s.sched.curband (posOf n)

/-- The decoder-visible value of a coefficient (R221). -/
def State.visible (s : State) (blk n : Nat) : Int :=
  ((s.store (decide (s.coder.mode = .enc))).coefRead blk n).toInt

/-- The coefficient takes part in the slice: in subband 0 its threshold is in range (R226, R232). -/
def State.takesPart (s : State) (n : Nat) : Bool :=
  decide (s.sched.curband ≠ 0) || (decide (0 < s.sliceThr n) && decide (s.sliceThr n < 0x8000))

/-- The coefficient was announced before the slice: ACTIVE (R232, R233). -/
def State.isActive (s : State) (blk n : Nat) : Bool :=
  s.takesPart n && decide (s.visible blk n ≠ 0)

/-- The coefficient is undecided: UNK (R232, R233). -/
def State.isUnknown (s : State) (blk n : Nat) : Bool :=
  s.takesPart n && decide (s.visible blk n = 0)

/-- Some coefficient of the bucket has the property. -/
def anyInBucket (p : Nat → Bool) (bucket : Nat) : Bool :=
  (List.range 16).any fun i => p (16 * bucket + i)

/-- Some coefficient of the current subband has the property. -/
def State.anyInBlock (s : State) (p : Nat → Bool) : Bool := s.sliceBuckets.any (anyInBucket p)

/-- The bits an encoder codes in a slice, from its source (R232, R234, R235, R237 to R239). -/
def State.sourceBits (s : State) : SliceBits :=
  let source := fun blk n => (s.cs0.coefRead blk n).toInt
  let isNew := fun blk n =>
    s.isUnknown blk n && decide (s.sliceThr n ≤ (source blk n).natAbs)
  { root := fun blk => s.anyInBlock (isNew blk)
    bucket := fun blk bucket => anyInBucket (isNew blk) bucket
    announced := fun blk n => decide (s.sliceThr n ≤ (source blk n).natAbs)
    negative := fun blk n => decide (source blk n < 0)
    upper := fun blk n => decide (s.visible blk n ≤ |source blk n|) }

/-- The block goes on to its bucket bits (R234): the root bit is 1, or is not needed. -/
def State.goesOn (s : State) (bits : SliceBits) (blk : Nat) : Bool :=
  decide (s.sliceBuckets.length < 16) || s.anyInBlock (s.isActive blk) ||
    (s.anyInBlock (s.isUnknown blk) && bits.root blk)

/-- The root bit, on context 0, where it is needed (R234). -/
def State.rootCalls (s : State) (bits : SliceBits) (blk : Nat) : List CodeCall :=
  if s.sliceBuckets.length < 16 || s.anyInBlock (s.isActive blk) then []
  else if s.anyInBlock (s.isUnknown blk) then [(.adaptive 0, bits.root blk)]
  else []

/-- The key of a bucket's context (R236). -/
def State.sliceKey (s : State) (blk bucket : Nat) : Nat :=
  (if s.sched.curband = 0 then 0
    else min 3 ((List.range 4).countP fun j => decide (s.visible blk (4 * bucket + j) ≠ 0))) +
    if s.anyInBlock (s.isActive blk) then 4 else 0

/-- The bits of the buckets with an undecided coefficient, on BUCKET[b][key] (R109, R235). -/
def State.bucketCalls (s : State) (bits : SliceBits) (blk : Nat) : List CodeCall :=
  s.sliceBuckets.flatMap fun bucket =>
    if anyInBucket (s.isUnknown blk) bucket then
      [(.adaptive (32 + 8 * s.sched.curband.val + s.sliceKey blk bucket), bits.bucket blk bucket)]
    else []

/-- The run that keys the bit of position `i` of a bucket (R237): how many of its coefficients from `i`
on are undecided, but 0 once one of them has been announced. -/
def State.sliceRun (s : State) (bits : SliceBits) (blk bucket i : Nat) : Nat :=
  if (List.range i).any fun j =>
      s.isUnknown blk (16 * bucket + j) && bits.announced blk (16 * bucket + j) then 0
  else (List.range 16).countP fun j => decide (i ≤ j) && s.isUnknown blk (16 * bucket + j)

/-- The bits of the undecided coefficients of the buckets whose bit is 1, on START[run, flag] (R109,
R237), each 1 followed by its sign with the balanced coder (R238). -/
def State.announceCalls (s : State) (bits : SliceBits) (blk : Nat) : List CodeCall :=
  s.sliceBuckets.flatMap fun bucket =>
    if anyInBucket (s.isUnknown blk) bucket && bits.bucket blk bucket then
      (List.range 16).flatMap fun i =>
        let n := 16 * bucket + i
        if s.isUnknown blk n then
          (.adaptive (16 + min (s.sliceRun bits blk bucket i) 7 +
            if anyInBucket (s.isActive blk) bucket then 8 else 0), bits.announced blk n) ::
          if bits.announced blk n then [(.balanced, bits.negative blk n)] else []
        else []
    else []

/-- The value R241 compares with three thresholds: the shadow when encoding, the magnitude of the target
when decoding. -/
def State.refinedValue (s : State) (blk n : Nat) : Int :=
  if s.coder.mode = .enc then s.visible blk n else |s.visible blk n|

/-- The refinement bits of the coefficients announced before, on context 1 up to three thresholds and
with the balanced coder above (R239 to R241). -/
def State.refineCalls (s : State) (bits : SliceBits) (blk : Nat) : List CodeCall :=
  s.sliceBuckets.flatMap fun bucket =>
    (List.range 16).flatMap fun i =>
      let n := 16 * bucket + i
      if s.isActive blk n then
        [(if s.refinedValue blk n ≤ 3 * s.sliceThr n then .adaptive 1 else .balanced,
          bits.upper blk n)]
      else []

/-- No threshold of the current slice is in range (R227). -/
def State.sliceIsEmpty (s : State) : Bool :=
  (List.range 16).all fun n => !(decide (0 < s.sliceThr n) && decide (s.sliceThr n < 0x8000))

/-- The Code calls of the current slice, in order (R227, R231, R242). -/
def State.sliceCalls (s : State) (bits : SliceBits) : List CodeCall :=
  if s.sliceIsEmpty then []
  else (List.range s.cs0.nb.toNat).flatMap fun blk =>
    s.rootCalls bits blk ++
      (if s.goesOn bits blk then s.bucketCalls bits blk ++ s.announceCalls bits blk else []) ++
      s.refineCalls bits blk

/-- The coefficient is announced in the slice (R237). -/
def State.isAnnounced (s : State) (bits : SliceBits) (blk n : Nat) : Bool :=
  !s.sliceIsEmpty && decide (blk < s.cs0.nb.toNat) && decide (n / 16 ∈ s.sliceBuckets) &&
    s.goesOn bits blk && bits.bucket blk (n / 16) && s.isUnknown blk n && bits.announced blk n

/-- The coefficient is refined in the slice (R239, R240). -/
def State.isRefined (s : State) (blk n : Nat) : Bool :=
  !s.sliceIsEmpty && decide (blk < s.cs0.nb.toNat) && decide (n / 16 ∈ s.sliceBuckets) &&
    s.isActive blk n

/-- The value of a coefficient of the decoder-visible store after the slice (R238 to R240). -/
def State.valueAfterSlice (s : State) (bits : SliceBits) (blk n : Nat) : Sample :=
  let t : Int := s.sliceThr n
  let v := s.visible blk n
  if s.isAnnounced bits blk n then
    if s.coder.mode = .enc then wrap16 (t + t / 2)
    else wrap16 ((if bits.negative blk n then -1 else 1) * (t + t / 2 - t / 2 / 4))
  else if s.isRefined blk n then
    let step := if bits.upper blk n then t / 2 else t / 2 - t
    if s.coder.mode = .enc then wrap16 (v + step)
    else wrap16 ((if 0 < v then 1 else -1) * (|v| + (if |v| ≤ 3 * t then t / 4 else 0) + step))
  else wrap16 v

end Sys2Proof.Machine
end

