-- ==== Sys2Proof/Certificates/Slice0/Obligations.lean ====
section
/-! DEFINITION. The statements about the engine, one `def` each; OBLIGATIONS.json lists them. A state is
any state of the model, reached or not, unless a hypothesis says otherwise. -/

open Sys2Proof Sys2Proof.Machine

/-! ## Command words -/

/-- A command word that decodes is executed, and leaves the port (R13, R97). The port is the model's field
(log entry 4). -/
def Obligations.StepRunsTheDecodedCommand : Prop :=
  ∀ (s : State) (w : Word) (rest : List HostAction) (i : Instr),
    s.port = .command w :: rest → decode w = .ok i →
      i.wellFormed = true ∧ step s = exec i { s with port := rest }

/-- R95: an assigned opcode with a reserved bit set, a run of registers past P15 or a reserved space is
IllegalCommand and nothing else; every other word of an assigned opcode is a command. -/
def Obligations.ReservedFieldsAreIllegal : Prop :=
  ∀ (s : State) (w reserved : Word) (rest : List HostAction),
    s.port = .command w :: rest → s.faulted = false →
    reservedBits (opField w).toNat = some reserved →
      if w &&& reserved ≠ 0 ∨ 16 < (raField w).toNat + registerRun (opField w).toNat ∨
          ((opField w = 0x03 ∨ opField w = 0x04) ∧ 5 ≤ (immField w).toNat % 16) then
        step s = .next { s with port := rest, faulted := true, fault := 0x0004, faultInfo := w }
      else ∃ i, decode w = .ok i ∧ encode i = w

/-- R96: every unassigned opcode is IllegalCommand, whatever the other bits; the all-zero word is NOP,
the all-ones word is illegal. -/
def Obligations.UnassignedOpcodesAreIllegal : Prop :=
  (∀ (s : State) (w : Word) (rest : List HostAction),
    s.port = .command w :: rest → s.faulted = false →
    ((0x05 ≤ (opField w).toNat ∧ (opField w).toNat ≤ 0x0E) ∨
      (0x19 ≤ (opField w).toNat ∧ (opField w).toNat ≤ 0x1F) ∨
      (0x22 ≤ (opField w).toNat ∧ (opField w).toNat ≤ 0x2F) ∨
      (0x34 ≤ (opField w).toNat ∧ (opField w).toNat ≤ 0x3F) ∨ 0x44 ≤ (opField w).toNat) →
      step s = .next { s with port := rest, faulted := true, fault := 0x0004, faultInfo := w }) ∧
  decode 0x00000000 = .ok .nop ∧ 0x44 ≤ (opField 0xFFFFFFFF).toNat

/-- Decode and encode agree on every legal command: no bit of any operand is dropped (R92, R94). -/
def Obligations.DecodeOfEncode : Prop :=
  ∀ i : Instr, i.wellFormed = true → decode (encode i) = .ok i

/-- A word that decodes is the encoding of its command: no two words are one command (R92, R94). -/
def Obligations.EncodeOfDecode : Prop :=
  ∀ (w : Word) (i : Instr), decode w = .ok i → i.wellFormed = true ∧ encode i = w

/-- Words the spec writes out decode to the commands it says (R98, R122, R124, R150, R205). -/
def Obligations.WrittenWordsDecode : Prop :=
  decode 0x01100070 = .ok (.li 1 0x70) ∧ decode 0x0230DEAD = .ok (.lui 3 0xDEAD) ∧
    decode 0x03450001 = .ok (.ld 4 1 5) ∧ decode 0x04120003 = .ok (.st 1 3 2) ∧
    decode 0x0F000000 = .ok .reset ∧ decode 0x12200070 = .ok (.acEnc 2 0x70) ∧
    decode 0x13300070 = .ok (.acDec 3 0x70) ∧ decode 0x21000000 = .ok (.bpcSlice 0) ∧
    decode 0x30020001 = .ok (.csCreate true 2) ∧ decode 0x31000001 = .ok (.csDestroy true) ∧
    decode 0x40040120 = .ok (.wtFwd 4 1 32)

/-! ## The host's ports and the whole machine -/

/-- R70, R74, R292: what each host action does, and that an engine whose host does nothing waits. The
fields `port` and `reply` are the model's choice (log entry 4), and so is the answer `none` for a block
or a coefficient a valid store does not have (log entry 6); for a store that is not valid it is R301's. -/
def Obligations.HostActionsAtThePorts : Prop :=
  (∀ s : State, s.port = [] → step s = .next s) ∧
  ∀ (s : State) (rest : List HostAction),
    (∀ bytes, s.port = .attach bytes :: rest →
      step s = .next (if s.coder.mode ≠ .dec ∧ s.faulted = false then
        { s with port := rest, coder := { s.coder with input := bytes, inpos := 0 },
                 reply := .attached }
        else { s with port := rest, reply := .refused })) ∧
    (s.port = .take :: rest →
      step s = .next (if s.coder.mode ≠ .enc then
        { s with port := rest, coder := { s.coder with output := [] },
                 reply := .taken s.coder.output }
        else { s with port := rest, reply := .refused })) ∧
    (s.port = .readStatus :: rest →
      step s = .next { s with port := rest, reply := .status s.faulted s.fault s.faultInfo }) ∧
    (s.port = .readRegisters :: rest →
      step s = .next { s with port := rest, reply := .registers s.x }) ∧
    ∀ i blk n, s.port = .readCoefficient i blk n :: rest →
      step s = .next { s with port := rest, reply := .coefficient (
        if (s.store i).valid = true ∧ blk < (s.store i).nb.toNat ∧ n < 1024 then
          some ((s.store i).coefRead blk n) else none) }

/-- R271: while FAULTED every word but 0x0F000000 changes nothing; that word is RESET; the host actions
go on, the reader port too, but *attach* is refused. The model's choices: the fields `port` and `reply`
(log entry 4), that RESET leaves these and the configuration (log entry 16), and the reader port's answer
`none` (log entry 6). -/
def Obligations.FaultedEngineRefuses : Prop :=
  ∀ (s : State) (rest : List HostAction), s.faulted = true →
    (∀ w, s.port = .command w :: rest →
      step s = .next (if w = 0x0F000000 then
        { s with port := rest, x := Vector.replicate 16 0, faulted := false, fault := 0,
                 faultInfo := 0, coder := Coder.reset, ctx := [],
                 sched := Schedule.initial s.cfg, cs0 := Store.empty, cs1 := Store.empty }
        else { s with port := rest })) ∧
    (∀ bytes, s.port = .attach bytes :: rest →
      step s = .next { s with port := rest, reply := .refused }) ∧
    (s.port = .readStatus :: rest →
      step s = .next { s with port := rest, reply := .status true s.fault s.faultInfo }) ∧
    (s.port = .readRegisters :: rest →
      step s = .next { s with port := rest, reply := .registers s.x }) ∧
    (s.port = .take :: rest → s.coder.mode ≠ .enc →
      step s = .next { s with port := rest, coder := { s.coder with output := [] },
                              reply := .taken s.coder.output }) ∧
    ∀ i blk n, s.port = .readCoefficient i blk n :: rest →
      step s = .next { s with port := rest, reply := .coefficient (
        if (s.store i).valid = true ∧ blk < (s.store i).nb.toNat ∧ n < 1024 then
          some ((s.store i).coefRead blk n) else none) }

/-- No step ends a run, none changes the configuration, and each takes exactly the host's first action. The
spec says that no command blocks or hangs (R267, R278); that a fault is a next state
(log entry 10), that the configuration of R7 is a field that no step changes (log entry 1) and that one
action is taken off the port (log entry 4) are the model's choices. -/
def Obligations.EveryStepGoesOn : Prop :=
  ∀ s : State, ∃ t, step s = .next t ∧ t.cfg = s.cfg ∧ t.port = s.port.tail

/-- R22: the P registers are written by LI, LUI, LD, AC.DEC, AC.DECP, AC.DECB and BPC.SLICE, each only in
its `rd`, and by RESET, which clears them; a command that faults writes none, nor does a step that
executes no command. -/
def Obligations.WritersOfRegisters : Prop :=
  State.reset.x = Vector.replicate 16 0 ∧
  (∀ s t : State, step s = .next t →
    (¬ ∃ w rest i, s.port = .command w :: rest ∧ decode w = .ok i) → t.x = s.x) ∧
  ∀ (i : Instr) (s t : State), exec i s = .next t →
    (s.faulted = false → t.faulted = true → t.x = s.x) ∧
    match i with
    | .li rd _ | .lui rd _ | .ld rd _ _ | .acDec rd _ | .acDecp rd | .acDecb rd | .bpcSlice rd =>
      ∀ r, r ≠ rd → t.reg r = s.reg r
    | .reset => t.x = Vector.replicate 16 0
    | _ => t.x = s.x

/-- Which commands can change CTX, WB, the stores, the schedule and the coder at all (R33, R34, R37 to
R39, R43, R180). The last clause rests on no rule and is the model's choice: `reply`, the record of what
the ports last answered, is the model's own field, which no command writes (log entry 4), and RESET
leaves it too (log entry 16). -/
def Obligations.WritersOfEachUnit : Prop :=
  ∀ (i : Instr) (s t : State), exec i s = .next t →
    (match i with
      | .acEinit | .acDinit | .acEnc _ _ | .acDec _ _ | .acEncp _ | .acDecp _ | .acEncb _
      | .acDecb _ | .acClose | .bpcSlice _ | .reset => True
      | _ => t.coder = s.coder) ∧
    (match i with
      | .acEnc _ _ | .acDec _ _ | .st _ _ _ | .bpcInit | .bpcSlice _ | .reset => True
      | _ => t.ctx = s.ctx) ∧
    (match i with
      | .bpcInit | .bpcSlice _ | .reset => True
      | _ => t.sched = s.sched) ∧
    (match i with
      | .st _ _ _ | .bpcSlice _ | .reset => True
      | .csCreate j _ | .csDestroy j | .csScatter j _ => t.store (!j) = s.store (!j)
      | _ => t.cs0 = s.cs0 ∧ t.cs1 = s.cs1) ∧
    (match i with
      | .st _ _ _ | .wtFwd _ _ _ | .wtBwd _ _ _ | .wtRgb2ycc _ | .wtYcc2rgb _ | .csGather _ _ => True
      | _ => t.wb = s.wb) ∧
    t.reply = s.reply

/-! ## Faults -/

/-- R265: a command that stops with a fault other than AllocationError has changed nothing but FAULTED,
FAULT and FAULTINFO. -/
def Obligations.FaultsAreClean : Prop :=
  ∀ (i : Instr) (s t : State), s.faulted = false → exec i s = .next t → t.faulted = true →
    t.fault ≠ 0x0002 →
      t = { s with faulted := true, fault := t.fault, faultInfo := encode i }

/-- R263: a legal command takes only the faults of its row, and an illegal one is IllegalCommand. -/
def Obligations.FaultsOfEachCommand : Prop :=
  ∀ (i : Instr) (s t : State), s.faulted = false → exec i s = .next t → t.faulted = true →
    if i.wellFormed = true then ∃ k ∈ mayRaise i, t.fault = faultWord k
    else t.fault = 0x0004

/-- R270: the fault that a command word raises leaves FAULTINFO holding that word and a FAULT that is one
of the engine's, and a word that raises none leaves all three fault registers as they were (R120). -/
def Obligations.FaultEntryRecordsTheWord : Prop :=
  ∀ (s t : State) (w : Word) (rest : List HostAction), s.port = .command w :: rest →
    s.faulted = false → w ≠ 0x0F000000 → step s = .next t →
    if t.faulted = true then
      t.faultInfo = w ∧ t.fault ∈ ([0x0002, 0x0103, 0x0203, 0x0303, 0x0004, 0x0005] : List (BitVec 16))
    else t.fault = s.fault ∧ t.faultInfo = s.faultInfo

/-- R27, R272: the fault record stays what it must be in every step. -/
def Obligations.FaultRecordIsKept : Prop :=
  ∀ s t : State, s.FaultRecordOk → step s = .next t → t.FaultRecordOk

/-! ## Reset -/

/-- R42, R291: every piece of state after either reset. That WB is some canonical memory after power-on is
how the model writes that it is unspecified (log entry 3), and that RESET leaves the configuration is the
model's choice (log entry 16). -/
def Obligations.ResetValues : Prop :=
  (∃ wb : Mem 16, State.reset.wb = wb ∧ wb.wf State.reset.cfg.wbWords = true) ∧
  (∀ s : State, ∃ t, exec .reset s = .next t ∧ t.wb = s.wb ∧ t.cfg = s.cfg) ∧
  ∀ t : State, (t = State.reset ∨ ∃ s, exec .reset s = .next t) →
    (∀ r, t.reg r = 0) ∧ t.faulted = false ∧ t.fault = 0 ∧ t.faultInfo = 0 ∧
    t.coder = { mode := .idle, a := 0, subend := 0, buffer := 0, nrun := 0, delay := 0, obyte := 0,
                scount := 0, code := 0, fence := 0, ibuf := 0, iscount := 0, input := [],
                inpos := 0, output := [] } ∧
    (∀ c, t.ctxAt c = 0) ∧
    t.sched.curbit = 0 ∧ t.sched.curband = 0 ∧ t.sched.done = false ∧
    t.sched.qlo = t.cfg.qloInit ∧ t.sched.qhi = t.cfg.qhiInit ∧
    ∀ i, (t.store i).valid = false ∧ (t.store i).iw = 0 ∧ (t.store i).ih = 0 ∧
      (t.store i).bw = 0 ∧ (t.store i).bh = 0 ∧ (t.store i).nb = 0 ∧ (t.store i).nalloc = 0 ∧
      (t.store i).buckets = []

/-- The reset state meets every invariant of the engine. -/
def Obligations.ResetMeetsTheInvariants : Prop :=
  State.reset.coder.Bounded ∧ State.reset.MemoriesOk ∧ State.reset.ArenasOk ∧
    State.reset.sched.OnCourse State.reset.cfg ∧ State.reset.FaultRecordOk

/-! ## System commands -/

/-- R121: NOP leaves every register and memory as it was. -/
def Obligations.NopChangesNothing : Prop :=
  ∀ s : State, exec .nop s = .next s

/-- R122: LI writes the zero-extended immediate to `rd` and changes nothing else. -/
def Obligations.LoadImmediate : Prop :=
  ∀ (s : State) (rd : RegNum) (imm : BitVec 16), s.faulted = false →
    ∃ t, exec (.li rd imm) s = .next t ∧ s.SameButRegisters t ∧
      ∀ r, t.reg r = if r = rd then imm.setWidth 32 else s.reg r

/-- R123: LUI writes the immediate to the upper half of `rd`, keeps the lower half and changes nothing
else. -/
def Obligations.LoadUpperImmediate : Prop :=
  ∀ (s : State) (rd : RegNum) (imm : BitVec 16), s.faulted = false →
    ∃ t, exec (.lui rd imm) s = .next t ∧ s.SameButRegisters t ∧
      (t.reg rd).toNat = imm.toNat * 0x10000 + (s.reg rd).toNat % 0x10000 ∧
      ∀ r, r ≠ rd → t.reg r = s.reg r

/-- R127: LI of the low half then LUI of the high half of `v` leave `v` in `rd`, and nothing else is
changed. -/
def Obligations.LoadImmediate32 : Prop :=
  ∀ (s : State) (rd : RegNum) (v : Word), s.faulted = false →
    ∃ t u, exec (.li rd (v.extractLsb' 0 16)) s = .next t ∧
      exec (.lui rd (v.extractLsb' 16 16)) t = .next u ∧ s.SameButRegisters u ∧
      ∀ r, u.reg r = if r = rd then v else s.reg r

/-- R62, R124: what LD reads from CTX, WB and a coefficient store at every address, and that it takes
AddressError outside the space; only `rd` is written. -/
def Obligations.LoadFromMemories : Prop :=
  ∀ (s : State) (rd ra : RegNum), s.faulted = false →
    let a := (s.reg ra).toNat
    let loads := fun (sp : BitVec 4) (present : Prop) (v : Int) =>
      (present → ∃ t, exec (.ld rd sp ra) s = .next t ∧ s.SameButRegisters t ∧
        (t.reg rd).toInt = v ∧ ∀ r, r ≠ rd → t.reg r = s.reg r) ∧
      (¬ present → exec (.ld rd sp ra) s =
        .next (s.takeFault .address (encode (.ld rd sp ra))))
    loads 1 (a < 256) (s.ctx.read a).toNat ∧
    loads 2 (a < s.cfg.wbWords) (s.wb.read a).toInt ∧
    loads 3 (s.cs0.valid = true ∧ a < 1024 * s.cs0.nb.toNat)
      (s.cs0.coefRead (a / 1024) (a % 1024)).toInt ∧
    loads 4 (s.cs1.valid = true ∧ a < 1024 * s.cs1.nb.toNat)
      (s.cs1.coefRead (a / 1024) (a % 1024)).toInt

/-- R26, R63: what LD reads from every register of space CSR, and that every other address of the space
is AddressError. -/
def Obligations.LoadFromControlRegisters : Prop :=
  ∀ (s : State) (rd ra : RegNum), s.faulted = false →
    let reads := fun (a v : Nat) => (s.reg ra).toNat = a →
      ∃ t, exec (.ld rd 0 ra) s = .next t ∧ s.SameButRegisters t ∧ (t.reg rd).toNat = v ∧
        ∀ r, r ≠ rd → t.reg r = s.reg r
    let mode := match s.coder.mode with | .idle => 0 | .enc => 1 | .dec => 2
    reads 0x00 (mode + 4 * s.sched.done.toNat + 8 * s.cs0.valid.toNat + 16 * s.cs1.valid.toNat) ∧
    reads 0x01 s.fault.toNat ∧ reads 0x02 s.faultInfo.toNat ∧
    reads 0x10 s.coder.a.toNat ∧ reads 0x11 s.coder.subend.toNat ∧
    reads 0x12 s.coder.buffer.toNat ∧ reads 0x13 (min s.coder.nrun (2 ^ 32 - 1)) ∧
    reads 0x14 s.coder.delay.toNat ∧ reads 0x15 s.coder.obyte.toNat ∧
    reads 0x16 s.coder.scount.toNat ∧ reads 0x17 s.coder.code.toNat ∧
    reads 0x18 s.coder.fence.toNat ∧ reads 0x19 s.coder.ibuf.toNat ∧
    reads 0x1A s.coder.iscount.toNat ∧ reads 0x1B (min s.coder.inpos (2 ^ 32 - 1)) ∧
    reads 0x1C (min s.coder.output.length (2 ^ 32 - 1)) ∧
    reads 0x20 s.sched.curbit.toNat ∧ reads 0x21 s.sched.curband.val ∧
    (∀ i : Fin 16, reads (0x30 + i.val) s.sched.qlo[i].toNat) ∧
    (∀ b : Fin 9, reads (0x41 + b.val) s.sched.qhi[b].toNat) ∧
    (∀ i : Bool, let base := if i then 0x58 else 0x50
      reads base (s.store i).iw.toNat ∧ reads (base + 1) (s.store i).ih.toNat ∧
      reads (base + 2) (s.store i).bw.toNat ∧ reads (base + 3) (s.store i).bh.toNat ∧
      reads (base + 4) (s.store i).nb.toNat ∧
      ((s.store i).nalloc < 2 ^ 32 → reads (base + 5) (s.store i).nalloc)) ∧
    ((s.reg ra).toNat = 0x40 ∨ (0x03 ≤ (s.reg ra).toNat ∧ (s.reg ra).toNat ≤ 0x0F) ∨
      (0x1D ≤ (s.reg ra).toNat ∧ (s.reg ra).toNat ≤ 0x1F) ∨
      (0x22 ≤ (s.reg ra).toNat ∧ (s.reg ra).toNat ≤ 0x2F) ∨
      (0x4A ≤ (s.reg ra).toNat ∧ (s.reg ra).toNat ≤ 0x4F) ∨
      (s.reg ra).toNat = 0x56 ∨ (s.reg ra).toNat = 0x57 ∨ 0x5E ≤ (s.reg ra).toNat →
      exec (.ld rd 0 ra) s = .next (s.takeFault .address (encode (.ld rd 0 ra))))

/-- R62, R125: what ST leaves in CTX and WB, every other element of every space being as it was, and that
it takes AddressError outside the space and in space CSR. -/
def Obligations.StoreToContextsAndWorkBuffer : Prop :=
  ∀ (s : State) (rd ra : RegNum), s.faulted = false → s.MemoriesOk →
    let a := (s.reg ra).toNat
    (if a < 256 then
      ∃ t, exec (.st rd 1 ra) s = .next t ∧ t = { s with ctx := t.ctx } ∧
        ∀ b, t.ctx.read b = if b = a then (s.reg rd).extractLsb' 0 8 else s.ctx.read b
      else exec (.st rd 1 ra) s = .next (s.takeFault .address (encode (.st rd 1 ra)))) ∧
    (if a < s.cfg.wbWords then
      ∃ t, exec (.st rd 2 ra) s = .next t ∧ s.SameButWb t ∧
        ∀ b, t.wb.read b = if b = a then (s.reg rd).extractLsb' 0 16 else s.wb.read b
      else exec (.st rd 2 ra) s = .next (s.takeFault .address (encode (.st rd 2 ra)))) ∧
    exec (.st rd 0 ra) s = .next (s.takeFault .address (encode (.st rd 0 ra)))

/-- R62, R66, R204: what ST leaves in a coefficient store. The coefficient is written and its bucket
allocated, every other coefficient reads as before; a write that needs a new bucket in a full arena is
AllocationError and writes nothing; outside the store it is AddressError. -/
def Obligations.StoreToCoefficients : Prop :=
  ∀ (s : State) (rd ra : RegNum) (i : Bool), s.faulted = false → s.MemoriesOk →
    let a := (s.reg ra).toNat
    let sp : BitVec 4 := if i then 4 else 3
    let st := s.store i
    if st.valid = true ∧ a < 1024 * st.nb.toNat then
      if st.Allocated (a / 1024) (a % 1024 / 16) ∨ st.nalloc < st.arenaLimit s.cfg then
        ∃ st', exec (.st rd sp ra) s = .next (s.setStore i st') ∧ st.SameDescriptor st' ∧
          (∀ blk n, n < 1024 → st'.coefRead blk n =
            if 1024 * blk + n = a then (s.reg rd).extractLsb' 0 16 else st.coefRead blk n) ∧
          (∀ blk bk, bk < 64 →
            (st'.Allocated blk bk ↔ st.Allocated blk bk ∨ 64 * blk + bk = a / 16)) ∧
          (st'.nalloc : Int) = st.nalloc + if st.Allocated (a / 1024) (a % 1024 / 16) then 0 else 1
      else exec (.st rd sp ra) s = .next (s.takeFault .allocation (encode (.st rd sp ra)))
    else exec (.st rd sp ra) s = .next (s.takeFault .address (encode (.st rd sp ra)))

/-! ## The ArithmeticCoder -/

/-- R142: AC.EINIT loads every encoder register, empties OUT and opens an encoding session. -/
def Obligations.OpenEncoder : Prop :=
  ∀ s : State, s.faulted = false → s.coder.mode = .idle →
    exec .acEinit s = .next { s with coder := { s.coder with
      a := 0, subend := 0, buffer := 0xFFFFFF, nrun := 0, delay := 25, obyte := 0, scount := 0,
      output := [], mode := .enc } }

/-- R156, R157: AC.DINIT reads six bytes of IN from its start, the fill where IN is shorter, and opens a
decoding session; CTX, the schedule, the stores and the P registers stay. -/
def Obligations.OpenDecoder : Prop :=
  ∀ s : State, s.faulted = false → s.coder.mode = .idle →
    let byte := fun j => (s.coder.input.getD j 0xFF).toNat
    ∃ t, exec .acDinit s = .next t ∧ s.SameButCoder t ∧
      t.coder = { s.coder with
        mode := .dec, a := 0, code := t.coder.code, fence := t.coder.fence, ibuf := t.coder.ibuf,
        iscount := 32, inpos := min 6 s.coder.input.length } ∧
      t.coder.code.toNat = byte 0 * 256 + byte 1 ∧
      t.coder.fence.toNat = min (byte 0 * 256 + byte 1) 0x7FFF ∧
      t.coder.ibuf.toNat = ((byte 2 * 256 + byte 3) * 256 + byte 4) * 256 + byte 5

/-- R140: in which mode each coder command is accepted; in every other it is LogicError sub 1. -/
def Obligations.CoderModes : Prop :=
  ∀ (i : Instr) (s : State), s.faulted = false →
    let accepted : Option Bool := match i with
      | .acEinit | .acDinit => some (s.coder.mode = .idle)
      | .acEnc _ _ | .acEncp _ | .acEncb _ => some (s.coder.mode = .enc)
      | .acDec _ _ | .acDecp _ | .acDecb _ => some (s.coder.mode = .dec)
      | .acClose | .bpcSlice _ => some (s.coder.mode ≠ .idle)
      | _ => none
    (accepted = some false →
      exec i s = .next { s with faulted := true, fault := 0x0103, faultInfo := encode i }) ∧
    (accepted ≠ some false → ∀ t, exec i s = .next t → t.faulted = true → t.fault ≠ 0x0103) ∧
    ∀ t, exec i s = .next t → t.faulted = false → t.coder.mode = match i with
      | .acEinit => .enc
      | .acDinit => .dec
      | .acClose | .reset => .idle
      | _ => s.coder.mode

/-- R150: AC.ENC with a bit in `x[rd]`: the context takes its next value on every path; the interval
narrows to the predicted side, without a doubling where the split is below 0x8000, or to the other
side, rescaled until A is below 0x8000. -/
def Obligations.EncodeAdaptiveBit : Prop :=
  ∀ (s : State) (rd : RegNum) (c : Byte), s.faulted = false → s.coder.mode = .enc →
    s.coder.Bounded →
    let bit := (s.reg rd).getLsbD 0
    let k := s.ctx.read c.toNat
    let a := s.coder.a.toNat
    let z := a + s.cfg.prob k
    let zc := min z (0x6000 + (z + a) / 4)
    ∃ t, exec (.acEnc rd c) s = .next t ∧
      t = { s with coder := t.coder, ctx := s.ctx.write c.toNat (s.cfg.adapt k (bit == k.getLsbD 0)) } ∧
      s.coder.EncodesTo t.coder ∧
      (bit = k.getLsbD 0 → z < 0x8000 → t.coder = { s.coder with a := BitVec.ofNat 16 z }) ∧
      (bit = k.getLsbD 0 → 0x8000 ≤ z → t.coder.a.toNat = 2 * zc - 0x10000 ∧
        t.coder.subend.toNat = 2 * s.coder.subend.toNat % 0x10000) ∧
      (bit ≠ k.getLsbD 0 → ∃ m, LeadingOnes (a + 0x10000 - zc) m ∧
        t.coder.a.toNat = (a + 0x10000 - zc) * 2 ^ m % 0x10000 ∧
        t.coder.subend.toNat = (s.coder.subend.toNat + 0x10000 - zc) * 2 ^ m % 0x10000)

/-- R151, R152: AC.ENCP and AC.ENCB with a bit in `x[rd]`: bit 1 takes the side below the split, bit 0 the
side above it; no context is read or written. -/
def Obligations.EncodeFixedSplitBit : Prop :=
  ∀ (s : State) (rd : RegNum), s.faulted = false → s.coder.mode = .enc → s.coder.Bounded →
    let bit := (s.reg rd).getLsbD 0
    let a := s.coder.a.toNat
    let codes := fun (i : Instr) (z : Nat) =>
      ∃ t, exec i s = .next t ∧ s.SameButCoder t ∧ s.coder.EncodesTo t.coder ∧
        (bit = false → t.coder.a.toNat = 2 * z - 0x10000 ∧
          t.coder.subend.toNat = 2 * s.coder.subend.toNat % 0x10000) ∧
        (bit = true → ∃ m, LeadingOnes (a + 0x10000 - z) m ∧
          t.coder.a.toNat = (a + 0x10000 - z) * 2 ^ m % 0x10000 ∧
          t.coder.subend.toNat = (s.coder.subend.toNat + 0x10000 - z) * 2 ^ m % 0x10000)
    codes (.acEncp rd) (0x8000 + a / 2) ∧ codes (.acEncb rd) (0x8000 + 3 * a / 8)

/-- Carry resolution is exact (R144, R145, R147 to R149). In every open encoder, also while DELAY still
swallows bits: coding a bit decides `digits`, of which DELAY swallows the first; with the digits still
undecided they are as many as the run before and the `m` doublings; and with BUFFER and SUBEND they stand
for the number before, less what the interval loses at its top, doubled as often as the interval. Once
nothing is swallowed, what OUT, OBYTE, NRUN, BUFFER and SUBEND hold together is one number, and that is
what coding a bit does to it. -/
def Obligations.CarriesAreResolvedExactly : Prop :=
  (∀ (s : State) (rd : RegNum) (c : Byte), s.faulted = false → s.coder.mode = .enc →
    s.coder.Bounded →
    let bit := (s.reg rd).getLsbD 0
    let k := s.ctx.read c.toNat
    let a := s.coder.a.toNat
    let z := a + s.cfg.prob k
    let zc := min z (0x6000 + (z + a) / 4)
    let codes := fun (i : Instr) (above : Bool) (split : Nat) =>
      let top := if above then split else a + 0x10000 - split
      let loss : Int := if above then 0 else 0x10000 - split
      ∃ (t : State) (m : Nat) (digits : List Bool), exec i s = .next t ∧
        (if top < 0x8000 then m = 0 else LeadingOnes top m) ∧
        t.coder.a.toNat = top * 2 ^ m % 0x10000 ∧
        digits.length + t.coder.nrun = s.coder.nrun + m ∧
        ((signedValue digits * 2 ^ t.coder.nrun) * 2 ^ 24 + (t.coder.buffer.toNat : Int) + 1) * 2 ^ 16 -
            (t.coder.subend.toNat : Int) =
          2 ^ m * (((s.coder.buffer.toNat : Int) + 1) * 2 ^ 16 - (s.coder.subend.toNat : Int) - loss) ∧
        t.coder.delivered = s.coder.delivered ++ digits.drop s.coder.delay.toNat ∧
        t.coder.delay.toNat = s.coder.delay.toNat - digits.length
    codes (.acEnc rd c) (bit == k.getLsbD 0) (if bit = k.getLsbD 0 ∧ z < 0x8000 then z else zc) ∧
    codes (.acEncp rd) (!bit) (0x8000 + a / 2) ∧ codes (.acEncb rd) (!bit) (0x8000 + 3 * a / 8)) ∧
  ∀ (i : Instr) (s t : State) (rd : RegNum) (c : Byte),
    i ∈ [Instr.acEnc rd c, .acEncp rd, .acEncb rd] →
    s.faulted = false → s.coder.mode = .enc → s.coder.Bounded → s.coder.delay = 0 →
    exec i s = .next t →
    ∃ (m d : Nat), d < 0x10000 ∧ t.coder.codeNumber = 2 ^ m * (s.coder.codeNumber - d) ∧
      (∃ split : Nat, s.coder.a.toNat < split ∧ split < 0x10000 ∧
        ((d = 0 ∧ (0x10000 : Int) - t.coder.a.toNat = 2 ^ m * (0x10000 - split)) ∨
          (d = 0x10000 - split ∧
            (0x10000 : Int) - t.coder.a.toNat = 2 ^ m * ((split : Int) - s.coder.a.toNat))))

/-- R161: AC.DEC: the bit decoded, the context's next value, the new interval and code value, and exactly
the input bits shifted in; it completes on every input, also past its end (R167). -/
def Obligations.DecodeAdaptiveBit : Prop :=
  ∀ (s : State) (rd : RegNum) (c : Byte), s.faulted = false → s.coder.mode = .dec →
    s.coder.Bounded →
    let k := s.ctx.read c.toNat
    let mps := k.getLsbD 0
    let a := s.coder.a.toNat
    let z := a + s.cfg.prob k
    let zc := min z (0x6000 + (z + a) / 4)
    ∃ (t : State) (bit : Bool), exec (.acDec rd c) s = .next t ∧
      t = { s with coder := t.coder, x := t.x, ctx := s.ctx.write c.toNat (s.cfg.adapt k (bit == mps)) } ∧
      (∀ r, t.reg r = if r = rd then (if bit then 1 else 0) else s.reg r) ∧
      (z ≤ s.coder.fence.toNat →
        bit = mps ∧ t.coder = { s.coder with a := BitVec.ofNat 16 z }) ∧
      (s.coder.fence.toNat < z → s.coder.code.toNat < zc →
        bit = !mps ∧ ∃ m, LeadingOnes (a + 0x10000 - zc) m ∧
          s.coder.DecodesTo t.coder m (a + 0x10000 - zc) (s.coder.code.toNat + 0x10000 - zc)) ∧
      (s.coder.fence.toNat < z → zc ≤ s.coder.code.toNat →
        bit = mps ∧ s.coder.DecodesTo t.coder 1 zc s.coder.code.toNat)

/-- R162, R163: AC.DECP and AC.DECB: the bit is 1 exactly when CODE lies below the split; no context is
read or written. -/
def Obligations.DecodeFixedSplitBit : Prop :=
  ∀ (s : State) (rd : RegNum), s.faulted = false → s.coder.mode = .dec → s.coder.Bounded →
    let a := s.coder.a.toNat
    let codes := fun (i : Instr) (z : Nat) =>
      ∃ t, exec i s = .next t ∧ t = { s with coder := t.coder, x := t.x } ∧
        (∀ r, t.reg r = if r = rd then (if s.coder.code.toNat < z then 1 else 0) else s.reg r) ∧
        (s.coder.code.toNat < z → ∃ m, LeadingOnes (a + 0x10000 - z) m ∧
          s.coder.DecodesTo t.coder m (a + 0x10000 - z) (s.coder.code.toNat + 0x10000 - z)) ∧
        (z ≤ s.coder.code.toNat → s.coder.DecodesTo t.coder 1 z s.coder.code.toNat)
    codes (.acDecp rd) (0x8000 + a / 2) ∧ codes (.acDecb rd) (0x8000 + 3 * a / 8)

/-- R165: one function of the old byte and of whether the bit had the predicted value gives the new byte
of the context in AC.ENC and in AC.DEC, and no other context changes. -/
def Obligations.ContextUpdateIsOneFunction : Prop :=
  ∃ f : Config → Byte → Bool → Byte,
    ∀ (s t : State) (rd : RegNum) (c : Byte), s.faulted = false → s.ctx.wf 256 = true →
      t.faulted = false →
      (exec (.acEnc rd c) s = .next t →
        ∀ d, t.ctxAt d = if d = c then
          f s.cfg (s.ctxAt c) ((s.reg rd).getLsbD 0 == (s.ctxAt c).getLsbD 0) else s.ctxAt d) ∧
      (exec (.acDec rd c) s = .next t →
        ∀ d, t.ctxAt d = if d = c then
          f s.cfg (s.ctxAt c) ((t.reg rd).getLsbD 0 == (s.ctxAt c).getLsbD 0) else s.ctxAt d)

/-- R165, R30: an encoder and a decoder with equal tables, contexts and A that code the same bit by the
same kind of call are left with equal contexts and equal A. -/
def Obligations.EncoderAndDecoderStayInStep : Prop :=
  ∀ (e e' d d' : State) (re rd : RegNum) (c : Byte) (i j : Instr),
    (i, j) ∈ [(Instr.acEnc re c, Instr.acDec rd c), (.acEncp re, .acDecp rd), (.acEncb re, .acDecb rd)] →
    e.cfg = d.cfg → e.ctx = d.ctx → e.coder.a = d.coder.a →
    e.coder.Bounded → d.coder.Bounded →
    e.faulted = false → d.faulted = false → e.coder.mode = .enc → d.coder.mode = .dec →
    exec i e = .next e' → exec j d = .next d' →
    (d'.reg rd).getLsbD 0 = (e.reg re).getLsbD 0 →
      e'.ctx = d'.ctx ∧ e'.coder.a = d'.coder.a

/-- R40, R146, R70: OUT only grows, but that AC.EINIT, RESET and *take* empty it; IN changes by *attach*
and RESET alone. -/
def Obligations.StreamsAreAppendOnly : Prop :=
  ∀ s t : State, step s = .next t →
    ((∃ out, t.coder.output = s.coder.output ++ out) ∨
      (t.coder.output = [] ∧ ∃ rest, s.port = .take :: rest ∨ s.port = .command 0x10000000 :: rest ∨
        s.port = .command 0x0F000000 :: rest)) ∧
    (t.coder.input = s.coder.input ∨
      ∃ rest, (∃ bytes, s.port = .attach bytes :: rest) ∨ s.port = .command 0x0F000000 :: rest)

/-- R153: AC.CLOSE in an encoding session completes, leaves the registers as stated and delivers exactly
what was pending: `digits` are the bits OutBit is given before the padding, the NRUN undecided ones, one
for each of the `k` turns of the flush loop, and the final 1; with 1 as the digit 1 and 0 as -1 they stand
for BUFFER and the rounded SUBEND (the number `r`); DELAY swallows the first of them; ones pad the last byte.
In a decoding session it changes the mode alone. A session opened and closed at once gives no byte. -/
def Obligations.CloseFlushesTheEncoder : Prop :=
  (∀ s : State, s.faulted = false → s.coder.mode = .enc → s.coder.Bounded →
    let sub : Int := if 0x8000 < s.coder.subend.toNat then 0x10000
      else if 0 < s.coder.subend.toNat then 0x8000 else 0
    let r : Int := ((s.coder.buffer.toNat : Int) + 1) * 2 ^ 16 - sub
    ∃ (t : State) (k pad : Nat) (digits : List Bool), exec .acClose s = .next t ∧ s.SameButCoder t ∧
      t.coder = { s.coder with mode := .idle, subend := 0, buffer := 0xFFFFFF, nrun := 0,
                               delay := 0xFF, obyte := 0, scount := 0, output := t.coder.output } ∧
      s.coder.output <+: t.coder.output ∧
      (∀ j, j < k ↔ ¬ ((2 : Int) ^ 40 ∣ 2 ^ j * r) ∨ (r = 0 ∧ j = 0)) ∧
      digits.length = s.coder.nrun + k + 1 ∧
      (signedValue digits + 1) * 2 ^ 39 = 2 ^ k * r ∧ pad < 8 ∧
      t.coder.output.flatMap byteBits =
        s.coder.delivered ++ digits.drop s.coder.delay.toNat ++ List.replicate pad true) ∧
  (∀ s : State, s.faulted = false → s.coder.mode = .dec →
    exec .acClose s = .next { s with coder := { s.coder with mode := .idle } }) ∧
  ∀ s t u : State, s.faulted = false → s.coder.mode = .idle → exec .acEinit s = .next t →
    exec .acClose t = .next u → u.coder.output = []

/-- R32, R154, R164: the bounds of the coder's registers hold after every step. -/
def Obligations.CoderBoundsAreKept : Prop :=
  ∀ s t : State, s.coder.Bounded → step s = .next t → t.coder.Bounded

/-! ## The BitplaneCodec -/

/-- R224: BPC.INIT puts the schedule and `Ctx[0..111]` in their initial state, in every mode, and changes
nothing else. -/
def Obligations.InitialiseTheSchedule : Prop :=
  ∀ s : State, s.faulted = false → s.ctx.wf 256 = true →
    ∃ t, exec .bpcInit s = .next t ∧ t = { s with sched := t.sched, ctx := t.ctx } ∧
      t.sched.qlo = s.cfg.qloInit ∧ t.sched.qhi = s.cfg.qhiInit ∧ t.sched.curbit = 0 ∧
      t.sched.curband = 0 ∧ t.sched.done = false ∧
      ∀ c : Byte, t.ctxAt c = if c.toNat < 112 then 0 else s.ctxAt c

/-- R246: the checks of BPC.SLICE, in order and also when the schedule has terminated; a command that
passes them takes no fault but AllocationError. -/
def Obligations.SliceChecks : Prop :=
  ∀ (s : State) (rd : RegNum), s.faulted = false →
    let stops := fun (f : BitVec 16) => exec (.bpcSlice rd) s =
      .next { s with faulted := true, fault := f, faultInfo := encode (.bpcSlice rd) }
    if s.coder.mode = .idle then stops 0x0103
    else if s.cs0.valid = false ∨ (s.coder.mode = .enc ∧ s.cs1.valid = false) then stops 0x0203
    else if s.coder.mode = .enc ∧ (s.cs1.iw ≠ s.cs0.iw ∨ s.cs1.ih ≠ s.cs0.ih) then stops 0x0303
    else ∀ t, exec (.bpcSlice rd) s = .next t → t.faulted = true → t.fault = 0x0002

/-- R228, R229, R246, R247: a slice with nothing to code. After termination BPC.SLICE writes 0 to `rd`
and changes nothing else; a slice whose thresholds are all out of range leaves coder, contexts and
stores as they were, halves and advances, and reports whether the schedule goes on. -/
def Obligations.SliceWithNothingToCode : Prop :=
  ∀ (s : State) (rd : RegNum), s.faulted = false → s.coder.mode ≠ .idle → s.cs0.valid = true →
    (s.coder.mode = .enc → s.cs1.valid = true ∧ s.cs1.iw = s.cs0.iw ∧ s.cs1.ih = s.cs0.ih) →
    (s.sched.done = true →
      ∃ t, exec (.bpcSlice rd) s = .next t ∧ s.SameButRegisters t ∧
        ∀ r, t.reg r = if r = rd then 0 else s.reg r) ∧
    (s.sched.done = false →
      (s.sched.curband = 0 → ∀ i : Fin 16, ¬ (0 < s.sched.qlo[i].toNat ∧ s.sched.qlo[i].toNat < 0x8000)) →
      (∀ b : Fin 9, s.sched.curband.val = b.val + 1 →
        ¬ (0 < s.sched.qhi[b].toNat ∧ s.sched.qhi[b].toNat < 0x8000)) →
      ∃ t, exec (.bpcSlice rd) s = .next t ∧ t = { s with sched := t.sched, x := t.x } ∧
        s.sched.AdvancedTo t.sched ∧
        ∀ r, t.reg r = if r = rd then (if t.sched.done then 0 else 1) else s.reg r)

/-- R246, R228: with the default arena every slice runs to its end: the schedule advances, `rd` reports
whether it goes on, the source and the work buffer stay, and of the contexts only `Ctx[0..111]` and of
the stores only the decoder-visible one can change, whose buckets stay allocated. -/
def Obligations.SliceCompletes : Prop :=
  ∀ (s : State) (rd : RegNum), s.faulted = false → s.coder.mode ≠ .idle → s.cs0.valid = true →
    (s.coder.mode = .enc → s.cs1.valid = true ∧ s.cs1.iw = s.cs0.iw ∧ s.cs1.ih = s.cs0.ih) →
    s.MemoriesOk → s.cfg.arena = none → s.sched.done = false →
    let target := decide (s.coder.mode = .enc)
    ∃ t, exec (.bpcSlice rd) s = .next t ∧ t.faulted = false ∧
      t = { s with coder := t.coder, ctx := t.ctx, sched := t.sched, cs0 := t.cs0, cs1 := t.cs1,
                   x := t.x } ∧
      s.sched.AdvancedTo t.sched ∧
      (∀ r, t.reg r = if r = rd then (if t.sched.done then 0 else 1) else s.reg r) ∧
      t.coder.mode = s.coder.mode ∧
      (∀ c : Byte, 112 ≤ c.toNat → t.ctxAt c = s.ctxAt c) ∧
      t.store (!target) = s.store (!target) ∧
      (s.store target).SameDescriptor (t.store target) ∧
      ∀ blk bk, (s.store target).Allocated blk bk → (t.store target).Allocated blk bk

/-- R230 to R242, R246: the Code calls of a slice, each with its kind, its context and its bit, in order, and
the value of every coefficient after it. An encoder codes the bits of its source; a decoder codes the
same list of calls with the bits it decodes. With the default arena the slice completes; coder and
contexts are as those calls alone leave them; every coefficient of the decoder-visible store has the value
of R238 to R240 or its old one, and a bucket is allocated if it was or holds a coefficient announced now. -/
def Obligations.SliceCodesTheseCalls : Prop :=
  ∀ (s : State) (rd : RegNum), s.faulted = false → s.coder.mode ≠ .idle → s.cs0.valid = true →
    (s.coder.mode = .enc → s.cs1.valid = true ∧ s.cs1.iw = s.cs0.iw ∧ s.cs1.ih = s.cs0.ih) →
    s.MemoriesOk → s.cfg.arena = none → s.sched.done = false →
    let target := decide (s.coder.mode = .enc)
    ∃ (t u : State) (bits : SliceBits), exec (.bpcSlice rd) s = .next t ∧
      (s.coder.mode = .enc → bits = s.sourceBits) ∧
      State.codeAll (s.sliceCalls bits) s = some u ∧ t.coder = u.coder ∧ t.ctx = u.ctx ∧
      (∀ blk n, n < 1024 → (t.store target).coefRead blk n = s.valueAfterSlice bits blk n) ∧
      ∀ blk bk, bk < 64 → ((t.store target).Allocated blk bk ↔ (s.store target).Allocated blk bk ∨
        ∃ j, j < 16 ∧ s.isAnnounced bits blk (16 * bk + j) = true)

/-- R246, R265: a slice stopped by AllocationError has not advanced and has not written `rd`; the work
buffer and the store it only reads are as they were. -/
def Obligations.SliceAllocationError : Prop :=
  ∀ (s t : State) (rd : RegNum), s.faulted = false → exec (.bpcSlice rd) s = .next t →
    t.faulted = true → t.fault = 0x0002 →
      t.faultInfo = encode (.bpcSlice rd) ∧ t.sched = s.sched ∧ t.x = s.x ∧ t.wb = s.wb ∧
      t.coder.mode = s.coder.mode ∧
      t.store (decide (s.coder.mode ≠ .enc)) = s.store (decide (s.coder.mode ≠ .enc))

/-- R34, R35, R228, R229: after every step the thresholds are the initial ones halved once for each past
slice of their subband, DONE says that all are zero, and CURBIT is at most 24. -/
def Obligations.ScheduleStaysOnCourse : Prop :=
  ∀ s t : State, s.sched.OnCourse s.cfg → step s = .next t → t.sched.OnCourse t.cfg

/-- R232, R233, R248: with equal schedules and with nonzero values in the same places of the encoder's
shadow and the decoder's target, both sides prepare the same flags but for NEW, which only the encoder
can see, exactly where its source has reached the threshold unannounced. -/
def Obligations.BothSidesPrepareAlike : Prop :=
  ∀ (e d : State) (b : Fin 10) (blk n : Nat) (i : Fin 16),
    e.coder.mode = .enc → d.coder.mode = .dec → e.sched = d.sched →
    (e.cs1.coefRead blk n ≠ 0 ↔ d.cs0.coefRead blk n ≠ 0) →
    let t := e.sched.thr b i
    let f := e.prepareCoef b blk n i
    let g := d.prepareCoef b blk n i
    f &&& ~~~ flagNew = g ∧
    (g = flagZero ↔ b = 0 ∧ ¬ (0 < t ∧ t < 0x8000)) ∧
    (g ≠ flagZero → (g = flagActive ↔ d.cs0.coefRead blk n ≠ 0)) ∧
    (f = flagNew ||| flagUnk ↔
      g = flagUnk ∧ (t : Int) ≤ |(e.cs0.coefRead blk n).toInt|)

/-- R238: what activation at threshold `t` writes: the encoder's shadow takes the midpoint of `[t, 2t)`,
the decoder's target a value slightly below it with the decoded sign; the sign is coded by the
balanced coder on no context. -/
def Obligations.ActivationValues : Prop :=
  ∀ (s : State) (blk n t : Nat), s.cfg.arena = none → s.MemoriesOk → n < 1024 →
    0 < t → t < 0x8000 → (∃ k, t = 2 ^ k) →
    (s.coder.mode = .enc → s.cs1.valid = true → blk < s.cs1.nb.toNat →
      ∃ u, s.activate blk n t = .done u ∧ u.ctx = s.ctx ∧ u.cs0 = s.cs0 ∧
        (u.cs1.coefRead blk n).toInt = t + t / 2 ∧
        (s.encodeBalanced (decide ((s.cs0.coefRead blk n).toInt < 0))).coder = u.coder) ∧
    (s.coder.mode = .dec → s.cs0.valid = true → blk < s.cs0.nb.toNat →
      ∃ u, s.activate blk n t = .done u ∧ u.ctx = s.ctx ∧ u.cs1 = s.cs1 ∧
        (u.cs0.coefRead blk n).toInt =
          (if s.decodeBalanced.1 then -1 else 1) * (t + t / 2 - t / 8 : Int) ∧
        s.decodeBalanced.2.coder = u.coder)

/-- R239 to R241: refinement. The encoder's shadow moves by half the threshold towards the source, and the
bit that says which way is coded on context 1 up to three thresholds and by the balanced coder above; the
decoder's target does the same with the bit it decodes by that same kind of call, after the first
refinement has brought it level with the shadow, and keeps its sign. -/
def Obligations.RefinementValues : Prop :=
  ∀ (s : State) (blk n t : Nat), s.cfg.arena = none → s.MemoriesOk → n < 1024 →
    (∃ k, t = 2 ^ k ∧ k ≤ 13) →
    (s.coder.mode = .enc → s.cs1.valid = true → blk < s.cs1.nb.toNat →
      (t : Int) ≤ (s.cs1.coefRead blk n).toInt → (s.cs1.coefRead blk n).toInt + t ≤ 0x8000 →
      let ec := (s.cs1.coefRead blk n).toInt
      let bit := decide (ec ≤ |(s.cs0.coefRead blk n).toInt|)
      let coded := if ec ≤ 3 * t then s.encodeCtx 1 bit else s.encodeBalanced bit
      ∃ u, s.refineEnc blk n t = .done u ∧ u.cs0 = s.cs0 ∧
        u.coder = coded.coder ∧ u.ctx = coded.ctx ∧
        (u.cs1.coefRead blk n).toInt =
          if (s.cs1.coefRead blk n).toInt ≤ |(s.cs0.coefRead blk n).toInt| then
            (s.cs1.coefRead blk n).toInt + t / 2
          else (s.cs1.coefRead blk n).toInt - t + t / 2) ∧
    (s.coder.mode = .dec → s.cs0.valid = true → blk < s.cs0.nb.toNat →
      ∀ ec : Int,
        (ec = 3 * t ∧ |(s.cs0.coefRead blk n).toInt| = 3 * t - t / 4) ∨
          (3 * t < ec ∧ ec + t ≤ 0x8000 ∧ |(s.cs0.coefRead blk n).toInt| = ec) →
        ∃ (u : State) (bit : Bool), s.refineDec blk n t = .done u ∧ u.cs1 = s.cs1 ∧
          |(u.cs0.coefRead blk n).toInt| = (if bit then ec + t / 2 else ec - t + t / 2) ∧
          (0 < (u.cs0.coefRead blk n).toInt ↔ 0 < (s.cs0.coefRead blk n).toInt) ∧
          let coded := if ec ≤ 3 * t then s.decodeCtx 1 else s.decodeBalanced
          bit = coded.1 ∧ u.coder = coded.2.coder ∧ u.ctx = coded.2.ctx)

/-! ## The coefficient stores -/

/-- R201, R205: CS.CREATE makes a valid store with the stated geometry, no bucket and all coefficients 0,
and touches nothing else. -/
def Obligations.CreateStore : Prop :=
  ∀ (s : State) (i : Bool) (ra : RegNum), s.faulted = false → ra.toNat ≤ 14 →
    let w := (s.reg ra).toNat
    let h := (s.reg (ra + 1)).toNat
    if (s.store i).valid = true then
      exec (.csCreate i ra) s = .next (s.takeFault .logicStore (encode (.csCreate i ra)))
    else if w = 0 ∨ h = 0 ∨ 65535 < w ∨ 65535 < h then
      exec (.csCreate i ra) s = .next (s.takeFault .logicOperand (encode (.csCreate i ra)))
    else ∃ st, exec (.csCreate i ra) s = .next (s.setStore i st) ∧ st.valid = true ∧
      st.iw.toNat = w ∧ st.ih.toNat = h ∧ st.bw.toNat = 32 * ((w + 31) / 32) ∧
      st.bh.toNat = 32 * ((h + 31) / 32) ∧
      st.nb.toNat = (st.bw.toNat / 32) * (st.bh.toNat / 32) ∧ st.nb.toNat ≤ Config.nbMax ∧
      st.nalloc = 0 ∧ ∀ blk n, st.coefRead blk n = 0

/-- R206: CS.DESTROY empties a valid store and clears its registers; on any other it is LogicError sub 2. -/
def Obligations.DestroyStore : Prop :=
  ∀ (s : State) (i : Bool), s.faulted = false →
    (if (s.store i).valid = true then exec (.csDestroy i) s = .next (s.setStore i
      { valid := false, iw := 0, ih := 0, bw := 0, bh := 0, nb := 0, buckets := [] })
    else exec (.csDestroy i) s = .next
      { s with faulted := true, fault := 0x0203, faultInfo := encode (.csDestroy i) })

/-- R207, R209: the checks of CS.SCATTER and CS.GATHER, in order; and, with any arena, where CS.SCATTER ends
and what it leaves (R204, R265): up to the first bucket `q` that needs room the arena does not have, every
bucket holds its samples and is allocated if it was or needed to be; from `q` on the store is as it was,
and the command is AllocationError, or complete where `q` is past the last bucket. -/
def Obligations.MoveChecks : Prop :=
  (∀ (s : State) (i : Bool) (ra : RegNum) (c : Instr), c ∈ [Instr.csScatter i ra, .csGather i ra] →
    s.faulted = false →
    let st := s.store i
    let base := (s.reg ra).toNat
    let rs := (s.reg (ra + 1)).toNat
    let stops := fun (f : BitVec 16) => exec c s =
      .next { s with faulted := true, fault := f, faultInfo := encode c }
    if 14 < ra.toNat then stops 0x0004
    else if st.valid = false then stops 0x0203
    else if rs < st.bw.toNat then stops 0x0303
    else if s.cfg.wbWords < base + (st.bh.toNat - 1) * rs + st.bw.toNat then stops 0x0005
    else ∀ t, exec c s = .next t → t.faulted = true → t.fault = 0x0002 ∧ c = .csScatter i ra) ∧
  ∀ (s : State) (i : Bool) (ra : RegNum) (q : Nat), s.faulted = false → s.MemoriesOk →
    let st := s.store i
    let base := (s.reg ra).toNat
    let rs := (s.reg (ra + 1)).toNat
    let sample := fun blk n => s.wb.read
      (base + (32 * (blk / (st.bw.toNat / 32)) + zigzagRow n) * rs +
        32 * (blk % (st.bw.toNat / 32)) + zigzagCol n)
    let needs : Nat → Bool := fun p => !(st.buckets.find p).isSome &&
      (List.range 16).any fun j => decide (sample (p / 64) (16 * (p % 64) + j) ≠ 0)
    let newBefore := fun p => (List.range p).countP needs
    ra.toNat ≤ 14 → st.valid = true → st.bw.toNat ≤ rs →
    base + (st.bh.toNat - 1) * rs + st.bw.toNat ≤ s.cfg.wbWords →
    (∀ p, p < q → needs p = true → st.nalloc + newBefore p < st.arenaLimit s.cfg) →
    q = 64 * st.nb.toNat ∨ (q < 64 * st.nb.toNat ∧ needs q = true ∧
      st.arenaLimit s.cfg ≤ st.nalloc + newBefore q) →
    ∃ st', exec (.csScatter i ra) s = .next (if q = 64 * st.nb.toNat then s.setStore i st' else
        (s.setStore i st').takeFault .allocation (encode (.csScatter i ra))) ∧
      st.SameDescriptor st' ∧ st'.nalloc = st.nalloc + newBefore q ∧
      ∀ blk bk, blk < st.nb.toNat → bk < 64 →
        let p := 64 * blk + bk
        (st'.Allocated blk bk ↔ st.Allocated blk bk ∨ (p < q ∧ needs p = true)) ∧
        ∀ j, j < 16 → st'.coefRead blk (16 * bk + j) =
          if p < q then sample blk (16 * bk + j) else st.coefRead blk (16 * bk + j)

/-- R202: the zigzag order numbers the 32 by 32 samples of a block once each. -/
def Obligations.ZigzagIsABijection : Prop :=
  (∀ n, n < 1024 → zigzagRow n < 32 ∧ zigzagCol n < 32) ∧
  ∀ row col, row < 32 → col < 32 →
    ∃ n, n < 1024 ∧ zigzagRow n = row ∧ zigzagCol n = col ∧
      ∀ m, m < 1024 → zigzagRow m = row → zigzagCol m = col → m = n

/-- R207, R204: with the default arena CS.SCATTER makes every coefficient of the store equal to its sample
of the rectangle, allocates exactly the buckets with a nonzero sample beside those allocated before,
and changes nothing else. -/
def Obligations.ScatterFillsTheStore : Prop :=
  ∀ (s : State) (i : Bool) (ra : RegNum), s.faulted = false → s.MemoriesOk → s.cfg.arena = none →
    let st := s.store i
    let base := (s.reg ra).toNat
    let rs := (s.reg (ra + 1)).toNat
    let sample := fun blk n => s.wb.read
      (base + (32 * (blk / (st.bw.toNat / 32)) + zigzagRow n) * rs +
        32 * (blk % (st.bw.toNat / 32)) + zigzagCol n)
    ra.toNat ≤ 14 → st.valid = true → st.bw.toNat ≤ rs →
    base + (st.bh.toNat - 1) * rs + st.bw.toNat ≤ s.cfg.wbWords →
    ∃ st', exec (.csScatter i ra) s = .next (s.setStore i st') ∧ st.SameDescriptor st' ∧
      ∀ blk, blk < st.nb.toNat →
        (∀ n, n < 1024 → st'.coefRead blk n = sample blk n) ∧
        ∀ bk, bk < 64 → (st'.Allocated blk bk ↔
          st.Allocated blk bk ∨ ∃ j, j < 16 ∧ sample blk (16 * bk + j) ≠ 0)

/-- R209: CS.GATHER writes every sample of the padded rectangle from the store and changes nothing else;
it allocates nothing. -/
def Obligations.GatherFillsTheRectangle : Prop :=
  ∀ (s : State) (i : Bool) (ra : RegNum), s.faulted = false → s.MemoriesOk →
    let st := s.store i
    let base := (s.reg ra).toNat
    let rs := (s.reg (ra + 1)).toNat
    ra.toNat ≤ 14 → st.valid = true → st.bw.toNat ≤ rs →
    base + (st.bh.toNat - 1) * rs + st.bw.toNat ≤ s.cfg.wbWords →
    ∃ t, exec (.csGather i ra) s = .next t ∧ s.SameButWb t ∧
      (∀ blk n, blk < st.nb.toNat → n < 1024 →
        t.wb.read (base + (32 * (blk / (st.bw.toNat / 32)) + zigzagRow n) * rs +
          32 * (blk % (st.bw.toNat / 32)) + zigzagCol n) = st.coefRead blk n) ∧
      ∀ a, (∀ x y, x < st.bw.toNat → y < st.bh.toNat → a ≠ base + y * rs + x) →
        t.wb.read a = s.wb.read a

/-- R38, R211: in every step over which a store stays valid, its descriptor stays, every allocated bucket
stays allocated, and NALLOC does not fall. -/
def Obligations.AllocationIsMonotonic : Prop :=
  ∀ (s t : State) (i : Bool), s.MemoriesOk → step s = .next t →
    (s.store i).valid = true → (t.store i).valid = true →
      (s.store i).SameDescriptor (t.store i) ∧ (s.store i).nalloc ≤ (t.store i).nalloc ∧
      ∀ blk bk, (s.store i).Allocated blk bk → (t.store i).Allocated blk bk

/-- The canonical form and the extent of every memory, the shape of both stores, and the bound of their
arenas hold after every step (R33, R37 to R39, R69, R204). -/
def Obligations.MemoriesStayWellFormed : Prop :=
  ∀ s t : State, s.MemoriesOk → s.ArenasOk → step s = .next t → t.MemoriesOk ∧ t.ArenasOk

/-! ## The WaveletTransform -/

/-- R181: the checks of WT.FWD and WT.BWD, in order; a command that passes them takes no fault and changes
only samples of the rectangle on the `begin`-grid. -/
def Obligations.TransformChecksAndFrame : Prop :=
  ∀ (s : State) (ra : RegNum) (lo hi : Byte) (c : Instr),
    c ∈ [Instr.wtFwd ra lo hi, .wtBwd ra lo hi] → s.faulted = false →
    s.wb.wf s.cfg.wbWords = true →
    let base := (s.reg ra).toNat
    let w := (s.reg (ra + 1)).toNat
    let h := (s.reg (ra + 2)).toNat
    let rs := (s.reg (ra + 3)).toNat
    let scale := fun n => n = 1 ∨ n = 2 ∨ n = 4 ∨ n = 8 ∨ n = 16 ∨ n = 32
    let stops := fun (f : BitVec 16) => exec c s =
      .next { s with faulted := true, fault := f, faultInfo := encode c }
    if 12 < ra.toNat then stops 0x0004
    else if ¬ scale lo.toNat ∨ ¬ scale hi.toNat ∨ hi.toNat < lo.toNat ∨ w = 0 ∨ h = 0 ∨ rs < w then
      stops 0x0303
    else if s.cfg.wbWords < base + (h - 1) * rs + w then stops 0x0005
    else ∃ t, exec c s = .next t ∧ s.SameButWb t ∧ (lo = hi → t = s) ∧
      ∀ a, (∀ x y, x < w → y < h → x % lo.toNat = 0 → y % lo.toNat = 0 → a ≠ base + y * rs + x) →
        t.wb.read a = s.wb.read a

/-- R182, R184 to R186: WT.FWD. First its value on one row at scale 1, written out; then at every scale `g`
on every rectangle: every row on the `g`-grid is lifted as a line (to `mid`), then every column on it, and
no other sample changes; then any range of scales, which is one part of it after the other.

WT.FWD at scale 1 of one row: every odd sample becomes the residual of its prediction
from the even samples, every even sample then absorbs a quarter of its two neighbouring residuals,
the nearest sample of a phase standing in beyond the ends, all modulo `2^16`. -/
def Obligations.ForwardLiftingOfARow : Prop :=
  (∀ (s : State) (ra : RegNum), s.faulted = false → s.wb.wf s.cfg.wbWords = true →
    let base := (s.reg ra).toNat
    let w := (s.reg (ra + 1)).toNat
    ra.toNat ≤ 12 → 2 ≤ w → (s.reg (ra + 2)).toNat = 1 → w ≤ (s.reg (ra + 3)).toNat →
    base + w ≤ s.cfg.wbWords →
    let even := fun (m : Mem 16) (j : Int) =>
      (m.read (base + (min (max j 0) (2 * ((w - 1) / 2) : Nat)).toNat)).toInt
    let odd := fun (m : Mem 16) (j : Int) =>
      (m.read (base + (min (max j 1) ((2 * (w / 2) : Nat) - 1)).toNat)).toInt
    ∃ t, exec (.wtFwd ra 1 2) s = .next t ∧ s.SameButWb t ∧
      ∀ k : Nat, k < w →
        t.wb.read (base + k) = wrap16 (
          if k % 2 = 1 then
            (s.wb.read (base + k)).toInt -
              (-(even s.wb (k - 3)) + 9 * even s.wb (k - 1) + 9 * even s.wb (k + 1)
                - even s.wb (k + 3) + 8) / 16
          else (s.wb.read (base + k)).toInt + (odd t.wb (k - 1) + odd t.wb (k + 1) + 2) / 4)) ∧
  (∀ (s : State) (ra : RegNum) (lo hi : Byte), s.faulted = false → s.wb.wf s.cfg.wbWords = true →
    let base := (s.reg ra).toNat
    let w := (s.reg (ra + 1)).toNat
    let h := (s.reg (ra + 2)).toNat
    let rs := (s.reg (ra + 3)).toNat
    let g := lo.toNat
    ra.toNat ≤ 12 → g = 1 ∨ g = 2 ∨ g = 4 ∨ g = 8 ∨ g = 16 → hi.toNat = 2 * g →
    0 < w → 0 < h → w ≤ rs → base + (h - 1) * rs + w ≤ s.cfg.wbWords →
    ∃ (t : State) (mid : Nat → Sample), exec (.wtFwd ra lo hi) s = .next t ∧ s.SameButWb t ∧
      (∀ y, y < h → y % g = 0 → LiftsTo ((w + g - 1) / g)
        (fun k => s.wb.read (base + y * rs + k * g)) (fun k => mid (base + y * rs + k * g))) ∧
      (∀ x, x < w → x % g = 0 → LiftsTo ((h + g - 1) / g)
        (fun k => mid (base + k * g * rs + x)) (fun k => t.wb.read (base + k * g * rs + x))) ∧
      ∀ a, (∀ x y, x < w → y < h → x % g = 0 → y % g = 0 → a ≠ base + y * rs + x) →
        mid a = s.wb.read a ∧ t.wb.read a = s.wb.read a) ∧
  ∀ (s t u : State) (ra : RegNum) (lo mid hi : Byte), s.faulted = false →
    exec (.wtFwd ra lo mid) s = .next t → t.faulted = false →
    exec (.wtFwd ra mid hi) t = .next u → u.faulted = false → exec (.wtFwd ra lo hi) s = .next u

/-- R188: WT.BWD after WT.FWD with the same operands and scales restores every sample exactly. -/
def Obligations.BackwardUndoesForward : Prop :=
  ∀ (s t u : State) (ra : RegNum) (lo hi : Byte), s.faulted = false →
    s.wb.wf s.cfg.wbWords = true → exec (.wtFwd ra lo hi) s = .next t → t.faulted = false →
    exec (.wtBwd ra lo hi) t = .next u → u = s

/-- R189 to R191: the colour commands. Outside WB they are AddressError; else they run to their end and
change only their three planes, and where the planes are disjoint each sample becomes the component
of the colour function of the three old samples at its index. -/
def Obligations.ColourPlanes : Prop :=
  ∀ (s : State) (ra : RegNum), s.faulted = false → s.wb.wf s.cfg.wbWords = true → ra.toNat ≤ 12 →
    let b0 := (s.reg ra).toNat
    let b1 := (s.reg (ra + 1)).toNat
    let b2 := (s.reg (ra + 2)).toNat
    let n := (s.reg (ra + 3)).toNat
    let low := fun (a : Nat) => (s.wb.read a).extractLsb' 0 8
    let clamped := fun (a : Nat) => BitVec.ofInt 8 (min (max (s.wb.read a).toInt (-128)) 127)
    let disjoint := ∀ i j, i < n → j < n → b0 + i ≠ b1 + j ∧ b0 + i ≠ b2 + j ∧ b1 + i ≠ b2 + j
    let converts := fun (c : Instr) (y0 y1 y2 : Nat → Int) =>
      if s.cfg.wbWords < b0 + n ∨ s.cfg.wbWords < b1 + n ∨ s.cfg.wbWords < b2 + n then
        exec c s = .next { s with faulted := true, fault := 0x0005, faultInfo := encode c }
      else ∃ t, exec c s = .next t ∧ s.SameButWb t ∧
        (∀ a, (∀ i, i < n → a ≠ b0 + i ∧ a ≠ b1 + i ∧ a ≠ b2 + i) → t.wb.read a = s.wb.read a) ∧
        (disjoint → ∀ i, i < n → (t.wb.read (b0 + i)).toInt = y0 i ∧
          (t.wb.read (b1 + i)).toInt = y1 i ∧ (t.wb.read (b2 + i)).toInt = y2 i)
    let ycc := fun i => Config.rgb2ycc (low (b0 + i)) (low (b1 + i)) (low (b2 + i))
    let rgb := fun i => Config.ycc2rgb (clamped (b0 + i)) (clamped (b1 + i)) (clamped (b2 + i))
    converts (.wtRgb2ycc ra) (fun i => (ycc i).1.toInt) (fun i => (ycc i).2.1.toInt)
      (fun i => (ycc i).2.2.toInt) ∧
    converts (.wtYcc2rgb ra) (fun i => ((rgb i).1.toNat : Int)) (fun i => ((rgb i).2.1.toNat : Int))
      (fun i => ((rgb i).2.2.toNat : Int))
end

