-- ==== Sys2Proof/Laws/Mem.lean ====
section
/-! SUPPORT. The laws of memories and bucket maps: what a read sees after a write, and that every
operation keeps the canonical form, in which equal contents are equal data. -/

namespace Sys2Proof.Machine

variable {w : Nat}

@[simp] theorem Mem.read_nil (a : Nat) : Mem.read ([] : Mem w) a = 0 := rfl

theorem Mem.read_cons (b : Nat) (v : BitVec w) (m : Mem w) (a : Nat) :
    Mem.read ((b, v) :: m) a = if b = a then v else Mem.read m a := rfl

theorem Mem.wfFrom_cons (limit lo a : Nat) (v : BitVec w) (m : Mem w) :
    Mem.wfFrom limit lo ((a, v) :: m) = true ↔
      lo ≤ a ∧ a < limit ∧ v ≠ 0 ∧ Mem.wfFrom limit (a + 1) m = true := by
  simp only [Mem.wfFrom, and_assoc, Bool.and_eq_true, decide_eq_true_eq]
  rfl

theorem Mem.wfFrom_mono {limit lo lo' : Nat} (h : lo' ≤ lo) {m : Mem w}
    (hm : Mem.wfFrom limit lo m = true) : Mem.wfFrom limit lo' m = true := by
  cases m with
  | nil => rfl
  | cons c m =>
    obtain ⟨a, v⟩ := c
    rw [Mem.wfFrom_cons] at hm ⊢
    exact ⟨h.trans hm.1, hm.2⟩

theorem Mem.read_below {limit lo a : Nat} (h : a < lo) :
    ∀ {m : Mem w}, Mem.wfFrom limit lo m = true → Mem.read m a = 0
  | [], _ => rfl
  | (b, v) :: m, hm => by
    rw [Mem.wfFrom_cons] at hm
    rw [Mem.read_cons, if_neg (by omega)]
    exact Mem.read_below (by omega) hm.2.2.2

theorem Mem.read_beyond {limit lo a : Nat} (h : limit ≤ a) :
    ∀ {m : Mem w}, Mem.wfFrom limit lo m = true → Mem.read m a = 0
  | [], _ => rfl
  | (b, v) :: m, hm => by
    rw [Mem.wfFrom_cons] at hm
    rw [Mem.read_cons, if_neg (by omega)]
    exact Mem.read_beyond h hm.2.2.2

/-- A write keeps the canonical form from `lo` on. -/
theorem Mem.wfFrom_write {limit a : Nat} (ha : a < limit) (v : BitVec w) :
    ∀ {lo : Nat} {m : Mem w}, lo ≤ a → Mem.wfFrom limit lo m = true →
      Mem.wfFrom limit lo (m.write a v) = true
  | lo, [], hlo, _ => by
    unfold Mem.write
    split
    · rfl
    · next h => exact (Mem.wfFrom_cons ..).2 ⟨hlo, ha, h, rfl⟩
  | lo, (b, u) :: m, hlo, hm => by
    have hm' := (Mem.wfFrom_cons ..).1 hm
    unfold Mem.write
    split
    · split
      · exact hm
      · next hab h =>
        exact (Mem.wfFrom_cons ..).2 ⟨hlo, ha, h, (Mem.wfFrom_cons ..).2 ⟨hab, hm'.2⟩⟩
    · split
      · next hab =>
        subst hab
        split
        · exact Mem.wfFrom_mono (by omega) hm'.2.2.2
        · next h => exact (Mem.wfFrom_cons ..).2 ⟨hlo, ha, h, hm'.2.2.2⟩
      · next h1 h2 =>
        exact (Mem.wfFrom_cons ..).2
          ⟨hm'.1, hm'.2.1, hm'.2.2.1, Mem.wfFrom_write ha v (by omega) hm'.2.2.2⟩

/-- A write below the limit keeps the canonical form. -/
theorem Mem.wf_write {limit a : Nat} {m : Mem w} (hm : m.wf limit = true) (ha : a < limit)
    (v : BitVec w) : (m.write a v).wf limit = true :=
  Mem.wfFrom_write ha v (Nat.zero_le a) hm

/-- What a read of a canonical memory sees after a write: the value written, or what was there. -/
theorem Mem.read_write {limit lo : Nat} (a : Nat) (v : BitVec w) (b : Nat) :
    ∀ {m : Mem w}, Mem.wfFrom limit lo m = true →
      (m.write a v).read b = if b = a then v else m.read b := by
  intro m hm
  induction m generalizing lo with
  | nil =>
    unfold Mem.write
    split
    · next h => subst h; simp [Mem.unlisted]
    · rw [Mem.read_cons]; simp only [eq_comm]
  | cons c m ih =>
    obtain ⟨k, u⟩ := c
    have hm' := (Mem.wfFrom_cons ..).1 hm
    unfold Mem.write
    split
    · next hak =>
      split
      · next h =>
        split
        · next hb =>
          subst hb
          rw [h, Mem.read_cons, if_neg (by omega)]
          exact Mem.read_below (by omega) hm'.2.2.2
        · rfl
      · rw [Mem.read_cons]; simp only [eq_comm]
    · split
      · next hak =>
        subst hak
        split
        · next h =>
          split
          · next hb => subst hb; rw [h]; exact Mem.read_below (by omega) hm'.2.2.2
          · next hb => rw [Mem.read_cons, if_neg (by omega)]
        · rw [Mem.read_cons, Mem.read_cons]
          by_cases hb : b = a
          · simp [hb]
          · simp [hb, Ne.symm hb]
      · next h1 h2 =>
        rw [Mem.read_cons, Mem.read_cons, ih hm'.2.2.2]
        by_cases hb : b = a
        · subst hb; simp [Ne.symm h2]
        · simp [hb]

/-- Writes below the limit keep the canonical form. -/
theorem Mem.wf_writeAll {limit : Nat} :
    ∀ {cells : List (Nat × BitVec w)} {m : Mem w}, m.wf limit = true →
      (∀ c ∈ cells, c.1 < limit) → (m.writeAll cells).wf limit = true
  | [], _, hm, _ => hm
  | c :: cells, m, hm, h =>
    Mem.wf_writeAll (cells := cells) (m := m.write c.1 c.2)
      (Mem.wf_write hm (h c (by simp)) c.2) fun d hd => h d (by simp [hd])

/-- A read at an index that no write of a list names is unchanged by the list. -/
theorem Mem.read_writeAll_of_not_mem {limit : Nat} {b : Nat} :
    ∀ {cells : List (Nat × BitVec w)} {m : Mem w}, m.wf limit = true →
      (∀ c ∈ cells, c.1 < limit) → (∀ c ∈ cells, c.1 ≠ b) →
      (m.writeAll cells).read b = m.read b
  | [], _, _, _, _ => rfl
  | c :: cells, m, hm, h, hb => by
    have := Mem.read_writeAll_of_not_mem (cells := cells) (m := m.write c.1 c.2)
      (Mem.wf_write hm (h c (by simp)) c.2) (fun d hd => h d (by simp [hd]))
      (fun d hd => hb d (by simp [hd]))
    rw [Mem.writeAll, List.foldl_cons]
    exact this.trans (by rw [Mem.read_write _ _ _ hm, if_neg (hb c (by simp)).symm])

/-- A read at an index that a list of writes names last with value `v` sees `v`. -/
theorem Mem.read_writeAll_of_last {limit : Nat} {b : Nat} {v : BitVec w}
    {pre post : List (Nat × BitVec w)} {m : Mem w} (hm : m.wf limit = true)
    (h : ∀ c ∈ pre ++ (b, v) :: post, c.1 < limit) (hb : ∀ c ∈ post, c.1 ≠ b) :
    (m.writeAll (pre ++ (b, v) :: post)).read b = v := by
  have hpre : (m.writeAll pre).wf limit = true :=
    Mem.wf_writeAll hm fun c hc => h c (by simp [hc])
  have hmid : ((m.writeAll pre).write b v).wf limit = true :=
    Mem.wf_write hpre (h (b, v) (by simp)) v
  rw [Mem.writeAll, List.foldl_append, List.foldl_cons]
  have := Mem.read_writeAll_of_not_mem (b := b) hmid (fun c hc => h c (by simp [hc])) hb
  exact this.trans (by rw [Mem.read_write _ _ _ hpre, if_pos rfl])

/-- A memory made of writes is canonical. -/
theorem Mem.wf_ofCells (limit : Nat) (cells : List (Nat × BitVec w)) :
    (Mem.ofCells limit cells).wf limit = true :=
  Mem.wf_writeAll rfl fun c hc => by simpa using (List.mem_filter.1 hc).2

/-- Canonical memories that read alike are equal. -/
theorem Mem.ext {limit lo : Nat} :
    ∀ {m m' : Mem w}, Mem.wfFrom limit lo m = true → Mem.wfFrom limit lo m' = true →
      (∀ a, m.read a = m'.read a) → m = m'
  | [], [], _, _, _ => rfl
  | [], (b, v) :: m', _, hm', h => by
    have h' := (Mem.wfFrom_cons ..).1 hm'
    have := h b
    rw [Mem.read_cons, if_pos rfl] at this
    exact absurd this.symm h'.2.2.1
  | (b, v) :: m, [], hm, _, h => by
    have h' := (Mem.wfFrom_cons ..).1 hm
    have := h b
    rw [Mem.read_cons, if_pos rfl] at this
    exact absurd this h'.2.2.1
  | (b, v) :: m, (b', v') :: m', hm, hm', h => by
    have h1 := (Mem.wfFrom_cons ..).1 hm
    have h2 := (Mem.wfFrom_cons ..).1 hm'
    have hbb : b = b' := by
      rcases Nat.lt_trichotomy b b' with hlt | heq | hgt
      · have := h b
        rw [Mem.read_cons, if_pos rfl, Mem.read_cons, if_neg (by omega),
          Mem.read_below (lo := b' + 1) (by omega) h2.2.2.2] at this
        exact absurd this h1.2.2.1
      · exact heq
      · have := h b'
        rw [Mem.read_cons, if_neg (by omega),
          Mem.read_below (lo := b + 1) (by omega) h1.2.2.2, Mem.read_cons, if_pos rfl] at this
        exact absurd this.symm h2.2.2.1
    subst hbb
    have hv : v = v' := by simpa [Mem.read_cons] using h b
    subst hv
    have : m = m' := Mem.ext h1.2.2.2 h2.2.2.2 fun a => by
      by_cases ha : a < b + 1
      · rw [Mem.read_below ha h1.2.2.2, Mem.read_below ha h2.2.2.2]
      · have := h a
        rwa [Mem.read_cons, if_neg (by omega), Mem.read_cons, if_neg (by omega)] at this
    rw [this]

/-! ## Bucket maps -/

@[simp] theorem BucketMap.find_nil (a : Nat) : BucketMap.find [] a = none := rfl

theorem BucketMap.find_cons (k : Nat) (b : Bucket) (m : BucketMap) (a : Nat) :
    BucketMap.find ((k, b) :: m) a = if k = a then some b else BucketMap.find m a := rfl

theorem BucketMap.wfFrom_cons (limit lo k : Nat) (b : Bucket) (m : BucketMap) :
    BucketMap.wfFrom limit lo ((k, b) :: m) = true ↔
      lo ≤ k ∧ k < limit ∧ BucketMap.wfFrom limit (k + 1) m = true := by
  simp [BucketMap.wfFrom, and_assoc]

/-- What a look-up sees after `put`, in any map. -/
theorem BucketMap.find_put (a : Nat) (v : Bucket) (b : Nat) :
    ∀ m : BucketMap, (m.put a v).find b = if b = a then some v else m.find b
  | [] => by
    unfold BucketMap.put
    rw [BucketMap.find_cons]
    simp only [eq_comm]
  | (k, u) :: m => by
    unfold BucketMap.put
    split
    · rw [BucketMap.find_cons]; simp only [eq_comm]
    · split
      · next hk =>
        subst hk
        rw [BucketMap.find_cons, BucketMap.find_cons]
        by_cases hb : b = a
        · simp [hb]
        · simp [hb, Ne.symm hb]
      · next h1 h2 =>
        rw [BucketMap.find_cons, BucketMap.find_cons, BucketMap.find_put a v b m]
        by_cases hb : b = a
        · subst hb; simp [Ne.symm h2]
        · simp [hb]

/-- `put` keeps the canonical form. -/
theorem BucketMap.wfFrom_put {limit a : Nat} (ha : a < limit) (v : Bucket) :
    ∀ {lo : Nat} {m : BucketMap}, lo ≤ a → BucketMap.wfFrom limit lo m = true →
      BucketMap.wfFrom limit lo (m.put a v) = true
  | _, [], hlo, _ => (BucketMap.wfFrom_cons ..).2 ⟨hlo, ha, rfl⟩
  | lo, (k, u) :: m, hlo, hm => by
    have hm' := (BucketMap.wfFrom_cons ..).1 hm
    unfold BucketMap.put
    split
    · next h => exact (BucketMap.wfFrom_cons ..).2 ⟨hlo, ha, (BucketMap.wfFrom_cons ..).2 ⟨h, hm'.2⟩⟩
    · split
      · next h => subst h; exact (BucketMap.wfFrom_cons ..).2 ⟨hlo, ha, hm'.2.2⟩
      · exact (BucketMap.wfFrom_cons ..).2
          ⟨hm'.1, hm'.2.1, BucketMap.wfFrom_put ha v (by omega) hm'.2.2⟩

/-- `put` below the limit keeps the canonical form. -/
theorem BucketMap.wf_put {limit a : Nat} {m : BucketMap} (hm : m.wf limit = true) (ha : a < limit)
    (v : Bucket) : (m.put a v).wf limit = true :=
  BucketMap.wfFrom_put ha v (Nat.zero_le a) hm

/-- `put` at an allocated key keeps the number of buckets; at another it adds one. -/
theorem BucketMap.length_put {limit a : Nat} (v : Bucket) :
    ∀ {lo : Nat} {m : BucketMap}, BucketMap.wfFrom limit lo m = true →
      (m.put a v).length = if (m.find a).isSome then m.length else m.length + 1
  | _, [], _ => by simp [BucketMap.put, BucketMap.find]
  | lo, (k, u) :: m, hm => by
    have hm' := (BucketMap.wfFrom_cons ..).1 hm
    unfold BucketMap.put
    rw [BucketMap.find_cons]
    split
    · next h =>
      have hnone : BucketMap.find m a = none := by
        have : ∀ {l : Nat} {m : BucketMap}, a < l → BucketMap.wfFrom limit l m = true →
            BucketMap.find m a = none := by
          intro l m
          induction m generalizing l with
          | nil => intros; rfl
          | cons c m ih =>
            obtain ⟨j, x⟩ := c
            intro hl hw
            have hw' := (BucketMap.wfFrom_cons ..).1 hw
            rw [BucketMap.find_cons, if_neg (by omega)]
            exact ih (by omega) hw'.2.2
        exact this (by omega) hm'.2.2
      simp [show ¬ k = a by omega, hnone]
    · split
      · next h => subst h; simp
      · next h1 h2 =>
        simp only [show ¬ k = a from Ne.symm h2, if_false, List.length_cons,
          BucketMap.length_put v hm'.2.2]
        split <;> simp

/-- A canonical map below the limit has no more buckets than the limit. -/
theorem BucketMap.length_le {limit : Nat} :
    ∀ {lo : Nat} {m : BucketMap}, BucketMap.wfFrom limit lo m = true → m.length ≤ limit - lo
  | _, [], _ => by simp
  | lo, (k, u) :: m, hm => by
    have hm' := (BucketMap.wfFrom_cons ..).1 hm
    have := BucketMap.length_le hm'.2.2
    rw [List.length_cons]
    omega

end Sys2Proof.Machine
end

