-- ==== Sys2Proof/Laws/State.lean ====
section
/-! SUPPORT. What each update of the state leaves in each field and what the readers of the state see
after it, so that no proof unfolds a record update. -/

namespace Sys2Proof.Machine

/-! ## `setReg` -/

@[simp] theorem State.setReg_cfg (s : State) (r : RegNum) (v : Word) :
    (s.setReg r v).cfg = s.cfg := rfl

@[simp] theorem State.setReg_x (s : State) (r : RegNum) (v : Word) :
    (s.setReg r v).x = s.x.set r.toNat v r.isLt := rfl

@[simp] theorem State.setReg_faulted (s : State) (r : RegNum) (v : Word) :
    (s.setReg r v).faulted = s.faulted := rfl

@[simp] theorem State.setReg_fault (s : State) (r : RegNum) (v : Word) :
    (s.setReg r v).fault = s.fault := rfl

@[simp] theorem State.setReg_faultInfo (s : State) (r : RegNum) (v : Word) :
    (s.setReg r v).faultInfo = s.faultInfo := rfl

@[simp] theorem State.setReg_coder (s : State) (r : RegNum) (v : Word) :
    (s.setReg r v).coder = s.coder := rfl

@[simp] theorem State.setReg_ctx (s : State) (r : RegNum) (v : Word) :
    (s.setReg r v).ctx = s.ctx := rfl

@[simp] theorem State.setReg_sched (s : State) (r : RegNum) (v : Word) :
    (s.setReg r v).sched = s.sched := rfl

@[simp] theorem State.setReg_cs0 (s : State) (r : RegNum) (v : Word) :
    (s.setReg r v).cs0 = s.cs0 := rfl

@[simp] theorem State.setReg_cs1 (s : State) (r : RegNum) (v : Word) :
    (s.setReg r v).cs1 = s.cs1 := rfl

@[simp] theorem State.setReg_wb (s : State) (r : RegNum) (v : Word) :
    (s.setReg r v).wb = s.wb := rfl

@[simp] theorem State.setReg_port (s : State) (r : RegNum) (v : Word) :
    (s.setReg r v).port = s.port := rfl

@[simp] theorem State.setReg_reply (s : State) (r : RegNum) (v : Word) :
    (s.setReg r v).reply = s.reply := rfl

@[simp] theorem State.setReg_store (s : State) (r : RegNum) (v : Word) (i : Bool) :
    (s.setReg r v).store i = s.store i := rfl

@[simp] theorem State.setReg_ctxAt (s : State) (r : RegNum) (v : Word) (p : Byte) :
    (s.setReg r v).ctxAt p = s.ctxAt p := rfl

/-! ## `setCoder` -/

@[simp] theorem State.setCoder_cfg (s : State) (c : Coder) :
    (s.setCoder c).cfg = s.cfg := rfl

@[simp] theorem State.setCoder_x (s : State) (c : Coder) :
    (s.setCoder c).x = s.x := rfl

@[simp] theorem State.setCoder_faulted (s : State) (c : Coder) :
    (s.setCoder c).faulted = s.faulted := rfl

@[simp] theorem State.setCoder_fault (s : State) (c : Coder) :
    (s.setCoder c).fault = s.fault := rfl

@[simp] theorem State.setCoder_faultInfo (s : State) (c : Coder) :
    (s.setCoder c).faultInfo = s.faultInfo := rfl

@[simp] theorem State.setCoder_coder (s : State) (c : Coder) :
    (s.setCoder c).coder = c := rfl

@[simp] theorem State.setCoder_ctx (s : State) (c : Coder) :
    (s.setCoder c).ctx = s.ctx := rfl

@[simp] theorem State.setCoder_sched (s : State) (c : Coder) :
    (s.setCoder c).sched = s.sched := rfl

@[simp] theorem State.setCoder_cs0 (s : State) (c : Coder) :
    (s.setCoder c).cs0 = s.cs0 := rfl

@[simp] theorem State.setCoder_cs1 (s : State) (c : Coder) :
    (s.setCoder c).cs1 = s.cs1 := rfl

@[simp] theorem State.setCoder_wb (s : State) (c : Coder) :
    (s.setCoder c).wb = s.wb := rfl

@[simp] theorem State.setCoder_port (s : State) (c : Coder) :
    (s.setCoder c).port = s.port := rfl

@[simp] theorem State.setCoder_reply (s : State) (c : Coder) :
    (s.setCoder c).reply = s.reply := rfl

@[simp] theorem State.setCoder_reg (s : State) (c : Coder) (p : RegNum) :
    (s.setCoder c).reg p = s.reg p := rfl

@[simp] theorem State.setCoder_regRun (s : State) (c : Coder) (p : RegNum) (j : Nat) :
    (s.setCoder c).regRun p j = s.regRun p j := rfl

@[simp] theorem State.setCoder_store (s : State) (c : Coder) (i : Bool) :
    (s.setCoder c).store i = s.store i := rfl

@[simp] theorem State.setCoder_ctxAt (s : State) (c : Coder) (p : Byte) :
    (s.setCoder c).ctxAt p = s.ctxAt p := rfl

/-! ## `setCtx` -/

@[simp] theorem State.setCtx_cfg (s : State) (m : Mem 8) :
    (s.setCtx m).cfg = s.cfg := rfl

@[simp] theorem State.setCtx_x (s : State) (m : Mem 8) :
    (s.setCtx m).x = s.x := rfl

@[simp] theorem State.setCtx_faulted (s : State) (m : Mem 8) :
    (s.setCtx m).faulted = s.faulted := rfl

@[simp] theorem State.setCtx_fault (s : State) (m : Mem 8) :
    (s.setCtx m).fault = s.fault := rfl

@[simp] theorem State.setCtx_faultInfo (s : State) (m : Mem 8) :
    (s.setCtx m).faultInfo = s.faultInfo := rfl

@[simp] theorem State.setCtx_coder (s : State) (m : Mem 8) :
    (s.setCtx m).coder = s.coder := rfl

@[simp] theorem State.setCtx_ctx (s : State) (m : Mem 8) :
    (s.setCtx m).ctx = m := rfl

@[simp] theorem State.setCtx_sched (s : State) (m : Mem 8) :
    (s.setCtx m).sched = s.sched := rfl

@[simp] theorem State.setCtx_cs0 (s : State) (m : Mem 8) :
    (s.setCtx m).cs0 = s.cs0 := rfl

@[simp] theorem State.setCtx_cs1 (s : State) (m : Mem 8) :
    (s.setCtx m).cs1 = s.cs1 := rfl

@[simp] theorem State.setCtx_wb (s : State) (m : Mem 8) :
    (s.setCtx m).wb = s.wb := rfl

@[simp] theorem State.setCtx_port (s : State) (m : Mem 8) :
    (s.setCtx m).port = s.port := rfl

@[simp] theorem State.setCtx_reply (s : State) (m : Mem 8) :
    (s.setCtx m).reply = s.reply := rfl

@[simp] theorem State.setCtx_reg (s : State) (m : Mem 8) (p : RegNum) :
    (s.setCtx m).reg p = s.reg p := rfl

@[simp] theorem State.setCtx_regRun (s : State) (m : Mem 8) (p : RegNum) (j : Nat) :
    (s.setCtx m).regRun p j = s.regRun p j := rfl

@[simp] theorem State.setCtx_store (s : State) (m : Mem 8) (i : Bool) :
    (s.setCtx m).store i = s.store i := rfl

/-! ## `setCtxAt` -/

@[simp] theorem State.setCtxAt_cfg (s : State) (c v : Byte) :
    (s.setCtxAt c v).cfg = s.cfg := rfl

@[simp] theorem State.setCtxAt_x (s : State) (c v : Byte) :
    (s.setCtxAt c v).x = s.x := rfl

@[simp] theorem State.setCtxAt_faulted (s : State) (c v : Byte) :
    (s.setCtxAt c v).faulted = s.faulted := rfl

@[simp] theorem State.setCtxAt_fault (s : State) (c v : Byte) :
    (s.setCtxAt c v).fault = s.fault := rfl

@[simp] theorem State.setCtxAt_faultInfo (s : State) (c v : Byte) :
    (s.setCtxAt c v).faultInfo = s.faultInfo := rfl

@[simp] theorem State.setCtxAt_coder (s : State) (c v : Byte) :
    (s.setCtxAt c v).coder = s.coder := rfl

@[simp] theorem State.setCtxAt_ctx (s : State) (c v : Byte) :
    (s.setCtxAt c v).ctx = s.ctx.write c.toNat v := rfl

@[simp] theorem State.setCtxAt_sched (s : State) (c v : Byte) :
    (s.setCtxAt c v).sched = s.sched := rfl

@[simp] theorem State.setCtxAt_cs0 (s : State) (c v : Byte) :
    (s.setCtxAt c v).cs0 = s.cs0 := rfl

@[simp] theorem State.setCtxAt_cs1 (s : State) (c v : Byte) :
    (s.setCtxAt c v).cs1 = s.cs1 := rfl

@[simp] theorem State.setCtxAt_wb (s : State) (c v : Byte) :
    (s.setCtxAt c v).wb = s.wb := rfl

@[simp] theorem State.setCtxAt_port (s : State) (c v : Byte) :
    (s.setCtxAt c v).port = s.port := rfl

@[simp] theorem State.setCtxAt_reply (s : State) (c v : Byte) :
    (s.setCtxAt c v).reply = s.reply := rfl

@[simp] theorem State.setCtxAt_reg (s : State) (c v : Byte) (p : RegNum) :
    (s.setCtxAt c v).reg p = s.reg p := rfl

@[simp] theorem State.setCtxAt_regRun (s : State) (c v : Byte) (p : RegNum) (j : Nat) :
    (s.setCtxAt c v).regRun p j = s.regRun p j := rfl

@[simp] theorem State.setCtxAt_store (s : State) (c v : Byte) (i : Bool) :
    (s.setCtxAt c v).store i = s.store i := rfl

/-! ## `setSched` -/

@[simp] theorem State.setSched_cfg (s : State) (q : Schedule) :
    (s.setSched q).cfg = s.cfg := rfl

@[simp] theorem State.setSched_x (s : State) (q : Schedule) :
    (s.setSched q).x = s.x := rfl

@[simp] theorem State.setSched_faulted (s : State) (q : Schedule) :
    (s.setSched q).faulted = s.faulted := rfl

@[simp] theorem State.setSched_fault (s : State) (q : Schedule) :
    (s.setSched q).fault = s.fault := rfl

@[simp] theorem State.setSched_faultInfo (s : State) (q : Schedule) :
    (s.setSched q).faultInfo = s.faultInfo := rfl

@[simp] theorem State.setSched_coder (s : State) (q : Schedule) :
    (s.setSched q).coder = s.coder := rfl

@[simp] theorem State.setSched_ctx (s : State) (q : Schedule) :
    (s.setSched q).ctx = s.ctx := rfl

@[simp] theorem State.setSched_sched (s : State) (q : Schedule) :
    (s.setSched q).sched = q := rfl

@[simp] theorem State.setSched_cs0 (s : State) (q : Schedule) :
    (s.setSched q).cs0 = s.cs0 := rfl

@[simp] theorem State.setSched_cs1 (s : State) (q : Schedule) :
    (s.setSched q).cs1 = s.cs1 := rfl

@[simp] theorem State.setSched_wb (s : State) (q : Schedule) :
    (s.setSched q).wb = s.wb := rfl

@[simp] theorem State.setSched_port (s : State) (q : Schedule) :
    (s.setSched q).port = s.port := rfl

@[simp] theorem State.setSched_reply (s : State) (q : Schedule) :
    (s.setSched q).reply = s.reply := rfl

@[simp] theorem State.setSched_reg (s : State) (q : Schedule) (p : RegNum) :
    (s.setSched q).reg p = s.reg p := rfl

@[simp] theorem State.setSched_regRun (s : State) (q : Schedule) (p : RegNum) (j : Nat) :
    (s.setSched q).regRun p j = s.regRun p j := rfl

@[simp] theorem State.setSched_store (s : State) (q : Schedule) (i : Bool) :
    (s.setSched q).store i = s.store i := rfl

@[simp] theorem State.setSched_ctxAt (s : State) (q : Schedule) (p : Byte) :
    (s.setSched q).ctxAt p = s.ctxAt p := rfl

/-! ## `setWb` -/

@[simp] theorem State.setWb_cfg (s : State) (m : Mem 16) :
    (s.setWb m).cfg = s.cfg := rfl

@[simp] theorem State.setWb_x (s : State) (m : Mem 16) :
    (s.setWb m).x = s.x := rfl

@[simp] theorem State.setWb_faulted (s : State) (m : Mem 16) :
    (s.setWb m).faulted = s.faulted := rfl

@[simp] theorem State.setWb_fault (s : State) (m : Mem 16) :
    (s.setWb m).fault = s.fault := rfl

@[simp] theorem State.setWb_faultInfo (s : State) (m : Mem 16) :
    (s.setWb m).faultInfo = s.faultInfo := rfl

@[simp] theorem State.setWb_coder (s : State) (m : Mem 16) :
    (s.setWb m).coder = s.coder := rfl

@[simp] theorem State.setWb_ctx (s : State) (m : Mem 16) :
    (s.setWb m).ctx = s.ctx := rfl

@[simp] theorem State.setWb_sched (s : State) (m : Mem 16) :
    (s.setWb m).sched = s.sched := rfl

@[simp] theorem State.setWb_cs0 (s : State) (m : Mem 16) :
    (s.setWb m).cs0 = s.cs0 := rfl

@[simp] theorem State.setWb_cs1 (s : State) (m : Mem 16) :
    (s.setWb m).cs1 = s.cs1 := rfl

@[simp] theorem State.setWb_wb (s : State) (m : Mem 16) :
    (s.setWb m).wb = m := rfl

@[simp] theorem State.setWb_port (s : State) (m : Mem 16) :
    (s.setWb m).port = s.port := rfl

@[simp] theorem State.setWb_reply (s : State) (m : Mem 16) :
    (s.setWb m).reply = s.reply := rfl

@[simp] theorem State.setWb_reg (s : State) (m : Mem 16) (p : RegNum) :
    (s.setWb m).reg p = s.reg p := rfl

@[simp] theorem State.setWb_regRun (s : State) (m : Mem 16) (p : RegNum) (j : Nat) :
    (s.setWb m).regRun p j = s.regRun p j := rfl

@[simp] theorem State.setWb_store (s : State) (m : Mem 16) (i : Bool) :
    (s.setWb m).store i = s.store i := rfl

@[simp] theorem State.setWb_ctxAt (s : State) (m : Mem 16) (p : Byte) :
    (s.setWb m).ctxAt p = s.ctxAt p := rfl

/-! ## `setReply` -/

@[simp] theorem State.setReply_cfg (s : State) (r : Reply) :
    (s.setReply r).cfg = s.cfg := rfl

@[simp] theorem State.setReply_x (s : State) (r : Reply) :
    (s.setReply r).x = s.x := rfl

@[simp] theorem State.setReply_faulted (s : State) (r : Reply) :
    (s.setReply r).faulted = s.faulted := rfl

@[simp] theorem State.setReply_fault (s : State) (r : Reply) :
    (s.setReply r).fault = s.fault := rfl

@[simp] theorem State.setReply_faultInfo (s : State) (r : Reply) :
    (s.setReply r).faultInfo = s.faultInfo := rfl

@[simp] theorem State.setReply_coder (s : State) (r : Reply) :
    (s.setReply r).coder = s.coder := rfl

@[simp] theorem State.setReply_ctx (s : State) (r : Reply) :
    (s.setReply r).ctx = s.ctx := rfl

@[simp] theorem State.setReply_sched (s : State) (r : Reply) :
    (s.setReply r).sched = s.sched := rfl

@[simp] theorem State.setReply_cs0 (s : State) (r : Reply) :
    (s.setReply r).cs0 = s.cs0 := rfl

@[simp] theorem State.setReply_cs1 (s : State) (r : Reply) :
    (s.setReply r).cs1 = s.cs1 := rfl

@[simp] theorem State.setReply_wb (s : State) (r : Reply) :
    (s.setReply r).wb = s.wb := rfl

@[simp] theorem State.setReply_port (s : State) (r : Reply) :
    (s.setReply r).port = s.port := rfl

@[simp] theorem State.setReply_reply (s : State) (r : Reply) :
    (s.setReply r).reply = r := rfl

@[simp] theorem State.setReply_reg (s : State) (r : Reply) (p : RegNum) :
    (s.setReply r).reg p = s.reg p := rfl

@[simp] theorem State.setReply_regRun (s : State) (r : Reply) (p : RegNum) (j : Nat) :
    (s.setReply r).regRun p j = s.regRun p j := rfl

@[simp] theorem State.setReply_store (s : State) (r : Reply) (i : Bool) :
    (s.setReply r).store i = s.store i := rfl

@[simp] theorem State.setReply_ctxAt (s : State) (r : Reply) (p : Byte) :
    (s.setReply r).ctxAt p = s.ctxAt p := rfl

/-! ## `takeFault` -/

@[simp] theorem State.takeFault_cfg (s : State) (k : FaultKind) (w : Word) :
    (s.takeFault k w).cfg = s.cfg := rfl

@[simp] theorem State.takeFault_x (s : State) (k : FaultKind) (w : Word) :
    (s.takeFault k w).x = s.x := rfl

@[simp] theorem State.takeFault_faulted (s : State) (k : FaultKind) (w : Word) :
    (s.takeFault k w).faulted = true := rfl

@[simp] theorem State.takeFault_fault (s : State) (k : FaultKind) (w : Word) :
    (s.takeFault k w).fault = faultWord k := rfl

@[simp] theorem State.takeFault_faultInfo (s : State) (k : FaultKind) (w : Word) :
    (s.takeFault k w).faultInfo = w := rfl

@[simp] theorem State.takeFault_coder (s : State) (k : FaultKind) (w : Word) :
    (s.takeFault k w).coder = s.coder := rfl

@[simp] theorem State.takeFault_ctx (s : State) (k : FaultKind) (w : Word) :
    (s.takeFault k w).ctx = s.ctx := rfl

@[simp] theorem State.takeFault_sched (s : State) (k : FaultKind) (w : Word) :
    (s.takeFault k w).sched = s.sched := rfl

@[simp] theorem State.takeFault_cs0 (s : State) (k : FaultKind) (w : Word) :
    (s.takeFault k w).cs0 = s.cs0 := rfl

@[simp] theorem State.takeFault_cs1 (s : State) (k : FaultKind) (w : Word) :
    (s.takeFault k w).cs1 = s.cs1 := rfl

@[simp] theorem State.takeFault_wb (s : State) (k : FaultKind) (w : Word) :
    (s.takeFault k w).wb = s.wb := rfl

@[simp] theorem State.takeFault_port (s : State) (k : FaultKind) (w : Word) :
    (s.takeFault k w).port = s.port := rfl

@[simp] theorem State.takeFault_reply (s : State) (k : FaultKind) (w : Word) :
    (s.takeFault k w).reply = s.reply := rfl

@[simp] theorem State.takeFault_reg (s : State) (k : FaultKind) (w : Word) (p : RegNum) :
    (s.takeFault k w).reg p = s.reg p := rfl

@[simp] theorem State.takeFault_regRun (s : State) (k : FaultKind) (w : Word) (p : RegNum) (j : Nat) :
    (s.takeFault k w).regRun p j = s.regRun p j := rfl

@[simp] theorem State.takeFault_store (s : State) (k : FaultKind) (w : Word) (i : Bool) :
    (s.takeFault k w).store i = s.store i := rfl

@[simp] theorem State.takeFault_ctxAt (s : State) (k : FaultKind) (w : Word) (p : Byte) :
    (s.takeFault k w).ctxAt p = s.ctxAt p := rfl

/-! ## `popPort` -/

@[simp] theorem State.popPort_cfg (s : State) :
    (s.popPort).cfg = s.cfg := rfl

@[simp] theorem State.popPort_x (s : State) :
    (s.popPort).x = s.x := rfl

@[simp] theorem State.popPort_faulted (s : State) :
    (s.popPort).faulted = s.faulted := rfl

@[simp] theorem State.popPort_fault (s : State) :
    (s.popPort).fault = s.fault := rfl

@[simp] theorem State.popPort_faultInfo (s : State) :
    (s.popPort).faultInfo = s.faultInfo := rfl

@[simp] theorem State.popPort_coder (s : State) :
    (s.popPort).coder = s.coder := rfl

@[simp] theorem State.popPort_ctx (s : State) :
    (s.popPort).ctx = s.ctx := rfl

@[simp] theorem State.popPort_sched (s : State) :
    (s.popPort).sched = s.sched := rfl

@[simp] theorem State.popPort_cs0 (s : State) :
    (s.popPort).cs0 = s.cs0 := rfl

@[simp] theorem State.popPort_cs1 (s : State) :
    (s.popPort).cs1 = s.cs1 := rfl

@[simp] theorem State.popPort_wb (s : State) :
    (s.popPort).wb = s.wb := rfl

@[simp] theorem State.popPort_port (s : State) :
    (s.popPort).port = s.port.tail := rfl

@[simp] theorem State.popPort_reply (s : State) :
    (s.popPort).reply = s.reply := rfl

@[simp] theorem State.popPort_reg (s : State) (p : RegNum) :
    (s.popPort).reg p = s.reg p := rfl

@[simp] theorem State.popPort_regRun (s : State) (p : RegNum) (j : Nat) :
    (s.popPort).regRun p j = s.regRun p j := rfl

@[simp] theorem State.popPort_store (s : State) (i : Bool) :
    (s.popPort).store i = s.store i := rfl

@[simp] theorem State.popPort_ctxAt (s : State) (p : Byte) :
    (s.popPort).ctxAt p = s.ctxAt p := rfl

/-! ## `offer` -/

@[simp] theorem State.offer_cfg (s : State) (w : Word) :
    (s.offer w).cfg = s.cfg := rfl

@[simp] theorem State.offer_x (s : State) (w : Word) :
    (s.offer w).x = s.x := rfl

@[simp] theorem State.offer_faulted (s : State) (w : Word) :
    (s.offer w).faulted = s.faulted := rfl

@[simp] theorem State.offer_fault (s : State) (w : Word) :
    (s.offer w).fault = s.fault := rfl

@[simp] theorem State.offer_faultInfo (s : State) (w : Word) :
    (s.offer w).faultInfo = s.faultInfo := rfl

@[simp] theorem State.offer_coder (s : State) (w : Word) :
    (s.offer w).coder = s.coder := rfl

@[simp] theorem State.offer_ctx (s : State) (w : Word) :
    (s.offer w).ctx = s.ctx := rfl

@[simp] theorem State.offer_sched (s : State) (w : Word) :
    (s.offer w).sched = s.sched := rfl

@[simp] theorem State.offer_cs0 (s : State) (w : Word) :
    (s.offer w).cs0 = s.cs0 := rfl

@[simp] theorem State.offer_cs1 (s : State) (w : Word) :
    (s.offer w).cs1 = s.cs1 := rfl

@[simp] theorem State.offer_wb (s : State) (w : Word) :
    (s.offer w).wb = s.wb := rfl

@[simp] theorem State.offer_port (s : State) (w : Word) :
    (s.offer w).port = .command w :: s.port := rfl

@[simp] theorem State.offer_reply (s : State) (w : Word) :
    (s.offer w).reply = s.reply := rfl

@[simp] theorem State.offer_reg (s : State) (w : Word) (p : RegNum) :
    (s.offer w).reg p = s.reg p := rfl

@[simp] theorem State.offer_regRun (s : State) (w : Word) (p : RegNum) (j : Nat) :
    (s.offer w).regRun p j = s.regRun p j := rfl

@[simp] theorem State.offer_store (s : State) (w : Word) (i : Bool) :
    (s.offer w).store i = s.store i := rfl

@[simp] theorem State.offer_ctxAt (s : State) (w : Word) (p : Byte) :
    (s.offer w).ctxAt p = s.ctxAt p := rfl

/-! ## `resetCommand` -/

@[simp] theorem State.resetCommand_cfg (s : State) :
    (s.resetCommand).cfg = s.cfg := rfl

@[simp] theorem State.resetCommand_x (s : State) :
    (s.resetCommand).x = Vector.replicate 16 0 := rfl

@[simp] theorem State.resetCommand_faulted (s : State) :
    (s.resetCommand).faulted = false := rfl

@[simp] theorem State.resetCommand_fault (s : State) :
    (s.resetCommand).fault = 0 := rfl

@[simp] theorem State.resetCommand_faultInfo (s : State) :
    (s.resetCommand).faultInfo = 0 := rfl

@[simp] theorem State.resetCommand_coder (s : State) :
    (s.resetCommand).coder = Coder.reset := rfl

@[simp] theorem State.resetCommand_ctx (s : State) :
    (s.resetCommand).ctx = [] := rfl

@[simp] theorem State.resetCommand_sched (s : State) :
    (s.resetCommand).sched = Schedule.initial s.cfg := rfl

@[simp] theorem State.resetCommand_cs0 (s : State) :
    (s.resetCommand).cs0 = Store.empty := rfl

@[simp] theorem State.resetCommand_cs1 (s : State) :
    (s.resetCommand).cs1 = Store.empty := rfl

@[simp] theorem State.resetCommand_wb (s : State) :
    (s.resetCommand).wb = s.wb := rfl

@[simp] theorem State.resetCommand_port (s : State) :
    (s.resetCommand).port = s.port := rfl

@[simp] theorem State.resetCommand_reply (s : State) :
    (s.resetCommand).reply = s.reply := rfl

/-! ## `setStore` -/

@[simp] theorem State.setStore_cfg (s : State) (i : Bool) (st : Store) :
    (s.setStore i st).cfg = s.cfg := by cases i <;> rfl

@[simp] theorem State.setStore_x (s : State) (i : Bool) (st : Store) :
    (s.setStore i st).x = s.x := by cases i <;> rfl

@[simp] theorem State.setStore_faulted (s : State) (i : Bool) (st : Store) :
    (s.setStore i st).faulted = s.faulted := by cases i <;> rfl

@[simp] theorem State.setStore_fault (s : State) (i : Bool) (st : Store) :
    (s.setStore i st).fault = s.fault := by cases i <;> rfl

@[simp] theorem State.setStore_faultInfo (s : State) (i : Bool) (st : Store) :
    (s.setStore i st).faultInfo = s.faultInfo := by cases i <;> rfl

@[simp] theorem State.setStore_coder (s : State) (i : Bool) (st : Store) :
    (s.setStore i st).coder = s.coder := by cases i <;> rfl

@[simp] theorem State.setStore_ctx (s : State) (i : Bool) (st : Store) :
    (s.setStore i st).ctx = s.ctx := by cases i <;> rfl

@[simp] theorem State.setStore_sched (s : State) (i : Bool) (st : Store) :
    (s.setStore i st).sched = s.sched := by cases i <;> rfl

@[simp] theorem State.setStore_wb (s : State) (i : Bool) (st : Store) :
    (s.setStore i st).wb = s.wb := by cases i <;> rfl

@[simp] theorem State.setStore_port (s : State) (i : Bool) (st : Store) :
    (s.setStore i st).port = s.port := by cases i <;> rfl

@[simp] theorem State.setStore_reply (s : State) (i : Bool) (st : Store) :
    (s.setStore i st).reply = s.reply := by cases i <;> rfl

@[simp] theorem State.setStore_cs0 (s : State) (i : Bool) (st : Store) :
    (s.setStore i st).cs0 = if i then s.cs0 else st := by cases i <;> rfl

@[simp] theorem State.setStore_cs1 (s : State) (i : Bool) (st : Store) :
    (s.setStore i st).cs1 = if i then st else s.cs1 := by cases i <;> rfl

@[simp] theorem State.setStore_store (s : State) (i j : Bool) (st : Store) :
    (s.setStore i st).store j = if j = i then st else s.store j := by
  cases i <;> cases j <;> rfl

@[simp] theorem State.setStore_reg (s : State) (i : Bool) (st : Store) (r : RegNum) :
    (s.setStore i st).reg r = s.reg r := by cases i <;> rfl

@[simp] theorem State.setStore_regRun (s : State) (i : Bool) (st : Store) (r : RegNum) (k : Nat) :
    (s.setStore i st).regRun r k = s.regRun r k := by cases i <;> rfl

@[simp] theorem State.setStore_ctxAt (s : State) (i : Bool) (st : Store) (c : Byte) :
    (s.setStore i st).ctxAt c = s.ctxAt c := by cases i <;> rfl

/-! ## Readers -/

@[simp] theorem State.store_false (s : State) : s.store false = s.cs0 := rfl

@[simp] theorem State.store_true (s : State) : s.store true = s.cs1 := rfl

/-- What the register file reads as after one register is written. -/
theorem State.setReg_reg (s : State) (r k : RegNum) (v : Word) :
    (s.setReg r v).reg k = if k = r then v else s.reg k := by
  unfold State.reg State.setReg
  simp only [Vector.getElem_set, BitVec.toNat_inj]
  simp only [eq_comm]

@[simp] theorem State.setReg_reg_self (s : State) (r : RegNum) (v : Word) :
    (s.setReg r v).reg r = v := by rw [State.setReg_reg, if_pos rfl]

@[simp] theorem State.setReg_reg_ne (s : State) {r k : RegNum} (v : Word) (h : k ≠ r) :
    (s.setReg r v).reg k = s.reg k := by rw [State.setReg_reg, if_neg h]

/-- Register files that read alike are equal. -/
theorem State.x_ext {s t : State} (h : ∀ r : RegNum, s.reg r = t.reg r) : s.x = t.x := by
  apply Vector.ext
  intro i hi
  exact h ⟨i, hi⟩

/-- A context reads as it was written, and the others as before, in a canonical context memory. -/
theorem State.setCtxAt_ctxAt {s : State} (h : s.ctx.wf 256 = true) (c d v : Byte) :
    (s.setCtxAt c v).ctxAt d = if d = c then v else s.ctxAt d := by
  unfold State.ctxAt State.setCtxAt
  simp only [State.setCtx_ctx, Mem.read_write _ _ _ h, BitVec.toNat_inj]

end Sys2Proof.Machine
end

