-- ==== Sys2Proof/Laws/Coder.lean ====
section
/-! SUPPORT. What the helper procedures of the ArithmeticCoder can do (R143 to R163): which registers they
change, and that they keep the bounds of R32, R154 and R164. -/

namespace Sys2Proof.Machine

/-! ## The split points -/

theorem clampSplit_le (z a : Nat) : clampSplit z a ≤ z := Nat.min_le_left ..

/-- Clamp leaves a split up to 0x8000 unchanged (R143). -/
theorem clampSplit_low {z : Nat} (a : Nat) (h : z ≤ 0x8000) : clampSplit z a = z := by
  unfold clampSplit
  rw [Nat.shiftRight_eq_div_pow]
  omega

/-- Clamp keeps the split in the window, above A, and not below 0x8000 if it was not (R143, R154). -/
theorem clampSplit_bounds {a p : Nat} (ha : a < 0x8000) (hp : 1 ≤ p) (hp' : p ≤ 0x8000) :
    a < clampSplit (a + p) a ∧ clampSplit (a + p) a < 0xC000 ∧
      clampSplit (a + p) a ≤ a + p ∧ (0x8000 ≤ a + p → 0x8000 ≤ clampSplit (a + p) a) := by
  unfold clampSplit
  rw [Nat.shiftRight_eq_div_pow]
  omega

theorem splitPass_bounds {a : Nat} (ha : a < 0x8000) :
    0x8000 ≤ splitPass a ∧ a < splitPass a ∧ splitPass a < 0xC000 ∧ splitPass a ≤ a + 0x8000 := by
  unfold splitPass
  rw [Nat.shiftRight_eq_div_pow]
  omega

theorem splitBalanced_bounds {a : Nat} (ha : a < 0x8000) :
    0x8000 ≤ splitBalanced a ∧ a < splitBalanced a ∧ splitBalanced a < 0xC000 ∧
      splitBalanced a ≤ a + 0x8000 := by
  unfold splitBalanced
  rw [Nat.shiftRight_eq_div_pow]
  omega

theorem prob_bounds (c : Config) (k : Byte) : 1 ≤ c.prob k ∧ c.prob k ≤ 0x8000 := by
  unfold Config.prob
  have := (c.probPred[k.toNat]'k.isLt).isLt
  omega

/-! ## Encoder -/

/-- `c'` differs from `c` in the byte assembler at most, and has `out` more output. -/
def Coder.Assembles (c c' : Coder) (out : List Byte) : Prop :=
  c' = { c with delay := c'.delay, obyte := c'.obyte, scount := c'.scount,
                output := c.output ++ out }

theorem Coder.Assembles.refl (c : Coder) : c.Assembles c [] := by
  simp [Coder.Assembles]

theorem Coder.Assembles.trans {c c' c'' : Coder} {o o' : List Byte} (h : c.Assembles c' o)
    (h' : c'.Assembles c'' o') : c.Assembles c'' (o ++ o') := by
  unfold Coder.Assembles at *
  rw [h'] 
  rw [h]
  simp

/-- What OutBit can do (R145): it changes the byte assembler, appends at most one byte, and keeps the
assembler's bounds. -/
theorem Coder.outBit_spec (c : Coder) (b : Bool) :
    (∃ out, out.length ≤ 1 ∧ c.Assembles (c.outBit b) out) ∧
      (c.AssemblerOk → (c.outBit b).AssemblerOk) := by
  unfold Coder.outBit
  split
  · next hd =>
    split
    · next hf =>
      refine ⟨⟨[], by simp, by simp [Coder.Assembles]⟩, fun h => ?_⟩
      obtain ⟨h1, h2, h3⟩ := h
      refine ⟨?_, fun _ => h2 hd, h3⟩
      show (c.delay - 1).toNat ≤ 25
      rw [BitVec.toNat_sub_of_le (by rw [BitVec.le_def]; exact hd)]
      omega
    · exact ⟨⟨[], by simp, Coder.Assembles.refl c⟩, id⟩
  · next hd =>
    dsimp only
    split
    · refine ⟨⟨[(c.obyte <<< 1) ||| (if b then 1 else 0)], by simp, ?_⟩, fun h => ⟨h.1, fun h' => absurd h' hd, by simp⟩⟩
      simp [Coder.Assembles, Coder.emitByte]
    · next hs =>
      refine ⟨⟨[], by simp, by simp [Coder.Assembles]⟩, fun h => ⟨h.1, fun h' => absurd h' hd, ?_⟩⟩
      have h3 := h.2.2
      have hlt := c.scount.isLt
      have hsc : (c.scount + 1).toNat = c.scount.toNat + 1 := by
        rw [BitVec.toNat_add]
        simp
        omega
      show ((c.obyte <<< 1) ||| (if b then 1 else 0)).toNat < 2 ^ (c.scount + 1).toNat
      rw [hsc, BitVec.toNat_or]
      apply Nat.or_lt_two_pow
      · rw [BitVec.toNat_shiftLeft, Nat.shiftLeft_eq]
        refine lt_of_le_of_lt (Nat.mod_le ..) ?_
        rw [pow_succ]
        omega
      · have : (if b = true then 1 else 0 : BitVec 8).toNat ≤ 1 := by cases b <;> simp
        have h1 : 2 ≤ 2 ^ (c.scount.toNat + 1) := by
          rw [pow_succ]; have := Nat.one_le_two_pow (n := c.scount.toNat); omega
        omega

theorem Coder.outBits_spec (n : Nat) (b : Bool) (c : Coder) :
    (∃ out, out.length ≤ n ∧ c.Assembles (Coder.outBits n b c) out) ∧
      (c.AssemblerOk → (Coder.outBits n b c).AssemblerOk) := by
  induction n generalizing c with
  | zero => exact ⟨⟨[], by simp, Coder.Assembles.refl c⟩, id⟩
  | succ n ih =>
    obtain ⟨⟨o, ho, h⟩, hk⟩ := c.outBit_spec b
    obtain ⟨⟨o', ho', h'⟩, hk'⟩ := ih (c.outBit b)
    exact ⟨⟨o ++ o', by simp; omega, h.trans h'⟩, fun hc => hk' (hk hc)⟩

/-- `c'` differs from `c` in the encoder's carry and byte-assembly registers at most, and has `out` more
output. -/
def Coder.Emits (c c' : Coder) (out : List Byte) : Prop :=
  c' = { c with buffer := c'.buffer, nrun := c'.nrun, delay := c'.delay, obyte := c'.obyte,
                scount := c'.scount, output := c.output ++ out }

theorem Coder.Assembles.emits {c c' : Coder} {o : List Byte} (h : c.Assembles c' o) :
    c.Emits c' o := by
  unfold Coder.Assembles at h
  unfold Coder.Emits
  rw [h]

theorem Coder.Emits.trans {c c' c'' : Coder} {o o' : List Byte} (h : c.Emits c' o)
    (h' : c'.Emits c'' o') : c.Emits c'' (o ++ o') := by
  unfold Coder.Emits at *
  rw [h']
  rw [h]
  simp

theorem Coder.AssemblerOk.congr {c c' : Coder} (hd : c'.delay = c.delay) (ho : c'.obyte = c.obyte)
    (hs : c'.scount = c.scount) (h : c.AssemblerOk) : c'.AssemblerOk := by
  unfold Coder.AssemblerOk at *
  rwa [hd, ho, hs]

theorem Coder.releaseRun_spec (c : Coder) (b : Bool) :
    (∃ out, c.Emits (c.releaseRun b) out) ∧ (c.AssemblerOk → (c.releaseRun b).AssemblerOk) ∧
      (c.releaseRun b).nrun = 0 ∧ (c.releaseRun b).buffer = c.buffer := by
  obtain ⟨⟨o, _, h⟩, hk⟩ := Coder.outBits_spec c.nrun b c
  unfold Coder.Assembles at h
  refine ⟨⟨o, ?_⟩, fun hc => (hk hc).congr rfl rfl rfl, rfl, ?_⟩
  · unfold Coder.Emits Coder.releaseRun
    rw [h]
  · unfold Coder.releaseRun
    rw [h]

/-- What ZEmit can do (R144): it changes the carry and byte-assembly registers alone and appends to
OUT. -/
theorem Coder.zEmit_spec (c : Coder) (b : Int) :
    (∃ out, c.Emits (c.zEmit b) out) ∧ (c.AssemblerOk → (c.zEmit b).AssemblerOk) := by
  unfold Coder.zEmit
  dsimp only
  set c' : Coder := { c with buffer := BitVec.ofInt 24 (2 * (c.buffer.toNat : Int) + b) } with hc'
  have h0 : c.Emits c' [] := by simp [Coder.Emits, hc']
  have hk0 : c.AssemblerOk → c'.AssemblerOk := fun h => h.congr rfl rfl rfl
  have key : ∀ x y, (∃ out, c.Emits ((c'.outBit x).releaseRun y) out) ∧
      (c.AssemblerOk → ((c'.outBit x).releaseRun y).AssemblerOk) := by
    intro x y
    obtain ⟨⟨o, _, h⟩, hk⟩ := c'.outBit_spec x
    obtain ⟨⟨o', h'⟩, hk', _, _⟩ := (c'.outBit x).releaseRun_spec y
    exact ⟨⟨_, (h0.trans h.emits).trans h'⟩, fun hc => hk' (hk (hk0 hc))⟩
  split
  · exact key _ _
  · split
    · exact key _ _
    · exact ⟨⟨[], by simp [Coder.Emits]⟩, fun hc => (hk0 hc).congr rfl rfl rfl⟩

/-- `c'` differs from `c` in the encoder's registers at most, and has `out` more output. -/
def Coder.Encodes (c c' : Coder) (out : List Byte) : Prop :=
  c' = { c with a := c'.a, subend := c'.subend, buffer := c'.buffer, nrun := c'.nrun,
                delay := c'.delay, obyte := c'.obyte, scount := c'.scount,
                output := c.output ++ out }

theorem Coder.Encodes.trans {c c' c'' : Coder} {o o' : List Byte} (h : c.Encodes c' o)
    (h' : c'.Encodes c'' o') : c.Encodes c'' (o ++ o') := by
  unfold Coder.Encodes at *
  rw [h']
  rw [h]
  simp

theorem Coder.eShift_spec (c : Coder) (a sub : Nat) :
    (∃ out, c.Encodes (c.eShift a sub) out) ∧ (c.AssemblerOk → (c.eShift a sub).AssemblerOk) ∧
      (c.eShift a sub).a.toNat = 2 * a % 0x10000 := by
  obtain ⟨⟨o, h⟩, hk⟩ := c.zEmit_spec (1 - ((sub >>> 15 : Nat) : Int))
  unfold Coder.Emits at h
  refine ⟨⟨o, ?_⟩, fun hc => (hk hc).congr rfl rfl rfl, ?_⟩
  · unfold Coder.Encodes Coder.eShift
    rw [h]
  · show (BitVec.ofNat 16 (a <<< 1)).toNat = _
    rw [BitVec.toNat_ofNat, Nat.shiftLeft_eq]
    omega

/-- `fuel` doublings bring A below 0x8000 when its low `16 - fuel` bits are 0. -/
theorem Coder.eShifts_spec (fuel : Nat) (c : Coder) (a sub : Nat) :
    (∃ out, c.Encodes (Coder.eShifts fuel c a sub) out) ∧
      (c.AssemblerOk → (Coder.eShifts fuel c a sub).AssemblerOk) ∧
      (fuel ≤ 16 → a < 0x10000 → 2 ^ (16 - fuel) ∣ a →
        (Coder.eShifts fuel c a sub).a.toNat < 0x8000) := by
  induction fuel generalizing c a sub with
  | zero =>
    refine ⟨⟨[], by simp [Coder.Encodes, Coder.eShifts]⟩, fun h => h.congr rfl rfl rfl, ?_⟩
    intro _ ha hdvd
    have h0 : a = 0 := Nat.eq_zero_of_dvd_of_lt hdvd ha
    simp [Coder.eShifts, h0]
  | succ fuel ih =>
    unfold Coder.eShifts
    split
    · next hge =>
      dsimp only
      obtain ⟨⟨o, h⟩, hk, ha'⟩ := c.eShift_spec a sub
      obtain ⟨⟨o', h'⟩, hk', hlt⟩ :=
        ih (c.eShift a sub) (c.eShift a sub).a.toNat (c.eShift a sub).subend.toNat
      refine ⟨⟨_, h.trans h'⟩, fun hc => hk' (hk hc), fun hf _ hdvd => hlt (by omega) ?_ ?_⟩
      · rw [ha']; omega
      · rw [ha']
        have h16 : 2 ^ (16 - fuel) ∣ 0x10000 := pow_dvd_pow 2 (show 16 - fuel ≤ 16 by omega)
        have h2 : 2 ^ (16 - fuel) ∣ 2 * a := by
          have : 16 - fuel = (16 - (fuel + 1)) + 1 := by omega
          rw [this, pow_succ, mul_comm]
          exact Nat.mul_dvd_mul_left 2 hdvd
        exact (Nat.dvd_mod_iff h16).2 h2
    · next hlt =>
      refine ⟨⟨[], by simp [Coder.Encodes]⟩, fun h => h.congr rfl rfl rfl, fun _ _ _ => ?_⟩
      show (BitVec.ofNat 16 a).toNat < 0x8000
      rw [BitVec.toNat_ofNat]
      omega

/-- What EncMps can do (R148): one doubling, after which A is below 0x8000. -/
theorem Coder.encMps_spec (c : Coder) (z : Nat) :
    (∃ out, c.Encodes (c.encMps z) out) ∧ (c.AssemblerOk → (c.encMps z).AssemblerOk) ∧
      (0x8000 ≤ z → z < 0xC000 → (c.encMps z).a.toNat = 2 * (z - 0x8000)) := by
  obtain ⟨h, hk, ha⟩ := c.eShift_spec z c.subend.toNat
  refine ⟨h, hk, fun h1 h2 => ?_⟩
  unfold Coder.encMps
  rw [ha]
  omega

/-- What EncLps can do (R149): doublings, after which A is below 0x8000. -/
theorem Coder.encLps_spec (c : Coder) (z : Nat) :
    (∃ out, c.Encodes (c.encLps z) out) ∧ (c.AssemblerOk → (c.encLps z).AssemblerOk) ∧
      (c.a.toNat < z → z ≤ 0xFFFF → (c.encLps z).a.toNat < 0x8000) := by
  obtain ⟨h, hk, ha⟩ := Coder.eShifts_spec 16 c (c.a.toNat + (0x10000 - z))
    (c.subend.toNat + (0x10000 - z))
  exact ⟨h, hk, fun h1 h2 => ha (by omega) (by omega) (by simp)⟩

/-- What AC.ENC's interval part can do (R150, R154). -/
theorem Coder.encodeAdaptive_spec (c : Coder) {prob : Nat} (hp : 1 ≤ prob) (hp' : prob ≤ 0x8000)
    (mps bit : Bool) :
    (∃ out, c.Encodes (c.encodeAdaptive prob mps bit) out) ∧
      (c.AssemblerOk → (c.encodeAdaptive prob mps bit).AssemblerOk) ∧
      (c.a.toNat < 0x8000 → (c.encodeAdaptive prob mps bit).a.toNat < 0x8000) := by
  unfold Coder.encodeAdaptive
  dsimp only
  split
  · obtain ⟨h, hk, ha⟩ := c.encLps_spec (clampSplit (c.a.toNat + prob) c.a.toNat)
    refine ⟨h, hk, fun hlt => ?_⟩
    have := clampSplit_bounds hlt hp hp'
    exact ha (by omega) (by omega)
  · split
    · next hz =>
      obtain ⟨h, hk, ha⟩ := c.encMps_spec (clampSplit (c.a.toNat + prob) c.a.toNat)
      refine ⟨h, hk, fun hlt => ?_⟩
      have := clampSplit_bounds hlt hp hp'
      rw [ha (by omega) (by omega)]
      omega
    · refine ⟨⟨[], by simp [Coder.Encodes]⟩, fun h => h.congr rfl rfl rfl, fun _ => ?_⟩
      show (BitVec.ofNat 16 (c.a.toNat + prob)).toNat < 0x8000
      rw [BitVec.toNat_ofNat]
      omega

/-- What the context-free coding of a bit can do (R151, R152, R154). -/
theorem Coder.encodeSplit_spec (c : Coder) (z : Nat) (bit : Bool) :
    (∃ out, c.Encodes (c.encodeSplit z bit) out) ∧
      (c.AssemblerOk → (c.encodeSplit z bit).AssemblerOk) ∧
      (0x8000 ≤ z → c.a.toNat < z → z < 0xC000 → (c.encodeSplit z bit).a.toNat < 0x8000) := by
  unfold Coder.encodeSplit
  split
  · obtain ⟨h, hk, ha⟩ := c.encLps_spec z
    exact ⟨h, hk, fun _ h2 h3 => ha h2 (by omega)⟩
  · obtain ⟨h, hk, ha⟩ := c.encMps_spec z
    exact ⟨h, hk, fun h1 _ h3 => by rw [ha h1 h3]; omega⟩

theorem Coder.flushTurns_spec (fuel : Nat) (c : Coder) (sub : Nat) :
    (∃ out, c.Encodes (Coder.flushTurns fuel c sub) out) ∧
      (Coder.flushTurns fuel c sub).a = c.a := by
  induction fuel generalizing c sub with
  | zero => exact ⟨⟨[], by simp [Coder.Encodes, Coder.flushTurns]⟩, rfl⟩
  | succ fuel ih =>
    unfold Coder.flushTurns
    split
    · obtain ⟨⟨o, h⟩, _⟩ := c.zEmit_spec (1 - ((sub >>> 15 : Nat) : Int))
      obtain ⟨⟨o', h'⟩, ha⟩ := ih (c.zEmit (1 - ((sub >>> 15 : Nat) : Int))) ((sub <<< 1) % 0x10000)
      unfold Coder.Emits at h
      have h1 : c.Encodes (c.zEmit (1 - ((sub >>> 15 : Nat) : Int))) o := by
        unfold Coder.Encodes; rw [h]
      exact ⟨⟨_, h1.trans h'⟩, by rw [ha, h]⟩
    · exact ⟨⟨[], by simp [Coder.Encodes]⟩, rfl⟩

theorem Coder.padByte_spec (fuel : Nat) (c : Coder) :
    ∃ out, c.Assembles (Coder.padByte fuel c) out := by
  induction fuel generalizing c with
  | zero => exact ⟨[], Coder.Assembles.refl c⟩
  | succ fuel ih =>
    unfold Coder.padByte
    split
    · obtain ⟨⟨o, _, h⟩, _⟩ := c.outBit_spec true
      obtain ⟨o', h'⟩ := ih (c.outBit true)
      exact ⟨_, h.trans h'⟩
    · exact ⟨[], Coder.Assembles.refl c⟩

/-- What the flush of AC.CLOSE can do (R153): the mode becomes IDLE, A and the decoder's registers stay,
and OUT only grows. -/
theorem Coder.closeEncoder_spec (c : Coder) :
    c.closeEncoder.mode = .idle ∧ c.closeEncoder.a = c.a ∧ c.closeEncoder.delay = 0xFF ∧
      (∃ out, c.closeEncoder.output = c.output ++ out) ∧ c.closeEncoder.code = c.code ∧
      c.closeEncoder.fence = c.fence ∧ c.closeEncoder.ibuf = c.ibuf ∧
      c.closeEncoder.iscount = c.iscount ∧ c.closeEncoder.input = c.input ∧
      c.closeEncoder.inpos = c.inpos := by
  obtain ⟨⟨o1, h1⟩, ha⟩ := Coder.flushTurns_spec 26 c (roundSubend c.subend.toNat)
  unfold Coder.closeEncoder
  dsimp only
  generalize Coder.flushTurns 26 c (roundSubend c.subend.toNat) = c1 at h1 ha ⊢
  obtain ⟨⟨o2, _, h2⟩, _⟩ := c1.outBit_spec true
  generalize c1.outBit true = c2 at h2 ⊢
  obtain ⟨⟨o3, h3⟩, _⟩ := c2.releaseRun_spec false
  generalize c2.releaseRun false = c3 at h3 ⊢
  obtain ⟨o4, h4⟩ := Coder.padByte_spec (c3.delay.toNat + 8) c3
  generalize Coder.padByte (c3.delay.toNat + 8) c3 = c4 at h4 ⊢
  unfold Coder.Encodes at h1
  unfold Coder.Assembles at h2 h4
  unfold Coder.Emits at h3
  rw [h1] at h2
  rw [h2] at h3
  rw [h3] at h4
  rw [h4]
  exact ⟨rfl, ha, rfl, ⟨o1 ++ o2 ++ o3 ++ o4, by simp⟩, rfl, rfl, rfl, rfl, rfl, rfl⟩

/-! ## Decoder -/

/-- What NextByte can do (R157): it moves INPOS within IN, by at most one, and changes nothing else. -/
theorem Coder.nextByte_spec (c : Coder) :
    c.nextByte.2 = { c with inpos := c.nextByte.2.inpos } ∧ c.inpos ≤ c.nextByte.2.inpos ∧
      c.nextByte.2.inpos ≤ c.inpos + 1 ∧
      (c.inpos ≤ c.input.length → c.nextByte.2.inpos ≤ c.input.length) := by
  unfold Coder.nextByte
  cases h : c.input[c.inpos]? with
  | none => simp
  | some b =>
    have := (List.getElem?_eq_some_iff.1 h).1
    refine ⟨rfl, by simp, by simp, fun _ => this⟩

/-- What Preload can do (R158): it changes IBUF, ISCOUNT and INPOS alone; four bytes are enough to end
with more than 24 unread bits. -/
theorem Coder.preload_spec (fuel : Nat) (c : Coder) :
    (∃ b n p, Coder.preload fuel c = { c with ibuf := b, iscount := n, inpos := p } ∧
      (c.inpos ≤ c.input.length → p ≤ c.input.length) ∧
      (25 ≤ c.iscount.toNat + 8 * fuel → c.iscount.toNat ≤ 32 →
        25 ≤ n.toNat ∧ n.toNat ≤ 32)) := by
  induction fuel generalizing c with
  | zero => exact ⟨c.ibuf, c.iscount, c.inpos, rfl, id, fun h h' => ⟨by omega, h'⟩⟩
  | succ fuel ih =>
    unfold Coder.preload
    split
    · next hle =>
      obtain ⟨hc, _, _, hin⟩ := c.nextByte_spec
      dsimp only
      generalize hx : c.nextByte = x at hc hin ⊢
      obtain ⟨b, c'⟩ := x
      dsimp only at hc hin ⊢
      obtain ⟨b', n, p, h, hp, hn⟩ := ih
        { c' with ibuf := (c'.ibuf <<< 8) ||| b.setWidth 32, iscount := c'.iscount + 8 }
      refine ⟨b', n, p, ?_, ?_, ?_⟩
      · rw [h, hc]
      · intro hpos
        have h1 := hin hpos
        rw [hc] at hp
        exact hp h1
      · intro h1 h2
        rw [hc] at hn
        dsimp only at hn
        have h8 : (c.iscount + 8).toNat = c.iscount.toNat + 8 := by
          rw [BitVec.toNat_add]; simp; omega
        rw [h8] at hn
        exact hn (by omega) (by omega)
    · next hgt => exact ⟨c.ibuf, c.iscount, c.inpos, rfl, id, fun _ h' => ⟨by omega, h'⟩⟩

/-- `c'` differs from `c` in the decoder's registers at most. -/
def Coder.Decodes (c c' : Coder) : Prop :=
  c' = { c with a := c'.a, code := c'.code, fence := c'.fence, ibuf := c'.ibuf,
                iscount := c'.iscount, inpos := c'.inpos }

/-- The refill at the end of a decoding step (R159, R160). -/
theorem Coder.refill_spec (c : Coder) :
    c.Decodes c.refill ∧ c.refill.a = c.a ∧ c.refill.code = c.code ∧
      c.refill.fence.toNat = min c.code.toNat 0x7FFF ∧
      (c.inpos ≤ c.input.length → c.refill.inpos ≤ c.refill.input.length) ∧
      (c.iscount.toNat ≤ 32 → 16 ≤ c.refill.iscount.toNat ∧ c.refill.iscount.toNat ≤ 32) := by
  unfold Coder.refill
  have hf : ∀ d : Coder, d.setFence.fence.toNat = min d.code.toNat 0x7FFF := by
    intro d
    show (BitVec.ofNat 16 (min d.code.toNat 0x7FFF)).toNat = _
    rw [BitVec.toNat_ofNat]
    omega
  split
  · next hlt =>
    obtain ⟨b, n, p, h, hp, hn⟩ := Coder.preload_spec 4 c
    rw [h]
    refine ⟨rfl, rfl, rfl, hf _, hp, fun h' => ?_⟩
    have := hn (by omega) h'
    exact ⟨by show 16 ≤ n.toNat; omega, this.2⟩
  · next hge => exact ⟨rfl, rfl, rfl, hf _, id, fun h' => ⟨by show 16 ≤ c.iscount.toNat; omega, h'⟩⟩

/-- What a shift of `sh` bits into the window can do (R159, R160). -/
theorem Coder.shiftIn_spec (c : Coder) (sh a code : Nat) :
    c.Decodes (c.shiftIn sh a code) ∧
      (c.shiftIn sh a code).a.toNat = a * 2 ^ sh % 0x10000 ∧
      code * 2 ^ sh % 0x10000 ≤ (c.shiftIn sh a code).code.toNat ∧
      (c.shiftIn sh a code).fence.toNat = min (c.shiftIn sh a code).code.toNat 0x7FFF ∧
      (c.inpos ≤ c.input.length →
        (c.shiftIn sh a code).inpos ≤ (c.shiftIn sh a code).input.length) ∧
      (c.iscount.toNat ≤ 32 →
        16 ≤ (c.shiftIn sh a code).iscount.toNat ∧ (c.shiftIn sh a code).iscount.toNat ≤ 32) := by
  unfold Coder.shiftIn
  dsimp only
  set d : Coder := { c with
      iscount := BitVec.ofNat 6 (c.iscount.toNat - sh)
      a := BitVec.ofNat 16 (a <<< sh)
      code := BitVec.ofNat 16
        ((code <<< sh) % 0x10000 ||| ((c.ibuf.toNat >>> (c.iscount.toNat - sh)) &&& (2 ^ sh - 1))) }
    with hd
  obtain ⟨h, ha, hc, hf, hp, hn⟩ := d.refill_spec
  refine ⟨?_, ?_, ?_, ?_, hp, fun h32 => hn ?_⟩
  · unfold Coder.Decodes at *
    rw [h, hd]
  · rw [ha]
    show (BitVec.ofNat 16 (a <<< sh)).toNat = _
    rw [BitVec.toNat_ofNat, Nat.shiftLeft_eq]
  · rw [hc]
    show _ ≤ (BitVec.ofNat 16 _).toNat
    rw [BitVec.toNat_ofNat, Nat.shiftLeft_eq, show (2 : Nat) ^ 16 = 0x10000 from rfl,
      Nat.or_mod_two_pow (n := 16), Nat.mod_mod]
    exact Nat.left_le_or
  · rw [hf, hc]
  · show (BitVec.ofNat 6 (c.iscount.toNat - sh)).toNat ≤ 32
    rw [BitVec.toNat_ofNat]
    omega

/-- The leading ones of a 16-bit value at or above 0x8000, with enough fuel: shifting them out leaves a
value below 0x8000 and keeps the order (R159). -/
theorem leadingOnes_spec (fuel : Nat) {a : Nat} (ha : a < 0x10000) (hdvd : 2 ^ (16 - fuel) ∣ a)
    (hf : fuel ≤ 16) :
    a * 2 ^ leadingOnes fuel a % 0x10000 < 0x8000 ∧
      (∀ b, a ≤ b → b < 0x10000 →
        a * 2 ^ leadingOnes fuel a % 0x10000 ≤ b * 2 ^ leadingOnes fuel a % 0x10000) ∧
      leadingOnes fuel a ≤ fuel := by
  induction fuel generalizing a with
  | zero =>
    have h0 : a = 0 := Nat.eq_zero_of_dvd_of_lt hdvd ha
    simp [leadingOnes, h0]
  | succ fuel ih =>
    unfold leadingOnes
    split
    · next hge =>
      have hs : (a <<< 1) % 0x10000 = 2 * a - 0x10000 := by rw [Nat.shiftLeft_eq]; omega
      have h2 : 2 ^ (16 - fuel) ∣ 2 * a - 0x10000 := by
        have h16 : 2 ^ (16 - fuel) ∣ 0x10000 := pow_dvd_pow 2 (show 16 - fuel ≤ 16 by omega)
        have h2 : 2 ^ (16 - fuel) ∣ 2 * a := by
          have : 16 - fuel = (16 - (fuel + 1)) + 1 := by omega
          rw [this, pow_succ, mul_comm]
          exact Nat.mul_dvd_mul_left 2 hdvd
        exact Nat.dvd_sub h2 h16
      obtain ⟨i1, i2, i3⟩ := ih (a := 2 * a - 0x10000) (by omega) h2 (by omega)
      rw [hs]
      set n := leadingOnes fuel (2 * a - 0x10000)
      have shift : ∀ x, 0x8000 ≤ x → x * 2 ^ (n + 1) % 0x10000 = (2 * x - 0x10000) * 2 ^ n % 0x10000 := by
        intro x hx
        have : x * 2 ^ (n + 1) = (2 * x - 0x10000) * 2 ^ n + 0x10000 * 2 ^ n := by
          rw [← Nat.add_mul, pow_succ, Nat.sub_add_cancel (by omega)]
          ring
        rw [this, Nat.add_mul_mod_self_left]
      refine ⟨by rw [shift a hge]; exact i1, fun b hab hb => ?_, by omega⟩
      rw [shift a hge, shift b (by omega)]
      exact i2 _ (by omega) (by omega)
    · next hlt =>
      refine ⟨by simp; omega, fun b hab hb => by simp; omega, by omega⟩

/-- DecLps keeps the bounds of the decoder (R159, R164). -/
theorem Coder.decLps_spec (c : Coder) (z : Nat) :
    c.Decodes (c.decLps z) ∧
      (c.inpos ≤ c.input.length → (c.decLps z).inpos ≤ (c.decLps z).input.length) ∧
      (c.WindowOk → c.code.toNat < z → z ≤ c.a.toNat + 0x8000 →
        (c.decLps z).WindowOk ∧ (c.decLps z).a.toNat < 0x8000) := by
  unfold Coder.decLps
  dsimp only
  obtain ⟨h, ha, hc, hf, hp, hn⟩ := c.shiftIn_spec
    (leadingOnes 16 (c.a.toNat + (0x10000 - z))) (c.a.toNat + (0x10000 - z))
    (c.code.toNat + (0x10000 - z))
  refine ⟨h, hp, fun ⟨w1, w2, w3, w4⟩ hz hz' => ?_⟩
  obtain ⟨l1, l2, _⟩ := leadingOnes_spec 16 (a := c.a.toNat + (0x10000 - z)) (by omega) (by simp)
    le_rfl
  have := l2 (c.code.toNat + (0x10000 - z)) (by omega) (by omega)
  refine ⟨⟨?_, hf, hn w4⟩, by rw [ha]; exact l1⟩
  rw [ha]
  exact this.trans hc

/-- DecMps keeps the bounds of the decoder (R160, R164). -/
theorem Coder.decMps_spec (c : Coder) (z : Nat) :
    c.Decodes (c.decMps z) ∧
      (c.inpos ≤ c.input.length → (c.decMps z).inpos ≤ (c.decMps z).input.length) ∧
      (c.WindowOk → 0x8000 ≤ z → z ≤ c.code.toNat → z < 0xC000 →
        (c.decMps z).WindowOk ∧ (c.decMps z).a.toNat < 0x8000) := by
  unfold Coder.decMps
  obtain ⟨h, ha, hc, hf, hp, hn⟩ := c.shiftIn_spec 1 z c.code.toNat
  refine ⟨h, hp, fun ⟨w1, w2, w3, w4⟩ h1 h2 h3 => ?_⟩
  have := c.code.isLt
  exact ⟨⟨by rw [ha]; refine le_trans ?_ hc; omega, hf, hn w4⟩, by rw [ha]; omega⟩

/-- What AC.DEC's interval part can do (R161, R164). -/
theorem Coder.decodeAdaptive_spec (c : Coder) {prob : Nat} (hp : 1 ≤ prob) (hp' : prob ≤ 0x8000)
    (mps : Bool) :
    c.Decodes (c.decodeAdaptive prob mps).2 ∧
      (c.inpos ≤ c.input.length →
        (c.decodeAdaptive prob mps).2.inpos ≤ (c.decodeAdaptive prob mps).2.input.length) ∧
      (c.WindowOk → c.a.toNat < 0x8000 →
        (c.decodeAdaptive prob mps).2.WindowOk ∧ (c.decodeAdaptive prob mps).2.a.toNat < 0x8000) := by
  unfold Coder.decodeAdaptive
  dsimp only
  split
  · next hle =>
    refine ⟨rfl, id, fun ⟨w1, w2, w3, w4⟩ ha => ?_⟩
    have hz : (BitVec.ofNat 16 (c.a.toNat + prob)).toNat = c.a.toNat + prob := by
      rw [BitVec.toNat_ofNat]; omega
    refine ⟨⟨?_, w2, w3, w4⟩, ?_⟩
    · show (BitVec.ofNat 16 (c.a.toNat + prob)).toNat ≤ _
      rw [hz]
      show _ ≤ c.code.toNat
      omega
    · show (BitVec.ofNat 16 (c.a.toNat + prob)).toNat < _
      rw [hz]; omega
  · next hgt =>
    split
    · next hlt =>
      obtain ⟨h, hq, hw⟩ := c.decLps_spec (clampSplit (c.a.toNat + prob) c.a.toNat)
      refine ⟨h, hq, fun w ha => hw w hlt ?_⟩
      have := clampSplit_bounds ha hp hp'
      omega
    · next hge =>
      obtain ⟨h, hq, hw⟩ := c.decMps_spec (clampSplit (c.a.toNat + prob) c.a.toNat)
      refine ⟨h, hq, fun w ha => ?_⟩
      have hb := clampSplit_bounds ha hp hp'
      obtain ⟨w1, w2, w3, w4⟩ := w
      refine hw ⟨w1, w2, w3, w4⟩ (hb.2.2.2 ?_) (by omega) hb.2.1
      by_contra hlow
      have := clampSplit_low (z := c.a.toNat + prob) c.a.toNat (by omega)
      omega

/-- What the context-free decoding of a bit can do (R162 to R164). -/
theorem Coder.decodeSplit_spec (c : Coder) (z : Nat) :
    c.Decodes (c.decodeSplit z).2 ∧
      (c.inpos ≤ c.input.length →
        (c.decodeSplit z).2.inpos ≤ (c.decodeSplit z).2.input.length) ∧
      (c.WindowOk → 0x8000 ≤ z → z < 0xC000 → z ≤ c.a.toNat + 0x8000 →
        (c.decodeSplit z).2.WindowOk ∧ (c.decodeSplit z).2.a.toNat < 0x8000) := by
  unfold Coder.decodeSplit
  split
  · next hlt =>
    obtain ⟨h, hq, hw⟩ := c.decLps_spec z
    exact ⟨h, hq, fun w _ _ h3 => hw w hlt h3⟩
  · next hge =>
    obtain ⟨h, hq, hw⟩ := c.decMps_spec z
    exact ⟨h, hq, fun w h1 h2 _ => hw w h1 (by omega) h2⟩

/-- AC.DINIT opens a session within the decoder's bounds (R156). -/
theorem Coder.openDecoder_spec (c : Coder) :
    c.openDecoder.Bounded ∧ c.openDecoder.mode = .dec ∧ c.openDecoder.a = 0 ∧
      c.openDecoder.input = c.input ∧ c.openDecoder.output = c.output ∧
      25 ≤ c.openDecoder.iscount.toNat := by
  unfold Coder.openDecoder
  dsimp only
  set c0 : Coder := { c with inpos := 0, a := 0 } with hc0
  obtain ⟨h1, _, _, p1⟩ := c0.nextByte_spec
  generalize c0.nextByte = x1 at h1 p1 ⊢
  obtain ⟨hi, c1⟩ := x1
  dsimp only at h1 p1 ⊢
  obtain ⟨h2, _, _, p2⟩ := c1.nextByte_spec
  generalize c1.nextByte = x2 at h2 p2 ⊢
  obtain ⟨lo, c2⟩ := x2
  dsimp only at h2 p2 ⊢
  have q1 := p1 (by simp [hc0])
  have q2 : c2.inpos ≤ c1.input.length := p2 (by rw [h1]; exact q1)
  obtain ⟨b, n, p, h3, p3, n3⟩ :=
    Coder.preload_spec 4 { c2 with code := hi ++ lo, ibuf := 0, iscount := 0 }
  rw [h3]
  have in2 : c2.input = c.input := by rw [h2, h1]
  have in1 : c1.input = c.input := by rw [h1]
  have a2 : c2.a = 0 := by rw [h2, h1]
  have q3 : p ≤ c2.input.length := p3 (by show c2.inpos ≤ c2.input.length; rw [in2, ← in1]; exact q2)
  have hn := n3 (by simp) (by simp)
  refine ⟨⟨?_, ?_, ?_, ?_⟩, rfl, a2, in2, ?_, hn.1⟩
  · show c2.a.toNat < _; rw [a2]; simp
  · exact q3
  · intro h; cases h
  · intro _
    refine ⟨?_, ?_, ?_, hn.2⟩
    · show c2.a.toNat ≤ _; rw [a2]; simp
    · show (BitVec.ofNat 16 (min (hi ++ lo : BitVec 16).toNat 0x7FFF)).toNat = min (hi ++ lo : BitVec 16).toNat 0x7FFF
      rw [BitVec.toNat_ofNat]; omega
    · show 16 ≤ n.toNat; omega
  · show c2.output = c.output; rw [h2, h1]

end Sys2Proof.Machine
end

