-- ==== Sys2Proof/Laws/Run.lean ====
section
/-! SUPPORT. What the common frame of a command (R97, R120) answers, and how a property passes through
executions in sequence. -/

namespace Sys2Proof.Machine

/-! ## The checks -/

@[simp] theorem firstFault_nil : firstFault [] = none := rfl

@[simp] theorem firstFault_cons (ok : Bool) (k : FaultKind) (cs : List (Bool × FaultKind)) :
    firstFault ((ok, k) :: cs) = if ok = true then firstFault cs else some k := rfl

/-- No fault is reported exactly when every check passes. -/
theorem firstFault_eq_none {cs : List (Bool × FaultKind)} :
    firstFault cs = none ↔ ∀ c ∈ cs, c.1 = true := by
  induction cs with
  | nil => simp
  | cons c cs ih =>
    obtain ⟨ok, k⟩ := c
    cases ok <;> simp [ih]

/-- A reported fault belongs to a check that fails. -/
theorem firstFault_eq_some {cs : List (Bool × FaultKind)} {k : FaultKind}
    (h : firstFault cs = some k) : (false, k) ∈ cs := by
  induction cs with
  | nil => simp at h
  | cons c cs ih =>
    obtain ⟨ok, j⟩ := c
    cases ok
    · simp at h; simp [h]
    · simp at h; simp [ih h]

/-! ## The frame of a command -/

/-- Everything the frame of a command can answer: the word refused while FAULTED, a fault of the first
failing check, or what the effect leaves. -/
theorem runCommand_cases (i : Instr) (s : State) (checks : List (Bool × FaultKind))
    (effect : State → Effect) :
    (s.faulted = true ∧ runCommand i s checks effect = .next s) ∨
    (s.faulted = false ∧ ∃ k, firstFault ((i.wellFormed, .illegal) :: checks) = some k ∧
      runCommand i s checks effect = .next (s.takeFault k (encode i))) ∨
    (s.faulted = false ∧ firstFault ((i.wellFormed, .illegal) :: checks) = none ∧
      runCommand i s checks effect = .next ((effect s).settle (encode i))) := by
  unfold runCommand
  cases s.faulted <;> cases h : firstFault ((i.wellFormed, .illegal) :: checks) <;> simp

/-- A FAULTED engine refuses a command without any change (R271). -/
theorem runCommand_faulted (i : Instr) {s : State} (checks : List (Bool × FaultKind))
    (effect : State → Effect) (h : s.faulted = true) :
    runCommand i s checks effect = .next s := by simp [runCommand, h]

/-- A failing check stops a command with nothing else changed (R265). -/
theorem runCommand_stop {i : Instr} {s : State} {checks : List (Bool × FaultKind)}
    (effect : State → Effect) {k : FaultKind} (h : s.faulted = false)
    (hk : firstFault ((i.wellFormed, .illegal) :: checks) = some k) :
    runCommand i s checks effect = .next (s.takeFault k (encode i)) := by
  simp only [runCommand, h, hk]
  rfl

/-- A command whose checks pass takes its effect. -/
theorem runCommand_ok {i : Instr} {s : State} {checks : List (Bool × FaultKind)}
    (effect : State → Effect) (h : s.faulted = false) (hi : i.wellFormed = true)
    (hc : ∀ c ∈ checks, c.1 = true) :
    runCommand i s checks effect = .next ((effect s).settle (encode i)) := by
  have : firstFault ((i.wellFormed, .illegal) :: checks) = none :=
    firstFault_eq_none.2 (by simpa [hi] using hc)
  simp only [runCommand, h, this]
  rfl

/-! ## Effects -/

@[simp] theorem Effect.done_andThen (s : State) (f : State → Effect) :
    (Effect.done s).andThen f = f s := rfl

@[simp] theorem Effect.stop_andThen (k : FaultKind) (s : State) (f : State → Effect) :
    (Effect.stop k s).andThen f = .stop k s := rfl

@[simp] theorem Effect.settle_done (s : State) (w : Word) : (Effect.done s).settle w = s := rfl

@[simp] theorem Effect.settle_stop (k : FaultKind) (s : State) (w : Word) :
    (Effect.stop k s).settle w = s.takeFault k w := rfl

/-- An execution that runs to its end does so in a state with `P`, and one that a fault stops does so
in a state with `Q`. -/
def Effect.Post (e : Effect) (P : State → Prop) (Q : FaultKind → State → Prop) : Prop :=
  match e with
  | .done s => P s
  | .stop k s => Q k s

@[simp] theorem Effect.post_done (s : State) (P : State → Prop) (Q : FaultKind → State → Prop) :
    (Effect.done s).Post P Q ↔ P s := Iff.rfl

@[simp] theorem Effect.post_stop (k : FaultKind) (s : State) (P : State → Prop)
    (Q : FaultKind → State → Prop) : (Effect.stop k s).Post P Q ↔ Q k s := Iff.rfl

/-- Executions in sequence: the second starts where the first ends. -/
theorem Effect.Post.andThen {e : Effect} {f : State → Effect} {P R : State → Prop}
    {Q : FaultKind → State → Prop} (he : e.Post P Q) (hf : ∀ s, P s → (f s).Post R Q) :
    (e.andThen f).Post R Q := by
  cases e with
  | done s => exact hf s he
  | stop k s => exact he

theorem Effect.Post.mono {e : Effect} {P P' : State → Prop} {Q Q' : FaultKind → State → Prop}
    (he : e.Post P Q) (hP : ∀ s, P s → P' s) (hQ : ∀ k s, Q k s → Q' k s) : e.Post P' Q' := by
  cases e with
  | done s => exact hP s he
  | stop k s => exact hQ k s he

/-- An execution that no fault can stop runs to its end. -/
theorem Effect.Post.exists_done {e : Effect} {P : State → Prop} (he : e.Post P fun _ _ => False) :
    ∃ s, e = .done s ∧ P s := by
  cases e with
  | done s => exact ⟨s, rfl, he⟩
  | stop k s => exact he.elim

/-- A property that faults do not disturb holds after a command if it holds before and the command's
effect, run after its checks passed, keeps it. -/
theorem runCommand_keeps {P : State → Prop} {i : Instr} {s t : State}
    {checks : List (Bool × FaultKind)} {effect : State → Effect}
    (hfault : ∀ u k w, P u → P (u.takeFault k w)) (hs : P s)
    (heff : s.faulted = false → i.wellFormed = true → (∀ c ∈ checks, c.1 = true) →
      (effect s).Post P fun _ => P)
    (h : runCommand i s checks effect = .next t) : P t := by
  rcases runCommand_cases i s checks effect with ⟨_, h'⟩ | ⟨_, k, _, h'⟩ | ⟨hf, hn, h'⟩
  · rw [h'] at h; cases h; exact hs
  · rw [h'] at h; cases h; exact hfault _ _ _ hs
  · rw [h'] at h; cases h
    have hn' := firstFault_eq_none.1 hn
    have := heff hf (hn' _ (List.mem_cons_self ..)) fun c hc => hn' c (List.mem_cons_of_mem _ hc)
    revert this
    cases effect s with
    | done u => exact id
    | stop k u => exact hfault _ _ _

end Sys2Proof.Machine
end

