-- ==== Sys2Proof/Laws/Coding.lean ====
section
/-! SUPPORT. What the coding calls on the state can do (R150 to R163, R230), and what the coding of a
slice can do (R231 to R240): every change it makes is a coding call on one of `Ctx[0..111]` or a
CoefWrite to the store with the decoder-visible values. -/

namespace Sys2Proof.Machine

/-! ## Coding calls -/

theorem Coder.Encodes.bounded {c c' : Coder} {out : List Byte} (h : c.Encodes c' out)
    (hm : c.mode = .enc) (ha : c'.a.toNat < 0x8000) (hk : c'.AssemblerOk)
    (hb : c.inpos ≤ c.input.length) : c'.Bounded := by
  have h1 : c'.mode = c.mode := by unfold Coder.Encodes at h; rw [h]
  have h2 : c'.inpos = c.inpos := by unfold Coder.Encodes at h; rw [h]
  have h3 : c'.input = c.input := by unfold Coder.Encodes at h; rw [h]
  refine ⟨ha, by rw [h2, h3]; exact hb, fun _ => hk, fun hd => ?_⟩
  rw [h1, hm] at hd
  cases hd

theorem Coder.Decodes.bounded {c c' : Coder} (h : c.Decodes c')
    (hm : c.mode = .dec) (ha : c'.a.toNat < 0x8000) (hw : c'.WindowOk)
    (hb : c'.inpos ≤ c'.input.length) : c'.Bounded := by
  have h1 : c'.mode = c.mode := by unfold Coder.Decodes at h; rw [h]
  refine ⟨ha, hb, fun he => ?_, fun _ => hw⟩
  rw [h1, hm] at he
  cases he

/-- `c'` is a coder that one coding step can leave: the mode, IN and what OUT held are kept, and the
bounds of R32 too. -/
def Coder.Steps (c c' : Coder) : Prop :=
  c'.mode = c.mode ∧ c'.input = c.input ∧ (∃ out, c'.output = c.output ++ out) ∧
    (c.Bounded → c'.Bounded)

theorem Coder.Steps.refl (c : Coder) : c.Steps c := ⟨rfl, rfl, ⟨[], by simp⟩, id⟩

theorem Coder.Steps.trans {c c' c'' : Coder} (h : c.Steps c') (h' : c'.Steps c'') :
    c.Steps c'' := by
  obtain ⟨a, b, ⟨o, d⟩, e⟩ := h
  obtain ⟨a', b', ⟨o', d'⟩, e'⟩ := h'
  exact ⟨a'.trans a, b'.trans b, ⟨o ++ o', by rw [d', d, List.append_assoc]⟩, fun x => e' (e x)⟩

theorem Coder.encodeAdaptive_steps (c : Coder) (hm : c.mode = .enc) (cfg : Config) (k : Byte)
    (mps bit : Bool) : c.Steps (c.encodeAdaptive (cfg.prob k) mps bit) := by
  obtain ⟨⟨o, h⟩, hk, ha⟩ :=
    c.encodeAdaptive_spec (prob_bounds cfg k).1 (prob_bounds cfg k).2 mps bit
  refine ⟨?_, ?_, ⟨o, ?_⟩, fun hb => h.bounded hm (ha hb.1) (hk (hb.2.2.1 hm)) hb.2.1⟩ <;>
    (unfold Coder.Encodes at h; rw [h])

theorem Coder.encodePass_steps (c : Coder) (hm : c.mode = .enc) (bit : Bool) :
    c.Steps (c.encodeSplit (splitPass c.a.toNat) bit) := by
  obtain ⟨⟨o, h⟩, hk, ha⟩ := c.encodeSplit_spec (splitPass c.a.toNat) bit
  refine ⟨?_, ?_, ⟨o, ?_⟩, fun hb => ?_⟩
  iterate 3 (unfold Coder.Encodes at h; rw [h])
  have := splitPass_bounds hb.1
  exact h.bounded hm (ha this.1 this.2.1 this.2.2.1) (hk (hb.2.2.1 hm)) hb.2.1

theorem Coder.encodeBalanced_steps (c : Coder) (hm : c.mode = .enc) (bit : Bool) :
    c.Steps (c.encodeSplit (splitBalanced c.a.toNat) bit) := by
  obtain ⟨⟨o, h⟩, hk, ha⟩ := c.encodeSplit_spec (splitBalanced c.a.toNat) bit
  refine ⟨?_, ?_, ⟨o, ?_⟩, fun hb => ?_⟩
  iterate 3 (unfold Coder.Encodes at h; rw [h])
  have := splitBalanced_bounds hb.1
  exact h.bounded hm (ha this.1 this.2.1 this.2.2.1) (hk (hb.2.2.1 hm)) hb.2.1

theorem Coder.Decodes.steps {c c' : Coder} (h : c.Decodes c') (hm : c.mode = .dec)
    (hp : c.inpos ≤ c.input.length → c'.inpos ≤ c'.input.length)
    (hw : c.WindowOk → c.a.toNat < 0x8000 → c'.WindowOk ∧ c'.a.toNat < 0x8000) : c.Steps c' := by
  refine ⟨?_, ?_, ⟨[], ?_⟩, fun hb => ?_⟩
  · unfold Coder.Decodes at h; rw [h]
  · unfold Coder.Decodes at h; rw [h]
  · unfold Coder.Decodes at h; rw [h]; simp
  · have := hw (hb.2.2.2 hm) hb.1
    exact h.bounded hm this.2 this.1 (hp hb.2.1)

theorem Coder.decodeAdaptive_steps (c : Coder) (hm : c.mode = .dec) (cfg : Config) (k : Byte)
    (mps : Bool) : c.Steps (c.decodeAdaptive (cfg.prob k) mps).2 := by
  obtain ⟨h, hp, hw⟩ := c.decodeAdaptive_spec (prob_bounds cfg k).1 (prob_bounds cfg k).2 mps
  exact h.steps hm hp hw

theorem Coder.decodePass_steps (c : Coder) (hm : c.mode = .dec) :
    c.Steps (c.decodeSplit (splitPass c.a.toNat)).2 := by
  obtain ⟨h, hp, hw⟩ := c.decodeSplit_spec (splitPass c.a.toNat)
  refine h.steps hm hp fun w ha => ?_
  have := splitPass_bounds ha
  exact hw w this.1 this.2.2.1 this.2.2.2

theorem Coder.decodeBalanced_steps (c : Coder) (hm : c.mode = .dec) :
    c.Steps (c.decodeSplit (splitBalanced c.a.toNat)).2 := by
  obtain ⟨h, hp, hw⟩ := c.decodeSplit_spec (splitBalanced c.a.toNat)
  refine h.steps hm hp fun w ha => ?_
  have := splitBalanced_bounds ha
  exact hw w this.1 this.2.2.1 this.2.2.2

/-- What a Code call can do (R230): a coding step of the coder and, if it is adaptive, a write of the
context named; nothing else. -/
theorem State.code_spec (s : State) (k : CodeKind) (b : Bool) :
    ∃ c' m', (s.code k b).2 = { s with coder := c', ctx := m' } ∧ s.coder.Steps c' ∧
      (m' = s.ctx ∨ ∃ c v, k = .adaptive c ∧ m' = s.ctx.write (BitVec.ofNat 8 c).toNat v) := by
  unfold State.code
  cases hm : s.coder.mode with
  | idle => exact ⟨s.coder, s.ctx, rfl, Coder.Steps.refl _, .inl rfl⟩
  | enc =>
    cases k with
    | adaptive c => exact ⟨_, _, rfl, s.coder.encodeAdaptive_steps hm _ _ _ _, .inr ⟨c, _, rfl, rfl⟩⟩
    | balanced => exact ⟨_, _, rfl, s.coder.encodeBalanced_steps hm b, .inl rfl⟩
  | dec =>
    cases k with
    | adaptive c => exact ⟨_, _, rfl, s.coder.decodeAdaptive_steps hm _ _ _, .inr ⟨c, _, rfl, rfl⟩⟩
    | balanced => exact ⟨_, _, rfl, s.coder.decodeBalanced_steps hm, .inl rfl⟩

/-- The bit a Code call gives when encoding is the bit it was given (R230). -/
theorem State.code_enc (s : State) (k : CodeKind) (b : Bool) (h : s.coder.mode = .enc) :
    (s.code k b).1 = b := by
  unfold State.code
  rw [h]
  cases k <;> rfl

@[simp] theorem State.code_mode (s : State) (k : CodeKind) (b : Bool) :
    (s.code k b).2.coder.mode = s.coder.mode := by
  obtain ⟨c', m', h, hs, _⟩ := s.code_spec k b
  rw [h]
  exact hs.1

/-- A Code call given the bit it answers answers it again, and does the same (R230). -/
theorem State.code_answer (s : State) (k : CodeKind) (b : Bool) :
    s.code k (s.code k b).1 = s.code k b := by
  unfold State.code
  cases s.coder.mode <;> cases k <;> rfl

/-- A list of Code calls one after the other. -/
theorem State.codeAll_append (a b : List CodeCall) (s : State) :
    State.codeAll (a ++ b) s = (State.codeAll a s).bind (State.codeAll b) := by
  induction a generalizing s with
  | nil => rfl
  | cons c a ih =>
    obtain ⟨k, bit⟩ := c
    rw [List.cons_append, State.codeAll, State.codeAll]
    split
    · exact ih _
    · rfl

/-- One more Code call, with the bit it answers. -/
theorem State.codeAll_snoc {calls : List CodeCall} {s u : State} (h : State.codeAll calls s = some u)
    (k : CodeKind) (b : Bool) :
    State.codeAll (calls ++ [(k, (u.code k b).1)]) s = some (u.code k b).2 := by
  rw [State.codeAll_append, h, Option.bind_some, State.codeAll, State.code_answer, if_pos rfl,
    State.codeAll]

/-- A Code call reads the coder, the contexts and the configuration alone (R230). -/
theorem State.code_congr {s u : State} (hc : u.coder = s.coder) (hm : u.ctx = s.ctx)
    (hg : u.cfg = s.cfg) (k : CodeKind) (b : Bool) :
    (u.code k b).1 = (s.code k b).1 ∧ (u.code k b).2.coder = (s.code k b).2.coder ∧
      (u.code k b).2.ctx = (s.code k b).2.ctx := by
  cases u
  cases s
  dsimp only at hc hm hg
  subst hc hm hg
  unfold State.code
  dsimp only
  split <;> exact ⟨rfl, rfl, rfl⟩

/-! ## A slice -/

/-- What `CoefWrite` on the state can do (R204). -/
theorem State.coefWrite_cases (s : State) (i : Bool) (blk n : Nat) (v : Sample) :
    (∃ st, (s.store i).coefWrite s.cfg blk n v = some st ∧
      s.coefWrite i blk n v = .done (s.setStore i st)) ∨
    ((s.store i).coefWrite s.cfg blk n v = none ∧ s.coefWrite i blk n v = .stop .allocation s) := by
  unfold State.coefWrite
  cases (s.store i).coefWrite s.cfg blk n v <;> simp

theorem bandFirst_add_lt (b : Fin 10) {bk : Nat} (h : bk < bandBuckets b) :
    bandFirst b + bk < 64 := by
  revert h
  fin_cases b <;> simp [bandFirst, bandBuckets] <;> omega

theorem BucketWork.coef_lt {w : BucketWork} (h : w.bucket < 64) (i : Fin 16) : w.coef i < 1024 := by
  unfold BucketWork.coef
  omega

theorem State.bucketKey_lt (s : State) (b : Fin 10) (blk bk : Nat) (bb : Flags) :
    s.bucketKey b blk bk bb < 8 := by
  unfold State.bucketKey
  dsimp only
  split <;> split <;> omega

section slice

variable {P : State → Prop} {Q : FaultKind → State → Prop} {nb : Nat}
  (hcode : ∀ u k b, P u → (∀ c, k = .adaptive c → c < 112) → P (u.code k b).2)
  (hwrite : ∀ u i blk n v, P u → (i = true ↔ u.coder.mode = .enc) → blk < nb → n < 1024 →
    (u.coefWrite i blk n v).Post P Q)

include hcode

theorem State.rootBit_keeps {s : State} (b : Fin 10) (bb : Flags) (h : P s) :
    P (s.rootBit b bb).2 := by
  unfold State.rootBit
  split
  · exact h
  · split
    · exact hcode _ _ _ h (by rintro c ⟨⟩; omega)
    · exact h

theorem State.bucketBits_keeps (b : Fin 10) (blk : Nat) (bb : Flags) (ws : List BucketWork) :
    ∀ s : State, P s → P (State.bucketBits b blk bb ws s).2 := by
  induction ws with
  | nil => exact fun s h => h
  | cons w ws ih =>
    intro s h
    unfold State.bucketBits
    split
    · refine ih _ (hcode _ _ _ h ?_)
      rintro c ⟨⟩
      have := s.bucketKey_lt b blk w.bucket bb
      omega
    · exact ih _ h

omit hcode in
theorem State.bucketBits_buckets (b : Fin 10) (blk : Nat) (bb : Flags) (ws : List BucketWork)
    (h : ∀ w ∈ ws, w.bucket < 64) :
    ∀ s : State, ∀ w ∈ (State.bucketBits b blk bb ws s).1, w.bucket < 64 := by
  induction ws with
  | nil => intro s w hw; cases hw
  | cons w ws ih =>
    intro s
    have hw := h w (by simp)
    have ih' := ih fun v hv => h v (by simp [hv])
    unfold State.bucketBits
    split
    · intro v hv
      rcases List.mem_cons.1 hv with rfl | hv
      · exact hw
      · exact ih' _ v hv
    · intro v hv
      rcases List.mem_cons.1 hv with rfl | hv
      · exact hw
      · exact ih' _ v hv

include hwrite

theorem State.activate_post {s : State} {blk n : Nat} (t : Nat) (h : P s) (hblk : blk < nb)
    (hn : n < 1024) : (s.activate blk n t).Post P Q := by
  unfold State.activate
  dsimp only
  have hc := hcode s .balanced (decide (s.cs0.coefInt blk n < 0)) h (by rintro c ⟨⟩)
  split
  · next hm => exact hwrite _ _ _ _ _ hc (by simp [hm]) hblk hn
  · next hm => exact hwrite _ _ _ _ _ hc (by simp [hm]) hblk hn

theorem State.newCoefs_post (b : Fin 10) {blk : Nat} (w : BucketWork) (hblk : blk < nb)
    (hw : w.bucket < 64) (is : List (Fin 16)) :
    ∀ run s, P s → (State.newCoefs b blk w is run s).Post P Q := by
  induction is with
  | nil => exact fun run s h => h
  | cons i is ih =>
    intro run s h
    unfold State.newCoefs
    split
    · dsimp only
      have hc := hcode s (.adaptive (16 + (min run 7 + if Flags.has w.bstate flagActive then 8 else 0)))
        (Flags.has (w.cstate i) flagNew) h (by rintro c ⟨⟩; split <;> omega)
      generalize s.code _ _ = r at hc ⊢
      split
      · exact (State.activate_post hcode hwrite _ hc hblk (BucketWork.coef_lt hw i)).andThen
          fun u hu => ih 0 u hu
      · exact ih _ _ hc
    · exact ih _ _ h

theorem State.newPass_post (b : Fin 10) {blk : Nat} (hblk : blk < nb) (ws : List BucketWork)
    (hws : ∀ w ∈ ws, w.bucket < 64) : ∀ s, P s → (State.newPass b blk ws s).Post P Q := by
  induction ws with
  | nil => exact fun s h => h
  | cons w ws ih =>
    intro s h
    unfold State.newPass
    refine Effect.Post.andThen (P := P) ?_ fun u hu => ih (fun v hv => hws v (by simp [hv])) u hu
    split
    · exact State.newCoefs_post hcode hwrite b w hblk (hws w (by simp)) _ _ s h
    · exact h

theorem State.refine_post {s : State} (b : Fin 10) {blk n : Nat} (i : Fin 16) (h : P s)
    (hblk : blk < nb) (hn : n < 1024) :
    (if s.coder.mode = .enc then s.refineEnc blk n (s.sched.thr b i)
      else s.refineDec blk n (s.sched.thr b i)).Post P Q := by
  have hk : ∀ (x : Prop) [Decidable x] c, (if x then CodeKind.adaptive 1 else .balanced) = .adaptive c →
      c < 112 := by
    intro x _ c
    split
    · rintro ⟨⟩; omega
    · rintro ⟨⟩
  split
  · next hm =>
    unfold State.refineEnc
    dsimp only
    exact hwrite _ _ _ _ _ (hcode _ _ _ h (hk _)) (by simp [hm]) hblk hn
  · next hm =>
    unfold State.refineDec
    dsimp only
    exact hwrite _ _ _ _ _ (hcode _ _ _ h (hk _)) (by simp [hm]) hblk hn

theorem State.refineCoefs_post (b : Fin 10) {blk : Nat} (w : BucketWork) (hblk : blk < nb)
    (hw : w.bucket < 64) (is : List (Fin 16)) :
    ∀ s, P s → (State.refineCoefs b blk w is s).Post P Q := by
  induction is with
  | nil => exact fun s h => h
  | cons i is ih =>
    intro s h
    unfold State.refineCoefs
    refine Effect.Post.andThen (P := P) ?_ fun u hu => ih u hu
    split
    · exact State.refine_post hcode hwrite b i h hblk (BucketWork.coef_lt hw i)
    · exact h

theorem State.refinePass_post (b : Fin 10) {blk : Nat} (hblk : blk < nb) (ws : List BucketWork)
    (hws : ∀ w ∈ ws, w.bucket < 64) : ∀ s, P s → (State.refinePass b blk ws s).Post P Q := by
  induction ws with
  | nil => exact fun s h => h
  | cons w ws ih =>
    intro s h
    unfold State.refinePass
    refine Effect.Post.andThen (P := P) ?_ fun u hu => ih (fun v hv => hws v (by simp [hv])) u hu
    split
    · exact State.refineCoefs_post hcode hwrite b w hblk (hws w (by simp)) _ s h
    · exact h

theorem State.codeBlock_post (b : Fin 10) {blk : Nat} (hblk : blk < nb) {s : State} (h : P s) :
    (State.codeBlock b blk s).Post P Q := by
  have hws : ∀ w ∈ s.prepare b blk, w.bucket < 64 := by
    intro w hw
    obtain ⟨bk, hbk, rfl⟩ := List.mem_map.1 hw
    exact bandFirst_add_lt b (List.mem_range.1 hbk)
  unfold State.codeBlock
  dsimp only
  have hr : P (s.rootBit b (Flags.union ((s.prepare b blk).map (·.bstate)))).2 :=
    State.rootBit_keeps hcode b _ h
  generalize s.rootBit b (Flags.union ((s.prepare b blk).map (·.bstate))) = r at hr ⊢
  generalize hp : (if Flags.has r.1 flagNew then
      State.bucketBits b blk r.1 (s.prepare b blk) r.2 else (s.prepare b blk, r.2)) = p
  have hp2 : P p.2 ∧ ∀ w ∈ p.1, w.bucket < 64 := by
    rw [← hp]
    split
    · exact ⟨State.bucketBits_keeps hcode b blk _ _ _ hr, State.bucketBits_buckets b blk _ _ hws _⟩
    · exact ⟨hr, hws⟩
  refine Effect.Post.andThen (P := P) ?_ fun u hu => ?_
  · split
    · exact State.newPass_post hcode hwrite b hblk _ hp2.2 _ hp2.1
    · exact hp2.1
  · split
    · exact State.refinePass_post hcode hwrite b hblk _ hp2.2 _ hu
    · exact hu

theorem State.codeBlocks_post (b : Fin 10) (blks : List Nat) (hblks : ∀ blk ∈ blks, blk < nb) :
    ∀ s, P s → (State.codeBlocks b blks s).Post P Q := by
  induction blks with
  | nil => exact fun s h => h
  | cons blk blks ih =>
    intro s h
    unfold State.codeBlocks
    exact (State.codeBlock_post hcode hwrite b (hblks blk (by simp)) h).andThen fun u hu =>
      ih (fun v hv => hblks v (by simp [hv])) u hu

end slice

/-- What the coding of a slice can do (R231 to R240). A property that every Code call on `Ctx[0..111]`
keeps and every CoefWrite to an existing coefficient of the decoder-visible store keeps, or stops with
`Q`, holds at the end, or the slice stops with `Q`. -/
theorem State.codeSlice_post {P : State → Prop} {Q : FaultKind → State → Prop} {s : State} (h : P s)
    (hcode : ∀ u k b, P u → (∀ c, k = .adaptive c → c < 112) → P (u.code k b).2)
    (hwrite : ∀ u i blk n v, P u → (i = true ↔ u.coder.mode = .enc) → blk < s.cs0.nb.toNat →
      n < 1024 → (u.coefWrite i blk n v).Post P Q) :
    s.codeSlice.Post P Q := by
  unfold State.codeSlice
  split
  · exact h
  · exact State.codeBlocks_post hcode hwrite _ _ (fun blk hb => List.mem_range.1 hb) s h

/-! ## BPC.INIT -/

/-- What BPC.INIT's loop over the contexts leaves (R109, R224): `Ctx[0..111]` at their initial value, the
others as they were, in canonical form. -/
theorem clearBpcContexts_spec {m : Mem 8} (h : m.wf 256 = true) :
    (clearBpcContexts m).wf 256 = true ∧
      ∀ a, (clearBpcContexts m).read a = if a < 112 then 0 else m.read a := by
  unfold clearBpcContexts
  have hlt : ∀ c ∈ (List.range 112).map (fun c => (c, Config.ctxInit)), c.1 < 256 := by
    intro c hc
    obtain ⟨a, ha, rfl⟩ := List.mem_map.1 hc
    have := List.mem_range.1 ha
    dsimp only
    omega
  refine ⟨Mem.wf_writeAll h hlt, fun a => ?_⟩
  split
  · next ha =>
    have hr : List.range 112 = List.range a ++ a :: (List.range (111 - a)).map (· + (a + 1)) := by
      rw [show 112 = a + ((111 - a) + 1) by omega, List.range_add, List.range_succ_eq_map]
      simp [Nat.add_left_comm]
    rw [hr, List.map_append, List.map_cons] at hlt ⊢
    refine (Mem.read_writeAll_of_last h hlt fun c hc => ?_).trans rfl
    obtain ⟨b, hb, rfl⟩ := List.mem_map.1 hc
    obtain ⟨k, _, rfl⟩ := List.mem_map.1 hb
    dsimp only
    omega
  · next ha =>
    refine Mem.read_writeAll_of_not_mem h hlt fun c hc => ?_
    obtain ⟨b, hb, rfl⟩ := List.mem_map.1 hc
    have := List.mem_range.1 hb
    dsimp only
    omega

/-! ## What a slice leaves alone, and the Advance -/

/-- The coding of a slice changes only the coder, the contexts and the store with the decoder-visible
values; it keeps the mode; and the only fault that can stop it is AllocationError (R246). -/
theorem State.codeSlice_frame (s : State) :
    let same := fun t : State =>
      t = { s with coder := t.coder, ctx := t.ctx, cs0 := t.cs0, cs1 := t.cs1 } ∧
        s.coder.Steps t.coder ∧ t.store (!s.targetIndex) = s.store (!s.targetIndex)
    s.codeSlice.Post same fun k t => k = .allocation ∧ same t := by
  intro same
  refine State.codeSlice_post (P := same) ⟨rfl, Coder.Steps.refl _, rfl⟩ ?_ ?_
  · rintro u k b ⟨hu, hm, hst⟩ _
    obtain ⟨c', m', hc, hs, _⟩ := u.code_spec k b
    rw [hc]
    refine ⟨by rw [hu], hm.trans hs, ?_⟩
    rw [← hst]
    cases s.targetIndex <;> rfl
  · rintro u i blk n v ⟨hu, hm, hst⟩ hi _ _
    have hti : i = s.targetIndex := by
      unfold State.targetIndex
      rw [← hm.1, Bool.eq_iff_iff, decide_eq_true_iff]
      exact hi
    rcases u.coefWrite_cases i blk n v with ⟨st, _, h⟩ | ⟨_, h⟩
    · rw [h]
      refine ⟨?_, by simpa using hm, ?_⟩
      · cases i <;> (unfold State.setStore; rw [hu]; rfl)
      · rw [← hst, ← hti]
        cases i <;> rfl
    · rw [h]
      exact ⟨rfl, hu, hm, hst⟩

theorem Schedule.halve_zero (q : Schedule) (b : Fin 10) (h : b.val = 0) :
    q.halve b = { q with qlo := halveAll q.qlo } := dif_pos h

theorem Schedule.halve_pos (q : Schedule) (b : Fin 10) (h : ¬ b.val = 0) :
    ∃ hb : b.val - 1 < 9,
      q.halve b = { q with qhi := q.qhi.set (b.val - 1) (q.qhi[b.val - 1] >>> 1) hb } :=
  ⟨by omega, dif_neg h⟩

theorem halveAll_get {n : Nat} (v : Vector (BitVec 24) n) (i : Nat) (h : i < n) :
    (halveAll v)[i] = v[i] >>> 1 := by
  simp [halveAll]

theorem Schedule.exhausted_iff (q : Schedule) :
    q.exhausted = true ↔ (∀ i : Fin 16, q.qlo[i] = 0) ∧ ∀ b : Fin 9, q.qhi[b] = 0 := by
  have all : ∀ {n : Nat} (v : Vector (BitVec 24) n),
      v.toList.all (fun t => t == 0) = true ↔ ∀ i : Fin n, v[i] = 0 := by
    intro n v
    simp only [List.all_eq_true, Vector.mem_toList_iff, beq_iff_eq]
    constructor
    · intro h i
      exact h _ (Vector.getElem_mem i.isLt)
    · intro h x hx
      obtain ⟨i, hi, rfl⟩ := Vector.mem_iff_getElem.1 hx
      exact h ⟨i, hi⟩
  unfold Schedule.exhausted
  rw [Bool.and_eq_true, all, all]

/-- The Advance is R228's. -/
theorem Schedule.advance_spec (q : Schedule) : q.AdvancedTo (q.advance q.curband) := by
  have hq : ∀ b : Fin 10, (q.halve b).curband = q.curband ∧ (q.halve b).curbit = q.curbit ∧
      (q.halve b).done = q.done := by
    intro b
    unfold Schedule.halve
    split <;> exact ⟨rfl, rfl, rfl⟩
  have hlo : (q.advance q.curband).qlo = (q.halve q.curband).qlo := by
    unfold Schedule.advance Schedule.nextPosition
    dsimp only
    split <;> rfl
  have hhi : (q.advance q.curband).qhi = (q.halve q.curband).qhi := by
    unfold Schedule.advance Schedule.nextPosition
    dsimp only
    split <;> rfl
  have hex : (q.advance q.curband).done =
      (q.done || (q.advance q.curband).exhausted) := by
    have : (q.advance q.curband).exhausted = ((q.halve q.curband).nextPosition).exhausted := by
      unfold Schedule.exhausted
      rw [hlo, hhi]
      unfold Schedule.nextPosition
      split <;> rfl
    rw [this]
    unfold Schedule.advance
    dsimp only
    congr 1
    unfold Schedule.nextPosition
    split <;> exact (hq _).2.2
  refine ⟨fun i => ?_, fun b => ?_, ?_, ?_⟩
  · rw [hlo]
    by_cases h : q.curband = 0
    · rw [q.halve_zero _ (by rw [h]; rfl), if_pos h]
      exact halveAll_get _ _ i.isLt
    · obtain ⟨_, e⟩ := q.halve_pos q.curband (fun h' => h (Fin.ext h'))
      rw [e, if_neg h]
  · rw [hhi]
    by_cases h : q.curband.val = 0
    · rw [q.halve_zero _ h, if_neg (by omega)]
    · obtain ⟨_, e⟩ := q.halve_pos q.curband h
      rw [e]
      show (q.qhi.set (q.curband.val - 1) _ (by omega))[b.val] = _
      rw [Vector.getElem_set]
      by_cases hb : q.curband.val - 1 = b.val
      · rw [if_pos hb, if_pos (by omega)]
        simp only [hb]
        rfl
      · rw [if_neg hb, if_neg (by omega)]
        rfl
  · unfold Schedule.advance Schedule.nextPosition
    dsimp only
    by_cases h : q.curband = 9
    · rw [if_pos h, dif_neg (by rw [(hq _).1, h]; decide)]
      exact ⟨rfl, by rw [(hq _).2.1]⟩
    · have : q.curband.val ≠ 9 := fun h' => h (Fin.ext h')
      rw [if_neg h, dif_pos (by rw [(hq _).1]; omega)]
      refine ⟨?_, (hq _).2.1⟩
      show (q.halve q.curband).curband.val + 1 = _
      rw [(hq _).1]
  · rw [hex, Bool.or_eq_true, Schedule.exhausted_iff]

end Sys2Proof.Machine
end

