-- ==== Sys2Proof/Laws/Decode.lean ====
section
/-! SUPPORT. The fields of a packed word are the fields it was packed from, and a word is packed from
its fields (R91, R98). -/

namespace Sys2Proof

@[simp] theorem opField_packWord (op : BitVec 8) (rd ra : RegNum) (imm : BitVec 16) :
    opField (packWord op rd ra imm) = op := by
  ext i hi
  simp only [opField, packWord, BitVec.getElem_extractLsb', BitVec.getLsbD_append]
  rw [if_neg (by omega), if_neg (by omega), if_neg (by omega), BitVec.getLsbD_eq_getElem (by omega)]
  congr 1
  omega

@[simp] theorem rdField_packWord (op : BitVec 8) (rd ra : RegNum) (imm : BitVec 16) :
    rdField (packWord op rd ra imm) = rd := by
  ext i hi
  simp only [rdField, packWord, BitVec.getElem_extractLsb', BitVec.getLsbD_append]
  rw [if_neg (by omega), if_neg (by omega), if_pos (by omega), BitVec.getLsbD_eq_getElem (by omega)]
  congr 1
  omega

@[simp] theorem raField_packWord (op : BitVec 8) (rd ra : RegNum) (imm : BitVec 16) :
    raField (packWord op rd ra imm) = ra := by
  ext i hi
  simp only [raField, packWord, BitVec.getElem_extractLsb', BitVec.getLsbD_append]
  rw [if_neg (by omega), if_pos (by omega), BitVec.getLsbD_eq_getElem (by omega)]
  congr 1
  omega

@[simp] theorem immField_packWord (op : BitVec 8) (rd ra : RegNum) (imm : BitVec 16) :
    immField (packWord op rd ra imm) = imm := by
  ext i hi
  simp only [immField, packWord, BitVec.getElem_extractLsb', BitVec.getLsbD_append]
  rw [if_pos (by omega), BitVec.getLsbD_eq_getElem (by omega)]
  congr 1
  omega

/-- A word is what its four fields pack to. -/
theorem packWord_fields (w : Word) :
    packWord (opField w) (rdField w) (raField w) (immField w) = w := by
  ext i hi
  simp only [packWord, opField, rdField, raField, immField]
  rw [← BitVec.getLsbD_eq_getElem, ← BitVec.getLsbD_eq_getElem]
  simp only [BitVec.getLsbD_append, BitVec.getLsbD_extractLsb']
  split
  · simp; omega
  · split
    · simp only [show i - 16 < 4 by omega, decide_true, Bool.true_and]; congr 1; omega
    · split
      · simp only [show i - 16 - 4 < 4 by omega, decide_true, Bool.true_and]; congr 1; omega
      · simp only [show i - 16 - 4 - 4 < 8 by omega, decide_true, Bool.true_and]; congr 1; omega

/-- The low and the high byte of two joined bytes, as the immediate of a word holds them. -/
@[simp] theorem low_byte_append (x y : Byte) : BitVec.extractLsb' (n := 16) 0 8 (x ++ y) = y := by
  ext i hi
  rw [BitVec.getElem_extractLsb', BitVec.getLsbD_append, if_pos (by omega),
    BitVec.getLsbD_eq_getElem (by omega)]
  congr 1
  omega

@[simp] theorem high_byte_append (x y : Byte) : BitVec.extractLsb' (n := 16) 8 8 (x ++ y) = x := by
  ext i hi
  rw [BitVec.getElem_extractLsb', BitVec.getLsbD_append, if_neg (by omega),
    BitVec.getLsbD_eq_getElem (by omega)]
  congr 1
  omega

@[simp] theorem space_of_imm (sp : BitVec 4) :
    BitVec.extractLsb' (n := 16) 0 4 (0#12 ++ sp) = sp := by
  ext i hi
  rw [BitVec.getElem_extractLsb', BitVec.getLsbD_append, if_pos (by omega),
    BitVec.getLsbD_eq_getElem (by omega)]
  congr 1
  omega

@[simp] theorem reserved_of_imm (sp : BitVec 4) :
    BitVec.extractLsb' (n := 16) 4 12 (0#12 ++ sp) = 0 := by
  ext i hi
  rw [BitVec.getElem_extractLsb', BitVec.getLsbD_append, if_neg (by omega)]
  simp

@[simp] theorem storeImm_bit (s : Bool) : (storeImm s).getLsbD 0 = s := by cases s <;> rfl

@[simp] theorem storeImm_getElem (s : Bool) : (storeImm s)[0] = s := by cases s <;> rfl

@[simp] theorem storeImm_reserved (s : Bool) : (storeImm s).extractLsb' 1 15 = 0 := by
  cases s <;> rfl

/-- An immediate is what its parts at bit `k` join to. -/
theorem imm_split {k m : Nat} (h : m + k = 16) (imm : BitVec 16) :
    (imm.extractLsb' k m ++ imm.extractLsb' 0 k).cast h = imm := by
  ext i hi
  rw [BitVec.getElem_cast, ← BitVec.getLsbD_eq_getElem, BitVec.getLsbD_append,
    BitVec.getLsbD_extractLsb', BitVec.getLsbD_extractLsb', ← BitVec.getLsbD_eq_getElem]
  split
  · next hk => simp [hk]
  · next hk => simp [show i - k < m by omega, show k + (i - k) = i by omega]

/-- An immediate whose bits above the space number are 0 is that space number. -/
theorem imm_of_space {imm : BitVec 16} (h : imm.extractLsb' 4 12 = 0) :
    (0#12 ++ imm.extractLsb' 0 4 : BitVec 16) = imm := by
  have := imm_split (k := 4) (m := 12) rfl imm
  rwa [h] at this

/-- An immediate whose high byte is 0 is its low byte. -/
theorem imm_of_byte {imm : BitVec 16} (h : imm.extractLsb' 8 8 = 0) :
    (0#8 ++ imm.extractLsb' 0 8 : BitVec 16) = imm := by
  have := imm_split (k := 8) (m := 8) rfl imm
  rwa [h] at this

/-- An immediate whose bits above bit 0 are 0 is a store number. -/
theorem imm_of_store {imm : BitVec 16} (h : imm.extractLsb' 1 15 = 0) :
    storeImm (imm.getLsbD 0) = imm := by
  have := imm_split (k := 1) (m := 15) rfl imm
  rw [h] at this
  rw [← this]
  have hb : ∀ b : BitVec 1, storeImm ((0#15 ++ b : BitVec 16).getLsbD 0) = 0#15 ++ b := by decide
  exact hb _

/-- A word is accepted exactly as a legal command whose reserved bits are 0. -/
theorem acceptWord_eq_ok {ok : Bool} {bad : DecodeError} {i j : Instr} :
    acceptWord ok bad i = .ok j ↔ ok = true ∧ i.wellFormed = true ∧ i = j := by
  unfold acceptWord
  cases ok <;> cases i.wellFormed <;> simp

end Sys2Proof
end

