-- ==== Sys2Proof/Laws/Digits.lean ====
section
/-! SUPPORT. What the encoder's helpers deliver: the digits they give OutBit, and the number that those
digits, BUFFER and SUBEND stand for (R141, R144, R145, R147). -/

namespace Sys2Proof.Machine

/-! ## Digits -/

@[simp] theorem signedValue_nil : signedValue [] = 0 := rfl

theorem foldl_digits (bits : List Bool) (v : Int) :
    bits.foldl (fun v b => 2 * v + if b then 1 else -1) v = v * 2 ^ bits.length + signedValue bits := by
  unfold signedValue
  induction bits generalizing v with
  | nil => simp
  | cons b bits ih =>
    rw [List.foldl_cons, List.foldl_cons, ih, ih (2 * 0 + _), List.length_cons, pow_succ]
    ring

/-- Digits in front weigh as much as the number of digits behind them says. -/
theorem signedValue_append (a b : List Bool) :
    signedValue (a ++ b) = signedValue a * 2 ^ b.length + signedValue b := by
  rw [signedValue, List.foldl_append, foldl_digits]
  rfl

theorem signedValue_cons (b : Bool) (bits : List Bool) :
    signedValue (b :: bits) = (if b then 1 else -1) * 2 ^ bits.length + signedValue bits := by
  rw [show b :: bits = [b] ++ bits from rfl, signedValue_append]
  cases b <;> rfl

/-- A run of equal digits. -/
theorem signedValue_replicate (n : Nat) (b : Bool) :
    signedValue (List.replicate n b) = (if b then 1 else -1) * (2 ^ n - 1) := by
  induction n with
  | zero => simp
  | succ n ih =>
    rw [List.replicate_succ, signedValue_cons, ih, List.length_replicate, pow_succ]
    ring

/-! ## The byte assembler -/

/-- One more bit collected in OBYTE (R145). -/
theorem collectedBits_succ (obyte : BitVec 8) {n : Nat} (hn : n < 8) (b : Bool) :
    collectedBits ((obyte <<< 1) ||| (if b then 1 else 0)) (n + 1) = collectedBits obyte n ++ [b] := by
  unfold collectedBits
  rw [List.range_succ, List.map_append]
  congr 1
  · refine List.map_congr_left fun j hj => ?_
    have hj := List.mem_range.1 hj
    have h1 : n + 1 - 1 - j = (n - 1 - j) + 1 := by omega
    rw [h1]
    have h2 : n - 1 - j + 1 < 8 := by omega
    cases b <;> simp [h2] <;> exact (BitVec.getLsbD_eq_getElem (by omega)).symm
  · cases b <;> simp

theorem byteBits_eq (b : Byte) : byteBits b = collectedBits b 8 := rfl

/-- `c'` is the assembler of `c` after it was given these bits: DELAY swallows the first, the others are
delivered (R145). -/
def Coder.Takes (c c' : Coder) (bits : List Bool) : Prop :=
  c'.delivered = c.delivered ++ bits.drop c.delay.toNat ∧
    c'.delay.toNat = c.delay.toNat - bits.length ∧ c'.AssemblerOk

theorem Coder.Takes.refl {c : Coder} (h : c.AssemblerOk) : c.Takes c [] := by
  simp [Coder.Takes, h]

theorem Coder.Takes.trans {c c' c'' : Coder} {d d' : List Bool} (h : c.Takes c' d)
    (h' : c'.Takes c'' d') : c.Takes c'' (d ++ d') := by
  obtain ⟨h1, h2, _⟩ := h
  obtain ⟨h1', h2', h3'⟩ := h'
  refine ⟨?_, ?_, h3'⟩
  · rw [h1', h1, h2, List.drop_append, List.append_assoc]
  · rw [h2', h2, List.length_append]
    omega

/-- A change of other registers is no bit given. -/
theorem Coder.Takes.congr {c c' d d' : Coder} {bits : List Bool} (h : c.Takes c' bits)
    (hc : d.delay = c.delay ∧ d.obyte = c.obyte ∧ d.scount = c.scount ∧ d.output = c.output)
    (hc' : d'.delay = c'.delay ∧ d'.obyte = c'.obyte ∧ d'.scount = c'.scount ∧
      d'.output = c'.output) : d.Takes d' bits := by
  unfold Coder.Takes Coder.delivered at *
  rw [hc.1, hc.2.1, hc.2.2.1, hc.2.2.2, hc'.1, hc'.2.1, hc'.2.2.1, hc'.2.2.2]
  exact ⟨h.1, h.2.1, h.2.2.congr hc'.1 hc'.2.1 hc'.2.2.1⟩

/-- OutBit takes its bit (R145). -/
theorem Coder.outBit_takes {c : Coder} (h : c.AssemblerOk) (b : Bool) : c.Takes (c.outBit b) [b] := by
  have hk := (c.outBit_spec b).2 h
  refine ⟨?_, ?_, hk⟩
  · unfold Coder.outBit
    split
    · next hd =>
      rw [List.drop_of_length_le (by simpa [Nat.succ_le_iff] using hd), List.append_nil]
      split <;> rfl
    · next hd =>
      rw [Nat.eq_zero_of_not_pos hd, List.drop_zero]
      have hs := c.scount.isLt
      dsimp only
      unfold Coder.delivered
      split
      · next h8 =>
        have h7 : c.scount.toNat = 7 := by omega
        have := collectedBits_succ c.obyte (n := 7) (by omega) b
        simp only [Coder.emitByte, List.flatMap_append, List.flatMap_singleton, List.append_assoc, h7]
        rw [byteBits_eq, ← this]
        simp [collectedBits]
      · next h8 =>
        have hsc : (c.scount + 1).toNat = c.scount.toNat + 1 := by
          rw [BitVec.toNat_add]
          simp
          omega
        simp only [hsc]
        rw [collectedBits_succ c.obyte (by omega) b, List.append_assoc]
  · unfold Coder.outBit
    have := h.1
    split
    · next hd =>
      rw [if_pos (by omega)]
      show (c.delay - 1).toNat = _
      rw [BitVec.toNat_sub_of_le (by rw [BitVec.le_def]; exact hd)]
      rfl
    · next hd =>
      dsimp only
      split
      · show c.delay.toNat = _; simp; omega
      · show c.delay.toNat = _; simp; omega

theorem Coder.outBits_takes (n : Nat) (b : Bool) {c : Coder} (h : c.AssemblerOk) :
    c.Takes (Coder.outBits n b c) (List.replicate n b) := by
  induction n generalizing c with
  | zero => exact Coder.Takes.refl h
  | succ n ih =>
    have h1 := Coder.outBit_takes h b
    exact h1.trans (ih h1.2.2)

/-- The release of the run takes NRUN equal bits (R144). -/
theorem Coder.releaseRun_takes {c : Coder} (h : c.AssemblerOk) (b : Bool) :
    c.Takes (c.releaseRun b) (List.replicate c.nrun b) :=
  (Coder.outBits_takes c.nrun b h).congr ⟨rfl, rfl, rfl, rfl⟩ ⟨rfl, rfl, rfl, rfl⟩

/-! ## The carry-resolving buffer -/

/-- `c'` is `c` after `m` provisional bits were pushed into BUFFER: `digits` were decided and given to
OutBit, the run and `m` account for all of them, and with BUFFER they stand for `value` (R144). -/
def Coder.Pushes (c c' : Coder) (m : Nat) (digits : List Bool) (value : Int) : Prop :=
  c.Takes c' digits ∧ digits.length + c'.nrun = c.nrun + m ∧
    signedValue digits * 2 ^ c'.nrun * 2 ^ 24 + (c'.buffer.toNat : Int) = value

/-- What ZEmit decides (R144). -/
theorem Coder.zEmit_pushes {c : Coder} (h : c.AssemblerOk) {b : Int} (hb : -2 ≤ b) (hb' : b ≤ 1) :
    ∃ digits, c.Pushes (c.zEmit b) 1 digits (2 * (c.buffer.toNat : Int) + b) := by
  have hB := c.buffer.isLt
  set t : Int := 2 * (c.buffer.toNat : Int) + b with ht
  have hbuf : ((BitVec.ofInt 24 t).toNat : Int) = t % 2 ^ 24 := by
    rw [BitVec.toNat_ofInt]
    have : (0 : Int) ≤ t % ((2 ^ 24 : Nat) : Int) := Int.emod_nonneg _ (by norm_num)
    rw [Int.toNat_of_nonneg this]
    norm_num
  set c' : Coder := { c with buffer := BitVec.ofInt 24 t } with hc'
  have hk : c'.AssemblerOk := h.congr rfl rfl rfl
  have key : ∀ x y, c.Takes ((c'.outBit x).releaseRun y) (x :: List.replicate c.nrun y) := by
    intro x y
    have h1 := Coder.outBit_takes hk x
    have h2 := Coder.releaseRun_takes h1.2.2 y
    have hn : (c'.outBit x).nrun = c.nrun := by
      obtain ⟨⟨o, _, h⟩, _⟩ := c'.outBit_spec x
      unfold Coder.Assembles at h
      rw [h]
    rw [hn] at h2
    exact (h1.trans h2).congr ⟨rfl, rfl, rfl, rfl⟩ ⟨rfl, rfl, rfl, rfl⟩
  have hnr : ∀ x y, ((c'.outBit x).releaseRun y).nrun = 0 ∧
      ((c'.outBit x).releaseRun y).buffer = BitVec.ofInt 24 t := by
    intro x y
    obtain ⟨_, _, h1, h2⟩ := (c'.outBit x).releaseRun_spec y
    refine ⟨h1, h2.trans ?_⟩
    obtain ⟨⟨o, _, h⟩, _⟩ := c'.outBit_spec x
    unfold Coder.Assembles at h
    rw [h]
  unfold Coder.zEmit
  dsimp only
  rw [← ht, ← hc']
  split
  · next h1 =>
    refine ⟨_, key true false, ?_, ?_⟩
    · rw [(hnr _ _).1]; simp
    · rw [(hnr _ _).1, (hnr _ _).2, hbuf, signedValue_cons, signedValue_replicate, List.length_replicate]
      simp only [if_true, Bool.false_eq_true, if_false, pow_zero]
      omega
  · split
    · next h1 =>
      refine ⟨_, key false true, ?_, ?_⟩
      · rw [(hnr _ _).1]; simp
      · rw [(hnr _ _).1, (hnr _ _).2, hbuf, signedValue_cons, signedValue_replicate, List.length_replicate]
        simp only [if_true, Bool.false_eq_true, if_false, pow_zero]
        omega
    · next h1 h2 =>
      refine ⟨[], (Coder.Takes.refl h).congr ⟨rfl, rfl, rfl, rfl⟩ ⟨rfl, rfl, rfl, rfl⟩, ?_, ?_⟩
      · simp
      · show signedValue [] * 2 ^ (c.nrun + 1) * 2 ^ 24 + ((BitVec.ofInt 24 t).toNat : Int) = t
        rw [hbuf, signedValue_nil]
        omega

/-- Pushes one after the other, where the second ends in a multiple of BUFFER plus one. -/
theorem Coder.Pushes.trans {c c' c'' : Coder} {m m' : Nat} {d d' : List Bool} {v x : Int}
    (h : c.Pushes c' m d v) (h' : c'.Pushes c'' m' d' (2 ^ m' * c'.buffer.toNat + x)) :
    c.Pushes c'' (m + m') (d ++ d') (2 ^ m' * v + x) := by
  obtain ⟨h1, h2, h3⟩ := h
  obtain ⟨h1', h2', h3'⟩ := h'
  refine ⟨h1.trans h1', by rw [List.length_append]; omega, ?_⟩
  have hp : (2 : Int) ^ d'.length * 2 ^ c''.nrun = 2 ^ c'.nrun * 2 ^ m' := by
    rw [← pow_add, ← pow_add, h2']
  rw [signedValue_append, ← h3]
  linear_combination signedValue d * 2 ^ 24 * hp + h3'

/-- EShift pushes one bit: the number BUFFER and SUBEND stand for is doubled (R147). -/
theorem Coder.eShift_pushes {c : Coder} (h : c.AssemblerOk) (a : Nat) {sub : Nat} (hs : sub < 0x20000) :
    ∃ digits, c.Pushes (c.eShift a sub) 1 digits
        (2 * (c.buffer.toNat : Int) + 1 - ((sub / 0x8000 : Nat) : Int)) ∧
      (c.eShift a sub).subend.toNat = 2 * sub - sub / 0x8000 * 0x10000 := by
  have hd : sub >>> 15 = sub / 0x8000 := by rw [Nat.shiftRight_eq_div_pow]
  obtain ⟨digits, h1, h2, h3⟩ := Coder.zEmit_pushes (c := c) h (b := 1 - ((sub >>> 15 : Nat) : Int))
    (by rw [hd]; omega) (by omega)
  refine ⟨digits, ⟨h1.congr ⟨rfl, rfl, rfl, rfl⟩ ⟨rfl, rfl, rfl, rfl⟩, h2, ?_⟩, ?_⟩
  · change signedValue digits * 2 ^ (c.zEmit _).nrun * 2 ^ 24 + ((c.zEmit _).buffer.toNat : Int) = _
    rw [h3, hd]
    ring
  · show (BitVec.ofNat 16 (sub <<< 1)).toNat = _
    rw [BitVec.toNat_ofNat, Nat.shiftLeft_eq]
    omega

/-- The doublings of a renormalisation (R149): `m` of them, until A is below 0x8000, double the number
that the decided digits, BUFFER and SUBEND stand for as often. -/
theorem Coder.eShifts_pushes (fuel : Nat) {c : Coder} (h : c.AssemblerOk) (a : Nat) {sub : Nat}
    (hs : sub < 0x20000) (hs' : a < 0x8000 → sub < 0x10000) (hf : fuel = 0 → sub < 0x10000)
    (ha : a < 0x10000) :
    ∃ m digits x, c.Pushes (Coder.eShifts fuel c a sub) m digits (2 ^ m * (c.buffer.toNat : Int) + x) ∧
      x * 2 ^ 16 = (2 ^ m - 1) * 2 ^ 16 - 2 ^ m * sub + (Coder.eShifts fuel c a sub).subend.toNat ∧
      m = leadingOnes fuel a ∧ (Coder.eShifts fuel c a sub).a.toNat = a * 2 ^ m % 0x10000 := by
  induction fuel generalizing c a sub with
  | zero =>
    refine ⟨0, [], 0, ⟨(Coder.Takes.refl h).congr ⟨rfl, rfl, rfl, rfl⟩ ⟨rfl, rfl, rfl, rfl⟩,
      by simp [Coder.eShifts], ?_⟩, ?_, rfl, ?_⟩
    · simp [Coder.eShifts]
    · show _ = _ + (((BitVec.ofNat 16 sub).toNat : Nat) : Int)
      rw [BitVec.toNat_ofNat, Nat.mod_eq_of_lt (by have := hf rfl; omega)]
      simp
    · show (BitVec.ofNat 16 a).toNat = _
      rw [BitVec.toNat_ofNat]; simp
  | succ fuel ih =>
    unfold Coder.eShifts leadingOnes
    split
    · next hge =>
      dsimp only
      obtain ⟨d, h1, hsub⟩ := Coder.eShift_pushes h a hs
      have ha' := (c.eShift_spec a sub).2.2
      have hlt := (c.eShift a sub).subend.isLt
      obtain ⟨m, d', x, h2, hx, hm, hA⟩ := ih h1.1.2.2 (c.eShift a sub).a.toNat
        (sub := (c.eShift a sub).subend.toNat) (by omega) (fun _ => hlt) (fun _ => hlt)
        (c.eShift a sub).a.isLt
      refine ⟨1 + m, d ++ d', 2 ^ m * (1 - ((sub / 0x8000 : Nat) : Int)) + x, ?_, ?_, ?_, ?_⟩
      · have := h1.trans h2
        rw [show (2 : Int) ^ (1 + m) * c.buffer.toNat + (2 ^ m * (1 - ((sub / 0x8000 : Nat) : Int)) + x) =
          2 ^ m * (2 * c.buffer.toNat + 1 - ((sub / 0x8000 : Nat) : Int)) + x by rw [pow_add]; ring]
        exact this
      · have hsub' : ((c.eShift a sub).subend.toNat : Int) =
            2 * sub - ((sub / 0x8000 : Nat) : Int) * 0x10000 := by
          rw [hsub]; omega
        rw [pow_add]
        linear_combination hx + (-2 ^ m) * hsub'
      · rw [hm, ha', Nat.shiftLeft_eq, pow_one, Nat.mul_comm 2 a, Nat.add_comm]
      · rw [hA, ha', pow_add, Nat.mod_mul_mod]
        congr 1; ring
    · next hlt =>
      refine ⟨0, [], 0, ⟨(Coder.Takes.refl h).congr ⟨rfl, rfl, rfl, rfl⟩ ⟨rfl, rfl, rfl, rfl⟩,
        by simp, ?_⟩, ?_, rfl, ?_⟩
      · simp
      · show _ = _ + (((BitVec.ofNat 16 sub).toNat : Nat) : Int)
        rw [BitVec.toNat_ofNat, Nat.mod_eq_of_lt (by omega)]
        simp
      · show (BitVec.ofNat 16 a).toNat = _
        rw [BitVec.toNat_ofNat]; simp

/-- The number of leading ones, told by how far the value is from the end of the window (R149, R159). -/
theorem leadingOnes_distance (fuel : Nat) {a : Nat} (ha : a < 0x10000) :
    leadingOnes fuel a ≤ fuel ∧ (0x8000 ≤ a → 0 < fuel → 1 ≤ leadingOnes fuel a) ∧
      (0x10000 - a) * 2 ^ leadingOnes fuel a ≤ 0x10000 ∧
      (leadingOnes fuel a < fuel → 0x8000 < (0x10000 - a) * 2 ^ leadingOnes fuel a) := by
  induction fuel generalizing a with
  | zero => simp [leadingOnes]
  | succ fuel ih =>
    unfold leadingOnes
    split
    · next hge =>
      have hs : (a <<< 1) % 0x10000 = 2 * a - 0x10000 := by rw [Nat.shiftLeft_eq]; omega
      rw [hs]
      obtain ⟨h1, _, h3, h4⟩ := ih (a := 2 * a - 0x10000) (by omega)
      have hd : ∀ m, (0x10000 - a) * 2 ^ (m + 1) = (0x10000 - (2 * a - 0x10000)) * 2 ^ m := by
        intro m
        rw [show 0x10000 - (2 * a - 0x10000) = (0x10000 - a) * 2 by omega, pow_succ]
        ring
      refine ⟨by omega, fun _ _ => by omega, by rw [hd]; exact h3, fun h => ?_⟩
      rw [hd]
      exact h4 (by omega)
    · next hlt => simp; omega

/-- The doublings of a renormalisation are as many as A has leading ones (R149, R159). -/
theorem leadingOnes_count {a : Nat} (ha : 0x8000 ≤ a) (ha' : a < 0x10000) :
    LeadingOnes a (leadingOnes 16 a) := by
  obtain ⟨h1, h2, h3, h4⟩ := leadingOnes_distance 16 ha'
  have h2 := h2 ha (by norm_num)
  generalize leadingOnes 16 a = m at *
  refine ⟨h2, h1, ?_, ?_⟩
  · have : 2 ^ (16 - m) * 2 ^ m = 0x10000 := by rw [← pow_add, Nat.sub_add_cancel h1]; rfl
    have : 0x10000 - a ≤ 2 ^ (16 - m) :=
      Nat.le_of_mul_le_mul_right (by omega) (Nat.two_pow_pos m)
    omega
  · by_cases h : m = 16
    · exact .inl h
    · have : 2 ^ (15 - m) * 2 ^ m = 0x8000 := by
        rw [← pow_add, Nat.sub_add_cancel (by omega)]; rfl
      have : 2 ^ (15 - m) < 0x10000 - a :=
        Nat.lt_of_mul_lt_mul_right (a := 2 ^ m) (by have := h4 (by omega); omega)
      exact .inr (by omega)

/-- `c'` is an encoder after it narrowed its interval to one that starts at `top`, losing `loss` at its
end, and renormalised it (R147 to R149). -/
def Coder.Codes (c c' : Coder) (top : Nat) (loss : Int) (m : Nat) (digits : List Bool) : Prop :=
  c.Takes c' digits ∧ c'.a.toNat = top * 2 ^ m % 0x10000 ∧ digits.length + c'.nrun = c.nrun + m ∧
    ((signedValue digits * 2 ^ c'.nrun) * 2 ^ 24 + (c'.buffer.toNat : Int) + 1) * 2 ^ 16 -
        (c'.subend.toNat : Int) =
      2 ^ m * (((c.buffer.toNat : Int) + 1) * 2 ^ 16 - (c.subend.toNat : Int) - loss)

/-- EncLps takes the side below the split (R149). -/
theorem Coder.encLps_codes {c : Coder} (h : c.AssemblerOk) {z : Nat} (hz : c.a.toNat < z)
    (hz' : z ≤ 0xFFFF) (hw : z ≤ c.a.toNat + 0x8000) :
    ∃ m digits, LeadingOnes (c.a.toNat + 0x10000 - z) m ∧
      c.Codes (c.encLps z) (c.a.toNat + 0x10000 - z) (0x10000 - z) m digits := by
  have hs := c.subend.isLt
  have e : c.a.toNat + (0x10000 - z) = c.a.toNat + 0x10000 - z := by omega
  obtain ⟨m, digits, x, ⟨h1, h2, h3⟩, hx, hm, ha⟩ := Coder.eShifts_pushes 16 h
    (c.a.toNat + (0x10000 - z)) (sub := c.subend.toNat + (0x10000 - z)) (by omega) (by omega) (by simp)
    (by omega)
  rw [e] at hm
  refine ⟨m, digits, hm ▸ leadingOnes_count (by omega) (by omega), h1, by rw [← e]; exact ha, h2, ?_⟩
  have hsub : ((c.subend.toNat + (0x10000 - z) : Nat) : Int) = c.subend.toNat + (0x10000 - z) := by
    omega
  rw [hsub] at hx
  unfold Coder.encLps
  linear_combination 2 ^ 16 * h3 + hx

/-- EncMps takes the side above the split and doubles once (R148). -/
theorem Coder.encMps_codes {c : Coder} (h : c.AssemblerOk) {z : Nat} (hz : 0x8000 ≤ z)
    (hz' : z < 0xC000) :
    ∃ digits, LeadingOnes z 1 ∧ c.Codes (c.encMps z) z 0 1 digits := by
  have hs := c.subend.isLt
  obtain ⟨digits, ⟨h1, h2, h3⟩, hsub⟩ := Coder.eShift_pushes h z (sub := c.subend.toNat) (by omega)
  refine ⟨digits, ⟨by norm_num, by norm_num, by omega, .inr (by omega)⟩, h1, ?_, h2, ?_⟩
  · have := (c.eShift_spec z c.subend.toNat).2.2
    unfold Coder.encMps
    rw [this]
    omega
  · have hsub' : ((c.eShift z c.subend.toNat).subend.toNat : Int) =
        2 * c.subend.toNat - ((c.subend.toNat / 0x8000 : Nat) : Int) * 0x10000 := by
      rw [hsub]; omega
    unfold Coder.encMps
    linear_combination 2 ^ 16 * h3 - hsub'

/-! ## The flush of AC.CLOSE -/

/-- The flush loop of AC.CLOSE when SUBEND is 0 (R153): it turns until BUFFER is all ones, and BUFFER is
doubled in each turn. -/
theorem Coder.flushTurns_zero (fuel : Nat) {c : Coder} (h : c.AssemblerOk)
    (hd : (2 : Int) ^ 24 ∣ 2 ^ fuel * ((c.buffer.toNat : Int) + 1)) :
    ∃ k digits, c.Takes (Coder.flushTurns fuel c 0) digits ∧
      digits.length + (Coder.flushTurns fuel c 0).nrun = c.nrun + k ∧
      signedValue digits * 2 ^ (Coder.flushTurns fuel c 0).nrun * 2 ^ 24 +
          ((Coder.flushTurns fuel c 0).buffer.toNat : Int) + 1 = 2 ^ k * ((c.buffer.toNat : Int) + 1) ∧
      (Coder.flushTurns fuel c 0).buffer = 0xFFFFFF ∧ (Coder.flushTurns fuel c 0).subend = 0 ∧
      ∀ j, j < k ↔ ¬ (2 : Int) ^ 24 ∣ 2 ^ j * ((c.buffer.toNat : Int) + 1) := by
  have base : ∀ c : Coder, c.buffer = 0xFFFFFF ↔ (2:Int)^24 ∣ ((c.buffer.toNat : Int) + 1) := by
    intro c
    have := c.buffer.isLt
    rw [← BitVec.toNat_inj]
    simp
    omega
  have stop : ∀ c : Coder, c.buffer = 0xFFFFFF →
      ∀ j, j < 0 ↔ ¬ (2 : Int) ^ 24 ∣ 2 ^ j * ((c.buffer.toNat : Int) + 1) := fun c h j =>
    ⟨fun h => absurd h (Nat.not_lt_zero j), fun h' => absurd (Dvd.dvd.mul_left ((base c).1 h) _) h'⟩
  induction fuel generalizing c with
  | zero =>
    rw [pow_zero, one_mul] at hd
    have hb := (base c).2 hd
    exact ⟨0, [], (Coder.Takes.refl h).congr ⟨rfl, rfl, rfl, rfl⟩ ⟨rfl, rfl, rfl, rfl⟩,
      by simp [Coder.flushTurns], by simp [Coder.flushTurns], hb, rfl, stop c hb⟩
  | succ fuel ih =>
    unfold Coder.flushTurns
    by_cases hb : c.buffer = 0xFFFFFF
    · rw [if_neg (by simp [hb])]
      exact ⟨0, [], (Coder.Takes.refl h).congr ⟨rfl, rfl, rfl, rfl⟩ ⟨rfl, rfl, rfl, rfl⟩, by simp,
        by simp, hb, rfl, stop c hb⟩
    · rw [if_pos (.inl hb)]
      obtain ⟨d, h1, h2, h3⟩ :=
        Coder.zEmit_pushes h (b := 1 - ((0 >>> 15 : Nat) : Int)) (by simp) (by simp)
      generalize c.zEmit (1 - ((0 >>> 15 : Nat) : Int)) = c1 at *
      simp at h3
      have hB : (c1.buffer.toNat : Int) + 1 =
          2 * ((c.buffer.toNat : Int) + 1) - signedValue d * 2 ^ c1.nrun * 2 ^ 24 := by linarith
      have eqv : ∀ j, (2 : Int) ^ 24 ∣ 2 ^ j * ((c1.buffer.toNat : Int) + 1) ↔
          (2 : Int) ^ 24 ∣ 2 ^ (j + 1) * ((c.buffer.toNat : Int) + 1) := by
        intro j
        rw [hB, pow_succ 2 j, show (2 : Int) ^ j * (2 * ((c.buffer.toNat : Int) + 1) -
            signedValue d * 2 ^ c1.nrun * 2 ^ 24) = 2 ^ j * 2 * ((c.buffer.toNat : Int) + 1) -
            2 ^ 24 * (2 ^ j * (signedValue d * 2 ^ c1.nrun)) by ring]
        exact dvd_sub_left (Dvd.intro _ rfl)
      obtain ⟨k, d', i1, i2, i3, i4, i5, i6⟩ := ih (c := c1) h1.2.2 ((eqv fuel).2 hd)
      have : (0 <<< 1) % 0x10000 = 0 := rfl
      rw [this]
      generalize Coder.flushTurns fuel c1 0 = c2 at *
      refine ⟨k + 1, d ++ d', h1.trans i1, by rw [List.length_append]; omega, ?_, i4, i5, ?_⟩
      · have hp : (2 : Int) ^ d'.length * 2 ^ c2.nrun = 2 ^ c1.nrun * 2 ^ k := by
          rw [← pow_add, ← pow_add, i2]
        rw [signedValue_append, pow_succ]
        linear_combination signedValue d * 2 ^ 24 * hp + i3 + 2 ^ k * hB
      · intro j
        cases j with
        | zero => simp; exact fun h => hb ((base c).2 h)
        | succ j => rw [← eqv, ← i6]; omega

/-- The flush loop of AC.CLOSE from a rounded SUBEND (R153): how many turns it takes, and the digits it
decides, which stand for BUFFER and SUBEND. -/
theorem Coder.flushTurns_takes {c : Coder} (h : c.AssemblerOk) {sub : Nat}
    (hs : sub = 0 ∨ sub = 0x8000 ∨ sub = 0x10000) :
    ∃ k digits, c.Takes (Coder.flushTurns 26 c sub) digits ∧
      digits.length + (Coder.flushTurns 26 c sub).nrun = c.nrun + k ∧
      (signedValue digits * 2 ^ (Coder.flushTurns 26 c sub).nrun + 1) * 2 ^ 40 =
        2 ^ k * (((c.buffer.toNat : Int) + 1) * 2 ^ 16 - sub) ∧
      (Coder.flushTurns 26 c sub).buffer = 0xFFFFFF ∧ (Coder.flushTurns 26 c sub).subend = 0 ∧
      ∀ j, j < k ↔ ¬ (2 : Int) ^ 40 ∣ 2 ^ j * (((c.buffer.toNat : Int) + 1) * 2 ^ 16 - sub) ∨
        (((c.buffer.toNat : Int) + 1) * 2 ^ 16 - sub = 0 ∧ j = 0) := by
  have eq40 : ∀ x : Int, (2 : Int) ^ 40 ∣ x * 2 ^ 16 ↔ (2 : Int) ^ 24 ∣ x := by
    intro x
    omega
  have hB := c.buffer.isLt
  by_cases h0 : sub = 0
  · subst h0
    obtain ⟨k, d, i1, i2, i3, i4, i5, i6⟩ := Coder.flushTurns_zero 26 h (by omega)
    refine ⟨k, d, i1, i2, ?_, i4, i5, ?_⟩
    · rw [i4] at i3; simp at i3 ⊢; linarith
    · intro j
      rw [i6]; simp only [Nat.cast_zero, sub_zero]; rw [← mul_assoc, eq40]
      constructor
      · exact .inl
      · rintro (h | ⟨h, _⟩)
        · exact h
        · omega
  · unfold Coder.flushTurns
    rw [if_pos (.inr h0)]
    have hsh : sub >>> 15 = sub / 0x8000 := by rw [Nat.shiftRight_eq_div_pow]
    have hm : (sub <<< 1) % 0x10000 = 0 := by rw [Nat.shiftLeft_eq]; omega
    rw [hm]
    obtain ⟨d, h1, h2, h3⟩ := Coder.zEmit_pushes h (b := 1 - ((sub >>> 15 : Nat) : Int))
      (by rw [hsh]; omega) (by rw [hsh]; omega)
    generalize c.zEmit (1 - ((sub >>> 15 : Nat) : Int)) = c1 at *
    rw [hsh] at h3
    have hq : ((sub / 0x8000 : Nat) : Int) * 2 ^ 16 = 2 * sub := by omega
    have hB1 : ((c1.buffer.toNat : Int) + 1) * 2 ^ 16 =
        2 * (((c.buffer.toNat : Int) + 1) * 2 ^ 16 - sub) - signedValue d * 2 ^ c1.nrun * 2 ^ 40 := by
      linear_combination 2 ^ 16 * h3 - hq
    have eqv : ∀ j, (2 : Int) ^ 24 ∣ 2 ^ j * ((c1.buffer.toNat : Int) + 1) ↔
        (2 : Int) ^ 40 ∣ 2 ^ (j + 1) * (((c.buffer.toNat : Int) + 1) * 2 ^ 16 - sub) := by
      intro j
      rw [← eq40, mul_assoc, hB1, pow_succ 2 j,
        show (2 : Int) ^ j * (2 * (((c.buffer.toNat : Int) + 1) * 2 ^ 16 - sub) -
          signedValue d * 2 ^ c1.nrun * 2 ^ 40) =
          2 ^ j * 2 * (((c.buffer.toNat : Int) + 1) * 2 ^ 16 - sub) -
            2 ^ 40 * (2 ^ j * (signedValue d * 2 ^ c1.nrun)) by ring]
      exact dvd_sub_left (Dvd.intro _ rfl)
    obtain ⟨k, d', i1, i2, i3, i4, i5, i6⟩ := Coder.flushTurns_zero 25 (c := c1) h1.2.2 (by omega)
    generalize Coder.flushTurns 25 c1 0 = c2 at *
    refine ⟨k + 1, d ++ d', h1.trans i1, by rw [List.length_append]; omega, ?_, i4, i5, ?_⟩
    · have hp : (2 : Int) ^ d'.length * 2 ^ c2.nrun = 2 ^ c1.nrun * 2 ^ k := by
        rw [← pow_add, ← pow_add, i2]
      rw [i4] at i3
      simp at i3
      rw [signedValue_append, pow_succ]
      linear_combination signedValue d * 2 ^ 40 * hp + 2 ^ 16 * i3 + 2 ^ k * hB1
    · intro j
      cases j with
      | zero =>
        simp
        by_cases hr : ((c.buffer.toNat : Int) + 1) * 65536 - sub = 0
        · exact .inr hr
        · left; intro hdv; omega
      | succ j =>
        rw [← not_iff_not.2 (eqv j), ← i6]
        constructor
        · intro h; left; omega
        · rintro (h | ⟨_, h⟩)
          · omega
          · omega

/-- The padding of AC.CLOSE (R153): ones up to the end of the byte, when bits are delivered at all. -/
theorem Coder.padByte_takes (fuel : Nat) {c : Coder} (h : c.AssemblerOk)
    (hd : c.scount ≠ 0 → c.delay = 0) (hf : 8 ≤ fuel) :
    ∃ n, n < 8 ∧ c.Takes (Coder.padByte fuel c) (List.replicate n true) ∧
      (Coder.padByte fuel c).scount = 0 ∧ (n ≠ 0 → c.delay = 0) := by
  suffices ∀ m fuel (c : Coder), c.AssemblerOk → (c.scount ≠ 0 → c.delay = 0) →
      (c.scount.toNat = 0 ∧ m = 0 ∨ c.scount.toNat + m = 8) → m < fuel → m < 8 →
      ∃ n, n < 8 ∧ n ≤ m ∧ c.Takes (Coder.padByte fuel c) (List.replicate n true) ∧
        (Coder.padByte fuel c).scount = 0 ∧ (n ≠ 0 → c.delay = 0) by
    have hs := c.scount.isLt
    by_cases h0 : c.scount.toNat = 0
    · obtain ⟨n, h1, _, h2⟩ := this 0 fuel c h hd (.inl ⟨h0, rfl⟩) (by omega) (by omega)
      exact ⟨n, h1, h2⟩
    · obtain ⟨n, h1, _, h2⟩ :=
        this (8 - c.scount.toNat) fuel c h hd (.inr (by omega)) (by omega) (by omega)
      exact ⟨n, h1, h2⟩
  intro m
  induction m with
  | zero =>
    intro fuel c h hd hm hf _
    have hs := c.scount.isLt
    obtain ⟨f, rfl⟩ : ∃ f, fuel = f + 1 := ⟨fuel - 1, by omega⟩
    unfold Coder.padByte
    rw [if_neg (by omega)]
    refine ⟨0, by omega, by omega, Coder.Takes.refl h, ?_, by simp⟩
    rw [← BitVec.toNat_inj]; show c.scount.toNat = 0; omega
  | succ m ih =>
    intro fuel c h hd hm hf h8
    have hs := c.scount.isLt
    obtain ⟨f, rfl⟩ : ∃ f, fuel = f + 1 := ⟨fuel - 1, by omega⟩
    unfold Coder.padByte
    rw [if_pos (by omega)]
    have h1 := Coder.outBit_takes h true
    have hd0 := hd (by intro e; rw [e] at hm; simp at hm; omega)
    have hsc : ((c.outBit true).scount.toNat =
        if c.scount.toNat + 1 = 8 then 0 else c.scount.toNat + 1) ∧ (c.outBit true).delay = 0 := by
      unfold Coder.outBit
      rw [if_neg (by rw [hd0]; decide)]
      dsimp only
      split
      · exact ⟨rfl, hd0⟩
      · refine ⟨?_, hd0⟩
        show (c.scount + 1).toNat = _
        rw [BitVec.toNat_add]; simp; omega
    obtain ⟨n, i1, i0, i2, i3, _⟩ := ih f (c.outBit true) h1.2.2 (fun _ => hsc.2)
      (by rw [hsc.1]; split <;> omega) (by omega) (by omega)
    exact ⟨n + 1, by omega, by omega, h1.trans i2, i3, fun _ => hd0⟩

end Sys2Proof.Machine
end

