-- ==== Sys2Proof/Laws/Exec.lean ====
section
/-! SUPPORT. What `exec` and `step` have in common over all commands: every command but RESET runs in the
frame of R97, a word that decodes is the encoding of its command, and no step ends a run. -/

namespace Sys2Proof.Machine

/-- Every command but RESET runs in the common frame (R97, R120). -/
theorem exec_frame {i : Instr} (h : i ≠ .reset) :
    ∃ (checks : State → List (Bool × FaultKind)) (effect : State → State → Effect),
      ∀ s, exec i s = runCommand i s (checks s) (effect s) := by
  cases i
  case reset => exact absurd rfl h
  all_goals
    refine ⟨?_, ?_, fun s => ?_⟩
    rotate_left 2
    · dsimp only [exec, execNop, execLi, execLui, execLd, execSt, execAcEinit, execAcDinit, execAcEnc,
        execAcDec, execAcEncp, execAcDecp, execAcEncb, execAcDecb, execAcClose, execBpcInit,
        execBpcSlice, execCsCreate, execCsDestroy, execCsScatter, execCsGather, execWtFwd, execWtBwd,
        execWtRgb2ycc, execWtYcc2rgb]
      rfl

/-- A FAULTED engine refuses every command but RESET without any change (R271). -/
theorem exec_faulted {i : Instr} (h : i ≠ .reset) {s : State} (hf : s.faulted = true) :
    exec i s = .next s := by
  obtain ⟨c, e, he⟩ := exec_frame h
  rw [he, runCommand_faulted _ _ _ hf]

/-- No command ends a run. -/
theorem exec_next (i : Instr) (s : State) : ∃ t, exec i s = .next t := by
  by_cases h : i = .reset
  · subst h; exact ⟨_, rfl⟩
  · obtain ⟨c, e, he⟩ := exec_frame h
    rw [he]
    rcases runCommand_cases i s (c s) (e s) with ⟨_, h'⟩ | ⟨_, k, _, h'⟩ | ⟨_, _, h'⟩ <;>
      exact ⟨_, h'⟩

/-! ## The step -/

/-- The state when the host's first action has left the port, for the proofs that name the rest. -/
theorem State.popPort_eq {s : State} {a : HostAction} {rest : List HostAction}
    (h : s.port = a :: rest) : s.popPort = { s with port := rest } := by
  unfold State.popPort
  rw [h]
  rfl

theorem step_idle {s : State} (h : s.port = []) : step s = .next s := by
  unfold step
  rw [h]

theorem step_command {s : State} {w : Word} {rest : List HostAction} {i : Instr}
    (h : s.port = .command w :: rest) (hd : decode w = .ok i) :
    step s = exec i { s with port := rest } := by
  rw [← State.popPort_eq h]
  unfold step
  rw [h]
  dsimp only
  rw [hd]

theorem step_rejected {s : State} {w : Word} {rest : List HostAction} {e : DecodeError}
    (h : s.port = .command w :: rest) (hd : decode w = .error e) :
    step s = .next (State.rejectWord { s with port := rest } w) := by
  rw [← State.popPort_eq h]
  unfold step
  rw [h]
  dsimp only
  rw [hd]

/-- Everything a step can be: a wait, a command, a word that is none, or a host action (R13, R70). -/
theorem step_cases (s : State) :
    (s.port = [] ∧ step s = .next s) ∨
    (∃ w rest, s.port = .command w :: rest ∧
      ((∃ i, decode w = .ok i ∧ step s = exec i { s with port := rest }) ∨
        ∃ e, decode w = .error e ∧ step s = .next (State.rejectWord { s with port := rest } w))) ∨
    ∃ rest, (∃ bytes, s.port = .attach bytes :: rest ∧
        step s = .next (State.attach { s with port := rest } bytes)) ∨
      (s.port = .take :: rest ∧ step s = .next (State.take { s with port := rest })) ∨
      ∃ r, s.port ≠ [] ∧ step s = .next (State.setReply { s with port := rest } r) ∧
        s.port.tail = rest := by
  cases h : s.port with
  | nil => exact .inl ⟨rfl, step_idle h⟩
  | cons a rest =>
    cases a with
    | command w =>
      refine .inr (.inl ⟨w, rest, rfl, ?_⟩)
      cases hd : decode w with
      | ok i => exact .inl ⟨i, rfl, step_command h hd⟩
      | error e => exact .inr ⟨e, rfl, step_rejected h hd⟩
    | attach bytes =>
      refine .inr (.inr ⟨rest, .inl ⟨bytes, rfl, ?_⟩⟩)
      rw [← State.popPort_eq h]
      unfold step
      rw [h]
    | take =>
      refine .inr (.inr ⟨rest, .inr (.inl ⟨rfl, ?_⟩)⟩)
      rw [← State.popPort_eq h]
      unfold step
      rw [h]
    | readStatus =>
      refine .inr (.inr ⟨rest, .inr (.inr ⟨.status s.faulted s.fault s.faultInfo, by simp, ?_, rfl⟩)⟩)
      rw [← State.popPort_eq h]
      unfold step
      rw [h]
      rfl
    | readRegisters =>
      refine .inr (.inr ⟨rest, .inr (.inr ⟨.registers s.x, by simp, ?_, rfl⟩)⟩)
      rw [← State.popPort_eq h]
      unfold step
      rw [h]
      rfl
    | readCoefficient i blk n =>
      refine .inr (.inr ⟨rest, .inr (.inr ⟨.coefficient
        (if (s.store i).valid = true ∧ blk < (s.store i).nb.toNat ∧ n < 1024 then
          some ((s.store i).coefRead blk n) else none), by simp, ?_, rfl⟩)⟩)
      rw [← State.popPort_eq h]
      unfold step
      rw [h]
      rfl

end Sys2Proof.Machine
end

