-- ==== Sys2Proof/Laws/Store.lean ====
section
/-! SUPPORT. What the coefficient primitives can do (R203, R204, R211), what a store after CS.CREATE is
(R201, R205), and that the zigzag order is a bijection (R202). -/

namespace Sys2Proof.Machine

/-! ## Reads and writes of coefficients -/

/-- Coefficients in the same place have the same block and number. -/
theorem bucketKey_posOf_inj {blk n blk' n' : Nat} (hn : n < 1024) (hn' : n' < 1024)
    (hk : bucketKeyOf blk n = bucketKeyOf blk' n') (hp : posOf n = posOf n') :
    blk = blk' ∧ n = n' := by
  unfold bucketKeyOf at hk
  have hp' : n % 16 = n' % 16 := congrArg Fin.val hp
  omega

theorem bucketKeyOf_lt {nb blk n : Nat} (hb : blk < nb) (hn : n < 1024) :
    bucketKeyOf blk n < 64 * nb := by
  unfold bucketKeyOf
  omega

/-- A read of a coefficient whose bucket is not allocated is 0 (R203). -/
theorem Store.coefRead_unallocated {st : Store} {blk n : Nat}
    (h : st.buckets.find (bucketKeyOf blk n) = none) : st.coefRead blk n = 0 := by
  unfold Store.coefRead
  rw [h]

theorem zeroBucket_get (i : Fin 16) : zeroBucket[i] = 0 := by
  unfold zeroBucket
  simp

/-- What CoefWrite can do to a store (R204): it fails exactly when a bucket must be materialized and the
arena is full; else it leaves the descriptor, one coefficient written, the others as they were, and at
most one new bucket. -/
theorem Store.coefWrite_spec (cfg : Config) (st : Store) {blk n : Nat} (v : Sample) (hn : n < 1024) :
    (st.coefWrite cfg blk n v = none ∧ st.buckets.find (bucketKeyOf blk n) = none ∧
      st.arenaLimit cfg ≤ st.nalloc) ∨
    (∃ b, st.coefWrite cfg blk n v =
        some { st with buckets := st.buckets.put (bucketKeyOf blk n) b } ∧
      ((st.buckets.find (bucketKeyOf blk n)).isSome = true ∨ st.nalloc < st.arenaLimit cfg) ∧
      ∀ blk' n', n' < 1024 →
        Store.coefRead { st with buckets := st.buckets.put (bucketKeyOf blk n) b } blk' n' =
          if blk' = blk ∧ n' = n then v else st.coefRead blk' n') := by
  have read : ∀ b0 : Bucket, (∀ i, b0[posOf i] = st.coefRead blk i ∨ bucketKeyOf blk i ≠ bucketKeyOf blk n) →
      ∀ blk' n', n' < 1024 →
      Store.coefRead { st with buckets := st.buckets.put (bucketKeyOf blk n) (b0.set (posOf n) v) }
        blk' n' = if blk' = blk ∧ n' = n then v else st.coefRead blk' n' := by
    intro b0 hb0 blk' n' hn'
    unfold Store.coefRead
    dsimp only
    rw [BucketMap.find_put]
    by_cases hk : bucketKeyOf blk' n' = bucketKeyOf blk n
    · rw [if_pos hk]
      dsimp only
      by_cases hp : posOf n' = posOf n
      · obtain ⟨rfl, rfl⟩ := bucketKey_posOf_inj hn' hn hk hp
        simp
      · have hne : ¬ (blk' = blk ∧ n' = n) := by
          rintro ⟨-, rfl⟩
          exact hp rfl
        rw [if_neg hne]
        have hblk : blk' = blk := by unfold bucketKeyOf at hk; omega
        subst hblk
        have hget : (b0.set (posOf n) v)[posOf n'] = b0[posOf n'] :=
          Vector.getElem_set_ne _ _ (fun h => hp (Fin.ext h.symm))
        rw [hget]
        rcases hb0 n' with h | h
        · exact h
        · exact absurd hk h
    · rw [if_neg hk, if_neg]
      rintro ⟨rfl, rfl⟩
      exact hk rfl
  unfold Store.coefWrite
  cases hf : st.buckets.find (bucketKeyOf blk n) with
  | some b0 =>
    refine .inr ⟨b0.set (posOf n) v, rfl, .inl rfl, read b0 fun i => ?_⟩
    by_cases hk : bucketKeyOf blk i = bucketKeyOf blk n
    · left
      unfold Store.coefRead
      rw [hk, hf]
    · exact .inr hk
  | none =>
    by_cases hl : st.arenaLimit cfg ≤ st.nalloc
    · exact .inl ⟨by simp [hl], rfl, hl⟩
    · refine .inr ⟨zeroBucket.set (posOf n) v, by simp [hl], .inr (by omega), read zeroBucket fun i => ?_⟩
      by_cases hk : bucketKeyOf blk i = bucketKeyOf blk n
      · left
        rw [zeroBucket_get]
        exact (Store.coefRead_unallocated (hk ▸ hf)).symm
      · exact .inr hk

/-- CoefWrite to an existing coefficient keeps the descriptor, the canonical form, the arena bound, and
every allocated bucket (R204, R211). -/
theorem Store.coefWrite_keeps {cfg : Config} {st st' : Store} {blk n : Nat} {v : Sample}
    (hn : n < 1024) (h : st.coefWrite cfg blk n v = some st') :
    st.SameDescriptor st' ∧
      (st.buckets.wf (64 * st.nb.toNat) = true → blk < st.nb.toNat →
        st'.buckets.wf (64 * st.nb.toNat) = true ∧ st.nalloc ≤ st'.nalloc ∧
          (st.nalloc ≤ st.arenaLimit cfg → st'.nalloc ≤ st'.arenaLimit cfg)) ∧
      (∀ b bk, st.Allocated b bk → st'.Allocated b bk) := by
  rcases st.coefWrite_spec cfg v hn (blk := blk) with ⟨h', _⟩ | ⟨b, h', hroom, _⟩
  · rw [h'] at h; cases h
  · rw [h'] at h
    cases h
    refine ⟨rfl, fun hwf hb => ?_, fun b' bk hal => ?_⟩
    · have hlen := BucketMap.length_put (a := bucketKeyOf blk n) b hwf
      refine ⟨BucketMap.wf_put hwf (bucketKeyOf_lt hb hn) b, ?_, fun hle => ?_⟩
      · show st.buckets.length ≤ (st.buckets.put (bucketKeyOf blk n) b).length
        rw [hlen]
        split <;> omega
      · show (st.buckets.put (bucketKeyOf blk n) b).length ≤ st.arenaLimit cfg
        rw [hlen]
        split
        · exact hle
        · next hs => exact (hroom.resolve_left hs)
    · unfold Store.Allocated at *
      dsimp only
      rw [BucketMap.find_put]
      split
      · rfl
      · exact hal

/-- With the default arena a CoefWrite to an existing coefficient never fails (R204). -/
theorem Store.coefWrite_isSome {cfg : Config} {st : Store} {blk n : Nat} (v : Sample)
    (ha : cfg.arena = none) (hwf : st.buckets.wf (64 * st.nb.toNat) = true)
    (hb : blk < st.nb.toNat) (hn : n < 1024) : (st.coefWrite cfg blk n v).isSome = true := by
  rcases st.coefWrite_spec cfg v hn (blk := blk) with ⟨_, hf, hl⟩ | ⟨b, h, _⟩
  · have hput := BucketMap.length_put (a := bucketKeyOf blk n) zeroBucket hwf
    have hle := BucketMap.length_le (BucketMap.wf_put hwf (bucketKeyOf_lt hb hn) zeroBucket)
    rw [hf] at hput
    simp only [Store.arenaLimit, ha, Option.getD_none, Store.nalloc] at hl
    simp at hput
    omega
  · rw [h]; rfl

/-- A well-shaped valid store keeps its shape under a change of its buckets that keeps their form. -/
theorem Store.WellShaped.setBuckets {st st' : Store} (h : st.WellShaped) (hv : st.valid = true)
    (hd : st.SameDescriptor st') (hwf : st'.buckets.wf (64 * st.nb.toNat) = true) :
    st'.WellShaped := by
  unfold Store.SameDescriptor at hd
  unfold Store.WellShaped at *
  rw [if_pos hv] at h
  obtain ⟨h1, h2, h3, h4, h5, _⟩ := h
  rw [hd, if_pos (by exact hv)]
  exact ⟨h1, h2, h3, h4, h5, hwf⟩

theorem Store.WellShaped.wf {st : Store} (h : st.WellShaped) :
    st.buckets.wf (64 * st.nb.toNat) = true := by
  unfold Store.WellShaped at h
  split at h
  · exact h.2.2.2.2.2
  · rw [h]; rfl

theorem Store.empty_wellShaped : Store.empty.WellShaped := rfl

/-- The store CS.CREATE makes is well shaped (R201, R205). -/
theorem Store.create_wellShaped {w h : Nat} (hw : 0 < w) (hw' : w ≤ 65535) (hh : 0 < h)
    (hh' : h ≤ 65535) :
    (Store.create w h).WellShaped ∧ (Store.create w h).iw.toNat = w ∧
      (Store.create w h).ih.toNat = h ∧ (Store.create w h).bw.toNat = 32 * blocksAcross w ∧
      (Store.create w h).bh.toNat = 32 * blocksAcross h ∧
      (Store.create w h).nb.toNat = blocksAcross w * blocksAcross h := by
  have hbw : blocksAcross w ≤ 2048 := by unfold blocksAcross; omega
  have hbh : blocksAcross h ≤ 2048 := by unfold blocksAcross; omega
  have hnb : blocksAcross w * blocksAcross h ≤ 2048 * 2048 := Nat.mul_le_mul hbw hbh
  have e1 : (Store.create w h).iw.toNat = w := by
    show (BitVec.ofNat 16 w).toNat = w
    rw [BitVec.toNat_ofNat]; omega
  have e2 : (Store.create w h).ih.toNat = h := by
    show (BitVec.ofNat 16 h).toNat = h
    rw [BitVec.toNat_ofNat]; omega
  have e3 : (Store.create w h).bw.toNat = 32 * blocksAcross w := by
    show (BitVec.ofNat 17 _).toNat = _
    rw [BitVec.toNat_ofNat]; omega
  have e4 : (Store.create w h).bh.toNat = 32 * blocksAcross h := by
    show (BitVec.ofNat 17 _).toNat = _
    rw [BitVec.toNat_ofNat]; omega
  have e5 : (Store.create w h).nb.toNat = blocksAcross w * blocksAcross h := by
    show (BitVec.ofNat 23 _).toNat = _
    rw [BitVec.toNat_ofNat]; omega
  refine ⟨?_, e1, e2, e3, e4, e5⟩
  unfold Store.WellShaped
  rw [if_pos (show (Store.create w h).valid = true from rfl), e1, e2, e3, e4, e5]
  exact ⟨hw, hh, rfl, rfl, rfl, rfl⟩

/-! ## The zigzag order (R202) -/

theorem bitOf_le (n i : Nat) : bitOf n i ≤ 1 := by unfold bitOf; omega

theorem zigzagCol_lt (n : Nat) : zigzagCol n < 32 := by
  unfold zigzagCol
  have := bitOf_le n 0; have := bitOf_le n 2; have := bitOf_le n 4; have := bitOf_le n 6
  have := bitOf_le n 8
  omega

theorem zigzagRow_lt (n : Nat) : zigzagRow n < 32 := by
  unfold zigzagRow
  have := bitOf_le n 1; have := bitOf_le n 3; have := bitOf_le n 5; have := bitOf_le n 7
  have := bitOf_le n 9
  omega

/-- The sample of a coefficient lies in the store's padded rectangle (R201, R202, R207). -/
theorem Store.sampleIndex_lt {st : Store} (h : st.WellShaped) (hv : st.valid = true) {base rs blk n : Nat}
     (hb : blk < st.nb.toNat) :
    base ≤ st.sampleIndex base rs blk n ∧
      st.sampleIndex base rs blk n < base + (st.bh.toNat - 1) * rs + st.bw.toNat := by
  unfold Store.WellShaped at h
  rw [if_pos hv] at h
  obtain ⟨h1, h2, h3, h4, h5, _⟩ := h
  have hc := zigzagCol_lt n
  have hr := zigzagRow_lt n
  unfold Store.sampleIndex
  dsimp only
  rw [h3, h4, Nat.mul_div_cancel_left _ (by decide : 0 < 32)]
  rw [h5] at hb
  set bw := blocksAcross st.iw.toNat
  set bh := blocksAcross st.ih.toNat
  have hbw : 0 < bw := by
    rcases Nat.eq_zero_or_pos bw with h0 | h0
    · rw [h0] at hb; omega
    · exact h0
  have hq : blk / bw < bh := by
    rw [Nat.div_lt_iff_lt_mul hbw, Nat.mul_comm]; exact hb
  have hm : blk % bw < bw := Nat.mod_lt _ hbw
  have hrow : 32 * (blk / bw) + zigzagRow n ≤ 32 * bh - 1 := by omega
  have := Nat.mul_le_mul_right rs hrow
  constructor <;> omega

/-- The coefficient number at a row and a column of the tile: `col` and `row` undone (R202). -/
def zigzagNumber (row col : Nat) : Nat :=
  bitOf col 4 + 2 * bitOf row 4 + 4 * bitOf col 3 + 8 * bitOf row 3 + 16 * bitOf col 2 +
    32 * bitOf row 2 + 64 * bitOf col 1 + 128 * bitOf row 1 + 256 * bitOf col 0 + 512 * bitOf row 0

theorem zigzagNumber_zigzag :
    ∀ n < 1024, zigzagNumber (zigzagRow n) (zigzagCol n) = n := by
  decide +kernel

theorem zigzag_inj {n n' : Nat} (hn : n < 1024) (hn' : n' < 1024)
    (hr : zigzagRow n = zigzagRow n') (hc : zigzagCol n = zigzagCol n') : n = n' := by
  rw [← zigzagNumber_zigzag n hn, hr, hc, zigzagNumber_zigzag n' hn']

/-- Different coefficients of a store have different samples, when the row stride is at least the padded
width (R201, R202, R207). -/
theorem Store.sampleIndex_inj {st : Store} (h : st.WellShaped) (hv : st.valid = true)
    {base rs blk n blk' n' : Nat} (hrs : st.bw.toNat ≤ rs) (hb : blk < st.nb.toNat)
    (hn : n < 1024) (hn' : n' < 1024)
    (he : st.sampleIndex base rs blk n = st.sampleIndex base rs blk' n') : blk = blk' ∧ n = n' := by
  unfold Store.WellShaped at h
  rw [if_pos hv] at h
  obtain ⟨h1, h2, h3, h4, h5, _⟩ := h
  have hc := zigzagCol_lt n
  have hc' := zigzagCol_lt n'
  have hr := zigzagRow_lt n
  have hr' := zigzagRow_lt n'
  unfold Store.sampleIndex at he
  dsimp only at he
  rw [h3, Nat.mul_div_cancel_left _ (by decide : 0 < 32)] at he
  rw [h5] at hb
  rw [h3] at hrs
  set bw := blocksAcross st.iw.toNat
  have hbw : 0 < bw := by
    rcases Nat.eq_zero_or_pos bw with h0 | h0
    · rw [h0] at hb; omega
    · exact h0
  have hm : blk % bw < bw := Nat.mod_lt _ hbw
  have hm' : blk' % bw < bw := Nat.mod_lt _ hbw
  have hx : 32 * (blk % bw) + zigzagCol n < rs := by omega
  have hx' : 32 * (blk' % bw) + zigzagCol n' < rs := by omega
  have hrs0 : 0 < rs := by omega
  have e1 : (32 * (blk / bw) + zigzagRow n) * rs + (32 * (blk % bw) + zigzagCol n) =
      (32 * (blk' / bw) + zigzagRow n') * rs + (32 * (blk' % bw) + zigzagCol n') := by omega
  have d : ∀ y x, x < rs → (y * rs + x) / rs = y ∧ (y * rs + x) % rs = x := by
    intro y x hx
    constructor
    · rw [Nat.mul_comm, Nat.mul_add_div hrs0, Nat.div_eq_of_lt hx]; rfl
    · rw [Nat.mul_comm, Nat.mul_add_mod, Nat.mod_eq_of_lt hx]
  have ey : 32 * (blk / bw) + zigzagRow n = 32 * (blk' / bw) + zigzagRow n' := by
    rw [← (d (32 * (blk / bw) + zigzagRow n) _ hx).1, e1, (d _ _ hx').1]
  have ex : 32 * (blk % bw) + zigzagCol n = 32 * (blk' % bw) + zigzagCol n' := by
    rw [← (d (32 * (blk / bw) + zigzagRow n) _ hx).2, e1, (d _ _ hx').2]
  refine ⟨?_, zigzag_inj hn hn' (by omega) (by omega)⟩
  rw [← Nat.div_add_mod blk bw, ← Nat.div_add_mod blk' bw]
  rw [show blk / bw = blk' / bw by omega, show blk % bw = blk' % bw by omega]

/-! ## CoefWrite on the state, and CS.SCATTER -/

/-- CoefWrite on a valid store of a state with well-formed memories keeps them (R204). -/
theorem State.coefWrite_memoriesOk {s : State} (h : s.MemoriesOk) {i : Bool}
    (hv : (s.store i).valid = true) {blk n : Nat} (hb : blk < (s.store i).nb.toNat)
    (hn : n < 1024) (v : Sample) :
    (s.coefWrite i blk n v).Post
      (fun t => t.MemoriesOk ∧ ∃ st, t = s.setStore i st ∧ (s.store i).SameDescriptor st)
      (fun k t => k = .allocation ∧ t = s) := by
  unfold State.coefWrite
  cases hc : (s.store i).coefWrite s.cfg blk n v with
  | none => exact ⟨rfl, rfl⟩
  | some st =>
    obtain ⟨h1, h2, h3, h4⟩ := h
    obtain ⟨hd, hk, _⟩ := Store.coefWrite_keeps hn hc
    cases i
    · obtain ⟨hwf, _⟩ := hk h3.wf hb
      exact ⟨⟨h1, h2, h3.setBuckets hv hd hwf, h4⟩, st, rfl, hd⟩
    · obtain ⟨hwf, _⟩ := hk h4.wf hb
      exact ⟨⟨h1, h2, h3, h4.setBuckets hv hd hwf⟩, st, rfl, hd⟩

section scatter

variable {P : State → Prop} {Q : FaultKind → State → Prop} {i : Bool} {nb : Nat}
  (hwrite : ∀ u blk n v, P u → blk < nb → n < 1024 → (u.coefWrite i blk n v).Post P Q)

include hwrite

theorem State.coefWrites_post {blk : Nat} (hblk : blk < nb) (cs : List (Nat × Sample))
    (hcs : ∀ c ∈ cs, c.1 < 1024) : ∀ s, P s → (State.coefWrites i blk cs s).Post P Q := by
  induction cs with
  | nil => exact fun s h => h
  | cons c cs ih =>
    intro s h
    obtain ⟨n, v⟩ := c
    unfold State.coefWrites
    exact (hwrite s blk n v h hblk (hcs (n, v) (by simp))).andThen fun u hu =>
      ih (fun d hd => hcs d (by simp [hd])) u hu

theorem State.scatterBucket_post {base rs blk bk : Nat} (hblk : blk < nb) (hbk : bk < 64)
    (s : State) (h : P s) : (State.scatterBucket i base rs blk bk s).Post P Q := by
  unfold State.scatterBucket
  dsimp only
  split
  · refine State.coefWrites_post hwrite hblk _ (fun c hc => ?_) s h
    obtain ⟨j, hj, rfl⟩ := List.mem_map.1 hc
    have := List.mem_range.1 hj
    dsimp only
    omega
  · exact h

/-- What the buckets of CS.SCATTER can do (R207): CoefWrites to existing coefficients of the store. -/
theorem State.scatterBuckets_post {base rs : Nat} (qs : List Nat) (hqs : ∀ q ∈ qs, q < 64 * nb) :
    ∀ s, P s → (State.scatterBuckets i base rs qs s).Post P Q := by
  induction qs with
  | nil => exact fun s h => h
  | cons q qs ih =>
    intro s h
    have hq := hqs q (by simp)
    unfold State.scatterBuckets
    exact (State.scatterBucket_post hwrite (by omega) (by omega) s h).andThen fun u hu =>
      ih (fun d hd => hqs d (by simp [hd])) u hu

end scatter

/-! ## What CS.SCATTER writes -/

@[simp] theorem State.setStore_setStore (s : State) (i : Bool) (a b : Store) :
    (s.setStore i a).setStore i b = s.setStore i b := by cases i <;> rfl

@[simp] theorem State.setStore_store_self (s : State) (i : Bool) :
    s.setStore i (s.store i) = s := by cases i <;> rfl

/-- CoefWrites to one bucket that is allocated or has room in the arena (R204): they all succeed, the
coefficients named are written and no other, and the bucket is allocated if it was not. -/
theorem State.coefWrites_bucket {i : Bool} {blk bk : Nat} (hbk : bk < 64) (f : Nat → Sample)
    (js : List Nat) (hjs : ∀ j ∈ js, j < 16) (s : State)
    (hwf : (s.store i).buckets.wf (64 * (s.store i).nb.toNat) = true)
    (hblk : blk < (s.store i).nb.toNat)
    (hroom : (s.store i).Allocated blk bk ∨ (s.store i).nalloc < (s.store i).arenaLimit s.cfg) :
    ∃ st', State.coefWrites i blk (js.map fun j => (16 * bk + j, f j)) s = .done (s.setStore i st') ∧
      (s.store i).SameDescriptor st' ∧ st'.buckets.wf (64 * (s.store i).nb.toNat) = true ∧
      st'.nalloc = (s.store i).nalloc +
        (if (s.store i).Allocated blk bk ∨ js = [] then 0 else 1) ∧
      (∀ q, (st'.buckets.find q).isSome = true ↔
        ((s.store i).buckets.find q).isSome = true ∨ (q = 64 * blk + bk ∧ js ≠ [])) ∧
      ∀ blk' n', n' < 1024 → st'.coefRead blk' n' =
        if blk' = blk ∧ n' / 16 = bk ∧ n' % 16 ∈ js then f (n' % 16)
        else (s.store i).coefRead blk' n' := by
  induction js generalizing s with
  | nil => exact ⟨s.store i, by simp [State.coefWrites], rfl, hwf, by simp, by simp, by simp⟩
  | cons j js ih =>
    have hj := hjs j (by simp)
    have hkey : bucketKeyOf blk (16 * bk + j) = 64 * blk + bk := by unfold bucketKeyOf; omega
    rcases (s.store i).coefWrite_spec s.cfg (f j) (show 16 * bk + j < 1024 by omega) (blk := blk)
      with ⟨_, hn, hl⟩ | ⟨b, hc, _, hread⟩
    · rw [hkey] at hn
      rcases hroom with h | h
      · simp [Store.Allocated, hn] at h
      · omega
    · rw [hkey] at hc hread
      set st1 : Store := { s.store i with buckets := (s.store i).buckets.put (64 * blk + bk) b } with hst1
      have hst : (s.setStore i st1).store i = st1 := by cases i <;> rfl
      have hfind : ∀ q, (st1.buckets.find q).isSome = true ↔
          ((s.store i).buckets.find q).isSome = true ∨ q = 64 * blk + bk := by
        intro q
        show ((BucketMap.put _ _ _).find q).isSome = true ↔ _
        rw [BucketMap.find_put]
        split
        · next h => simp [h]
        · next h => simp [h]
      have hal : st1.Allocated blk bk := (hfind _).2 (.inr rfl)
      have hlen : st1.nalloc = (s.store i).nalloc + if (s.store i).Allocated blk bk then 0 else 1 := by
        show (BucketMap.put _ _ _).length = _
        rw [BucketMap.length_put b hwf]
        unfold Store.nalloc Store.Allocated
        split <;> rfl
      obtain ⟨st', h1, h2, h3, h4, h5, h6⟩ := ih (fun j' h => hjs j' (by simp [h])) (s.setStore i st1)
        (by rw [hst]; exact BucketMap.wf_put hwf (by show _ < 64 * (s.store i).nb.toNat; omega) b)
        (by rw [hst]; exact hblk) (by rw [hst]; exact .inl hal)
      rw [hst] at h2 h3 h4 h5 h6
      refine ⟨st', ?_, ?_, h3, ?_, fun q => ?_, fun blk' n' hn' => ?_⟩
      · rw [List.map_cons, State.coefWrites, State.coefWrite, hc]
        simpa using h1
      · unfold Store.SameDescriptor at h2 ⊢
        rw [h2]
      · rw [h4, if_pos (.inl hal), hlen]
        by_cases h : (s.store i).Allocated blk bk <;> simp [h]
      · rw [h5, hfind]
        simp
        tauto
      · rw [h6 blk' n' hn', hread blk' n' hn']
        by_cases hb : blk' = blk ∧ n' / 16 = bk
        · obtain ⟨rfl, rfl⟩ := hb
          by_cases hm : n' % 16 ∈ js
          · simp [hm]
          · by_cases he : n' % 16 = j
            · subst he
              rw [if_neg (by simp [hm]), if_pos ⟨rfl, by omega⟩, if_pos (by simp)]
            · rw [if_neg (by simp [hm]), if_neg (by omega), if_neg (by simp [hm, he])]
        · rw [if_neg (by tauto), if_neg (by rintro ⟨rfl, rfl⟩; exact hb ⟨rfl, by omega⟩),
            if_neg (by tauto)]

theorem State.scatterBuckets_append (i : Bool) (base rs : Nat) (a b : List Nat) (s : State) :
    State.scatterBuckets i base rs (a ++ b) s =
      (State.scatterBuckets i base rs a s).andThen (State.scatterBuckets i base rs b) := by
  induction a generalizing s with
  | nil => rfl
  | cons q qs ih =>
    rw [List.cons_append, State.scatterBuckets, State.scatterBuckets]
    cases State.scatterBucket i base rs (q / 64) (q % 64) s with
    | done u => exact ih u
    | stop k u => rfl

/-- The store `st'` is what CS.SCATTER has made of `st` before bucket number `q` (R207): up to it every
bucket holds its samples and is allocated if it was or needed to be, from it on nothing has changed. -/
structure Store.ScatteredTo (st st' : Store) (sample : Nat → Nat → Sample) (needs : Nat → Bool)
    (q : Nat) : Prop where
  descriptor : st.SameDescriptor st'
  canonical : st'.buckets.wf (64 * st.nb.toNat) = true
  count : st'.nalloc = st.nalloc + (List.range q).countP needs
  allocated : ∀ p, (st'.buckets.find p).isSome = true ↔
    (st.buckets.find p).isSome = true ∨ (p < q ∧ needs p = true)
  value : ∀ blk n, n < 1024 → blk < st.nb.toNat → st'.coefRead blk n =
    if 64 * blk + n / 16 < q then sample blk n else st.coefRead blk n

/-- CS.SCATTER before its bucket number `q`, where the arena has room for every bucket that needs it up
to there; and its stop at `q`, where it has none (R204, R207). -/
theorem State.scatterBuckets_scatters {s : State} {i : Bool} {base rs : Nat}
    (hwf : (s.store i).buckets.wf (64 * (s.store i).nb.toNat) = true) {sample : Nat → Nat → Sample}
    (hsample : sample = fun blk n => s.wb.read ((s.store i).sampleIndex base rs blk n))
    {needs : Nat → Bool} (hneeds : needs = fun p => !((s.store i).buckets.find p).isSome &&
      (List.range 16).any fun j => decide (sample (p / 64) (16 * (p % 64) + j) ≠ 0)) {q : Nat}
    (hq : q ≤ 64 * (s.store i).nb.toNat)
    (hroom : ∀ p, p < q → needs p = true →
      (s.store i).nalloc + (List.range p).countP needs < (s.store i).arenaLimit s.cfg) :
    ∃ st', State.scatterBuckets i base rs (List.range q) s = .done (s.setStore i st') ∧
      (s.store i).ScatteredTo st' sample needs q ∧
      (needs q = true → (s.store i).arenaLimit s.cfg ≤ st'.nalloc →
        State.scatterBucket i base rs (q / 64) (q % 64) (s.setStore i st') =
          .stop .allocation (s.setStore i st')) := by
  have stopAt : ∀ q st', (s.store i).ScatteredTo st' sample needs q → needs q = true →
      (s.store i).arenaLimit s.cfg ≤ st'.nalloc →
        State.scatterBucket i base rs (q / 64) (q % 64) (s.setStore i st') =
          .stop .allocation (s.setStore i st') := by
    intro q st' h hn hl
    have hst : (s.setStore i st').store i = st' := by cases i <;> rfl
    have hd := h.descriptor
    unfold Store.SameDescriptor at hd
    have hn' := hn
    simp only [hneeds, Bool.and_eq_true, Bool.not_eq_true'] at hn'
    have hfind : (st'.buckets.find q).isSome = false := by
      rw [Bool.eq_false_iff]
      intro hs
      rcases (h.allocated q).1 hs with h1 | h1
      · rw [hn'.1] at h1; cases h1
      · omega
    have hkey : bucketKeyOf (q / 64) (16 * (q % 64) + 0) = q := by unfold bucketKeyOf; omega
    unfold State.scatterBucket
    dsimp only
    rw [if_pos]
    · rw [show List.range 16 = 0 :: (List.range 15).map (· + 1) from rfl, List.map_cons, State.coefWrites,
        State.coefWrite, hst]
      rcases st'.coefWrite_spec s.cfg (s.wb.read (st'.sampleIndex base rs (q / 64) (16 * (q % 64) + 0)))
        (show 16 * (q % 64) + 0 < 1024 by omega) (blk := q / 64) with ⟨hc, _, _⟩ | ⟨b, _, hor, _⟩
      · have e : (s.setStore i st').cfg = s.cfg := by cases i <;> rfl
        have e' : (s.setStore i st').wb = s.wb := by cases i <;> rfl
        rw [e, e', hc]
        rfl
      · rw [hkey, hfind] at hor
        have : st'.arenaLimit s.cfg = (s.store i).arenaLimit s.cfg := by rw [hd]; rfl
        rcases hor with h | h
        · cases h
        · omega
    · rw [Bool.or_eq_true]
      left
      have e' : (s.setStore i st').wb = s.wb := by cases i <;> rfl
      have ei : ∀ b n, st'.sampleIndex base rs b n = (s.store i).sampleIndex base rs b n := by
        intro b n; rw [hd]; rfl
      rw [hst, e', List.any_map]
      rw [hsample] at hn'
      simpa [ei, Function.comp] using hn'.2
  suffices hs : ∃ st', State.scatterBuckets i base rs (List.range q) s = .done (s.setStore i st') ∧
      (s.store i).ScatteredTo st' sample needs q by
    obtain ⟨st', h1, h2⟩ := hs
    exact ⟨st', h1, h2, stopAt q st' h2⟩
  induction q with
  | zero =>
    exact ⟨s.store i, by simp [State.scatterBuckets], ⟨rfl, hwf, by simp, by simp, by simp⟩⟩
  | succ q ih =>
    obtain ⟨st, h1, h2⟩ := ih (by omega) fun p hp => hroom p (by omega)
    have hst : (s.setStore i st).store i = st := by cases i <;> rfl
    have hcfg : (s.setStore i st).cfg = s.cfg := by cases i <;> rfl
    have hwb : (s.setStore i st).wb = s.wb := by cases i <;> rfl
    have hd := h2.descriptor
    unfold Store.SameDescriptor at hd
    have hnb : st.nb = (s.store i).nb := by rw [hd]
    have hlim : st.arenaLimit s.cfg = (s.store i).arenaLimit s.cfg := by rw [hd]; rfl
    have ei : ∀ b n, st.sampleIndex base rs b n = (s.store i).sampleIndex base rs b n := by
      intro b n; rw [hd]; rfl
    have hq64 : 64 * (q / 64) + q % 64 = q := by omega
    have hold : (st.buckets.find q).isSome = true ↔ ((s.store i).buckets.find q).isSome = true := by
      rw [h2.allocated]
      constructor
      · rintro (h | h)
        · exact h
        · omega
      · exact .inl
    rw [List.range_succ, State.scatterBuckets_append, h1]
    simp only [Effect.done_andThen, State.scatterBuckets]
    unfold State.scatterBucket
    dsimp only
    rw [hst, hwb]
    have hcount : (List.range (q + 1)).countP needs =
        (List.range q).countP needs + if needs q = true then 1 else 0 := by
      rw [List.range_succ, List.countP_append, List.countP_singleton]
    by_cases hw : ((List.range 16).any fun j =>
        decide (sample (q / 64) (16 * (q % 64) + j) ≠ 0)) = true ∨ (st.buckets.find q).isSome = true
    · rw [if_pos (by
        rw [List.any_map, Bool.or_eq_true, hq64]
        refine hw.imp_left fun h => ?_
        rw [hsample] at h
        simpa [ei, Function.comp] using h)]
      have hneed : needs q = true ↔ ¬ (st.buckets.find q).isSome = true := by
        simp only [hneeds, Bool.and_eq_true, Bool.not_eq_true', Bool.not_eq_true]
        rw [← Bool.not_eq_true, ← hold]
        constructor
        · exact fun h => by simpa using h.1
        · exact fun h => ⟨by simpa using h, hw.resolve_right (by simpa using h)⟩
      obtain ⟨st', g1, g2, g3, g4, g5, g6⟩ := State.coefWrites_bucket (i := i) (blk := q / 64)
        (bk := q % 64) (by omega)
        (fun j => sample (q / 64) (16 * (q % 64) + j)) (List.range 16) (fun j hj => List.mem_range.1 hj)
        (s.setStore i st) (by rw [hst, hnb]; exact h2.canonical) (by rw [hst, hnb]; omega) (by
          rw [hst, hcfg, hlim]
          unfold Store.Allocated
          rw [hq64]
          by_cases hal : (st.buckets.find q).isSome = true
          · exact .inl hal
          · right
            rw [h2.count]
            exact hroom q (by omega) (hneed.2 hal))
      rw [hst] at g2 g3 g4 g5 g6
      have eS : (State.coefWrites i (q / 64) ((List.range 16).map fun j =>
          (16 * (q % 64) + j, s.wb.read (st.sampleIndex base rs (q / 64) (16 * (q % 64) + j))))
          (s.setStore i st)) = .done ((s.setStore i st).setStore i st') := by
        rw [← g1, hsample]
        simp only [ei]
      rw [eS, Effect.done_andThen, State.setStore_setStore]
      refine ⟨st', rfl, ⟨?_, by rw [hnb] at g3; exact g3, ?_, fun p => ?_, fun blk n hn hb => ?_⟩⟩
      · unfold Store.SameDescriptor at g2 ⊢
        rw [g2, hd]
      · rw [g4, h2.count, hcount]
        unfold Store.Allocated
        rw [hq64]
        by_cases hal : (st.buckets.find q).isSome = true
        · simp [hal, mt hneed.1 (not_not.2 hal)]
        · simp [hal, hneed.2 hal, Nat.add_assoc]
      · rw [g5, h2.allocated, hq64]
        constructor
        · rintro ((h | ⟨h, h'⟩) | ⟨h, _⟩)
          · exact .inl h
          · exact .inr ⟨by omega, h'⟩
          · subst h
            by_cases hal : (st.buckets.find p).isSome = true
            · exact .inl (hold.1 hal)
            · exact .inr ⟨by omega, hneed.2 hal⟩
        · rintro (h | ⟨h, h'⟩)
          · exact .inl (.inl h)
          · by_cases he : p = q
            · exact .inr ⟨he, by simp⟩
            · exact .inl (.inr ⟨by omega, h'⟩)
      · rw [g6 blk n hn, h2.value blk n hn hb]
        by_cases he : 64 * blk + n / 16 = q
        · rw [if_pos ⟨by omega, by omega, List.mem_range.2 (by omega)⟩, if_pos (by omega)]
          rw [show q / 64 = blk by omega, show 16 * (q % 64) + n % 16 = n by omega]
        · rw [if_neg (by omega)]
          by_cases hlt : 64 * blk + n / 16 < q
          · rw [if_pos hlt, if_pos (by omega)]
          · rw [if_neg hlt, if_neg (by omega)]
    · rw [not_or] at hw
      rw [if_neg (by
        rw [List.any_map, Bool.or_eq_true, hq64, not_or]
        refine ⟨fun h => hw.1 ?_, hw.2⟩
        rw [hsample]
        simpa [ei, Function.comp] using h)]
      have hneed : needs q = false := by
        rw [hneeds]
        dsimp only
        rw [Bool.eq_false_iff.2 hw.1, Bool.and_false]
      refine ⟨st, rfl, ⟨h2.descriptor, h2.canonical, by rw [hcount, hneed, h2.count]; simp,
        fun p => ?_, fun blk n hn hb => ?_⟩⟩
      · rw [h2.allocated]
        constructor
        · exact fun h => h.imp_right fun h => ⟨by omega, h.2⟩
        · rintro (h | ⟨h, h'⟩)
          · exact .inl h
          · refine .inr ⟨?_, h'⟩
            have : p ≠ q := fun e => by rw [e, hneed] at h'; cases h'
            omega
      · rw [h2.value blk n hn hb]
        by_cases he : 64 * blk + n / 16 = q
        · rw [if_neg (by omega), if_pos (by omega)]
          have hz := hw.1
          rw [List.any_eq_true] at hz
          have hun : (s.store i).coefRead blk n = 0 := by
            refine Store.coefRead_unallocated ?_
            rw [show bucketKeyOf blk n = q by unfold bucketKeyOf; exact he]
            exact Option.not_isSome_iff_eq_none.1 fun h => hw.2 (hold.2 h)
          rw [hun]
          by_contra hne
          refine hz ⟨n % 16, List.mem_range.2 (by omega), ?_⟩
          rw [decide_eq_true_eq, show q / 64 = blk by omega, show 16 * (q % 64) + n % 16 = n by omega]
          exact fun h => hne h.symm
        · by_cases hlt : 64 * blk + n / 16 < q
          · rw [if_pos hlt, if_pos (by omega)]
          · rw [if_neg hlt, if_neg (by omega)]

end Sys2Proof.Machine
end

