-- ==== Sys2Proof/Laws/Operands.lean ====
section
/-! SUPPORT. What the operand forms can do: a read and a write of each memory space (R60, R62), and the
range checks of the work buffer (R181, R189). -/

namespace Sys2Proof.Machine

/-- A read of space CTX (R62). -/
theorem State.memRead_ctx (s : State) (a : Nat) :
    s.memRead 1 a = if a < 256 then some ((s.ctx.read a).setWidth 32) else none := rfl

/-- A read of space WB (R62). -/
theorem State.memRead_wb (s : State) (a : Nat) :
    s.memRead 2 a = if a < s.cfg.wbWords then some ((s.wb.read a).signExtend 32) else none := rfl

/-- A read of space CS0 or CS1 (R62): a store that is not valid has no element. -/
theorem State.memRead_store (s : State) (i : Bool) (a : Nat) :
    s.memRead (if i then 4 else 3) a =
      if (s.store i).valid = true ∧ a < 1024 * (s.store i).nb.toNat then
        some (((s.store i).coefRead (a / 1024) (a % 1024)).signExtend 32) else none := by
  have h : s.memRead (if i then 4 else 3) a = (s.store i).spaceRead a := by cases i <;> rfl
  rw [h]
  unfold Store.spaceRead Store.elements
  cases (s.store i).valid <;> simp

/-- A write of space CTX or WB (R62): one element, or AddressError with nothing written. -/
theorem State.memWrite_ctx (s : State) (a : Nat) (v : Word) :
    s.memWrite 1 a v =
      if a < 256 then .done (s.setCtx (s.ctx.write a (v.setWidth 8))) else .stop .address s := rfl

theorem State.memWrite_wb (s : State) (a : Nat) (v : Word) :
    s.memWrite 2 a v =
      if a < s.cfg.wbWords then .done (s.setWb (s.wb.write a (v.setWidth 16)))
      else .stop .address s := rfl

/-- A write of space CS0 or CS1 (R62): CoefWrite inside the store, else AddressError. -/
theorem State.memWrite_store (s : State) (i : Bool) (a : Nat) (v : Word) :
    s.memWrite (if i then 4 else 3) a v =
      if (s.store i).valid = true ∧ a < 1024 * (s.store i).nb.toNat then
        s.coefWrite i (a / 1024) (a % 1024) (v.setWidth 16) else .stop .address s := by
  have h : s.memWrite (if i then 4 else 3) a v = s.storeSpaceWrite i a v := by cases i <;> rfl
  rw [h]
  unfold State.storeSpaceWrite Store.elements
  cases (s.store i).valid <;> simp

/-- Everything a write can do (R62): a context byte, a sample, a coefficient inside its store, or
AddressError with nothing written. -/
theorem State.memWrite_cases (s : State) (sp : BitVec 4) (a : Nat) (v : Word) :
    (sp = 1 ∧ a < 256 ∧ s.memWrite sp a v = .done (s.setCtx (s.ctx.write a (v.setWidth 8)))) ∨
    (sp = 2 ∧ a < s.cfg.wbWords ∧
      s.memWrite sp a v = .done (s.setWb (s.wb.write a (v.setWidth 16)))) ∨
    (∃ i : Bool, sp = (if i then 4 else 3) ∧ (s.store i).valid = true ∧
      a < 1024 * (s.store i).nb.toNat ∧
      s.memWrite sp a v = s.coefWrite i (a / 1024) (a % 1024) (v.setWidth 16)) ∨
    s.memWrite sp a v = .stop .address s := by
  by_cases h1 : sp = 1
  · subst h1
    rw [State.memWrite_ctx]
    split
    · next h => exact .inl ⟨rfl, h, rfl⟩
    · exact .inr (.inr (.inr rfl))
  · by_cases h2 : sp = 2
    · subst h2
      rw [State.memWrite_wb]
      split
      · next h => exact .inr (.inl ⟨rfl, h, rfl⟩)
      · exact .inr (.inr (.inr rfl))
    · by_cases h3 : ∃ i : Bool, sp = if i then 4 else 3
      · obtain ⟨i, rfl⟩ := h3
        rw [State.memWrite_store]
        by_cases h : (s.store i).valid = true ∧ a < 1024 * (s.store i).nb.toNat
        · rw [if_pos h]
          exact .inr (.inr (.inl ⟨i, rfl, h.1, h.2, rfl⟩))
        · rw [if_neg h]
          exact .inr (.inr (.inr rfl))
      · refine .inr (.inr (.inr ?_))
        have e : ∀ k : BitVec 4, sp.toNat = k.toNat → sp = k := fun k h => BitVec.eq_of_toNat_eq h
        unfold State.memWrite
        split
        · next h => exact absurd (e 1 h) h1
        · next h => exact absurd (e 2 h) h2
        · next h => exact absurd ⟨false, e 3 h⟩ h3
        · next h => exact absurd ⟨true, e 4 h⟩ h3
        · rfl

@[simp] theorem State.rectInWb_iff (s : State) (base w h rs : Nat) :
    s.rectInWb base w h rs = true ↔ base + (h - 1) * rs + w ≤ s.cfg.wbWords := by
  unfold State.rectInWb
  exact decide_eq_true_iff

@[simp] theorem State.planeInWb_iff (s : State) (base n : Nat) :
    s.planeInWb base n = true ↔ base + n ≤ s.cfg.wbWords := by
  unfold State.planeInWb
  exact decide_eq_true_iff

/-- The k-th register of a run, as a register (R21). -/
@[simp] theorem State.regRun_zero (s : State) (r : RegNum) : s.regRun r 0 = (s.reg r).toNat := by
  unfold State.regRun
  simp

theorem State.regRun_eq (s : State) (r : RegNum) (k : Nat) :
    s.regRun r k = (s.reg (r + BitVec.ofNat 4 k)).toNat := rfl

end Sys2Proof.Machine
end

