-- ==== Sys2Proof/Laws/PerInstr.lean ====
section
/-! SUPPORT. The family `TableBits`: the encoding of a command has the fixed bits of its row of the
opcode table (R92, R94). -/

namespace Sys2Proof.Laws.TableBits

/-- The row of a command in the opcode table: its mask and its match. -/
def row : Instr → Word × Word
  | .nop => (0xFFFFFFFF, 0x00000000)
  | .li _ _ => (0xFF0F0000, 0x01000000)
  | .lui _ _ => (0xFF0F0000, 0x02000000)
  | .ld _ _ _ => (0xFF00FFF0, 0x03000000)
  | .st _ _ _ => (0xFF00FFF0, 0x04000000)
  | .reset => (0xFFFFFFFF, 0x0F000000)
  | .acEinit => (0xFFFFFFFF, 0x10000000)
  | .acDinit => (0xFFFFFFFF, 0x11000000)
  | .acEnc _ _ => (0xFF0FFF00, 0x12000000)
  | .acDec _ _ => (0xFF0FFF00, 0x13000000)
  | .acEncp _ => (0xFF0FFFFF, 0x14000000)
  | .acDecp _ => (0xFF0FFFFF, 0x15000000)
  | .acEncb _ => (0xFF0FFFFF, 0x16000000)
  | .acDecb _ => (0xFF0FFFFF, 0x17000000)
  | .acClose => (0xFFFFFFFF, 0x18000000)
  | .bpcInit => (0xFFFFFFFF, 0x20000000)
  | .bpcSlice _ => (0xFF0FFFFF, 0x21000000)
  | .csCreate _ _ => (0xFFF0FFFE, 0x30000000)
  | .csDestroy _ => (0xFFFFFFFE, 0x31000000)
  | .csScatter _ _ => (0xFFF0FFFE, 0x32000000)
  | .csGather _ _ => (0xFFF0FFFE, 0x33000000)
  | .wtFwd _ _ _ => (0xFFF00000, 0x40000000)
  | .wtBwd _ _ _ => (0xFFF00000, 0x41000000)
  | .wtRgb2ycc _ => (0xFFF0FFFF, 0x42000000)
  | .wtYcc2rgb _ => (0xFFF0FFFF, 0x43000000)

/-- The bits of the encoding of `i` under its row's mask are the row's match: no operand changes them. -/
def Statement (i : Instr) : Prop := encode i &&& (row i).1 = (row i).2

/-- Masking a packed word masks its fields. -/
theorem and_packWord (op op' : BitVec 8) (rd rd' ra ra' : RegNum) (imm imm' : BitVec 16) :
    packWord op rd ra imm &&& packWord op' rd' ra' imm' =
      packWord (op &&& op') (rd &&& rd') (ra &&& ra') (imm &&& imm') := by
  rw [← packWord_fields (packWord op rd ra imm &&& packWord op' rd' ra' imm')]
  unfold opField rdField raField immField
  simp only [BitVec.extractLsb'_and]
  exact congr (congr (congr (congr rfl
    (congr (congr rfl (opField_packWord ..)) (opField_packWord ..)))
    (congr (congr rfl (rdField_packWord ..)) (rdField_packWord ..)))
    (congr (congr rfl (raField_packWord ..)) (raField_packWord ..)))
    (congr (congr rfl (immField_packWord ..)) (immField_packWord ..))

theorem space_masked : ∀ sp : BitVec 4, ((0 : BitVec 12) ++ sp : BitVec 16) &&& 0xFFF0 = 0 := by decide

theorem byte_masked : ∀ c : Byte, ((0 : Byte) ++ c : BitVec 16) &&& 0xFF00 = 0 := by decide +kernel

theorem store_masked : ∀ b : Bool, storeImm b &&& 0xFFFE = 0 := by decide

/-- A word packed from fields that the mask turns into the fields of the match. -/
theorem packed {op : BitVec 8} {rd ra : RegNum} {imm : BitVec 16} {mask hit : Word}
    (h : packWord (op &&& opField mask) (rd &&& rdField mask) (ra &&& raField mask)
      (imm &&& immField mask) = hit) : packWord op rd ra imm &&& mask = hit := by
  rw [← packWord_fields mask, and_packWord, h]

theorem nop : Statement .nop := by
  show _ = _
  decide

theorem li (rd : RegNum) (imm : BitVec 16) : Statement (.li rd imm) := by
  refine packed (mask := 0xFF0F0000) (hit := 0x01000000) ?_
  rw [show opField 0xFF0F0000 = 0xFF from by decide, show rdField 0xFF0F0000 = 0x0 from by decide,
    show raField 0xFF0F0000 = 0xF from by decide,
    show immField 0xFF0F0000 = 0x0 from by decide]
  simp [packWord]

theorem lui (rd : RegNum) (imm : BitVec 16) : Statement (.lui rd imm) := by
  refine packed (mask := 0xFF0F0000) (hit := 0x02000000) ?_
  rw [show opField 0xFF0F0000 = 0xFF from by decide, show rdField 0xFF0F0000 = 0x0 from by decide,
    show raField 0xFF0F0000 = 0xF from by decide,
    show immField 0xFF0F0000 = 0x0 from by decide]
  simp [packWord]

theorem ld (rd : RegNum) (sp : BitVec 4) (ra : RegNum) : Statement (.ld rd sp ra) := by
  refine packed (mask := 0xFF00FFF0) (hit := 0x03000000) ?_
  rw [show opField 0xFF00FFF0 = 0xFF from by decide, show rdField 0xFF00FFF0 = 0x0 from by decide,
    show raField 0xFF00FFF0 = 0x0 from by decide,
    show immField 0xFF00FFF0 = 0xFFF0 from by decide]
  rw [space_masked sp]
  simp [packWord]

theorem st (rd : RegNum) (sp : BitVec 4) (ra : RegNum) : Statement (.st rd sp ra) := by
  refine packed (mask := 0xFF00FFF0) (hit := 0x04000000) ?_
  rw [show opField 0xFF00FFF0 = 0xFF from by decide, show rdField 0xFF00FFF0 = 0x0 from by decide,
    show raField 0xFF00FFF0 = 0x0 from by decide,
    show immField 0xFF00FFF0 = 0xFFF0 from by decide]
  rw [space_masked sp]
  simp [packWord]

theorem reset : Statement .reset := by
  show _ = _
  decide

theorem acEinit : Statement .acEinit := by
  show _ = _
  decide

theorem acDinit : Statement .acDinit := by
  show _ = _
  decide

theorem acEnc (rd : RegNum) (c : Byte) : Statement (.acEnc rd c) := by
  refine packed (mask := 0xFF0FFF00) (hit := 0x12000000) ?_
  rw [show opField 0xFF0FFF00 = 0xFF from by decide, show rdField 0xFF0FFF00 = 0x0 from by decide,
    show raField 0xFF0FFF00 = 0xF from by decide,
    show immField 0xFF0FFF00 = 0xFF00 from by decide]
  rw [byte_masked c]
  simp [packWord]

theorem acDec (rd : RegNum) (c : Byte) : Statement (.acDec rd c) := by
  refine packed (mask := 0xFF0FFF00) (hit := 0x13000000) ?_
  rw [show opField 0xFF0FFF00 = 0xFF from by decide, show rdField 0xFF0FFF00 = 0x0 from by decide,
    show raField 0xFF0FFF00 = 0xF from by decide,
    show immField 0xFF0FFF00 = 0xFF00 from by decide]
  rw [byte_masked c]
  simp [packWord]

theorem acEncp (rd : RegNum) : Statement (.acEncp rd) := by
  refine packed (mask := 0xFF0FFFFF) (hit := 0x14000000) ?_
  rw [show opField 0xFF0FFFFF = 0xFF from by decide, show rdField 0xFF0FFFFF = 0x0 from by decide,
    show raField 0xFF0FFFFF = 0xF from by decide,
    show immField 0xFF0FFFFF = 0xFFFF from by decide]
  simp [packWord]

theorem acDecp (rd : RegNum) : Statement (.acDecp rd) := by
  refine packed (mask := 0xFF0FFFFF) (hit := 0x15000000) ?_
  rw [show opField 0xFF0FFFFF = 0xFF from by decide, show rdField 0xFF0FFFFF = 0x0 from by decide,
    show raField 0xFF0FFFFF = 0xF from by decide,
    show immField 0xFF0FFFFF = 0xFFFF from by decide]
  simp [packWord]

theorem acEncb (rd : RegNum) : Statement (.acEncb rd) := by
  refine packed (mask := 0xFF0FFFFF) (hit := 0x16000000) ?_
  rw [show opField 0xFF0FFFFF = 0xFF from by decide, show rdField 0xFF0FFFFF = 0x0 from by decide,
    show raField 0xFF0FFFFF = 0xF from by decide,
    show immField 0xFF0FFFFF = 0xFFFF from by decide]
  simp [packWord]

theorem acDecb (rd : RegNum) : Statement (.acDecb rd) := by
  refine packed (mask := 0xFF0FFFFF) (hit := 0x17000000) ?_
  rw [show opField 0xFF0FFFFF = 0xFF from by decide, show rdField 0xFF0FFFFF = 0x0 from by decide,
    show raField 0xFF0FFFFF = 0xF from by decide,
    show immField 0xFF0FFFFF = 0xFFFF from by decide]
  simp [packWord]

theorem acClose : Statement .acClose := by
  show _ = _
  decide

theorem bpcInit : Statement .bpcInit := by
  show _ = _
  decide

theorem bpcSlice (rd : RegNum) : Statement (.bpcSlice rd) := by
  refine packed (mask := 0xFF0FFFFF) (hit := 0x21000000) ?_
  rw [show opField 0xFF0FFFFF = 0xFF from by decide, show rdField 0xFF0FFFFF = 0x0 from by decide,
    show raField 0xFF0FFFFF = 0xF from by decide,
    show immField 0xFF0FFFFF = 0xFFFF from by decide]
  simp [packWord]

theorem csCreate (b : Bool) (ra : RegNum) : Statement (.csCreate b ra) := by
  refine packed (mask := 0xFFF0FFFE) (hit := 0x30000000) ?_
  rw [show opField 0xFFF0FFFE = 0xFF from by decide, show rdField 0xFFF0FFFE = 0xF from by decide,
    show raField 0xFFF0FFFE = 0x0 from by decide,
    show immField 0xFFF0FFFE = 0xFFFE from by decide]
  rw [store_masked b]
  simp [packWord]

theorem csDestroy (b : Bool) : Statement (.csDestroy b) := by
  refine packed (mask := 0xFFFFFFFE) (hit := 0x31000000) ?_
  rw [show opField 0xFFFFFFFE = 0xFF from by decide, show rdField 0xFFFFFFFE = 0xF from by decide,
    show raField 0xFFFFFFFE = 0xF from by decide,
    show immField 0xFFFFFFFE = 0xFFFE from by decide]
  rw [store_masked b]
  simp [packWord]

theorem csScatter (b : Bool) (ra : RegNum) : Statement (.csScatter b ra) := by
  refine packed (mask := 0xFFF0FFFE) (hit := 0x32000000) ?_
  rw [show opField 0xFFF0FFFE = 0xFF from by decide, show rdField 0xFFF0FFFE = 0xF from by decide,
    show raField 0xFFF0FFFE = 0x0 from by decide,
    show immField 0xFFF0FFFE = 0xFFFE from by decide]
  rw [store_masked b]
  simp [packWord]

theorem csGather (b : Bool) (ra : RegNum) : Statement (.csGather b ra) := by
  refine packed (mask := 0xFFF0FFFE) (hit := 0x33000000) ?_
  rw [show opField 0xFFF0FFFE = 0xFF from by decide, show rdField 0xFFF0FFFE = 0xF from by decide,
    show raField 0xFFF0FFFE = 0x0 from by decide,
    show immField 0xFFF0FFFE = 0xFFFE from by decide]
  rw [store_masked b]
  simp [packWord]

theorem wtFwd (ra : RegNum) (lo : Byte) (hi : Byte) : Statement (.wtFwd ra lo hi) := by
  refine packed (mask := 0xFFF00000) (hit := 0x40000000) ?_
  rw [show opField 0xFFF00000 = 0xFF from by decide, show rdField 0xFFF00000 = 0xF from by decide,
    show raField 0xFFF00000 = 0x0 from by decide,
    show immField 0xFFF00000 = 0x0 from by decide]
  simp [packWord]

theorem wtBwd (ra : RegNum) (lo : Byte) (hi : Byte) : Statement (.wtBwd ra lo hi) := by
  refine packed (mask := 0xFFF00000) (hit := 0x41000000) ?_
  rw [show opField 0xFFF00000 = 0xFF from by decide, show rdField 0xFFF00000 = 0xF from by decide,
    show raField 0xFFF00000 = 0x0 from by decide,
    show immField 0xFFF00000 = 0x0 from by decide]
  simp [packWord]

theorem wtRgb2ycc (ra : RegNum) : Statement (.wtRgb2ycc ra) := by
  refine packed (mask := 0xFFF0FFFF) (hit := 0x42000000) ?_
  rw [show opField 0xFFF0FFFF = 0xFF from by decide, show rdField 0xFFF0FFFF = 0xF from by decide,
    show raField 0xFFF0FFFF = 0x0 from by decide,
    show immField 0xFFF0FFFF = 0xFFFF from by decide]
  simp [packWord]

theorem wtYcc2rgb (ra : RegNum) : Statement (.wtYcc2rgb ra) := by
  refine packed (mask := 0xFFF0FFFF) (hit := 0x43000000) ?_
  rw [show opField 0xFFF0FFFF = 0xFF from by decide, show rdField 0xFFF0FFFF = 0xF from by decide,
    show raField 0xFFF0FFFF = 0x0 from by decide,
    show immField 0xFFF0FFFF = 0xFFFF from by decide]
  simp [packWord]

end Sys2Proof.Laws.TableBits
end

