-- ==== Sys2Proof/Laws/WorkBuffer.lean ====
section
/-! SUPPORT. What the operations over the work buffer can do: the lifting of lines and the passes (R182
to R187), the colour loop (R189, R190) and the writes of CS.GATHER (R209). Each keeps the canonical
form and changes only the samples it addresses. -/

namespace Sys2Proof.Machine

/-! ## Writes at distinct indices -/

/-- A read at an index that a list of writes names once sees the value written there. -/
theorem Mem.read_writeAll_of_mem {w limit : Nat} {cells : List (Nat × BitVec w)} {m : Mem w}
    (hm : m.wf limit = true) (h : ∀ c ∈ cells, c.1 < limit)
    (hnd : (cells.map Prod.fst).Nodup) {c : Nat × BitVec w} (hc : c ∈ cells) :
    (m.writeAll cells).read c.1 = c.2 := by
  obtain ⟨pre, post, rfl⟩ := List.append_of_mem hc
  refine Mem.read_writeAll_of_last hm h fun d hd he => ?_
  rw [List.map_append, List.map_cons, List.nodup_append] at hnd
  exact (List.nodup_cons.1 hnd.2.1).1 (List.mem_map.2 ⟨d, hd, he⟩)

/-! ## Lines -/

@[simp] theorem Line.onOdd_length (v : Line) (f : Nat → Int) : (v.onOdd f).length = v.length := by
  simp [Line.onOdd]

@[simp] theorem Line.onEven_length (v : Line) (f : Nat → Int) : (v.onEven f).length = v.length := by
  simp [Line.onEven]

@[simp] theorem Line.forward_length (v : Line) : v.forward.length = v.length := by
  unfold Line.forward
  split <;> simp

@[simp] theorem Line.inverse_length (v : Line) : v.inverse.length = v.length := by
  unfold Line.inverse
  split <;> simp

/-- The line at `len` indices of a work buffer. -/
def lineAt (len : Nat) (index : Nat → Nat) (m : Mem 16) : Line :=
  (List.range len).map fun k => m.read (index k)

@[simp] theorem lineAt_length (len : Nat) (index : Nat → Nat) (m : Mem 16) :
    (lineAt len index m).length = len := by simp [lineAt]

/-- What the lifting of one line can do (R184, R185): it keeps the canonical form, changes no sample off
the line, and leaves the lifted line when the samples of the line are distinct. -/
theorem liftLine_spec {limit : Nat} {lift : Line → Line} (hl : ∀ v, (lift v).length = v.length)
    {len : Nat} {index : Nat → Nat} {m : Mem 16} (hm : m.wf limit = true)
    (hi : ∀ k < len, index k < limit) :
    (liftLine lift len index m).wf limit = true ∧
      (∀ a, (∀ k < len, index k ≠ a) → (liftLine lift len index m).read a = m.read a) ∧
      ((∀ j < len, ∀ k < len, index j = index k → j = k) →
        lineAt len index (liftLine lift len index m) = lift (lineAt len index m)) := by
  have hlen : (lift (lineAt len index m)).length = len := by rw [hl, lineAt_length]
  have hmem : ∀ c ∈ (lift (lineAt len index m)).mapIdx (fun k x => (index k, x)),
      ∃ k < len, c.1 = index k := by
    intro c hc
    obtain ⟨k, hk, rfl⟩ := List.mem_mapIdx.1 hc
    exact ⟨k, hlen ▸ hk, rfl⟩
  have hlt : ∀ c ∈ (lift (lineAt len index m)).mapIdx (fun k x => (index k, x)), c.1 < limit := by
    intro c hc
    obtain ⟨k, hk, h⟩ := hmem c hc
    exact h ▸ hi k hk
  refine ⟨Mem.wf_writeAll hm hlt, fun a ha => ?_, fun hinj => ?_⟩
  · refine Mem.read_writeAll_of_not_mem hm hlt fun c hc he => ?_
    obtain ⟨k, hk, h⟩ := hmem c hc
    exact ha k hk (h ▸ he)
  · refine List.ext_getElem (by simp [hlen]) fun k h1 h2 => ?_
    have hk : k < len := by simpa using h1
    simp only [lineAt, List.getElem_map, List.getElem_range]
    refine Mem.read_writeAll_of_mem hm hlt ?_ (c := (index k, (lift (lineAt len index m))[k])) ?_
    · rw [List.nodup_iff_injective_get]
      rintro ⟨i, hi'⟩ ⟨j, hj'⟩ hij
      simp only [List.length_map, List.length_mapIdx, hlen] at hi' hj'
      simp only [List.get_eq_getElem, List.getElem_map, List.getElem_mapIdx] at hij
      exact Fin.ext (hinj i hi' j hj' hij)
    · exact List.mem_mapIdx.2 ⟨k, h2, rfl⟩

/-! ## Passes -/

/-- A property of memories that each turn of a loop keeps holds after the loop. -/
theorem foldl_keeps {α : Type} {P : Mem 16 → Prop} {f : Mem 16 → α → Mem 16} {l : List α}
    (hf : ∀ m, ∀ x ∈ l, P m → P (f m x)) : ∀ m, P m → P (l.foldl f m) := by
  induction l with
  | nil => exact fun m h => h
  | cons x l ih =>
    intro m h
    exact ih (fun m y hy => hf m y (by simp [hy])) _ (hf m x (by simp) h)

theorem ceilDiv_mul_lt {n s k : Nat} (hs : 0 < s) (hk : k < ceilDiv n s) : k * s < n := by
  unfold ceilDiv at hk
  have h1 : (k + 1) * s ≤ n + s - 1 :=
    (Nat.mul_le_mul_right s hk).trans (Nat.div_mul_le_self ..)
  rw [Nat.add_mul] at h1
  omega

/-- A sample of a rectangle lies inside the work buffer when the rectangle does (R181). -/
theorem Rect.index_lt {r : Rect} {limit x y : Nat} (h : r.base + (r.h - 1) * r.rs + r.w ≤ limit)
    (hx : x < r.w) (hy : y < r.h) : r.index x y < limit := by
  unfold Rect.index
  have := Nat.mul_le_mul_right r.rs (show y ≤ r.h - 1 by omega)
  omega

/-- Different samples of a rectangle have different indices (R181). -/
theorem Rect.index_inj {r : Rect} {x y x' y' : Nat} (hrs : r.w ≤ r.rs) (hx : x < r.w)
    (hx' : x' < r.w) (h : r.index x y = r.index x' y') : x = x' ∧ y = y' := by
  have h' : r.rs * y + x = r.rs * y' + x' := by
    unfold Rect.index at h
    rw [Nat.mul_comm r.rs, Nat.mul_comm r.rs]
    omega
  have hrs0 : 0 < r.rs := by omega
  have d : ∀ y x, x < r.rs → (r.rs * y + x) / r.rs = y ∧ (r.rs * y + x) % r.rs = x := by
    intro y x hx
    constructor
    · rw [Nat.mul_add_div hrs0, Nat.div_eq_of_lt hx]; rfl
    · rw [Nat.mul_add_mod, Nat.mod_eq_of_lt hx]
  constructor
  · rw [← (d y x (by omega)).2, h', (d y' x' (by omega)).2]
  · rw [← (d y x (by omega)).1, h', (d y' x' (by omega)).1]

/-- `m'` is canonical and differs from `m` only in samples of `r` on the `g`-grid. -/
def Rect.OnlyGrid (r : Rect) (limit g : Nat) (m m' : Mem 16) : Prop :=
  m'.wf limit = true ∧
    ∀ a, (∀ x < r.w, ∀ y < r.h, g ∣ x → g ∣ y → r.index x y ≠ a) → m'.read a = m.read a

theorem Rect.OnlyGrid.refl {r : Rect} {limit g : Nat} {m : Mem 16} (h : m.wf limit = true) :
    r.OnlyGrid limit g m m := ⟨h, fun _ _ => rfl⟩

/-- What a horizontal pass can do (R184). -/
theorem horizontalPass_spec {lift : Line → Line} (hl : ∀ v, (lift v).length = v.length) {r : Rect}
    {limit s g : Nat} (hs : 0 < s) (hg : g ∣ s) (hr : r.base + (r.h - 1) * r.rs + r.w ≤ limit)
    {m : Mem 16} (hm : m.wf limit = true) : r.OnlyGrid limit g m (horizontalPass lift r s m) := by
  unfold horizontalPass
  refine foldl_keeps (P := fun m' => r.OnlyGrid limit g m m') (fun m' y hy ⟨hw, hread⟩ => ?_) m
    (Rect.OnlyGrid.refl hm)
  have hy' := ceilDiv_mul_lt hs (List.mem_range.1 hy)
  obtain ⟨h1, h2, _⟩ := liftLine_spec hl (len := ceilDiv r.w s)
    (index := fun k => r.index (k * s) (y * s)) hw
    fun k hk => Rect.index_lt hr (ceilDiv_mul_lt hs hk) hy'
  refine ⟨h1, fun a ha => ?_⟩
  rw [h2 a fun k hk => ha _ (ceilDiv_mul_lt hs hk) _ hy' (hg.mul_left k) (hg.mul_left y)]
  exact hread a ha

/-- What a vertical pass can do (R185). -/
theorem verticalPass_spec {lift : Line → Line} (hl : ∀ v, (lift v).length = v.length) {r : Rect}
    {limit s g : Nat} (hs : 0 < s) (hg : g ∣ s) (hr : r.base + (r.h - 1) * r.rs + r.w ≤ limit)
    {m : Mem 16} (hm : m.wf limit = true) : r.OnlyGrid limit g m (verticalPass lift r s m) := by
  unfold verticalPass
  refine foldl_keeps (P := fun m' => r.OnlyGrid limit g m m') (fun m' x hx ⟨hw, hread⟩ => ?_) m
    (Rect.OnlyGrid.refl hm)
  have hx' := ceilDiv_mul_lt hs (List.mem_range.1 hx)
  obtain ⟨h1, h2, _⟩ := liftLine_spec hl (len := ceilDiv r.h s)
    (index := fun k => r.index (x * s) (k * s)) hw
    fun k hk => Rect.index_lt hr hx' (ceilDiv_mul_lt hs hk)
  refine ⟨h1, fun a ha => ?_⟩
  rw [h2 a fun k hk => ha _ hx' _ (ceilDiv_mul_lt hs hk) (hg.mul_left x) (hg.mul_left k)]
  exact hread a ha

/-- The scales of a transform are positive multiples of the first (R181, R186). -/
theorem scales_spec {lo hi s : Nat} (hlo : isScale lo = true) (h : s ∈ scales lo hi) :
    0 < s ∧ lo ∣ s ∧ s < hi := by
  simp only [isScale, decide_eq_true_eq, List.mem_cons, List.not_mem_nil, or_false] at hlo
  simp only [scales, List.mem_filter, List.mem_cons, List.not_mem_nil, or_false, Bool.and_eq_true,
    decide_eq_true_eq] at h
  obtain ⟨hs, h1, h2⟩ := h
  refine ⟨by omega, ?_, h2⟩
  rcases hlo with rfl | rfl | rfl | rfl | rfl | rfl <;>
    rcases hs with rfl | rfl | rfl | rfl | rfl <;> omega

theorem Rect.OnlyGrid.trans {r : Rect} {limit g : Nat} {m m' m'' : Mem 16}
    (h : r.OnlyGrid limit g m m') (h' : r.OnlyGrid limit g m' m'') : r.OnlyGrid limit g m m'' :=
  ⟨h'.1, fun a ha => (h'.2 a ha).trans (h.2 a ha)⟩

/-- What WT.FWD's passes can do (R186): they change samples of the rectangle on the `lo`-grid alone. -/
theorem forwardTransform_spec {r : Rect} {limit lo hi : Nat} (hlo : isScale lo = true)
    (hr : r.base + (r.h - 1) * r.rs + r.w ≤ limit) {m : Mem 16} (hm : m.wf limit = true) :
    r.OnlyGrid limit lo m (forwardTransform r lo hi m) := by
  unfold forwardTransform
  refine foldl_keeps (P := fun m' => r.OnlyGrid limit lo m m') (fun m' s hs h => ?_) m
    (Rect.OnlyGrid.refl hm)
  obtain ⟨h0, hd, _⟩ := scales_spec hlo hs
  have h1 := horizontalPass_spec Line.forward_length h0 hd hr h.1
  exact (h.trans h1).trans (verticalPass_spec Line.forward_length h0 hd hr h1.1)

/-- What WT.BWD's passes can do (R187). -/
theorem inverseTransform_spec {r : Rect} {limit lo hi : Nat} (hlo : isScale lo = true)
    (hr : r.base + (r.h - 1) * r.rs + r.w ≤ limit) {m : Mem 16} (hm : m.wf limit = true) :
    r.OnlyGrid limit lo m (inverseTransform r lo hi m) := by
  unfold inverseTransform
  refine foldl_keeps (P := fun m' => r.OnlyGrid limit lo m m') (fun m' s hs h => ?_) m
    (Rect.OnlyGrid.refl hm)
  obtain ⟨h0, hd, _⟩ := scales_spec hlo (List.mem_reverse.1 hs)
  have h1 := verticalPass_spec Line.inverse_length h0 hd hr h.1
  exact (h.trans h1).trans (horizontalPass_spec Line.inverse_length h0 hd hr h1.1)

/-- What forward lifting leaves in a line (R182). -/
theorem Line.forward_lifts {len : Nat} {v : Line} (hv : v.length = len) {f g : Nat → Sample}
    (hf : ∀ k < len, v[k]? = some (f k)) (hg : ∀ k < len, v.forward[k]? = some (g k)) :
    LiftsTo len f g := by
  subst hv
  by_cases hlen : v.length < 2
  · intro k hk
    rw [if_pos hlen]
    have := hg k hk
    rw [Line.forward, if_pos hlen, hf k hk] at this
    exact (Option.some.inj this).symm
  · have read : ∀ (w : Line) (h : Nat → Sample), w.length = v.length → (∀ k < v.length, w[k]? = some (h k)) →
        ∀ lo hi j : Int, 0 ≤ lo → lo ≤ hi → hi < v.length →
          Line.clamped w lo hi j = (h (min (max j lo) hi).toNat).toInt := by
      intro w h hw hh lo hi j h0 h1 h2
      unfold Line.clamped
      rw [List.getD_eq_getElem?_getD, hh _ (by omega)]
      rfl
    set p : Line := Line.onOdd v fun k => -(Line.predict v k) with hp
    have hplen : p.length = v.length := by simp [hp]
    have hpk : ∀ k < v.length, p[k]? = some (if k % 2 = 1 then wrap16 ((f k).toInt + -(Line.predict v k)) else f k) := by
      intro k hk
      simp only [hp, Line.onOdd, List.getElem?_mapIdx, hf k hk, Option.map_some]
    have hgk : ∀ k < v.length, g k = if k % 2 = 0 then wrap16 ((f k).toInt + Line.update p k)
        else wrap16 ((f k).toInt + -(Line.predict v k)) := by
      intro k hk
      have := hg k hk
      rw [Line.forward, if_neg hlen] at this
      simp only [← hp, Line.onEven, List.getElem?_mapIdx, hpk k hk, Option.map_some, Option.some.injEq]
        at this
      rw [← this]
      rcases Nat.mod_two_eq_zero_or_one k with h | h <;> simp [h]
    intro k hk
    rw [if_neg hlen, hgk k hk]
    rcases Nat.mod_two_eq_zero_or_one k with h | h
    · rw [if_pos h, if_neg (by omega)]
      have odd : ∀ j : Int, j % 2 = 1 →
          Line.oddAt p j = (g (min (max j 1) ((2 * (v.length / 2) : Nat) - 1)).toNat).toInt := by
        intro j hj
        unfold Line.oddAt
        rw [hplen, read p _ hplen hpk _ _ _ (by omega) (by omega) (by omega)]
        have h1 : (min (max j 1) (((2 * (v.length / 2) : Nat) : Int) - 1)).toNat % 2 = 1 := by omega
        rw [if_pos h1, hgk _ (by omega), if_neg (by omega)]
      unfold Line.update
      dsimp only
      rw [odd _ (by omega), odd _ (by omega)]
    · rw [if_neg (by omega), if_pos h]
      have even : ∀ j : Int,
          Line.evenAt v j = (f (min (max j 0) (2 * ((v.length - 1) / 2) : Nat)).toNat).toInt := by
        intro j
        unfold Line.evenAt
        rw [read v f rfl hf _ _ _ (by omega) (by omega) (by omega)]
      unfold Line.predict
      dsimp only
      rw [even, even, even, even, ← Int.sub_eq_add_neg]

/-- A loop that lifts disjoint lines leaves each of them lifted (R184, R185). -/
theorem liftLines_spec {limit : Nat} {lift : Line → Line} (hl : ∀ v, (lift v).length = v.length)
    {n len : Nat} {index : Nat → Nat → Nat} (hi : ∀ y < n, ∀ k < len, index y k < limit)
    (hinj : ∀ y < n, ∀ y' < n, ∀ k < len, ∀ k' < len, index y k = index y' k' → y = y' ∧ k = k')
    {m : Mem 16} (hm : m.wf limit = true) {j : Nat} (hj : j ≤ n) :
    ((List.range j).foldl (fun m y => liftLine lift len (index y) m) m).wf limit = true ∧
      ∀ y < n, lineAt len (index y) ((List.range j).foldl (fun m y => liftLine lift len (index y) m) m) =
        if y < j then lift (lineAt len (index y) m) else lineAt len (index y) m := by
  induction j with
  | zero => exact ⟨hm, fun y _ => by simp⟩
  | succ j ih =>
    obtain ⟨hw, hline⟩ := ih (by omega)
    rw [List.range_succ, List.foldl_append, List.foldl_cons, List.foldl_nil]
    generalize (List.range j).foldl (fun m y => liftLine lift len (index y) m) m = m' at *
    obtain ⟨h1, h2, h3⟩ := liftLine_spec hl (len := len) (index := index j) hw fun k hk => hi j (by omega) k hk
    refine ⟨h1, fun y hy => ?_⟩
    by_cases he : y = j
    · subst he
      rw [h3 (fun a ha b hb hab => (hinj y hy y hy a ha b hb hab).2), hline y hy, if_neg (by omega),
        if_pos (by omega)]
    · have : lineAt len (index y) (liftLine lift len (index j) m') = lineAt len (index y) m' := by
        refine List.map_congr_left fun k hk => h2 _ fun k' hk' hab => he ?_
        exact (hinj j (by omega) y hy k' hk' k (List.mem_range.1 hk) hab).1.symm
      rw [this, hline y hy]
      by_cases hlt : y < j
      · rw [if_pos hlt, if_pos (by omega)]
      · rw [if_neg hlt, if_neg (by omega)]

/-- A pass leaves its lines lifted forward (R182, R184, R185). -/
theorem liftLines_lifts {limit n len : Nat} {index : Nat → Nat → Nat}
    (hi : ∀ y < n, ∀ k < len, index y k < limit)
    (hinj : ∀ y < n, ∀ y' < n, ∀ k < len, ∀ k' < len, index y k = index y' k' → y = y' ∧ k = k')
    {m : Mem 16} (hm : m.wf limit = true) {y : Nat} (hy : y < n) :
    LiftsTo len (fun k => m.read (index y k)) fun k =>
      ((List.range n).foldl (fun m y => liftLine Line.forward len (index y) m) m).read (index y k) := by
  have h := (liftLines_spec Line.forward_length hi hinj hm (le_refl n)).2 y hy
  rw [if_pos hy] at h
  refine Line.forward_lifts (lineAt_length len (index y) m) (fun k hk => by simp [lineAt, hk]) fun k hk => ?_
  rw [← h]
  simp [lineAt, hk]

/-- The scales up to `mid` and then those from `mid` on are all of them (R186). -/
theorem scales_append {lo mid hi : Nat} (h : lo ≤ mid) (h' : mid ≤ hi) :
    scales lo mid ++ scales mid hi = scales lo hi := by
  have key : ∀ l : List Nat, l.Pairwise (· ≤ ·) →
      (l.filter fun s => decide (lo ≤ s) && decide (s < mid)) ++
        (l.filter fun s => decide (mid ≤ s) && decide (s < hi)) =
      l.filter fun s => decide (lo ≤ s) && decide (s < hi) := by
    intro l hl
    induction l with
    | nil => rfl
    | cons a l ih =>
      obtain ⟨ha, hl⟩ := List.pairwise_cons.1 hl
      by_cases hm : a < mid
      · have e1 : (decide (mid ≤ a) && decide (a < hi)) = false := by simp; omega
        have e2 : (decide (lo ≤ a) && decide (a < hi)) = (decide (lo ≤ a) && decide (a < mid)) := by
          simp only [show a < hi by omega, hm]
        rw [List.filter_cons, List.filter_cons, List.filter_cons, e1, e2, ← ih hl]
        split <;> simp
      · have e0 : (l.filter fun s => decide (lo ≤ s) && decide (s < mid)) = [] :=
          List.filter_eq_nil_iff.2 fun b hb => by have := ha b hb; simp; omega
        have e1 : (decide (lo ≤ a) && decide (a < mid)) = false := by simp; omega
        have e2 : (decide (mid ≤ a) && decide (a < hi)) = (decide (lo ≤ a) && decide (a < hi)) := by
          simp only [show mid ≤ a by omega, show lo ≤ a by omega]
        rw [List.filter_cons, List.filter_cons, List.filter_cons, e1, e2, ← ih hl, e0]
        simp
  exact key _ (by decide)

/-- The scales of one step are the one scale (R186). -/
theorem scales_one {g : Nat} (h : g = 1 ∨ g = 2 ∨ g = 4 ∨ g = 8 ∨ g = 16) : scales g (2 * g) = [g] := by
  rcases h with rfl | rfl | rfl | rfl | rfl <;> rfl

/-- A grid position is a line or sample number times the scale (R184, R185). -/
theorem grid_lt {n s y : Nat} (hs : 0 < s) (hy : y < n) (hd : y % s = 0) :
    y / s < ceilDiv n s ∧ y / s * s = y := by
  have h1 : y / s * s = y := Nat.div_mul_cancel (Nat.dvd_of_mod_eq_zero hd)
  refine ⟨?_, h1⟩
  unfold ceilDiv
  rw [Nat.lt_div_iff_mul_lt hs]
  omega

/-! ## Colour -/

/-- What the colour loop can do (R189, R190): it changes samples of its three planes alone. -/
theorem colourLoop_spec (f : Sample → Sample → Sample → Sample × Sample × Sample)
    {limit b0 b1 b2 n : Nat} (h0 : b0 + n ≤ limit) (h1 : b1 + n ≤ limit) (h2 : b2 + n ≤ limit)
    {m : Mem 16} (hm : m.wf limit = true) :
    (colourLoop f b0 b1 b2 n m).wf limit = true ∧
      ∀ a, (∀ i < n, a ≠ b0 + i ∧ a ≠ b1 + i ∧ a ≠ b2 + i) →
        (colourLoop f b0 b1 b2 n m).read a = m.read a := by
  unfold colourLoop
  refine foldl_keeps (P := fun m' => m'.wf limit = true ∧
    ∀ a, (∀ i < n, a ≠ b0 + i ∧ a ≠ b1 + i ∧ a ≠ b2 + i) → m'.read a = m.read a)
    (fun m' i hi ⟨hw, hread⟩ => ?_) m ⟨hm, fun _ _ => rfl⟩
  have hi' := List.mem_range.1 hi
  have hlt : ∀ c ∈ [(b0 + i, (f (m'.read (b0 + i)) (m'.read (b1 + i)) (m'.read (b2 + i))).1),
      (b1 + i, (f (m'.read (b0 + i)) (m'.read (b1 + i)) (m'.read (b2 + i))).2.1),
      (b2 + i, (f (m'.read (b0 + i)) (m'.read (b1 + i)) (m'.read (b2 + i))).2.2)], c.1 < limit := by
    simp only [List.mem_cons, List.not_mem_nil, or_false]
    rintro c (rfl | rfl | rfl) <;> dsimp only <;> omega
  refine ⟨Mem.wf_writeAll hw hlt, fun a ha => ?_⟩
  rw [← hread a ha]
  refine Mem.read_writeAll_of_not_mem hw hlt fun c hc he => ?_
  have := ha i hi'
  simp only [List.mem_cons, List.not_mem_nil, or_false] at hc
  rcases hc with rfl | rfl | rfl <;> dsimp only at he <;> omega

/-! ## CS.GATHER -/

/-- What the writes of CS.GATHER leave (R209): at the sample of each coefficient the coefficient, and
every sample outside the rectangle as it was. -/
theorem gather_spec {st : Store} (h : st.WellShaped) (hv : st.valid = true) {base rs limit : Nat}
    (hrs : st.bw.toNat ≤ rs) (hr : base + (st.bh.toNat - 1) * rs + st.bw.toNat ≤ limit)
    {m : Mem 16} (hm : m.wf limit = true) :
    (m.writeAll (st.gatherCells base rs)).wf limit = true ∧
      (∀ blk n, blk < st.nb.toNat → n < 1024 →
        (m.writeAll (st.gatherCells base rs)).read (st.sampleIndex base rs blk n) =
          st.coefRead blk n) ∧
      ∀ a, (∀ blk n, blk < st.nb.toNat → n < 1024 → st.sampleIndex base rs blk n ≠ a) →
        (m.writeAll (st.gatherCells base rs)).read a = m.read a := by
  have hq : ∀ q < 1024 * st.nb.toNat, q / 1024 < st.nb.toNat ∧ q % 1024 < 1024 := by
    intro q hq; omega
  have hlt : ∀ c ∈ st.gatherCells base rs, c.1 < limit := by
    intro c hc
    obtain ⟨q, hq', rfl⟩ := List.mem_map.1 hc
    have := Store.sampleIndex_lt h hv (base := base) (rs := rs) (n := q % 1024)
      (hq q (List.mem_range.1 hq')).1
    dsimp only
    omega
  refine ⟨Mem.wf_writeAll hm hlt, fun blk n hb hn => ?_, fun a ha => ?_⟩
  · refine Mem.read_writeAll_of_mem hm hlt ?_ (c := (st.sampleIndex base rs blk n, st.coefRead blk n)) ?_
    · unfold Store.gatherCells
      rw [List.map_map, List.nodup_map_iff_inj_on List.nodup_range]
      intro q hq1 p hp1 he
      have h1 := hq q (List.mem_range.1 hq1)
      have h2 := hq p (List.mem_range.1 hp1)
      have := Store.sampleIndex_inj h hv hrs h1.1 h1.2 h2.2 he
      omega
    · refine List.mem_map.2 ⟨1024 * blk + n, List.mem_range.2 (by omega), ?_⟩
      have e1 : (1024 * blk + n) / 1024 = blk := by omega
      have e2 : (1024 * blk + n) % 1024 = n := by omega
      rw [e1, e2]
  · refine Mem.read_writeAll_of_not_mem hm hlt fun c hc he => ?_
    obtain ⟨q, hq', rfl⟩ := List.mem_map.1 hc
    exact ha _ _ (hq q (List.mem_range.1 hq')).1 (hq q (List.mem_range.1 hq')).2 he

end Sys2Proof.Machine
end

