-- ==== Sys2Proof/Tests/Slice0.lean ====
section
/-! SUPPORT. The tests of the model's author: the smoke test of WellFormed, the words of V-ENC1, one or two
single steps for every command with results from the vectors of 95_test_vectors.md, and for every
statement with hypotheses a concrete state that meets them (`test_meets_…`). -/

-- One theorem after the other: evaluating many at once takes a thread, and its stack, for each.
set_option Elab.async false

namespace Sys2Proof.Tests

open Sys2Proof.Machine

/-! ## Helpers -/

/-- A table of 256 entries. -/
def table256 {α : Type} (f : Nat → α) : Vector α 256 := ⟨((List.range 256).map f).toArray, by simp⟩

/-- TESTCFG (R9), with the default thresholds and 4096 samples of work buffer. -/
def testCfg : Config :=
  { probPred := table256 fun k => BitVec.ofNat 15
      ([0x7FFF, 0x5554, 0x3332, 0x1C70, 0x0F0E, 0x07C0, 0x03EF, 0x01FB].getD (min (k / 2) 7) 0)
    confirm := table256 fun k => BitVec.ofNat 8 (2 * min (min (k / 2) 7 + 1) 7 + k % 2)
    flip := table256 fun k => BitVec.ofNat 8
      (if k / 2 = 0 then 1 - k % 2 else 2 * (min (k / 2) 7 - 1) + k % 2)
    qloExp := Config.defaultQloExp
    qhiExp := Config.defaultQhiExp
    wbWordsPred := 4095
    arena := none }

/-- The engine after reset with TESTCFG and a work buffer of zeros. -/
def start : State := State.resetWith testCfg [] [] .none

/-- The engine with a full arena of `n` buckets. -/
def small (n : Nat) : State := { start with cfg := { testCfg with arena := some n } }

/-- With other registers, given from P0 on. -/
def regs (s : State) (vs : List Word) : State :=
  { s with x := ⟨((List.range 16).map fun k => vs.getD k 0).toArray, by simp⟩ }

/-- With an encoding session just opened. -/
def enc (s : State) : State := { s with coder := s.coder.openEncoder }

/-- With a decoding session just opened on the bytes given. -/
def dec (s : State) (bytes : List Byte) : State :=
  { s with coder := { s.coder with input := bytes }.openDecoder }

/-- With CS0, or with both stores, valid and empty. -/
def withCs0 (s : State) (w h : Nat) : State := { s with cs0 := Store.create w h }

/-- With both stores valid and empty. -/
def withStores (s : State) (w h : Nat) : State :=
  { s with cs0 := Store.create w h, cs1 := Store.create w h }

/-- With these bytes at the port as the host's next action. -/
def port (s : State) (a : HostAction) : State := { s with port := [a] }

/-- With work buffer samples from index 0 on. -/
def row (s : State) (vs : List Int) : State :=
  { s with wb := Mem.writeAll [] (vs.zipIdx.map fun v => (v.2, BitVec.ofInt 16 v.1)) }

/-- The outcome is a next state with the property. -/
def nextWith (o : Host.Outcome State Fault Refusal) (p : State → Bool) : Bool :=
  match o with
  | .next t => p t
  | _ => false

theorem next_of {o : Host.Outcome State Fault Refusal} {p : State → Bool} (h : nextWith o p = true) :
    ∃ t, o = .next t ∧ p t = true := by
  unfold nextWith at h
  split at h
  · exact ⟨_, rfl, h⟩
  · cases h

/-- The fault a next state records, 0 for none. -/
def faultOf (o : Host.Outcome State Fault Refusal) : Nat :=
  match o with
  | .next t => if t.faulted then t.fault.toNat else 0
  | _ => 0xFFFF

/-- The first samples of the work buffer. -/
def samples (n : Nat) (t : State) : List Int := (List.range n).map fun a => (t.wb.read a).toInt

/-- A, SUBEND, BUFFER, DELAY of the coder. -/
def encRow (t : State) : List Nat :=
  [t.coder.a.toNat, t.coder.subend.toNat, t.coder.buffer.toNat, t.coder.delay.toNat]

/-- A, CODE, FENCE, ISCOUNT of the coder. -/
def decRow (t : State) : List Nat :=
  [t.coder.a.toNat, t.coder.code.toNat, t.coder.fence.toNat, t.coder.iscount.toNat]

/-! ## WellFormed: what each check refuses, and the value beside it that it accepts (R95) -/

theorem test_wf_ld_space : (Instr.ld 0 5 0).wellFormed = false ∧ (Instr.ld 0 4 0).wellFormed = true := by
  decide
theorem test_wf_st_space : (Instr.st 0 15 0).wellFormed = false ∧ (Instr.st 0 4 0).wellFormed = true := by
  decide
theorem test_wf_cs_create_run :
    (Instr.csCreate false 15).wellFormed = false ∧ (Instr.csCreate false 14).wellFormed = true := by decide
theorem test_wf_cs_scatter_run :
    (Instr.csScatter false 15).wellFormed = false ∧ (Instr.csScatter false 14).wellFormed = true := by decide
theorem test_wf_cs_gather_run :
    (Instr.csGather false 15).wellFormed = false ∧ (Instr.csGather false 14).wellFormed = true := by decide
theorem test_wf_wt_fwd_run :
    (Instr.wtFwd 13 1 2).wellFormed = false ∧ (Instr.wtFwd 12 1 2).wellFormed = true := by decide
theorem test_wf_wt_bwd_run :
    (Instr.wtBwd 13 1 2).wellFormed = false ∧ (Instr.wtBwd 12 1 2).wellFormed = true := by decide
theorem test_wf_wt_rgb2ycc_run :
    (Instr.wtRgb2ycc 13).wellFormed = false ∧ (Instr.wtRgb2ycc 12).wellFormed = true := by decide
theorem test_wf_wt_ycc2rgb_run :
    (Instr.wtYcc2rgb 13).wellFormed = false ∧ (Instr.wtYcc2rgb 12).wellFormed = true := by decide

/-! ## Decoding: the words of V-ENC1, and the encoder on the same commands -/

theorem test_decode_nop : decode 0x00000000 = .ok .nop := by rfl
theorem test_decode_li : decode 0x0130BEEF = .ok (.li 3 0xBEEF) := by rfl
theorem test_decode_lui : decode 0x0230DEAD = .ok (.lui 3 0xDEAD) := by rfl
theorem test_decode_ld : decode 0x03450001 = .ok (.ld 4 1 5) := by rfl
theorem test_decode_st : decode 0x04120003 = .ok (.st 1 3 2) := by rfl
theorem test_decode_reset : decode 0x0F000000 = .ok .reset := by rfl
theorem test_decode_ac_einit : decode 0x10000000 = .ok .acEinit := by rfl
theorem test_decode_ac_dinit : decode 0x11000000 = .ok .acDinit := by rfl
theorem test_decode_ac_enc : decode 0x12200070 = .ok (.acEnc 2 0x70) := by rfl
theorem test_decode_ac_dec : decode 0x13300070 = .ok (.acDec 3 0x70) := by rfl
theorem test_decode_ac_encp : decode 0x14500000 = .ok (.acEncp 5) := by rfl
theorem test_decode_ac_decp : decode 0x15500000 = .ok (.acDecp 5) := by rfl
theorem test_decode_ac_encb : decode 0x16500000 = .ok (.acEncb 5) := by rfl
theorem test_decode_ac_decb : decode 0x17500000 = .ok (.acDecb 5) := by rfl
theorem test_decode_ac_close : decode 0x18000000 = .ok .acClose := by rfl
theorem test_decode_bpc_init : decode 0x20000000 = .ok .bpcInit := by rfl
theorem test_decode_bpc_slice : decode 0x21400000 = .ok (.bpcSlice 4) := by rfl
theorem test_decode_cs_create : decode 0x30020001 = .ok (.csCreate true 2) := by rfl
theorem test_decode_cs_destroy : decode 0x31000001 = .ok (.csDestroy true) := by rfl
theorem test_decode_cs_scatter : decode 0x320A0000 = .ok (.csScatter false 10) := by rfl
theorem test_decode_cs_gather : decode 0x330A0000 = .ok (.csGather false 10) := by rfl
theorem test_decode_wt_fwd : decode 0x40040120 = .ok (.wtFwd 4 1 32) := by rfl
theorem test_decode_wt_bwd : decode 0x41040420 = .ok (.wtBwd 4 4 32) := by rfl
theorem test_decode_wt_rgb2ycc : decode 0x42080000 = .ok (.wtRgb2ycc 8) := by rfl
theorem test_decode_wt_ycc2rgb : decode 0x43080000 = .ok (.wtYcc2rgb 8) := by rfl

theorem test_decode_illegal :
    decode 0x05000000 = .error .unassignedOp ∧ decode 0x00000001 = .error .reservedBit ∧
    decode 0x01310000 = .error .reservedBit ∧ decode 0x03450005 = .error .reservedSpace ∧
    decode 0x03450011 = .error .reservedBit ∧ decode 0x12210070 = .error .reservedBit ∧
    decode 0x12200170 = .error .reservedBit ∧ decode 0x300F0000 = .error .registerRun ∧
    decode 0x400D0120 = .error .registerRun ∧ decode 0x40140120 = .error .reservedBit ∧
    decode 0x31010000 = .error .reservedBit ∧ decode 0xFFFFFFFF = .error .unassignedOp := by
  refine ⟨rfl, rfl, rfl, rfl, rfl, rfl, rfl, rfl, rfl, rfl, rfl, rfl⟩

/-- R98's examples. -/
theorem test_encode :
    encode (.li 1 0x70) = 0x01100070 ∧ encode (.ld 4 1 5) = 0x03450001 ∧
    encode (.acEnc 2 0x70) = 0x12200070 ∧ encode (.wtFwd 4 1 32) = 0x40040120 ∧
    encode (.csCreate true 2) = 0x30020001 := by
  refine ⟨rfl, rfl, rfl, rfl, rfl⟩

theorem test_decode_table_word :
    decodeTableWord 32 0x41040420 = some (.wtBwd 4 4 32) ∧ decodeTableWord 32 0x05000000 = none := by
  exact ⟨rfl, rfl⟩

/-! ## System commands -/

/-- R121's example, by way of the port. -/
theorem test_step_nop : step (start.withFetchWord 32 0x00000000) = .next start := by rfl

/-- V-SYS1: LI clears the upper half. -/
theorem test_li : nextWith (exec (.li 0 7) (regs start [0x00012345])) (fun t => t.reg 0 == 7) = true := by
  decide +kernel

/-- V-ENC1. -/
theorem test_lui : nextWith (exec (.lui 3 0xDEAD) (regs start [0, 0, 0, 0xBEEF]))
    (fun t => t.reg 3 == 0xDEADBEEF) = true := by decide +kernel

/-- R124: with `WB[9] = -3`. -/
theorem test_ld_wb : nextWith
    (exec (.ld 4 2 5) { regs start [0, 0, 0, 0, 0, 9] with wb := [(9, 0xFFFD)] })
    (fun t => t.reg 4 == 0xFFFFFFFD) = true := by decide +kernel

/-- V-SYS3: QHI[9], and no QHI[0]. -/
theorem test_ld_csr : nextWith (exec (.ld 4 0 2) (regs start [0, 0, 0x49])) (fun t => t.reg 4 == 0x80000) ∧
    faultOf (exec (.ld 4 0 2) (regs start [0, 0, 0x40])) = 0x0005 := by decide +kernel

/-- V-SYS2: the low byte goes into the context; 0x100 is outside. -/
theorem test_st_ctx : nextWith (exec (.st 1 1 2) (regs start [0, 0x0001FFFD, 0x70]))
      (fun t => t.ctxAt 0x70 == 0xFD) ∧
    faultOf (exec (.st 1 1 2) (regs start [0, 0x0001FFFD, 0x100])) = 0x0005 := by decide +kernel

/-- V-CS4: a zero stored allocates its bucket; in a full arena that is AllocationError. -/
theorem test_st_cs0 : nextWith (exec (.st 1 3 2) (regs (withCs0 start 1 1) [0, 0, 5]))
      (fun t => t.cs0.nalloc == 1) ∧
    faultOf (exec (.st 1 3 2) (regs (withCs0 (small 0) 1 1) [0, 0, 16])) = 0x0002 := by decide +kernel

/-- V-F2: RESET clears the fault and the registers; 0x0F000001 is not RESET. -/
theorem test_reset :
    step (port { regs start [0, 7] with faulted := true, fault := 0x0103 } (.command 0x0F000000)) =
      .next start ∧
    nextWith (step (port { regs start [0, 7] with faulted := true, fault := 0x0103 } (.command 0x0F000001)))
      (fun t => t.fault == 0x0103 && t.reg 1 == 7) := ⟨by rfl, by decide +kernel⟩

/-! ## ArithmeticCoder -/

/-- R142. -/
theorem test_ac_einit : nextWith (exec .acEinit start)
    (fun t => encRow t == [0, 0, 0xFFFFFF, 25] && t.coder.mode == .enc) := by decide +kernel

/-- V-AC2 and V-AC4: two bytes of input, and none. -/
theorem test_ac_dinit :
    nextWith (exec .acDinit { start with coder := { start.coder with input := [0xBB, 0x43] } })
      (fun t => decRow t == [0, 0xBB43, 0x7FFF, 32] && t.coder.inpos == 2) ∧
    nextWith (exec .acDinit start) (fun t => decRow t == [0, 0xFFFF, 0x7FFF, 32] && t.coder.inpos == 0) := by
  decide +kernel

/-- The encoder of section 3.8 with A, SUBEND and one context set. -/
def encAt (a subend : BitVec 16) (k : Byte) : State :=
  let s := enc (regs start [0, 1])
  { s with coder := { s.coder with a := a, subend := subend }, ctx := Mem.write [] 0x70 k }

/-- Section 3.8, rows 2 and 12: the carry, and the less probable bit far below. -/
theorem test_ac_enc :
    nextWith (exec (.acEnc 1 0x70) (encAt 0x7FFF 0xFFFF 0))
      (fun t => encRow t == [0, 0, 0xFFFFFA, 23] && t.ctxAt 0x70 == 1) ∧
    nextWith (exec (.acEnc 0 0x70) (encAt 0x1234 0x8000 0x0F))
      (fun t => encRow t == [0x0200, 0xE800, 0xFFFF4A, 18] && t.ctxAt 0x70 == 0x0D) := by
  decide +kernel

/-- Section 3.8, rows 4 and 5. -/
theorem test_ac_encp :
    nextWith (exec (.acEncp 1) (encAt 0x7FFF 0xFFFF 0)) (fun t => encRow t == [0, 0, 0xFFFFFA, 23]) ∧
    nextWith (exec (.acEncp 0) (encAt 0x7FFF 0xFFFF 0)) (fun t => encRow t == [0x7FFE, 0xFFFE, 0xFFFFFE, 24]) := by
  decide +kernel

/-- Section 3.8, rows 6 and 7. -/
theorem test_ac_encb :
    nextWith (exec (.acEncb 1) (encAt 0x7FFF 0xFFFF 0)) (fun t => encRow t == [0x4000, 0x4000, 0xFFFFFA, 23]) ∧
    nextWith (exec (.acEncb 0) (encAt 0x7FFF 0xFFFF 0)) (fun t => encRow t == [0x5FFE, 0xFFFE, 0xFFFFFE, 24]) := by
  decide +kernel

/-- A decoder on fill with A, CODE and FENCE set, and one context. -/
def decAt (a code fence : BitVec 16) (iscount : BitVec 6) (k : Byte) : State :=
  let s := dec start []
  { s with coder := { s.coder with a := a, code := code, fence := fence, iscount := iscount },
           ctx := Mem.write [] 0x70 k }

/-- V-AC2, steps 3 and 2: the less probable bit, and the path that moves A alone. -/
theorem test_ac_dec :
    nextWith (exec (.acDec 2 0x70) (decAt 0x5555 0x7687 0x7687 31 4))
      (fun t => decRow t == [0x3334, 0xB7FF, 0x7FFF, 29] && t.reg 2 == 1 && t.ctxAt 0x70 == 2) ∧
    nextWith (exec (.acDec 2 0x70) (decAt 0 0x7687 0x7687 31 2))
      (fun t => decRow t == [0x5555, 0x7687, 0x7687, 31] && t.reg 2 == 0 && t.ctxAt 0x70 == 4) := by
  decide +kernel

/-- V-AC3, third and fourth rows. -/
theorem test_ac_decp :
    nextWith (exec (.acDecp 2) (decAt 0x5555 0x8F7F 0x7FFF 31 0))
      (fun t => decRow t == [0x5556, 0xC9AB, 0x7FFF, 30] && t.reg 2 == 1) ∧
    nextWith (exec (.acDecp 2) (decAt 0x5556 0xC9AB 0x7FFF 30 0))
      (fun t => decRow t == [0x5556, 0x9357, 0x7FFF, 29] && t.reg 2 == 0) := by decide +kernel

/-- V-AC3, fifth and sixth rows. -/
theorem test_ac_decb :
    nextWith (exec (.acDecb 2) (decAt 0x5556 0x9357 0x7FFF 29 0))
      (fun t => decRow t == [0x6AAC, 0xE6AF, 0x7FFF, 28] && t.reg 2 == 1) ∧
    nextWith (exec (.acDecb 2) (decAt 0x6AAC 0xE6AF 0x7FFF 28 0))
      (fun t => decRow t == [0x5000, 0xCD5F, 0x7FFF, 27] && t.reg 2 == 0) := by decide +kernel

/-- V-AC1's last row. -/
theorem test_ac_close : nextWith (exec .acClose
      (let s := enc start
       { s with coder := { s.coder with a := 0x4251, subend := 0x0510, buffer := 0xFFF768, delay := 12 } }))
    (fun t => encRow t == [0x4251, 0, 0xFFFFFF, 255] && t.coder.output == [0xBB, 0x43]
      && t.coder.mode == .idle) := by decide +kernel

/-! ## BitplaneCodec -/

/-- R224: the thresholds of V-BPC1, row 0, and the contexts below 112. -/
theorem test_bpc_init : nextWith
    (exec .bpcInit { start with sched := { start.sched with done := true, qlo := Vector.replicate 16 0 },
                                ctx := [(111, 5), (112, 6)] })
    (fun t => t.ctx == [(112, 6)] && !t.sched.done && t.sched.qlo[0] == 0x4000 && t.sched.qhi[8] == 0x80000) := by decide +kernel

/-- V-BPC1, first slice: one bit on `Ctx[32]`, QLO halved. -/
theorem test_bpc_slice_first : nextWith (exec (.bpcSlice 0) (enc (withStores start 1 1)))
    (fun t => t.reg 0 == 1 && t.sched.curband == 1 && t.sched.qlo[0] == 0x2000 && t.ctxAt 32 == 2
      && t.ctx.length == 1) := by decide +kernel

/-- V-BPC6: in a decoder with no room for a bucket the slice stops before the Advance. -/
theorem test_bpc_slice_full :
    nextWith (exec (.bpcSlice 0) (dec (withCs0 (small 0) 1 1) [0x00]))
      (fun t => t.fault == 0x0002 && t.sched == start.sched && t.reg 0 == 0 && t.ctxAt 32 == 1) := by
  decide +kernel

/-! ## CoefficientStore -/

/-- V-CS2. -/
theorem test_cs_create : nextWith (exec (.csCreate false 2) (regs start [0, 0, 32, 33]))
      (fun t => t.cs0.bw == 32 && t.cs0.bh == 64 && t.cs0.nb == 2 && t.cs0.valid && t.cs0.nalloc == 0) ∧
    faultOf (exec (.csCreate false 2) (regs start [0, 0, 65536, 5])) = 0x0303 := by decide +kernel

/-- R206. -/
theorem test_cs_destroy : exec (.csDestroy false) (withCs0 start 33 33) = .next start ∧
    faultOf (exec (.csDestroy false) start) = 0x0203 := ⟨by rfl, by decide +kernel⟩

/-- A store of one block, with three samples of the rectangle. -/
def moveState : State :=
  { regs (withCs0 start 1 1) [0, 32] with wb := [(16, 5), (65, 0xFFF7), (1023, 4)] }

/-- V-CS1 with R207: (0, 16) is `n = 1`, (2, 1) is `n = 384` and (31, 31) is `n = 1023`. -/
theorem test_cs_scatter : nextWith (exec (.csScatter false 0) moveState)
    (fun t => t.cs0.nalloc == 3 && t.cs0.coefRead 0 1 == 5 && t.cs0.coefRead 0 384 == 0xFFF7
      && t.cs0.coefRead 0 1023 == 4) := by decide +kernel

/-- R209: every sample of the rectangle is written. -/
theorem test_cs_gather : nextWith
    (exec (.csGather false 0) { moveState with cs0 := { moveState.cs0 with
      buckets := [(0, zeroBucket.set 1 7)] } })
    (fun t => t.wb == [(16, 7)]) := by decide +kernel

/-! ## WaveletTransform -/

/-- V-WT1 and V-WT3. -/
theorem test_wt_fwd :
    nextWith (exec (.wtFwd 4 1 2) (regs (row start [10, 20, 30, 40, 50, 60, 70, 80]) [0, 0, 0, 0, 0, 8, 1, 8]))
      (fun t => samples 8 t == [11, 1, 30, 0, 50, -1, 72, 9]) ∧
    nextWith (exec (.wtFwd 4 1 32) (regs (row start [100, -50, 7, 0, 32767]) [0, 0, 0, 0, 0, 5, 1, 5]))
      (fun t => samples 5 t == [4612, 1944, -16427, -16381, 23505]) := by decide +kernel

/-- V-WT4 backwards. -/
theorem test_wt_bwd : nextWith
    (exec (.wtBwd 4 1 32)
      (regs (row start [10, 0, 8, 1, 0, 0, 0, 0, 15, 0, 11, 47, 3, 0, 49, 184]) [0, 0, 0, 0, 0, 4, 4, 4]))
    (fun t => samples 16 t == [1, 2, 3, 4, 5, 6, 7, 8, 9, 10, 11, 12, 13, 14, 15, 200]) := by decide +kernel

/-- R189 to R191 where they do not need the open function: no sample at all, and a plane that ends at
the end of the work buffer or passes it. -/
theorem test_wt_rgb2ycc :
    nextWith (exec (.wtRgb2ycc 0) (regs start [4096, 4096, 4096, 0])) (fun t => t.faulted == false) ∧
    faultOf (exec (.wtRgb2ycc 0) (regs start [0, 4095, 0, 2])) = 0x0005 := by decide +kernel

theorem test_wt_ycc2rgb :
    nextWith (exec (.wtYcc2rgb 0) (regs start [4096, 4096, 4096, 0])) (fun t => t.faulted == false) ∧
    faultOf (exec (.wtYcc2rgb 0) (regs start [0, 0, 0xFFFFFFFF, 1])) = 0x0005 := by decide +kernel

/-- R191's clamp. -/
theorem test_clamp : (clampToByte 0x7FFF).toInt = 127 ∧ (clampToByte 0xFF00).toInt = -128 ∧
    (clampToByte 0xFFFB).toInt = -5 := by decide

/-! ## Witnesses: each statement's hypotheses are met, clause by clause

`nextWith … p` says that the outcome is a next state with `p`; `next_of` turns it into the equation a
statement's hypothesis asks for. -/

theorem test_meets_StepRunsTheDecodedCommand :
    (port start (.command 0x01100070)).port = .command 0x01100070 :: [] ∧
      decode 0x01100070 = .ok (.li 1 0x70) := ⟨rfl, rfl⟩

/-- A reserved bit, a run past P15 and a reserved space, and beside each the last legal word. -/
theorem test_meets_ReservedFieldsAreIllegal :
    start.faulted = false ∧
    (∀ w : Word, (port start (.command w)).port = .command w :: []) ∧
    reservedBits (opField 0x00000001).toNat = some 0x00FFFFFF ∧ (0x00000001 : Word) &&& 0x00FFFFFF ≠ 0 ∧
    reservedBits (opField 0x300F0000).toNat = some 0x00F0FFFE ∧
      16 < (raField 0x300F0000).toNat + registerRun (opField 0x300F0000).toNat ∧
    ¬ 16 < (raField 0x300E0001).toNat + registerRun (opField 0x300E0001).toNat ∧
      (0x300E0001 : Word) &&& 0x00F0FFFE = 0 ∧
    reservedBits (opField 0x400D0120).toNat = some 0x00F00000 ∧
      16 < (raField 0x400D0120).toNat + registerRun (opField 0x400D0120).toNat ∧
    ¬ 16 < (raField 0x400C0120).toNat + registerRun (opField 0x400C0120).toNat ∧
    reservedBits (opField 0x03450005).toNat = some 0x0000FFF0 ∧ 5 ≤ (immField 0x03450005).toNat % 16 ∧
    ¬ 5 ≤ (immField 0x04450004).toNat % 16 ∧ opField 0x04450004 = 0x04 := by
  refine ⟨rfl, fun _ => rfl, ?_⟩
  decide

/-- Both ends of every unassigned range of R94. -/
theorem test_meets_UnassignedOpcodesAreIllegal :
    start.faulted = false ∧ (∀ w : Word, (port start (.command w)).port = .command w :: []) ∧
    (opField 0x05FFFFFF).toNat = 0x05 ∧ (opField 0x0E000000).toNat = 0x0E ∧
    (opField 0x19000000).toNat = 0x19 ∧ (opField 0x1F123456).toNat = 0x1F ∧
    (opField 0x22000000).toNat = 0x22 ∧ (opField 0x2F000000).toNat = 0x2F ∧
    (opField 0x34000000).toNat = 0x34 ∧ (opField 0x3F000000).toNat = 0x3F ∧
    (opField 0x44000000).toNat = 0x44 ∧ (opField 0xFFFFFFFF).toNat = 0xFF :=
  ⟨rfl, fun _ => rfl, rfl, rfl, rfl, rfl, rfl, rfl, rfl, rfl, rfl, rfl⟩

theorem test_meets_DecodeOfEncode :
    (Instr.ld 15 4 15).wellFormed = true ∧ (Instr.csCreate true 14).wellFormed = true ∧
      (Instr.wtFwd 12 255 255).wellFormed = true := by decide

theorem test_meets_EncodeOfDecode : decode 0x320A0000 = .ok (.csScatter false 10) := rfl

theorem test_meets_HostActionsAtThePorts :
    start.port = [] ∧ (port start (.attach [1])).port = .attach [1] :: [] ∧
    (port start .take).port = .take :: [] ∧ (port start .readStatus).port = .readStatus :: [] ∧
    (port start .readRegisters).port = .readRegisters :: [] ∧
    (port start (.readCoefficient true 0 5)).port = .readCoefficient true 0 5 :: [] :=
  ⟨rfl, rfl, rfl, rfl, rfl, rfl⟩

/-- A faulted engine with a command, and with each host action. -/
theorem test_meets_FaultedEngineRefuses :
    let s := { start with faulted := true, fault := 0x0103 }
    s.faulted = true ∧ s.coder.mode ≠ .enc ∧
    (port s (.command 0x0F000000)).port = .command 0x0F000000 :: [] ∧
    (port s (.command 0x0F000001)).port = .command 0x0F000001 :: [] ∧
    (port s (.attach [])).port = .attach [] :: [] ∧ (port s .take).port = .take :: [] ∧
    (port s .readStatus).port = .readStatus :: [] ∧
    (port s .readRegisters).port = .readRegisters :: [] ∧
    (port s (.readCoefficient false 0 0)).port = .readCoefficient false 0 0 :: [] :=
  ⟨rfl, nofun, rfl, rfl, rfl, rfl, rfl, rfl, rfl⟩

/-- A step that executes no command, a writer of a register, one that faults, RESET, and a command that
writes none. -/
theorem test_meets_WritersOfRegisters :
    (∃ t, step start = .next t ∧ ¬ ∃ w rest i, start.port = .command w :: rest ∧ decode w = .ok i) ∧
    (∃ t, exec (.li 3 7) start = .next t ∧ (t.faulted == false) = true) ∧
    (∃ t, exec (.ld 3 1 0) (regs start [256]) = .next t ∧ (t.faulted == true) = true) ∧
    (∃ t, exec .reset start = .next t ∧ (t.faulted == false) = true) ∧
    (∃ t, exec .acClose (enc start) = .next t ∧ (t.faulted == false) = true) :=
  ⟨⟨start, rfl, by rintro ⟨_, _, _, h, _⟩; cases h⟩, next_of (by decide +kernel),
    next_of (by decide +kernel), next_of (by decide +kernel), next_of (by decide +kernel)⟩

/-- One command that changes each unit, and NOP, which changes none. -/
theorem test_meets_WritersOfEachUnit :
    (∃ t, exec (.acEnc 0 0x70) (enc start) = .next t ∧ (t.ctxAt 0x70 == 2) = true) ∧
    (∃ t, exec (.bpcSlice 0) (enc (withStores start 1 1)) = .next t ∧ (t.sched.curband == 1) = true) ∧
    (∃ t, exec (.csCreate false 0) (regs start [1, 1]) = .next t ∧ t.cs0.valid = true) ∧
    (∃ t, exec (.st 0 2 1) (regs start [5, 9]) = .next t ∧ (t.wb.read 9 == 5) = true) ∧
    (∃ t, exec .nop start = .next t ∧ (t.faulted == false) = true) :=
  ⟨next_of (by decide +kernel), next_of (by decide +kernel), next_of (by decide +kernel),
    next_of (by decide +kernel), next_of (by decide +kernel)⟩

theorem test_meets_FaultsAreClean :
    start.faulted = false ∧ ∃ t, exec (.csDestroy false) start = .next t ∧
      (t.faulted && t.fault != 0x0002) = true :=
  ⟨rfl, next_of (by decide +kernel)⟩

/-- A legal command for each fault it can take, and an illegal one. -/
theorem test_meets_FaultsOfEachCommand :
    (∃ t, exec .acClose start = .next t ∧ (t.faulted && t.fault == 0x0103) = true) ∧
    (∃ t, exec (.csDestroy false) start = .next t ∧ (t.faulted && t.fault == 0x0203) = true) ∧
    (∃ t, exec (.csCreate false 0) start = .next t ∧ (t.faulted && t.fault == 0x0303) = true) ∧
    (∃ t, exec (.ld 0 3 0) start = .next t ∧ (t.faulted && t.fault == 0x0005) = true) ∧
    (∃ t, exec (.st 0 3 0) (withCs0 (small 0) 1 1) = .next t ∧ (t.faulted && t.fault == 0x0002) = true) ∧
    (∃ t, exec (.wtFwd 13 1 2) start = .next t ∧ (t.faulted && t.fault == 0x0004) = true) :=
  ⟨next_of (by decide +kernel), next_of (by decide +kernel), next_of (by decide +kernel),
    next_of (by decide +kernel), next_of (by decide +kernel), next_of (by decide +kernel)⟩

/-- A word that faults, one that does not decode, and one that runs. -/
theorem test_meets_FaultEntryRecordsTheWord :
    start.faulted = false ∧ (0x18000000 : Word) ≠ 0x0F000000 ∧
    (∃ t, step (port start (.command 0x18000000)) = .next t ∧ t.faulted = true) ∧
    (∃ t, step (port start (.command 0x0F000001)) = .next t ∧ t.faulted = true) ∧
    (∃ t, step (port start (.command 0x01000007)) = .next t ∧ (t.faulted == false) = true) :=
  ⟨rfl, by decide, next_of (by decide +kernel), next_of (by decide +kernel),
    next_of (by decide +kernel)⟩

/-- An unfaulted and a faulted record, with a step from each. -/
theorem test_meets_FaultRecordIsKept :
    start.FaultRecordOk ∧ ({ start with faulted := true, fault := 0x0303 } : State).FaultRecordOk ∧
    (∃ t, step (port start (.command 0x18000000)) = .next t ∧ t.faulted = true) := by
  refine ⟨?_, ?_, next_of (by decide +kernel)⟩ <;> (unfold State.FaultRecordOk; decide +kernel)

/-- Both ways to a reset state. -/
theorem test_meets_ResetValues :
    State.reset = State.reset ∧ ∃ t s, exec .reset s = .next t ∧ s.faulted = true :=
  ⟨rfl, _, { start with faulted := true }, rfl, rfl⟩

theorem test_meets_LoadImmediate : start.faulted = false := rfl
theorem test_meets_LoadUpperImmediate : (regs start [0xFFFFFFFF]).faulted = false := rfl
theorem test_meets_LoadImmediate32 : start.faulted = false := rfl

/-- The last element of every space, and the first address beyond it. -/
theorem test_meets_LoadFromMemories :
    start.faulted = false ∧ ((regs start [255]).reg 0).toNat < 256 ∧
    ¬ ((regs start [256]).reg 0).toNat < 256 ∧
    ((regs start [4095]).reg 0).toNat < start.cfg.wbWords ∧
    ¬ ((regs start [4096]).reg 0).toNat < start.cfg.wbWords ∧
    ((withStores start 1 1).cs0.valid = true ∧
      ((regs start [1023]).reg 0).toNat < 1024 * (withStores start 1 1).cs0.nb.toNat) ∧
    ¬ ((regs start [1024]).reg 0).toNat < 1024 * (withStores start 1 1).cs0.nb.toNat ∧
    ¬ start.cs1.valid = true := by decide +kernel

/-- The ends of the QLO and QHI registers, NALLOC, and the ends of each gap. -/
theorem test_meets_LoadFromControlRegisters :
    start.faulted = false ∧
    (∀ v : Fin 0x100, ((regs start [BitVec.ofNat 32 v.val]).reg 0).toNat = v.val) ∧
    start.cs0.nalloc < 2 ^ 32 ∧
    5 ≤ ((regs start [0xFFFFFFFF]).reg 0).toNat - 0x5E := by decide +kernel

/-- The last element of CTX and WB, and the first address beyond. -/
theorem test_meets_StoreToContextsAndWorkBuffer :
    start.faulted = false ∧ start.MemoriesOk ∧ ((regs start [7, 255]).reg 1).toNat < 256 ∧
    ¬ ((regs start [7, 256]).reg 1).toNat < 256 ∧
    ((regs start [7, 4095]).reg 1).toNat < start.cfg.wbWords ∧
    ¬ ((regs start [7, 4096]).reg 1).toNat < start.cfg.wbWords := by
  unfold State.MemoriesOk Store.WellShaped
  decide +kernel

/-- An allocated bucket, room for one more, a full arena, and an address beyond the store. -/
theorem test_meets_StoreToCoefficients :
    let s := { withStores (small 1) 1 1 with cs0 := { (Store.create 1 1) with buckets := [(0, zeroBucket)] } }
    s.faulted = false ∧ s.MemoriesOk ∧ (s.store false).valid = true ∧
    ((regs s [7, 1023]).reg 1).toNat < 1024 * (s.store false).nb.toNat ∧
    ¬ ((regs s [7, 1024]).reg 1).toNat < 1024 * (s.store false).nb.toNat ∧
    (s.store false).Allocated 0 (15 / 16) ∧ ¬ (s.store false).Allocated 0 (16 / 16) ∧
    ¬ (s.store false).nalloc < (s.store false).arenaLimit s.cfg ∧
    (s.store true).nalloc < (s.store true).arenaLimit s.cfg := by
  unfold State.MemoriesOk Store.WellShaped
  decide +kernel

theorem test_meets_OpenEncoder : start.faulted = false ∧ start.coder.mode = .idle := ⟨rfl, rfl⟩
theorem test_meets_OpenDecoder : start.faulted = false ∧ start.coder.mode = .idle := ⟨rfl, rfl⟩

/-- A command turned away, and one accepted that ends with no fault. -/
theorem test_meets_CoderModes :
    start.faulted = false ∧ decide (start.coder.mode = .enc) = false ∧
    ∃ t, exec (.acEncp 0) (enc start) = .next t ∧ (t.faulted == false) = true :=
  ⟨rfl, rfl, next_of (by decide +kernel)⟩

/-- The three ways of AC.ENC: the predicted bit below 0x8000 and from 0x8000 on, and the other bit. -/
theorem test_meets_EncodeAdaptiveBit :
    let s := encAt 0x7FFF 0xFFFF 0
    let u := encAt 0x1234 0x8000 0x0F
    s.faulted = false ∧ s.coder.mode = .enc ∧ s.coder.Bounded ∧ u.coder.Bounded ∧
    (s.regBit 0 = (s.ctxAt 0x70).getLsbD 0 ∧ 0x8000 ≤ s.coder.a.toNat + s.cfg.prob (s.ctxAt 0x70)) ∧
    s.regBit 1 ≠ (s.ctxAt 0x70).getLsbD 0 ∧
    (u.regBit 1 = (u.ctxAt 0x70).getLsbD 0 ∧
      u.coder.a.toNat + u.cfg.prob (u.ctxAt 0x70) < 0x8000) := by
  unfold Coder.Bounded Coder.AssemblerOk Coder.WindowOk
  decide +kernel

/-- Bit 0 and bit 1 at the largest A. -/
theorem test_meets_EncodeFixedSplitBit :
    let s := encAt 0x7FFF 0xFFFF 0
    s.faulted = false ∧ s.coder.mode = .enc ∧ s.coder.Bounded ∧
      (s.reg 0).getLsbD 0 = false ∧ (s.reg 1).getLsbD 0 = true := by
  unfold Coder.Bounded Coder.AssemblerOk Coder.WindowOk
  decide +kernel

/-- An encoder that still swallows 25 bits, and one past them, with each kind of command. -/
theorem test_meets_CarriesAreResolvedExactly :
    let s := { encAt 0x7FFF 0xFFFF 0 with coder := { (encAt 0x7FFF 0xFFFF 0).coder with delay := 0, nrun := 3 } }
    let u := encAt 0x7FFF 0xFFFF 0
    (u.faulted = false ∧ u.coder.mode = .enc ∧ u.coder.Bounded ∧ u.coder.delay = 25 ∧
      (u.reg 0).getLsbD 0 = false ∧ (u.reg 1).getLsbD 0 = true) ∧
    s.faulted = false ∧ s.coder.mode = .enc ∧ s.coder.Bounded ∧ s.coder.delay = 0 ∧
    nextWith (exec (.acEnc 1 0x70) s) (fun _ => true) ∧ nextWith (exec (.acEncp 1) s) (fun _ => true) ∧
    nextWith (exec (.acEncb 1) s) (fun _ => true) := by
  unfold Coder.Bounded Coder.AssemblerOk Coder.WindowOk
  decide +kernel

/-- The three ways of AC.DEC: up to FENCE, below the split, from the split on. -/
theorem test_meets_DecodeAdaptiveBit :
    let s := decAt 0 0x7687 0x7687 31 2
    let u := decAt 0x5555 0x7687 0x7687 31 4
    let v := decAt 0x5555 0x8888 0x7FFF 31 4
    s.faulted = false ∧ s.coder.mode = .dec ∧ s.coder.Bounded ∧ u.coder.Bounded ∧ v.coder.Bounded ∧
    s.coder.a.toNat + s.cfg.prob (s.ctxAt 0x70) ≤ s.coder.fence.toNat ∧
    (u.coder.fence.toNat < 0x8888 ∧ u.coder.a.toNat + u.cfg.prob (u.ctxAt 0x70) = 0x8888 ∧
      u.coder.code.toNat < 0x8888) ∧
    (v.coder.fence.toNat < 0x8888 ∧ 0x8888 ≤ v.coder.code.toNat) := by
  refine ⟨rfl, rfl, ?_, ?_, ?_, by decide +kernel, by decide +kernel, by decide +kernel⟩ <;>
  (unfold Coder.Bounded Coder.AssemblerOk Coder.WindowOk; decide +kernel)

/-- CODE just below the split of AC.DECP, and on it. -/
theorem test_meets_DecodeFixedSplitBit :
    let s := decAt 0x5555 0xAAA9 0x7FFF 31 0
    let u := decAt 0x5555 0xAAAA 0x7FFF 31 0
    s.faulted = false ∧ s.coder.mode = .dec ∧ s.coder.Bounded ∧ u.coder.Bounded ∧
    s.coder.code.toNat < 0x8000 + s.coder.a.toNat / 2 ∧
    0x8000 + u.coder.a.toNat / 2 ≤ u.coder.code.toNat := by
  unfold Coder.Bounded Coder.AssemblerOk Coder.WindowOk
  decide +kernel

theorem test_meets_ContextUpdateIsOneFunction :
    start.faulted = false ∧ start.ctx.wf 256 = true ∧
    (∃ t, exec (.acEnc 0 5) (enc start) = .next t ∧ (t.faulted == false) = true) ∧
    ∃ t, exec (.acDec 0 5) (dec start [0x12]) = .next t ∧ (t.faulted == false) = true :=
  ⟨rfl, rfl, next_of (by decide +kernel), next_of (by decide +kernel)⟩

/-- An encoder and a decoder at the start of a session that code a 1 each. -/
theorem test_meets_EncoderAndDecoderStayInStep :
    let e := enc (regs start [0, 1])
    let d := dec start [0x12]
    e.cfg = d.cfg ∧ e.ctx = d.ctx ∧ e.coder.a = d.coder.a ∧ e.coder.Bounded ∧ d.coder.Bounded ∧
    e.faulted = false ∧ d.faulted = false ∧ e.coder.mode = .enc ∧ d.coder.mode = .dec ∧
    (∃ t, exec (.acEnc 1 0x70) e = .next t ∧ true = true) ∧
    ∃ t, exec (.acDec 0 0x70) d = .next t ∧ ((t.reg 0).getLsbD 0 == (e.reg 1).getLsbD 0) = true := by
  refine ⟨rfl, rfl, by decide +kernel, ?_, ?_, rfl, rfl, rfl, rfl,
    next_of (p := fun _ => true) (by decide +kernel), next_of (by decide +kernel)⟩ <;>
  (unfold Coder.Bounded Coder.AssemblerOk Coder.WindowOk; decide +kernel)

theorem test_meets_StreamsAreAppendOnly :
    ∃ t, step (port (enc start) (.command 0x18000000)) = .next t ∧ (t.faulted == false) = true :=
  next_of (by decide +kernel)

/-- An encoder in the middle of a byte, one whose pending number is 0 and one that still swallows 25 bits, a
decoder, and a session opened and closed at once. -/
theorem test_meets_CloseFlushesTheEncoder :
    let zero := { enc start with coder := { (enc start).coder with delay := 0, buffer := 0, subend := 0x8001 } }
    let s := { enc start with coder := { (enc start).coder with delay := 0, obyte := 5, scount := 3, nrun := 2 } }
    s.faulted = false ∧ s.coder.mode = .enc ∧ s.coder.Bounded ∧
    (zero.faulted = false ∧ zero.coder.mode = .enc ∧ zero.coder.Bounded ∧ (enc start).coder.Bounded) ∧
    (dec start []).faulted = false ∧ (dec start []).coder.mode = .dec ∧
    (start.faulted = false ∧ start.coder.mode = .idle) ∧
    (∃ t, exec .acEinit start = .next t ∧ (t.coder.mode == .enc) = true) ∧
    ∃ u, exec .acClose (enc start) = .next u ∧ (u.coder.mode == .idle) = true := by
  refine ⟨rfl, rfl, ?_, ⟨rfl, rfl, ?_, ?_⟩, rfl, rfl, ⟨rfl, rfl⟩, next_of (by decide +kernel),
    next_of (by decide +kernel)⟩ <;>
  (unfold Coder.Bounded Coder.AssemblerOk Coder.WindowOk; decide +kernel)

/-- The bounds hold of an idle, an encoding and a decoding engine, each with a step. -/
theorem test_meets_CoderBoundsAreKept :
    start.coder.Bounded ∧ (enc start).coder.Bounded ∧ (dec start [1, 2]).coder.Bounded ∧
    (∃ t, step (port (enc start) (.command 0x14000000)) = .next t ∧ (t.faulted == false) = true) ∧
    ∃ t, step (port (dec start [1, 2]) (.command 0x15000000)) = .next t ∧ (t.faulted == false) = true := by
  refine ⟨?_, ?_, ?_, next_of (by decide +kernel), next_of (by decide +kernel)⟩ <;>
  (unfold Coder.Bounded Coder.AssemblerOk Coder.WindowOk; decide +kernel)

theorem test_meets_InitialiseTheSchedule : start.faulted = false ∧ start.ctx.wf 256 = true := ⟨rfl, rfl⟩

/-- The three failing checks of BPC.SLICE, and a slice that passes them and then faults. -/
theorem test_meets_SliceChecks :
    start.faulted = false ∧ start.coder.mode = .idle ∧
    ((enc start).coder.mode = .enc ∧ (enc start).cs0.valid = false) ∧
    ((enc (withCs0 start 33 33)).cs0.valid = true ∧ (enc (withCs0 start 33 33)).cs1.valid = false) ∧
    (Store.create 32 32).iw ≠ (Store.create 33 33).iw ∧
    ∃ t, exec (.bpcSlice 0) (dec (withCs0 (small 0) 1 1) [0x00]) = .next t ∧ t.faulted = true :=
  ⟨rfl, rfl, ⟨rfl, rfl⟩, ⟨rfl, rfl⟩, by decide, next_of (by decide +kernel)⟩

/-- A schedule that has ended, subband 0 with no threshold in range, and subband 1 at 0x20000. -/
theorem test_meets_SliceWithNothingToCode :
    let s := enc (withStores start 1 1)
    let ended : State := { s with sched := { s.sched with done := true } }
    let low : State := { s with sched := { s.sched with qlo := Vector.replicate 16 0x8000 } }
    let high : State := { s with sched := { s.sched with curband := 1 } }
    s.faulted = false ∧ s.coder.mode ≠ .idle ∧ s.cs0.valid = true ∧
    (s.cs1.valid = true ∧ s.cs1.iw = s.cs0.iw ∧ s.cs1.ih = s.cs0.ih) ∧
    ended.sched.done = true ∧ (low.sched.done = false ∧ low.sched.curband = 0 ∧
      ∀ i : Fin 16, ¬ (0 < low.sched.qlo[i].toNat ∧ low.sched.qlo[i].toNat < 0x8000)) ∧
    (high.sched.done = false ∧ ∀ b : Fin 9, high.sched.curband.val = b.val + 1 →
      ¬ (0 < high.sched.qhi[b].toNat ∧ high.sched.qhi[b].toNat < 0x8000)) := by
  decide +kernel

/-- An encoder and a decoder with a slice to code. -/
theorem test_meets_SliceCompletes :
    let s := enc (withStores start 1 1)
    s.faulted = false ∧ s.coder.mode ≠ .idle ∧ s.cs0.valid = true ∧
    (s.cs1.valid = true ∧ s.cs1.iw = s.cs0.iw ∧ s.cs1.ih = s.cs0.ih) ∧ s.MemoriesOk ∧
    s.cfg.arena = none ∧ s.sched.done = false ∧
    (dec (withCs0 start 1 1) []).coder.mode = .dec := by
  unfold State.MemoriesOk Store.WellShaped
  decide +kernel

/-- An encoder with a coefficient to announce and one to refine, and a decoder, in subband 0. -/
theorem test_meets_SliceCodesTheseCalls :
    let s := enc { withStores start 1 1 with
      cs0 := { Store.create 1 1 with buckets := [(0, (zeroBucket.set 0 0x5000).set 1 0x8000)] }
      cs1 := { Store.create 1 1 with buckets := [(0, zeroBucket.set 0 0x6000)] } }
    s.faulted = false ∧ s.coder.mode ≠ .idle ∧ s.cs0.valid = true ∧
    (s.cs1.valid = true ∧ s.cs1.iw = s.cs0.iw ∧ s.cs1.ih = s.cs0.ih) ∧ s.MemoriesOk ∧
    s.cfg.arena = none ∧ s.sched.done = false ∧ s.sliceIsEmpty = false ∧
    s.isActive 0 0 = true ∧ (dec (withCs0 start 1 1) []).coder.mode = .dec := by
  unfold State.MemoriesOk Store.WellShaped
  decide +kernel

theorem test_meets_SliceAllocationError :
    ∃ t, exec (.bpcSlice 0) (dec (withCs0 (small 0) 1 1) [0x00]) = .next t ∧
      (t.faulted && t.fault == 0x0002) = true :=
  next_of (by decide +kernel)

/-- The initial schedule, and a step that advances it. -/
theorem test_meets_ScheduleStaysOnCourse :
    start.sched.OnCourse start.cfg ∧
    ∃ t, step (port (enc (withStores start 1 1)) (.command 0x21000000)) = .next t ∧
      (t.sched.curband == 1) = true := by
  refine ⟨?_, next_of (by decide +kernel)⟩
  unfold Schedule.OnCourse
  decide +kernel

/-- An encoder and a decoder with the same nonzero coefficient, and with none. -/
theorem test_meets_BothSidesPrepareAlike :
    let st := { Store.create 1 1 with buckets := [(0, zeroBucket.set 0 7)] }
    let e : State := { enc start with cs0 := st, cs1 := st }
    let d : State := { dec start [] with cs0 := st }
    e.coder.mode = .enc ∧ d.coder.mode = .dec ∧ e.sched = d.sched ∧
    (e.cs1.coefRead 0 0 ≠ 0 ∧ d.cs0.coefRead 0 0 ≠ 0) ∧
    (e.cs1.coefRead 0 1 = 0 ∧ d.cs0.coefRead 0 1 = 0) := by
  refine ⟨rfl, rfl, rfl, ?_⟩
  decide +kernel

/-- Both directions at the largest threshold in range. -/
theorem test_meets_ActivationValues :
    let s := withStores start 1 1
    s.cfg.arena = none ∧ s.MemoriesOk ∧ (0x4000 : Nat) < 0x8000 ∧ 0x4000 = 2 ^ 14 ∧
    ((enc s).coder.mode = .enc ∧ (enc s).cs1.valid = true ∧ 0 < (enc s).cs1.nb.toNat) ∧
    ((dec s []).coder.mode = .dec ∧ (dec s []).cs0.valid = true ∧ 0 < (dec s []).cs0.nb.toNat) := by
  unfold State.MemoriesOk Store.WellShaped
  decide +kernel

/-- An encoder after activation at `2t`, a decoder at its first refinement, and one at a later one with
the largest magnitude. -/
theorem test_meets_RefinementValues :
    let st := fun v : Sample => { Store.create 1 1 with buckets := [(0, zeroBucket.set 0 v)] }
    let e : State := { enc start with cs0 := st 0xC000, cs1 := st 0x3000 }
    let d := fun v : Sample => ({ dec start [] with cs0 := st v } : State)
    let late : State := { enc start with cs0 := st 0xC000, cs1 := st 0x7000 }
    (late.MemoriesOk ∧ (3 * 0x1000 : Int) < (late.cs1.coefRead 0 0).toInt ∧
      (late.cs1.coefRead 0 0).toInt + 0x1000 ≤ 0x8000) ∧
    e.MemoriesOk ∧ (d 0x2C00).MemoriesOk ∧ start.cfg.arena = none ∧
    ((0x1000 : Int) ≤ (e.cs1.coefRead 0 0).toInt ∧ (e.cs1.coefRead 0 0).toInt + 0x1000 ≤ 0x8000) ∧
    |((d 0x2C00).cs0.coefRead 0 0).toInt| = 3 * 0x1000 - 0x1000 / 4 ∧
    ((3 * 1 : Int) < 0x7FFF ∧ (0x7FFF : Int) + 1 ≤ 0x8000 ∧
      |((d 0x8001).cs0.coefRead 0 0).toInt| = 0x7FFF) := by
  unfold State.MemoriesOk Store.WellShaped
  decide +kernel

/-- A store that is valid, dimensions at both ends of their range, and just outside. -/
theorem test_meets_CreateStore :
    start.faulted = false ∧ (14 : RegNum).toNat ≤ 14 ∧ (withCs0 start 1 1).cs0.valid = true ∧
    start.cs0.valid = false ∧
    (((regs start [1, 65535]).reg 0).toNat = 1 ∧ ((regs start [1, 65535]).reg 1).toNat = 65535) ∧
    (((regs start [0, 65536]).reg 0).toNat = 0 ∧ ((regs start [0, 65536]).reg 1).toNat = 65536) := by
  decide +kernel

theorem test_meets_DestroyStore :
    start.faulted = false ∧ (withCs0 start 1 1).cs0.valid = true ∧ start.cs0.valid = false := by
  decide +kernel

/-- Each check of CS.SCATTER failing first, the rectangle that just fits, and a scatter with no room; then,
for where it ends: an arena of one bucket, which bucket 24 finds full, and a rectangle of zeros. -/
theorem test_meets_MoveChecks :
    start.faulted = false ∧ 14 < (15 : RegNum).toNat ∧ start.cs0.valid = false ∧
    (32 : Nat) - 1 < (withCs0 start 1 1).cs0.bw.toNat ∧
    start.cfg.wbWords < 3073 + ((withCs0 start 1 1).cs0.bh.toNat - 1) * 32 + 32 ∧
    ¬ start.cfg.wbWords < 3072 + ((withCs0 start 1 1).cs0.bh.toNat - 1) * 32 + 32 ∧
    (∃ t, exec (.csScatter false 0) { moveState with cfg := (small 2).cfg } = .next t ∧
      t.faulted = true) ∧
    let needs : State → Nat → Bool := fun s p => !(s.cs0.buckets.find p).isSome &&
      (List.range 16).any fun j => decide (s.wb.read
        (0 + (32 * (p / 64 / (s.cs0.bw.toNat / 32)) + zigzagRow (16 * (p % 64) + j)) * 32 +
          32 * (p / 64 % (s.cs0.bw.toNat / 32)) + zigzagCol (16 * (p % 64) + j)) ≠ 0)
    let full : State := { moveState with cfg := (small 1).cfg }
    let zeros := regs (withCs0 start 1 1) [0, 32]
    (full.MemoriesOk ∧ full.cs0.valid = true ∧
      (∀ p, p < 24 → needs full p = true →
        full.cs0.nalloc + (List.range p).countP (needs full) < full.cs0.arenaLimit full.cfg) ∧
      24 < 64 * full.cs0.nb.toNat ∧ needs full 24 = true ∧
      full.cs0.arenaLimit full.cfg ≤ full.cs0.nalloc + (List.range 24).countP (needs full)) ∧
    zeros.MemoriesOk ∧ ∀ p, p < 64 * zeros.cs0.nb.toNat → needs zeros p = false := by
  refine ⟨rfl, by decide, by decide, by decide +kernel, by decide +kernel, by decide +kernel,
    next_of (by decide +kernel), ?_⟩
  unfold State.MemoriesOk Store.WellShaped
  decide +kernel

/-- The last number and the last position. -/
theorem test_meets_ZigzagIsABijection :
    (1023 : Nat) < 1024 ∧ (31 : Nat) < 32 ∧ zigzagRow 1023 = 31 ∧ zigzagCol 1023 = 31 ∧
      zigzagRow 300 = 12 ∧ zigzagCol 300 = 9 := by decide

/-- The rectangle at the end of the work buffer. -/
theorem test_meets_ScatterFillsTheStore :
    let s := regs (withCs0 start 1 1) [3072, 32]
    s.faulted = false ∧ s.MemoriesOk ∧ s.cfg.arena = none ∧ (s.store false).valid = true ∧
    (s.store false).bw.toNat ≤ (s.reg 1).toNat ∧
    (s.reg 0).toNat + ((s.store false).bh.toNat - 1) * (s.reg 1).toNat + (s.store false).bw.toNat ≤
      s.cfg.wbWords ∧
    0 < (s.store false).nb.toNat := by
  unfold State.MemoriesOk Store.WellShaped
  decide +kernel

theorem test_meets_GatherFillsTheRectangle :
    let s := regs (withStores start 1 1) [3072, 32]
    s.faulted = false ∧ s.MemoriesOk ∧ (s.store true).valid = true ∧
    (s.store true).bw.toNat ≤ (s.reg 1).toNat ∧
    (s.reg 0).toNat + ((s.store true).bh.toNat - 1) * (s.reg 1).toNat + (s.store true).bw.toNat ≤
      s.cfg.wbWords ∧
    0 < (s.store true).nb.toNat := by
  unfold State.MemoriesOk Store.WellShaped
  decide +kernel

/-- A store that allocates in the step. -/
theorem test_meets_AllocationIsMonotonic :
    let s := port (regs (withCs0 start 1 1) [5, 17]) (.command 0x04010003)
    s.MemoriesOk ∧ (s.store false).valid = true ∧
    ∃ t, step s = .next t ∧ ((t.store false).valid && (t.store false).nalloc == 1) = true := by
  refine ⟨?_, ?_, next_of (by decide +kernel)⟩
  · unfold State.MemoriesOk Store.WellShaped
    decide +kernel
  · decide +kernel

theorem test_meets_MemoriesStayWellFormed :
    let s := port (regs (withCs0 start 1 1) [5, 17]) (.command 0x04010003)
    s.MemoriesOk ∧ s.ArenasOk ∧ ∃ t, step s = .next t ∧ (t.faulted == false) = true := by
  refine ⟨?_, ?_, next_of (by decide +kernel)⟩
  · unfold State.MemoriesOk Store.WellShaped
    decide +kernel
  · unfold State.ArenasOk
    decide +kernel

/-- V-WT7: an illegal run, a bad scale, a width 0, the rectangle that just fits and the one past it. -/
theorem test_meets_TransformChecksAndFrame :
    start.faulted = false ∧ start.wb.wf start.cfg.wbWords = true ∧ 12 < (13 : RegNum).toNat ∧
    ¬ (3 = 1 ∨ 3 = 2 ∨ 3 = 4 ∨ 3 = 8 ∨ 3 = 16 ∨ 3 = 32) ∧
    start.cfg.wbWords < 4089 + (1 - 1) * 8 + 8 ∧ ¬ start.cfg.wbWords < 4088 + (1 - 1) * 8 + 8 ∧
    (∃ t, exec (.wtFwd 0 1 32) (regs start [4088, 8, 1, 8]) = .next t ∧ (t.faulted == false) = true) ∧
    ∃ t, exec (.wtBwd 0 8 8) (regs start [0, 8, 1, 8]) = .next t ∧ (t.faulted == false) = true :=
  ⟨rfl, rfl, by decide, by decide, by decide +kernel, by decide +kernel, next_of (by decide +kernel),
    next_of (by decide +kernel)⟩

/-- The shortest row that is lifted, at the end of the work buffer; a column there, the largest scale with
one sample on its grid, and two scales one after the other. -/
theorem test_meets_ForwardLiftingOfARow :
    let column := regs start [4094, 1, 2, 1]
    ((0 < (column.reg 1).toNat ∧ 0 < (column.reg 2).toNat ∧ (column.reg 1).toNat ≤ (column.reg 3).toNat ∧
      (column.reg 0).toNat + ((column.reg 2).toNat - 1) * (column.reg 3).toNat + (column.reg 1).toNat ≤
        column.cfg.wbWords) ∧ (32 : Byte).toNat = 2 * (16 : Byte).toNat ∧
      nextWith (exec (.wtFwd 0 1 2) column) (fun t =>
        !t.faulted && nextWith (exec (.wtFwd 0 2 4) t) (fun u => !u.faulted))) ∧
    let s := regs start [4094, 2, 1, 2]
    s.faulted = false ∧ s.wb.wf s.cfg.wbWords = true ∧ (0 : RegNum).toNat ≤ 12 ∧
    2 ≤ (s.reg 1).toNat ∧ (s.reg 2).toNat = 1 ∧ (s.reg 1).toNat ≤ (s.reg 3).toNat ∧
    (s.reg 0).toNat + (s.reg 1).toNat ≤ s.cfg.wbWords := by decide +kernel

theorem test_meets_BackwardUndoesForward :
    let s := regs (row start [7, -3]) [0, 2, 1, 2]
    let t := regs (row start [2, -10]) [0, 2, 1, 2]
    s.faulted = false ∧ s.wb.wf s.cfg.wbWords = true ∧
    (∃ t', exec (.wtFwd 0 1 32) s = .next t' ∧ (t'.wb == t.wb && t'.faulted == false) = true) ∧
    ∃ u, exec (.wtBwd 0 1 32) t = .next u ∧ (u.wb == s.wb) = true :=
  ⟨rfl, by decide +kernel, next_of (by decide +kernel), next_of (by decide +kernel)⟩

/-- Three disjoint planes that just fit, and a count one larger. -/
theorem test_meets_ColourPlanes :
    let s := regs start [0, 2, 4094, 2]
    s.faulted = false ∧ s.wb.wf s.cfg.wbWords = true ∧ (0 : RegNum).toNat ≤ 12 ∧
    ¬ (s.cfg.wbWords < 0 + 2 ∨ s.cfg.wbWords < 2 + 2 ∨ s.cfg.wbWords < 4094 + 2) ∧
    s.cfg.wbWords < 4094 + 3 ∧
    ∀ i j : Fin 2, 0 + i.val ≠ 2 + j.val ∧ 0 + i.val ≠ 4094 + j.val ∧ 2 + i.val ≠ 4094 + j.val := by
  decide +kernel

end Sys2Proof.Tests
end

section
/-! # Command words

Every word of an assigned opcode is put to `acceptWord`, whatever its format, and that is where a command is
checked against R95; so what a decoded command meets follows from `acceptWord_eq_ok` alone. -/

namespace Sys2Proof

/-- The decoder either asks `acceptWord` about one command or finds the opcode unassigned (R94 to R96). -/
theorem decode_eq_acceptWord_or_unassignedOp (w : Word) :
    (∃ ok bad i, decode w = acceptWord ok bad i) ∨ decode w = .error .unassignedOp := by
  unfold decode
  split
  case h_26 => exact .inr rfl
  all_goals exact .inl ⟨_, _, _, rfl⟩

/-- A word decodes only to a command that meets R95's conditions. -/
theorem wellFormed_of_decode {w : Word} {i : Instr} (h : decode w = .ok i) : i.wellFormed = true := by
  obtain ⟨ok, bad, j, hj⟩ | hbad := decode_eq_acceptWord_or_unassignedOp w
  · obtain ⟨-, hwf, rfl⟩ := acceptWord_eq_ok.mp (hj.symm.trans h)
    exact hwf
  · rw [hbad] at h
    cases h

end Sys2Proof

namespace Sys2Proof.Machine

/-- Settles O1: the decoder accepts only well-formed commands, and `step` hands one to `exec` with its word
taken off the port. -/
theorem stepRunsTheDecodedCommand : Obligations.StepRunsTheDecodedCommand := by
  intro s w rest i hport hdecode
  exact ⟨wellFormed_of_decode hdecode, step_command hport hdecode⟩

end Sys2Proof.Machine
end

section
/-! # What a command writes

Every command but RESET is a list of checks and an effect in the frame of R97; `commandChecks` and
`commandEffect` name the two, so that a fact about all commands is one case split over the effects. The parts
of the state that a command can write at all stand in one table, `Writes`, and every later proof reads its
frame off it. -/

namespace Sys2Proof.Machine

/-! ## Checks and effects -/

/-- The checks of a command after its legality, in order. -/
@[simp] def commandChecks : Instr → State → List (Bool × FaultKind)
  | .acEinit, s | .acDinit, s => [modeCheck s .idle]
  | .acEnc _ _, s | .acEncp _, s | .acEncb _, s => [modeCheck s .enc]
  | .acDec _ _, s | .acDecp _, s | .acDecb _, s => [modeCheck s .dec]
  | .acClose, s => [(decide (s.coder.mode ≠ .idle), .logicMode)]
  | .bpcSlice _, s => sliceChecks s
  | .csCreate i ra, s =>
    [(!(s.store i).valid, .logicStore),
     (dimensionOk (s.regRun ra 0) && dimensionOk (s.regRun ra 1), .logicOperand)]
  | .csDestroy i, s => [((s.store i).valid, .logicStore)]
  | .csScatter i ra, s | .csGather i ra, s => moveChecks s i ra
  | .wtFwd ra lo hi, s | .wtBwd ra lo hi, s => scaleChecks s ra lo hi
  | .wtRgb2ycc ra, s | .wtYcc2rgb ra, s => planeChecks s ra
  | _, _ => []

/-- The effect of a command whose checks have passed. RESET has none, as it has no checks (R271). -/
def commandEffect : Instr → State → Effect
  | .nop, s | .reset, s => .done s
  | .li rd imm, s => .done (s.setReg rd (imm.setWidth 32))
  | .lui rd imm, s => .done (s.setReg rd (imm ++ (s.reg rd).extractLsb' 0 16))
  | .ld rd sp ra, s =>
    match s.memRead sp (s.reg ra).toNat with
    | some v => .done (s.setReg rd v)
    | none => .stop .address s
  | .st rd sp ra, s => s.memWrite sp (s.reg ra).toNat (s.reg rd)
  | .acEinit, s => .done (s.setCoder s.coder.openEncoder)
  | .acDinit, s => .done (s.setCoder s.coder.openDecoder)
  | .acEnc rd c, s => .done (s.encodeCtx c (s.regBit rd))
  | .acDec rd c, s => .done ((s.decodeCtx c).2.setReg rd (bitWord (s.decodeCtx c).1))
  | .acEncp rd, s => .done (s.encodePass (s.regBit rd))
  | .acDecp rd, s => .done (s.decodePass.2.setReg rd (bitWord s.decodePass.1))
  | .acEncb rd, s => .done (s.encodeBalanced (s.regBit rd))
  | .acDecb rd, s => .done (s.decodeBalanced.2.setReg rd (bitWord s.decodeBalanced.1))
  | .acClose, s => .done (s.setCoder s.coder.close)
  | .bpcInit, s => .done ((s.setSched (Schedule.initial s.cfg)).setCtx (clearBpcContexts s.ctx))
  | .bpcSlice rd, s =>
    if s.sched.done then .done (s.setReg rd 0)
    else s.codeSlice.andThen fun u => .done (State.finishSlice rd u)
  | .csCreate i ra, s => .done (s.setStore i (Store.create (s.regRun ra 0) (s.regRun ra 1)))
  | .csDestroy i, s => .done (s.setStore i Store.empty)
  | .csScatter i ra, s =>
    State.scatterBuckets i (s.regRun ra 0) (s.regRun ra 1)
      (List.range (64 * (s.store i).nb.toNat)) s
  | .csGather i ra, s =>
    .done (s.setWb (s.wb.writeAll ((s.store i).gatherCells (s.regRun ra 0) (s.regRun ra 1))))
  | .wtFwd ra lo hi, s => .done (s.setWb (forwardTransform (s.rectAt ra) lo.toNat hi.toNat s.wb))
  | .wtBwd ra lo hi, s => .done (s.setWb (inverseTransform (s.rectAt ra) lo.toNat hi.toNat s.wb))
  | .wtRgb2ycc ra, s =>
    .done (s.setWb (colourLoop rgbToYcc (s.regRun ra 0) (s.regRun ra 1) (s.regRun ra 2)
      (s.regRun ra 3) s.wb))
  | .wtYcc2rgb ra, s =>
    .done (s.setWb (colourLoop yccToRgb (s.regRun ra 0) (s.regRun ra 1) (s.regRun ra 2)
      (s.regRun ra 3) s.wb))

theorem exec_eq_runCommand {i : Instr} (hi : i ≠ .reset) (s : State) :
    exec i s = runCommand i s (commandChecks i s) (commandEffect i) := by
  cases i
  case reset => exact absurd rfl hi
  all_goals rfl

theorem commandEffect_ld (rd : RegNum) (sp : BitVec 4) (ra : RegNum) (s : State) :
    commandEffect (.ld rd sp ra) s =
      ((s.memRead sp (s.reg ra).toNat).elim (.stop .address s) fun v => .done (s.setReg rd v)) := by
  show (match s.memRead sp (s.reg ra).toNat with
    | some v => Effect.done (s.setReg rd v)
    | none => .stop .address s) = _
  cases s.memRead sp (s.reg ra).toNat <;> rfl

theorem commandEffect_st (rd : RegNum) (sp : BitVec 4) (ra : RegNum) (s : State) :
    commandEffect (.st rd sp ra) s = s.memWrite sp (s.reg ra).toNat (s.reg rd) := rfl

theorem commandEffect_bpcInit (s : State) :
    commandEffect .bpcInit s =
      .done ((s.setSched (Schedule.initial s.cfg)).setCtx (clearBpcContexts s.ctx)) := rfl

theorem commandEffect_bpcSlice (rd : RegNum) (s : State) :
    commandEffect (.bpcSlice rd) s = if s.sched.done = true then .done (s.setReg rd 0)
      else s.codeSlice.andThen fun u => .done (State.finishSlice rd u) := rfl

theorem exec_reset (s : State) : exec .reset s = .next s.resetCommand := rfl

/-- A legal command whose checks pass takes its effect. -/
theorem exec_of_checks {i : Instr} {s : State} (hi : i ≠ .reset) (hf : s.faulted = false)
    (hwf : i.wellFormed = true) (hc : ∀ c ∈ commandChecks i s, c.1 = true) :
    exec i s = .next ((commandEffect i s).settle (encode i)) := by
  rw [exec_eq_runCommand hi, runCommand_ok _ hf hwf hc]

/-- What a command answers, by what its effect does: RESET's state, the state of a FAULTED engine, the fault
of a check that fails, the state the effect ends in, or a fault in the state the effect has reached. -/
theorem exec_cases {i : Instr} {s t : State} {P : State → Prop} {Q : FaultKind → State → Prop}
    (h : exec i s = .next t)
    (heff : i ≠ .reset → s.faulted = false → i.wellFormed = true →
      (∀ c ∈ commandChecks i s, c.1 = true) → (commandEffect i s).Post P Q) :
    (i = .reset ∧ t = s.resetCommand) ∨ (i ≠ .reset ∧ s.faulted = true ∧ t = s) ∨
      (i ≠ .reset ∧ s.faulted = false ∧ ∃ k, (false, k) ∈ (i.wellFormed, .illegal) :: commandChecks i s ∧
        t = s.takeFault k (encode i)) ∨
      (i ≠ .reset ∧ s.faulted = false ∧ P t) ∨
      i ≠ .reset ∧ s.faulted = false ∧ ∃ k u, Q k u ∧ t = u.takeFault k (encode i) := by
  by_cases hi : i = .reset
  · subst hi
    exact .inl ⟨rfl, (Host.Outcome.next.inj h).symm⟩
  · rw [exec_eq_runCommand hi] at h
    refine .inr ?_
    rcases runCommand_cases i s (commandChecks i s) (commandEffect i) with
      ⟨hf, h'⟩ | ⟨hf, k, hk, h'⟩ | ⟨hf, hok, h'⟩
    · rw [h'] at h
      cases h
      exact .inl ⟨hi, hf, rfl⟩
    · rw [h'] at h
      cases h
      exact .inr (.inl ⟨hi, hf, k, firstFault_eq_some hk, rfl⟩)
    · rw [h'] at h
      cases h
      have hpass := firstFault_eq_none.1 hok
      have hpost := heff hi hf (hpass _ (List.mem_cons_self ..))
        fun c hc => hpass c (List.mem_cons_of_mem _ hc)
      refine .inr (.inr ?_)
      generalize commandEffect i s = e at hpost ⊢
      cases e with
      | done u => exact .inl ⟨hi, hf, hpost⟩
      | stop k u => exact .inr ⟨hi, hf, k, u, hpost, rfl⟩

/-- A property of the next state that RESET establishes, that holds now and after a fault now, and that the
effect establishes up to its end or its fault, holds after the command. -/
theorem exec_keeps {P : State → Prop} {i : Instr} {s t : State} (h : exec i s = .next t)
    (hreset : i = .reset → P s.resetCommand) (hs : P s)
    (hfault : ∀ u k w, P u → P (u.takeFault k w))
    (heff : i ≠ .reset → i.wellFormed = true → (∀ c ∈ commandChecks i s, c.1 = true) →
      (commandEffect i s).Post P fun _ => P) : P t := by
  rcases exec_cases h fun hi _ hwf hc => heff hi hwf hc with
    ⟨hi, rfl⟩ | ⟨-, -, rfl⟩ | ⟨-, -, k, -, rfl⟩ | ⟨-, -, ht⟩ | ⟨-, -, k, u, hu, rfl⟩
  · exact hreset hi
  · exact hs
  · exact hfault _ _ _ hs
  · exact ht
  · exact hfault _ _ _ hu

/-! ## The effects that can stop -/

/-- A CoefWrite by its two outcomes (R204). -/
theorem State.coefWrite_post {P : State → Prop} {Q : FaultKind → State → Prop} {s : State} {i : Bool}
    (blk n : Nat) (v : Sample) (hdone : ∀ st, P (s.setStore i st)) (hstop : Q .allocation s) :
    (s.coefWrite i blk n v).Post P Q := by
  rcases s.coefWrite_cases i blk n v with ⟨st, -, e⟩ | ⟨-, e⟩ <;> rw [e]
  · exact hdone st
  · exact hstop

/-- ST by the space it writes (R62, R125). -/
theorem st_post {P : State → Prop} {Q : FaultKind → State → Prop} {s : State} (rd : RegNum)
    (sp : BitVec 4) (ra : RegNum)
    (hctx : ∀ a v, a < 256 → P (s.setCtx (s.ctx.write a v)))
    (hwb : ∀ a v, a < s.cfg.wbWords → P (s.setWb (s.wb.write a v)))
    (hstore : ∀ i blk n v, blk < (s.store i).nb.toNat → n < 1024 → (s.coefWrite i blk n v).Post P Q)
    (hstop : Q .address s) : (commandEffect (.st rd sp ra) s).Post P Q := by
  rw [commandEffect_st]
  rcases s.memWrite_cases sp (s.reg ra).toNat (s.reg rd) with
    ⟨-, ha, e⟩ | ⟨-, ha, e⟩ | ⟨i, -, -, ha, e⟩ | e <;> rw [e]
  · exact hctx _ _ ha
  · exact hwb _ _ ha
  · exact hstore i _ _ _ (by omega) (by omega)
  · exact hstop

/-- BPC.SLICE on a schedule that is done, and on one that is not (R246, R247). -/
theorem bpcSlice_post {P R : State → Prop} {Q : FaultKind → State → Prop} {s : State} (rd : RegNum)
    (hdone : R (s.setReg rd 0)) (hcode : s.sched.done = false → s.codeSlice.Post P Q)
    (hfinish : ∀ u, P u → s.sched.done = false → R (State.finishSlice rd u)) :
    (commandEffect (.bpcSlice rd) s).Post R Q := by
  rw [commandEffect_bpcSlice]
  split
  case isTrue => exact hdone
  case isFalse hd =>
    have hd : s.sched.done = false := Bool.eq_false_iff.2 hd
    exact (hcode hd).andThen fun u hu => hfinish u hu hd

/-- CS.SCATTER is CoefWrites to existing coefficients of its store (R207). -/
theorem csScatter_post {P : State → Prop} {Q : FaultKind → State → Prop} {s : State} (i : Bool)
    (ra : RegNum) (hs : P s)
    (hwrite : ∀ u blk n v, P u → blk < (s.store i).nb.toNat → n < 1024 →
      (u.coefWrite i blk n v).Post P Q) : (commandEffect (.csScatter i ra) s).Post P Q :=
  State.scatterBuckets_post hwrite _ (fun _ hq => List.mem_range.1 hq) s hs

/-! ## Parts of the state -/

/-- The parts of the state that are written as a whole. -/
inductive Part where
  /-- One P register. -/
  | reg (r : RegNum)
  /-- FAULTED, FAULT and FAULTINFO. -/
  | faults
  /-- The coder's registers and streams. -/
  | coder
  /-- The context memory. -/
  | ctx
  /-- The schedule. -/
  | sched
  /-- Store CS0 or CS1. -/
  | store (i : Bool)
  /-- The work buffer. -/
  | wb
  /-- What no command writes: the configuration, the port and the record of answers. -/
  | host

/-- The two states agree in one part. -/
def State.SamePart (s t : State) : Part → Prop
  | .reg r => t.reg r = s.reg r
  | .faults => t.faulted = s.faulted ∧ t.fault = s.fault ∧ t.faultInfo = s.faultInfo
  | .coder => t.coder = s.coder
  | .ctx => t.ctx = s.ctx
  | .sched => t.sched = s.sched
  | .store i => t.store i = s.store i
  | .wb => t.wb = s.wb
  | .host => t.cfg = s.cfg ∧ t.port = s.port ∧ t.reply = s.reply

/-- The two states agree in every part that `W` does not name. -/
def State.AgreesOutside (s : State) (W : Part → Prop) (t : State) : Prop :=
  ∀ p, ¬ W p → s.SamePart t p

section agrees

variable {s t : State} {W : Part → Prop}

theorem State.AgreesOutside.refl (s : State) (W : Part → Prop) : s.AgreesOutside W s := by
  intro p _
  cases p
  case faults => exact ⟨rfl, rfl, rfl⟩
  case host => exact ⟨rfl, rfl, rfl⟩
  all_goals rfl

theorem State.AgreesOutside.mono {W' : Part → Prop} (h : s.AgreesOutside W t) (hW : ∀ p, W p → W' p) :
    s.AgreesOutside W' t := fun p hp => h p fun hw => hp (hW p hw)

theorem State.AgreesOutside.setReg (h : s.AgreesOutside W t) {r : RegNum} (hr : W (.reg r)) (v : Word) :
    s.AgreesOutside W (t.setReg r v) := by
  intro p hp
  cases p
  case reg k =>
    have hk : k ≠ r := fun e => hp (e ▸ hr)
    exact (State.setReg_reg_ne t v hk).trans (h _ hp)
  all_goals exact h _ hp

theorem State.AgreesOutside.setCoder (h : s.AgreesOutside W t) (hc : W .coder) (c : Coder) :
    s.AgreesOutside W (t.setCoder c) := by
  intro p hp
  cases p
  case coder => exact absurd hc hp
  all_goals exact h _ hp

theorem State.AgreesOutside.setCtx (h : s.AgreesOutside W t) (hc : W .ctx) (m : Mem 8) :
    s.AgreesOutside W (t.setCtx m) := by
  intro p hp
  cases p
  case ctx => exact absurd hc hp
  all_goals exact h _ hp

theorem State.AgreesOutside.setSched (h : s.AgreesOutside W t) (hq : W .sched) (q : Schedule) :
    s.AgreesOutside W (t.setSched q) := by
  intro p hp
  cases p
  case sched => exact absurd hq hp
  all_goals exact h _ hp

theorem State.AgreesOutside.setWb (h : s.AgreesOutside W t) (hm : W .wb) (m : Mem 16) :
    s.AgreesOutside W (t.setWb m) := by
  intro p hp
  cases p
  case wb => exact absurd hm hp
  all_goals exact h _ hp

theorem State.AgreesOutside.setStore (h : s.AgreesOutside W t) {i : Bool} (hi : W (.store i))
    (st : Store) : s.AgreesOutside W (t.setStore i st) := by
  intro p hp
  cases p
  case store j =>
    have hj : j ≠ i := fun e => hp (e ▸ hi)
    have := h _ hp
    simpa [State.SamePart, hj] using this
  all_goals
    have := h _ hp
    simpa [State.SamePart] using this

theorem State.AgreesOutside.takeFault (h : s.AgreesOutside W t) (hF : W .faults) (k : FaultKind)
    (w : Word) : s.AgreesOutside W (t.takeFault k w) := by
  intro p hp
  cases p
  case faults => exact absurd hF hp
  all_goals exact h _ hp

theorem State.AgreesOutside.x_eq (h : s.AgreesOutside W t) (hW : ∀ r, ¬ W (.reg r)) : t.x = s.x :=
  State.x_ext fun r => h (.reg r) (hW r)

end agrees

/-- The parts that a command can write besides the fault record (R22, R33, R34, R37 to R39, R43). -/
@[simp] def Writes : Instr → Part → Prop
  | .nop, _ => False
  | .li rd _, p | .lui rd _, p | .ld rd _ _, p => p = .reg rd
  | .st _ _ _, p => p = .ctx ∨ p = .wb ∨ ∃ i, p = .store i
  | .reset, p => p ≠ .wb ∧ p ≠ .host
  | .acEinit, p | .acDinit, p | .acEncp _, p | .acEncb _, p | .acClose, p => p = .coder
  | .acEnc _ _, p => p = .coder ∨ p = .ctx
  | .acDec rd _, p => p = .coder ∨ p = .ctx ∨ p = .reg rd
  | .acDecp rd, p | .acDecb rd, p => p = .coder ∨ p = .reg rd
  | .bpcInit, p => p = .sched ∨ p = .ctx
  | .bpcSlice rd, p => p = .coder ∨ p = .ctx ∨ p = .sched ∨ p = .reg rd ∨ ∃ i, p = .store i
  | .csCreate i _, p | .csDestroy i, p | .csScatter i _, p => p = .store i
  | .csGather _ _, p | .wtFwd _ _ _, p | .wtBwd _ _ _, p | .wtRgb2ycc _, p | .wtYcc2rgb _, p => p = .wb

/-- The fault record is written by the frame of a command, not by its effect (R270). -/
theorem not_writes_faults {i : Instr} (hi : i ≠ .reset) : ¬ Writes i .faults := by
  cases i
  case reset => exact absurd rfl hi
  all_goals simp

/-- What a fault that stops an effect leaves: one of the two kinds an effect can meet, with no P register
written and nothing outside the command's parts (R22, R265). -/
def StoppedBy (i : Instr) (s : State) (k : FaultKind) (u : State) : Prop :=
  (k = .address ∨ k = .allocation) ∧ k ∈ mayRaise i ∧ s.AgreesOutside (Writes i) u ∧ u.x = s.x

theorem codeSlice_writes (rd : RegNum) (s : State) :
    s.codeSlice.Post (fun u => s.AgreesOutside (Writes (.bpcSlice rd)) u ∧ u.x = s.x)
      (StoppedBy (.bpcSlice rd) s) := by
  have hframe : ∀ t : State, t = { s with coder := t.coder, ctx := t.ctx, cs0 := t.cs0, cs1 := t.cs1 } →
      s.AgreesOutside (Writes (.bpcSlice rd)) t ∧ t.x = s.x := by
    intro t ht
    have e : t = (((s.setCoder t.coder).setCtx t.ctx).setStore false t.cs0).setStore true t.cs1 := ht
    refine ⟨?_, by rw [ht]⟩
    rw [e]
    exact ((((State.AgreesOutside.refl s _).setCoder (.inl rfl) _).setCtx (.inr (.inl rfl)) _).setStore
      (by simp) _).setStore (by simp) _
  refine s.codeSlice_frame.mono (fun t ht => hframe t ht.1) fun k t ht => ?_
  obtain ⟨hagree, hx⟩ := hframe t ht.2.1
  exact ⟨.inr ht.1, by simp [mayRaise, ht.1], hagree, hx⟩

/-- What the effect of a command can write, by the table. -/
theorem commandEffect_writes {i : Instr} (hi : i ≠ .reset) (s : State) :
    (commandEffect i s).Post (s.AgreesOutside (Writes i)) (StoppedBy i s) := by
  have hrefl := State.AgreesOutside.refl s (Writes i)
  cases i
  case nop => exact hrefl
  case reset => exact absurd rfl hi
  case li rd imm => exact hrefl.setReg rfl _
  case lui rd imm => exact hrefl.setReg rfl _
  case ld rd sp ra =>
    rw [commandEffect_ld]
    cases s.memRead sp (s.reg ra).toNat with
    | some v => exact hrefl.setReg rfl _
    | none => exact ⟨.inl rfl, by simp [mayRaise], hrefl, rfl⟩
  case st rd sp ra =>
    refine st_post rd sp ra (fun _ _ _ => hrefl.setCtx (.inl rfl) _)
      (fun _ _ _ => hrefl.setWb (.inr (.inl rfl)) _) (fun i blk n v _ _ => ?_)
      ⟨.inl rfl, by simp [mayRaise], hrefl, rfl⟩
    exact State.coefWrite_post blk n v (fun st => hrefl.setStore (.inr (.inr ⟨i, rfl⟩)) st)
      ⟨.inr rfl, by simp [mayRaise], hrefl, rfl⟩
  case acEinit => exact hrefl.setCoder rfl _
  case acDinit => exact hrefl.setCoder rfl _
  case acEnc rd c => exact (hrefl.setCoder (.inl rfl) _).setCtx (.inr rfl) _
  case acDec rd c =>
    exact ((hrefl.setCoder (.inl rfl) _).setCtx (.inr (.inl rfl)) _).setReg (.inr (.inr rfl)) _
  case acEncp rd => exact hrefl.setCoder rfl _
  case acDecp rd => exact (hrefl.setCoder (.inl rfl) _).setReg (.inr rfl) _
  case acEncb rd => exact hrefl.setCoder rfl _
  case acDecb rd => exact (hrefl.setCoder (.inl rfl) _).setReg (.inr rfl) _
  case acClose => exact hrefl.setCoder rfl _
  case bpcInit => exact (hrefl.setSched (.inl rfl) _).setCtx (.inr rfl) _
  case bpcSlice rd =>
    exact bpcSlice_post rd (hrefl.setReg (by simp) _) (fun _ => codeSlice_writes rd s)
      fun u hu _ => (hu.1.setSched (by simp) _).setReg (by simp) _
  case csCreate i ra => exact hrefl.setStore rfl _
  case csDestroy i => exact hrefl.setStore rfl _
  case csScatter i ra =>
    refine csScatter_post i ra hrefl fun u blk n v hu _ _ => ?_
    exact State.coefWrite_post blk n v (fun st => hu.setStore rfl st)
      ⟨.inr rfl, by simp [mayRaise], hu, hu.x_eq fun r => by simp⟩
  case csGather i ra => exact hrefl.setWb rfl _
  case wtFwd ra lo hi => exact hrefl.setWb rfl _
  case wtBwd ra lo hi => exact hrefl.setWb rfl _
  case wtRgb2ycc ra => exact hrefl.setWb rfl _
  case wtYcc2rgb ra => exact hrefl.setWb rfl _

theorem resetCommand_writes (s : State) : s.AgreesOutside (Writes .reset) s.resetCommand := by
  intro p hp
  cases p
  case wb => rfl
  case host => exact ⟨rfl, rfl, rfl⟩
  all_goals exact absurd ⟨nofun, nofun⟩ hp

/-- The parts outside the table's row and the fault record are as they were after any command. -/
theorem exec_writes {i : Instr} {s t : State} (h : exec i s = .next t) :
    s.AgreesOutside (fun p => Writes i p ∨ p = .faults) t := by
  have hrefl := State.AgreesOutside.refl s fun p => Writes i p ∨ p = .faults
  rcases exec_cases h fun hi _ _ _ => commandEffect_writes hi s with
    ⟨rfl, rfl⟩ | ⟨-, -, rfl⟩ | ⟨-, -, k, -, rfl⟩ | ⟨-, -, ht⟩ | ⟨-, -, k, u, ⟨-, -, hu, -⟩, rfl⟩
  · exact (resetCommand_writes s).mono fun p => .inl
  · exact hrefl
  · exact hrefl.takeFault (.inr rfl) k _
  · exact ht.mono fun p => .inl
  · exact (hu.mono fun p => .inl).takeFault (.inr rfl) k _

/-- One part that is not in the table's row. -/
theorem exec_samePart {i : Instr} {s t : State} (h : exec i s = .next t) {p : Part}
    (hp : p ≠ .faults) (hw : ¬ Writes i p) : s.SamePart t p :=
  exec_writes h p (not_or.2 ⟨hw, hp⟩)

/-- No command changes the configuration, the port or the record of answers. -/
theorem exec_host {i : Instr} {s t : State} (h : exec i s = .next t) :
    t.cfg = s.cfg ∧ t.port = s.port ∧ t.reply = s.reply :=
  exec_samePart (p := .host) h nofun (by cases i <;> simp)

/-- The kinds of a command's checks are those of its row of R263. -/
theorem kind_of_commandChecks (i : Instr) (s : State) : ∀ c ∈ commandChecks i s, c.2 ∈ mayRaise i := by
  cases i <;> simp [mayRaise, modeCheck, sliceChecks, moveChecks, scaleChecks, planeChecks]

/-- The fault record after a command: RESET's, as it was, or that of a fault of R263's row, which has left
every P register. -/
theorem exec_fault_cases {i : Instr} {s t : State} (h : exec i s = .next t) :
    (i = .reset ∧ t = s.resetCommand) ∨
      (t.faulted = s.faulted ∧ t.fault = s.fault ∧ t.faultInfo = s.faultInfo) ∨
      s.faulted = false ∧ ∃ (k : FaultKind) (u : State),
        t = u.takeFault k (encode i) ∧ (k = .illegal ∨ k ∈ mayRaise i) ∧ u.x = s.x := by
  rcases exec_cases h fun hi _ _ _ => commandEffect_writes hi s with
    hreset | ⟨-, -, rfl⟩ | ⟨-, hf, k, hk, rfl⟩ | ⟨hi, hf, ht⟩ | ⟨-, hf, k, u, ⟨-, hk, -, hx⟩, rfl⟩
  · exact .inl hreset
  · exact .inr (.inl ⟨rfl, rfl, rfl⟩)
  · refine .inr (.inr ⟨hf, k, s, rfl, ?_, rfl⟩)
    rcases List.mem_cons.1 hk with hk | hk
    · exact .inl (Prod.mk.inj hk).2
    · exact .inr (kind_of_commandChecks i s _ hk)
  · exact .inr (.inl (ht .faults (not_writes_faults hi)))
  · exact .inr (.inr ⟨hf, k, u, rfl, .inr hk, hx⟩)

end Sys2Proof.Machine
end

section
/-! # Encoder and decoder in step

Both sides of a coding call compute the same next A: the side below the split doubles `a + 0x10000 - z` as
often as it has leading ones, the side above doubles `z` once (R148, R149, R159, R160). What is left is that
equal bits put both engines on the same side of the same split. -/

namespace Sys2Proof.Machine

/-! ## The commands of a session that complete -/

theorem exec_acEnc_of_enc {s : State} (rd : RegNum) (c : Byte) (hf : s.faulted = false)
    (hm : s.coder.mode = .enc) : exec (.acEnc rd c) s = .next (s.encodeCtx c (s.regBit rd)) :=
  exec_of_checks nofun hf rfl (by simp [modeCheck, hm])

theorem exec_acEncp_of_enc {s : State} (rd : RegNum) (hf : s.faulted = false)
    (hm : s.coder.mode = .enc) : exec (.acEncp rd) s = .next (s.encodePass (s.regBit rd)) :=
  exec_of_checks nofun hf rfl (by simp [modeCheck, hm])

theorem exec_acEncb_of_enc {s : State} (rd : RegNum) (hf : s.faulted = false)
    (hm : s.coder.mode = .enc) : exec (.acEncb rd) s = .next (s.encodeBalanced (s.regBit rd)) :=
  exec_of_checks nofun hf rfl (by simp [modeCheck, hm])

theorem exec_acDec_of_dec {s : State} (rd : RegNum) (c : Byte) (hf : s.faulted = false)
    (hm : s.coder.mode = .dec) :
    exec (.acDec rd c) s = .next ((s.decodeCtx c).2.setReg rd (bitWord (s.decodeCtx c).1)) :=
  exec_of_checks nofun hf rfl (by simp [modeCheck, hm])

theorem exec_acDecp_of_dec {s : State} (rd : RegNum) (hf : s.faulted = false)
    (hm : s.coder.mode = .dec) :
    exec (.acDecp rd) s = .next (s.decodePass.2.setReg rd (bitWord s.decodePass.1)) :=
  exec_of_checks nofun hf rfl (by simp [modeCheck, hm])

theorem exec_acDecb_of_dec {s : State} (rd : RegNum) (hf : s.faulted = false)
    (hm : s.coder.mode = .dec) :
    exec (.acDecb rd) s = .next (s.decodeBalanced.2.setReg rd (bitWord s.decodeBalanced.1)) :=
  exec_of_checks nofun hf rfl (by simp [modeCheck, hm])

@[simp] theorem bitWord_bit (b : Bool) : (bitWord b).getLsbD 0 = b := by cases b <;> rfl

/-- The bit a decoding command reports is the bit decoded (R161). -/
theorem State.setReg_bitWord_bit (s : State) (rd : RegNum) (b : Bool) :
    ((s.setReg rd (bitWord b)).reg rd).getLsbD 0 = b := by
  rw [State.setReg_reg_self, bitWord_bit]

/-! ## A on either side of a split -/

/-- Below the split A is doubled once for each of its leading ones (R149). -/
theorem Coder.encLps_a {c : Coder} (hk : c.AssemblerOk) {z : Nat} (hz : c.a.toNat < z)
    (hz' : z ≤ c.a.toNat + 0x8000) (hz'' : z ≤ 0xFFFF) :
    (c.encLps z).a.toNat = (c.a.toNat + (0x10000 - z)) *
      2 ^ leadingOnes 16 (c.a.toNat + (0x10000 - z)) % 0x10000 := by
  have hs := c.subend.isLt
  obtain ⟨m, _, _, _, _, rfl, ha⟩ := Coder.eShifts_pushes 16 hk (c.a.toNat + (0x10000 - z))
    (sub := c.subend.toNat + (0x10000 - z)) (by omega) (by omega) (by simp) (by omega)
  exact ha

theorem Coder.decLps_a (d : Coder) (z : Nat) :
    (d.decLps z).a.toNat = (d.a.toNat + (0x10000 - z)) *
      2 ^ leadingOnes 16 (d.a.toNat + (0x10000 - z)) % 0x10000 :=
  (d.shiftIn_spec _ _ _).2.1

theorem Coder.encLps_a_eq_decLps_a {c d : Coder} (had : c.a = d.a) (hk : c.AssemblerOk) {z : Nat}
    (hz : c.a.toNat < z) (hz' : z ≤ c.a.toNat + 0x8000) (hz'' : z ≤ 0xFFFF) :
    (c.encLps z).a = (d.decLps z).a := by
  apply BitVec.eq_of_toNat_eq
  rw [Coder.encLps_a hk hz hz' hz'', Coder.decLps_a, had]

/-- Above the split A is the split doubled once, whatever it was (R148, R160). -/
theorem Coder.encMps_a_eq_decMps_a (c d : Coder) (z : Nat) : (c.encMps z).a = (d.decMps z).a := by
  apply BitVec.eq_of_toNat_eq
  have he : (c.encMps z).a.toNat = 2 * z % 0x10000 := (c.eShift_spec z _).2.2
  have hd : (d.decMps z).a.toNat = z * 2 ^ 1 % 0x10000 := (d.shiftIn_spec 1 z _).2.1
  rw [he, hd, Nat.mul_comm, Nat.pow_one]

/-! ## A after a coding call of either kind -/

theorem Coder.split_a_eq {c d : Coder} (had : c.a = d.a) (hk : c.AssemblerOk) {z : Nat}
    (hz : c.a.toNat < z) (hz' : z ≤ c.a.toNat + 0x8000) (hz'' : z ≤ 0xFFFF) :
    (c.encodeSplit z (d.decodeSplit z).1).a = (d.decodeSplit z).2.a := by
  unfold Coder.decodeSplit
  split
  · exact Coder.encLps_a_eq_decLps_a had hk hz hz' hz''
  · exact Coder.encMps_a_eq_decMps_a c d z

/-- The encoder splits where `a + prob` reaches 0x8000 and the decoder where it passes FENCE; with the bit
decoded the two agree, because Clamp leaves a split below 0x8000 where it is (R143, R150, R161). -/
theorem Coder.adaptive_a_eq {c d : Coder} (had : c.a = d.a) (ha : c.a.toNat < 0x8000)
    (hk : c.AssemblerOk) (hw : d.WindowOk) {prob : Nat} (hp : 1 ≤ prob) (hp' : prob ≤ 0x8000)
    (mps : Bool) :
    (c.encodeAdaptive prob mps (d.decodeAdaptive prob mps).1).a =
      (d.decodeAdaptive prob mps).2.a := by
  obtain ⟨-, hfence, -, -⟩ := hw
  obtain ⟨hlo, hhi, hle, -⟩ := clampSplit_bounds ha hp hp'
  unfold Coder.decodeAdaptive
  rw [← had]
  dsimp only
  split
  case isTrue hz =>
    have hlow : ¬ 0x8000 ≤ c.a.toNat + prob := by omega
    simp [Coder.encodeAdaptive, hlow]
  case isFalse hz =>
    split
    case isTrue hcode =>
      have henc : c.encodeAdaptive prob mps (!mps) =
          c.encLps (clampSplit (c.a.toNat + prob) c.a.toNat) := by simp [Coder.encodeAdaptive]
      rw [henc]
      exact Coder.encLps_a_eq_decLps_a had hk hlo (by omega) (by omega)
    case isFalse hcode =>
      have hhigh : 0x8000 ≤ c.a.toNat + prob := by
        by_contra hlow
        rw [clampSplit_low _ (by omega)] at hcode
        omega
      have henc : c.encodeAdaptive prob mps mps =
          c.encMps (clampSplit (c.a.toNat + prob) c.a.toNat) := by
        simp [Coder.encodeAdaptive, hhigh]
      rw [henc]
      exact Coder.encMps_a_eq_decMps_a c d _

/-- Settles O35: a call of each kind leaves the same A on both sides, and an adaptive one writes the same
context byte. -/
theorem encoderAndDecoderStayInStep : Obligations.EncoderAndDecoderStayInStep := by
  intro e e' d d' re rd c i j hkind hcfg hctx had hbe hbd hfe hfd hme hmd hi hj hbit
  obtain ⟨ha, -, hk, -⟩ := hbe
  obtain ⟨-, -, -, hw⟩ := hbd
  replace hk := hk hme
  replace hw := hw hmd
  simp only [List.mem_cons, Prod.mk.injEq, List.not_mem_nil, or_false] at hkind
  rcases hkind with ⟨rfl, rfl⟩ | ⟨rfl, rfl⟩ | ⟨rfl, rfl⟩
  case inl =>
    rw [exec_acEnc_of_enc re c hfe hme] at hi
    rw [exec_acDec_of_dec rd c hfd hmd] at hj
    cases hi
    cases hj
    rw [State.setReg_bitWord_bit] at hbit
    have hbyte : e.ctxAt c = d.ctxAt c := by simp only [State.ctxAt, hctx]
    have hcode : e.regBit re = (d.decodeCtx c).1 := hbit.symm
    obtain ⟨hp, hp'⟩ := prob_bounds d.cfg (d.ctxAt c)
    rw [hcode]
    constructor
    · simp only [State.encodeCtx, State.decodeCtx, State.setReg_ctx, State.setCtxAt_ctx,
        State.setCoder_ctx, hbyte, hcfg, hctx]
    · simp only [State.encodeCtx, State.setCtxAt_coder, State.setCoder_coder, hbyte, hcfg]
      exact Coder.adaptive_a_eq had ha hk hw hp hp' _
  case inr.inl =>
    rw [exec_acEncp_of_enc re hfe hme] at hi
    rw [exec_acDecp_of_dec rd hfd hmd] at hj
    cases hi
    cases hj
    rw [State.setReg_bitWord_bit] at hbit
    have hcode : e.regBit re = d.decodePass.1 := hbit.symm
    obtain ⟨-, hlo, hhi, hle⟩ := splitPass_bounds ha
    refine ⟨hctx, ?_⟩
    rw [hcode]
    simp only [State.encodePass, State.decodePass, State.setReg_coder, State.setCoder_coder, ← had]
    exact Coder.split_a_eq had hk hlo hle (by omega)
  case inr.inr =>
    rw [exec_acEncb_of_enc re hfe hme] at hi
    rw [exec_acDecb_of_dec rd hfd hmd] at hj
    cases hi
    cases hj
    rw [State.setReg_bitWord_bit] at hbit
    have hcode : e.regBit re = d.decodeBalanced.1 := hbit.symm
    obtain ⟨-, hlo, hhi, hle⟩ := splitBalanced_bounds ha
    refine ⟨hctx, ?_⟩
    rw [hcode]
    simp only [State.encodeBalanced, State.decodeBalanced, State.setReg_coder, State.setCoder_coder, ← had]
    exact Coder.split_a_eq had hk hlo hle (by omega)

end Sys2Proof.Machine
end

section
/-! # What a step keeps

A step is a wait, a command, a word that is none, or a host action, and the last two touch nothing but the
fault record, the streams of an idle coder, the port and the record of answers. So an invariant needs a proof
for the commands alone, and each unit of the engine has one lemma that says what a command can make of it. -/

namespace Sys2Proof.Machine

/-! ## The step -/

/-- A property of the state that ignores the port and the record of answers holds after a step if it holds
before, commands keep it, and *attach*, *take* and a fault entry keep it (R13, R70, R95). -/
theorem step_keeps {P : State → Prop} {s t : State} (h : step s = .next t) (hs : P s)
    (hport : ∀ u p, P u → P { u with port := p }) (hreply : ∀ u r, P u → P (u.setReply r))
    (hfault : ∀ u w, P u → u.faulted = false → P (u.takeFault .illegal w))
    (hattach : ∀ u bytes, P u → u.coder.mode ≠ .dec →
      P (u.setCoder { u.coder with input := bytes, inpos := 0 }))
    (htake : ∀ u, P u → u.coder.mode ≠ .enc → P (u.setCoder { u.coder with output := [] }))
    (hexec : ∀ rest i, P { s with port := rest } → exec i { s with port := rest } = .next t → P t) :
    P t := by
  rcases step_cases s with ⟨-, h'⟩ | ⟨w, rest, -, ⟨i, -, h'⟩ | ⟨e, -, h'⟩⟩ |
    ⟨rest, ⟨bytes, -, h'⟩ | ⟨-, h'⟩ | ⟨r, -, h', -⟩⟩
  all_goals rw [h'] at h
  case inl => cases h; exact hs
  case inr.inl.inl => exact hexec rest i (hport s rest hs) h
  all_goals
    cases h
    have hs := hport s rest hs
    generalize ({ s with port := rest } : State) = u at hs ⊢
  case inr.inl.inr =>
    unfold State.rejectWord
    cases hf : u.faulted
    · exact hfault u w hs hf
    · exact hs
  case inr.inr.inl =>
    unfold State.attach
    split
    case isTrue hm => exact hreply _ _ (hattach u bytes hs hm.1)
    case isFalse => exact hreply _ _ hs
  case inr.inr.inr.inl =>
    unfold State.take
    split
    case isTrue hm => exact hreply _ _ (htake u hs hm)
    case isFalse => exact hreply _ _ hs
  case inr.inr.inr.inr => exact hreply _ _ hs

/-! ## The coder -/

/-- AC.CLOSE leaves a coder within its bounds (R153). -/
theorem Coder.close_bounded {c : Coder} (hb : c.Bounded) : c.close.Bounded := by
  obtain ⟨ha, hin, -, -⟩ := hb
  unfold Coder.close
  cases hm : c.mode with
  | idle => exact ⟨ha, hin, fun h => by simp [hm] at h, fun h => by simp [hm] at h⟩
  | dec => exact ⟨ha, hin, nofun, nofun⟩
  | enc =>
    obtain ⟨hmode, hca, -, -, -, -, -, -, hinput, hinpos⟩ := c.closeEncoder_spec
    refine ⟨by rw [hca]; exact ha, by rw [hinpos, hinput]; exact hin, fun h => ?_, fun h => ?_⟩ <;>
      simp [hmode] at h

/-- AC.CLOSE leaves the streams but for what its flush appends to OUT, and the mode IDLE (R153). -/
theorem Coder.close_streams (c : Coder) :
    c.close.mode = .idle ∧ c.close.input = c.input ∧ ∃ out, c.close.output = c.output ++ out := by
  unfold Coder.close
  cases hm : c.mode with
  | idle => exact ⟨hm, rfl, [], by simp⟩
  | dec => exact ⟨rfl, rfl, [], by simp⟩
  | enc =>
    obtain ⟨hmode, -, -, hout, -, -, -, -, hinput, -⟩ := c.closeEncoder_spec
    exact ⟨hmode, hinput, hout⟩

/-- AC.EINIT opens a session within the encoder's bounds (R142). -/
theorem Coder.openEncoder_bounded {c : Coder} (hb : c.Bounded) : c.openEncoder.Bounded :=
  ⟨by simp [Coder.openEncoder], hb.2.1,
    fun _ => ⟨by simp [Coder.openEncoder], fun _ => by simp [Coder.openEncoder],
      by simp [Coder.openEncoder]⟩, nofun⟩

/-- AC.DINIT opens a session within the decoder's bounds (R156). -/
theorem Coder.openDecoder_bounded (c : Coder) : c.openDecoder.Bounded := c.openDecoder_spec.1

/-- AC.DINIT leaves the streams but for INPOS, and the mode DEC (R156). -/
theorem Coder.openDecoder_streams (c : Coder) :
    c.openDecoder.mode = .dec ∧ c.openDecoder.input = c.input ∧ c.openDecoder.output = c.output := by
  obtain ⟨-, hmode, -, hin, hout, -⟩ := c.openDecoder_spec
  exact ⟨hmode, hin, hout⟩

theorem Coder.reset_bounded : Coder.reset.Bounded :=
  ⟨by simp [Coder.reset], by simp [Coder.reset], nofun, nofun⟩

/-- What a command can make of the coder: a coding step, or what AC.EINIT, AC.DINIT, AC.CLOSE and RESET load
(R140 to R163). -/
theorem exec_coder_cases {i : Instr} {s t : State} (h : exec i s = .next t) :
    s.coder.Steps t.coder ∨ (i = .acEinit ∧ t.coder = s.coder.openEncoder) ∨
      (i = .acDinit ∧ t.coder = s.coder.openDecoder) ∨ (i = .acClose ∧ t.coder = s.coder.close) ∨
      (i = .reset ∧ t.coder = Coder.reset) := by
  have hsteps : (i ≠ .reset → (∀ c ∈ commandChecks i s, c.1 = true) →
      (commandEffect i s).Post (fun u => s.coder.Steps u.coder) fun _ u => s.coder.Steps u.coder) →
      i ≠ .reset → s.coder.Steps t.coder := fun heff hi =>
    exec_keeps (P := fun u => s.coder.Steps u.coder) h (fun e => absurd e hi) (Coder.Steps.refl _)
      (fun _ _ _ hu => hu) fun hi _ hc => heff hi hc
  have hloads : ∀ f : Coder → Coder, (commandEffect i s = .done (s.setCoder (f s.coder))) → i ≠ .reset →
      s.coder.Steps t.coder ∨ t.coder = f s.coder := fun f he hi =>
    exec_keeps (P := fun u => s.coder.Steps u.coder ∨ u.coder = f s.coder) h (fun e => absurd e hi)
      (.inl (Coder.Steps.refl _)) (fun _ _ _ hu => hu) fun _ _ _ => by rw [he]; exact .inr rfl
  by_cases hw : Writes i .coder
  case neg =>
    have e : t.coder = s.coder := exec_samePart (p := .coder) h nofun hw
    exact .inl (e ▸ Coder.Steps.refl _)
  case pos =>
    cases i
    case reset =>
      cases h
      exact .inr (.inr (.inr (.inr ⟨rfl, rfl⟩)))
    case acEinit => exact (hloads _ rfl nofun).imp_right fun e => .inl ⟨rfl, e⟩
    case acDinit => exact (hloads _ rfl nofun).imp_right fun e => .inr (.inl ⟨rfl, e⟩)
    case acClose => exact (hloads _ rfl nofun).imp_right fun e => .inr (.inr (.inl ⟨rfl, e⟩))
    case acEnc rd c =>
      refine .inl (hsteps (fun _ hc => ?_) nofun)
      exact s.coder.encodeAdaptive_steps (by simpa [modeCheck] using hc) _ _ _ _
    case acEncp rd =>
      refine .inl (hsteps (fun _ hc => ?_) nofun)
      exact s.coder.encodePass_steps (by simpa [modeCheck] using hc) _
    case acEncb rd =>
      refine .inl (hsteps (fun _ hc => ?_) nofun)
      exact s.coder.encodeBalanced_steps (by simpa [modeCheck] using hc) _
    case acDec rd c =>
      refine .inl (hsteps (fun _ hc => ?_) nofun)
      exact s.coder.decodeAdaptive_steps (by simpa [modeCheck] using hc) _ _ _
    case acDecp rd =>
      refine .inl (hsteps (fun _ hc => ?_) nofun)
      exact s.coder.decodePass_steps (by simpa [modeCheck] using hc)
    case acDecb rd =>
      refine .inl (hsteps (fun _ hc => ?_) nofun)
      exact s.coder.decodeBalanced_steps (by simpa [modeCheck] using hc)
    case bpcSlice rd =>
      refine .inl (hsteps (fun _ _ => ?_) nofun)
      exact bpcSlice_post rd (Coder.Steps.refl _)
        (fun _ => s.codeSlice_frame.mono (fun _ ⟨_, hu, _⟩ => hu) fun _ _ ⟨_, _, hu, _⟩ => hu) fun _ hu _ => hu
    all_goals simp at hw

/-- Settles O38: the loads of AC.EINIT, AC.DINIT, AC.CLOSE and RESET are within the bounds, and a coding step
keeps them; *attach* and *take* act on the streams of a coder that has no session to lose. -/
theorem coderBoundsAreKept : Obligations.CoderBoundsAreKept := by
  intro s t hb h
  refine step_keeps (P := fun u => u.coder.Bounded) h hb (fun _ _ hu => hu) (fun _ _ hu => hu)
    (fun _ _ hu _ => hu) (fun u bytes hu hm => ?_) (fun u hu hm => ?_) fun rest i hu hexec => ?_
  · obtain ⟨ha, -, henc, -⟩ := hu
    exact ⟨ha, Nat.zero_le _, henc, fun hd => absurd hd hm⟩
  · obtain ⟨ha, hin, -, hdec⟩ := hu
    exact ⟨ha, hin, fun he => absurd he hm, hdec⟩
  · rcases exec_coder_cases hexec with ⟨-, -, -, hkeeps⟩ | ⟨-, e⟩ | ⟨-, e⟩ | ⟨-, e⟩ | ⟨-, e⟩
    · exact hkeeps hu
    all_goals rw [e]
    · exact Coder.openEncoder_bounded hu
    · exact Coder.openDecoder_bounded _
    · exact Coder.close_bounded hu
    · exact Coder.reset_bounded

/-! ## The schedule -/

/-- What a command can make of the schedule: BPC.INIT and RESET load the initial one, and BPC.SLICE advances
one that is not done (R224, R228, R246). -/
theorem exec_sched_cases {i : Instr} {s t : State} (h : exec i s = .next t) :
    t.sched = s.sched ∨ t.sched = Schedule.initial s.cfg ∨
      (s.sched.done = false ∧ t.sched = s.sched.advance s.sched.curband) := by
  by_cases hw : Writes i .sched
  case neg => exact .inl (exec_samePart (p := .sched) h nofun hw)
  case pos =>
    refine exec_keeps (P := fun u => u.sched = s.sched ∨ u.sched = Schedule.initial s.cfg ∨
        (s.sched.done = false ∧ u.sched = s.sched.advance s.sched.curband)) h (fun _ => .inr (.inl rfl))
      (.inl rfl) (fun _ _ _ hu => hu) fun hi hwf hc => ?_
    cases i
    case reset => exact absurd rfl hi
    case bpcInit => exact .inr (.inl rfl)
    case bpcSlice rd =>
      have hsched : ∀ u : State,
          u = { s with coder := u.coder, ctx := u.ctx, cs0 := u.cs0, cs1 := u.cs1 } →
            u.sched = s.sched := fun u hu => by rw [hu]
      refine bpcSlice_post rd (.inl rfl) (fun _ => s.codeSlice_frame.mono
        (fun u hu => hsched u hu.1) fun _ u hu => .inl (hsched u hu.2.1)) fun u hu hd => ?_
      exact .inr (.inr ⟨hd, by rw [← hu]; rfl⟩)
    all_goals simp at hw

theorem Schedule.initial_onCourse (cfg : Config) : (Schedule.initial cfg).OnCourse cfg := by
  have hover : ∀ b, slicesOver (Schedule.initial cfg) b = 0 := fun b => by
    simp [slicesOver, Schedule.initial]
  refine ⟨by simp [Schedule.initial], fun i => ?_, fun b => ?_, ?_⟩
  · rw [hover, BitVec.ushiftRight_zero]; rfl
  · rw [hover, BitVec.ushiftRight_zero]; rfl
  · have hne : (Schedule.initial cfg).exhausted ≠ true := fun he => by
      have h0 : (0x4000 : BitVec 24) = 0 := ((Schedule.exhausted_iff _).1 he).1 0
      exact absurd h0 (by decide)
    exact (Bool.eq_false_iff.2 hne).symm

/-- Twenty-four halvings clear a 24-bit threshold (R7, R228). -/
theorem threshold_shift_zero (v : BitVec 24) {n : Nat} (h : 24 ≤ n) : v >>> n = 0 := by
  apply BitVec.eq_of_toNat_eq
  rw [BitVec.toNat_ushiftRight, Nat.shiftRight_eq_zero _ _ (lt_of_lt_of_le v.isLt
    (Nat.pow_le_pow_right (by decide) h))]
  rfl

/-- A schedule that is not done has bit-planes left (R229). -/
theorem Schedule.OnCourse.curbit_lt {cfg : Config} {q : Schedule} (h : q.OnCourse cfg)
    (hd : q.done = false) : q.curbit.toNat < 24 := by
  obtain ⟨-, hlo, hhi, hdone⟩ := h
  by_contra hge
  have hover : ∀ b, 24 ≤ slicesOver q b := fun b => by unfold slicesOver; omega
  have hex : q.exhausted = true := (Schedule.exhausted_iff q).2
    ⟨fun i => by rw [hlo i, threshold_shift_zero _ (hover _)],
      fun b => by rw [hhi b, threshold_shift_zero _ (hover _)]⟩
  rw [← hdone, hd] at hex
  cases hex

/-- The Advance makes one more slice of the current subband past, and of no other (R228). -/
theorem slicesOver_advancedTo {q q' : Schedule} (h : q.AdvancedTo q') (hlt : q.curbit.toNat < 24)
    {b : Nat} (hb : b < 10) :
    slicesOver q' b = slicesOver q b + if q.curband.val = b then 1 else 0 := by
  obtain ⟨-, -, hpos, -⟩ := h
  unfold slicesOver
  split at hpos
  case isTrue h9 =>
    obtain ⟨hband, hbit⟩ := hpos
    have hsucc : (q.curbit + 1).toNat = q.curbit.toNat + 1 := by
      rw [BitVec.toNat_add]
      simp
      omega
    have h9' : q.curband.val = 9 := congrArg Fin.val h9
    rw [hband, hbit, hsucc, h9', Fin.val_zero]
    split <;> split <;> split <;> omega
  case isFalse h9 =>
    obtain ⟨hband, hbit⟩ := hpos
    rw [hband, hbit]
    split <;> split <;> split <;> omega

theorem Schedule.OnCourse.advance {cfg : Config} {q : Schedule} (h : q.OnCourse cfg)
    (hd : q.done = false) : (q.advance q.curband).OnCourse cfg := by
  have hlt := h.curbit_lt hd
  obtain ⟨-, hlo, hhi, -⟩ := h
  have hadv := q.advance_spec
  have hover := fun b hb => slicesOver_advancedTo hadv hlt (b := b) hb
  generalize q.advance q.curband = q' at hadv hover ⊢
  obtain ⟨hlo', hhi', hpos, hdone'⟩ := hadv
  refine ⟨?_, fun i => ?_, fun b => ?_, ?_⟩
  · split at hpos
    · rw [hpos.2, BitVec.toNat_add]
      simp
      omega
    · rw [hpos.2]
      omega
  · rw [hlo' i, hlo i, hover 0 (by omega)]
    by_cases h0 : q.curband = 0
    · simp [h0, BitVec.shiftRight_add]
    · have h0' : q.curband.val ≠ 0 := fun e => h0 (Fin.ext e)
      simp [h0, h0']
  · rw [hhi' b, hhi b, hover _ (by omega)]
    by_cases hb : q.curband.val = b.val + 1
    · simp [hb, BitVec.shiftRight_add]
    · simp [hb]
  · rw [Bool.eq_iff_iff, Schedule.exhausted_iff, hdone', hd]
    simp

/-- Settles O45: the initial schedule is on course, and an Advance keeps it there; it happens only while the
schedule is not done, and then a bit-plane is left to go to. -/
theorem scheduleStaysOnCourse : Obligations.ScheduleStaysOnCourse := by
  intro s t hs h
  refine step_keeps (P := fun u => u.sched.OnCourse u.cfg) h hs (fun _ _ hu => hu) (fun _ _ hu => hu)
    (fun _ _ hu _ => hu) (fun _ _ hu _ => hu) (fun _ hu _ => hu) fun rest i hu hexec => ?_
  obtain ⟨hcfg, -, -⟩ := exec_host hexec
  rw [hcfg]
  rcases exec_sched_cases hexec with e | e | ⟨hd, e⟩ <;> rw [e]
  · exact hu
  · exact Schedule.initial_onCourse _
  · exact hu.advance hd

end Sys2Proof.Machine
end

section
/-! # Memories and stores

A command makes of a store one of three things: what CoefWrites to existing coefficients make of it, the store
CS.CREATE makes where there was none, or the empty store. The first is `Store.Grows`, which carries both the
shape of the store and the step form of R211. -/

namespace Sys2Proof.Machine

/-! ## What CoefWrites make of a store -/

/-- `st'` is `st` after CoefWrites to coefficients that exist (R204, R211). -/
structure Store.Grows (cfg : Config) (st st' : Store) : Prop where
  descriptor : st.SameDescriptor st'
  canonical : st'.buckets.wf (64 * st.nb.toNat) = true
  count : st.nalloc ≤ st'.nalloc
  arena : st.nalloc ≤ st.arenaLimit cfg → st'.nalloc ≤ st'.arenaLimit cfg
  allocated : ∀ blk bk, st.Allocated blk bk → st'.Allocated blk bk

theorem Store.Grows.refl (cfg : Config) {st : Store} (h : st.WellShaped) : st.Grows cfg st :=
  ⟨rfl, h.wf, le_rfl, id, fun _ _ => id⟩

theorem Store.SameDescriptor.nb_eq {st st' : Store} (h : st.SameDescriptor st') : st'.nb = st.nb := by
  unfold Store.SameDescriptor at h
  rw [h]

theorem Store.SameDescriptor.valid_eq {st st' : Store} (h : st.SameDescriptor st') :
    st'.valid = st.valid := by
  unfold Store.SameDescriptor at h
  rw [h]

theorem Store.SameDescriptor.trans {a b c : Store} (h : a.SameDescriptor b) (h' : b.SameDescriptor c) :
    a.SameDescriptor c := by
  unfold Store.SameDescriptor at *
  rw [h', h]

/-- One more CoefWrite. -/
theorem Store.Grows.coefWrite {cfg : Config} {st st1 st2 : Store} (h : st.Grows cfg st1) {blk n : Nat}
    {v : Sample} (hblk : blk < st.nb.toNat) (hn : n < 1024) (hw : st1.coefWrite cfg blk n v = some st2) :
    st.Grows cfg st2 := by
  obtain ⟨hd, hwrite, hal⟩ := Store.coefWrite_keeps hn hw
  have hnb := h.descriptor.nb_eq
  obtain ⟨hwf, hcount, harena⟩ := hwrite (hnb ▸ h.canonical) (hnb ▸ hblk)
  exact ⟨h.descriptor.trans hd, hnb ▸ hwf, h.count.trans hcount, fun hle => harena (h.arena hle),
    fun blk bk ha => hal blk bk (h.allocated blk bk ha)⟩

/-- A store keeps its shape under CoefWrites; one that is not valid has no coefficient to write. -/
theorem Store.Grows.wellShaped {cfg : Config} {st st' : Store} (h : st.Grows cfg st')
    (hs : st.WellShaped) : st'.WellShaped := by
  cases hv : st.valid
  case true => exact hs.setBuckets hv h.descriptor h.canonical
  case false =>
    have he : st = Store.empty := by
      unfold Store.WellShaped at hs
      rwa [hv, if_neg (by decide)] at hs
    subst he
    have hlen := BucketMap.length_le h.canonical
    have hnil : st'.buckets = [] := List.length_eq_zero_iff.1 (by simpa [Store.empty] using hlen)
    have hd := h.descriptor
    unfold Store.SameDescriptor at hd
    rw [hnil] at hd
    rw [hd]
    exact Store.empty_wellShaped

/-- `u` is `s` with CoefWrites to its stores and changes of other parts. -/
def State.StoresGrow (s u : State) : Prop :=
  u.cfg = s.cfg ∧ ∀ j, (s.store j).Grows s.cfg (u.store j)

theorem State.MemoriesOk.store {s : State} (h : s.MemoriesOk) (j : Bool) : (s.store j).WellShaped := by
  obtain ⟨-, -, h0, h1⟩ := h
  cases j
  · exact h0
  · exact h1

theorem State.MemoriesOk.storesGrow {s : State} (h : s.MemoriesOk) : s.StoresGrow s :=
  ⟨rfl, fun j => Store.Grows.refl s.cfg (h.store j)⟩

theorem State.StoresGrow.coefWrite {s u : State} (h : s.StoresGrow u) {i : Bool} {blk n : Nat}
    (hblk : blk < (s.store i).nb.toNat) (hn : n < 1024) (v : Sample) :
    (u.coefWrite i blk n v).Post s.StoresGrow fun _ => s.StoresGrow := by
  obtain ⟨hcfg, hst⟩ := h
  rcases u.coefWrite_cases i blk n v with ⟨st, hw, e⟩ | ⟨-, e⟩
  · rw [e]
    refine ⟨by simpa using hcfg, fun j => ?_⟩
    rw [State.setStore_store]
    split
    case isTrue hj =>
      subst hj
      exact (hst j).coefWrite hblk hn (hcfg ▸ hw)
    case isFalse => exact hst j
  · rw [e]
    exact ⟨hcfg, hst⟩

/-- A store whose dimensions are another's has as many blocks (R201). -/
theorem Store.WellShaped.nb_eq {st st' : Store} (h : st.WellShaped) (h' : st'.WellShaped)
    (hv : st.valid = true) (hv' : st'.valid = true) (hw : st.iw = st'.iw) (hh : st.ih = st'.ih) :
    st.nb = st'.nb := by
  unfold Store.WellShaped at h h'
  rw [if_pos hv] at h
  rw [if_pos hv'] at h'
  obtain ⟨-, -, -, -, hnb, -⟩ := h
  obtain ⟨-, -, -, -, hnb', -⟩ := h'
  apply BitVec.eq_of_toNat_eq
  rw [hnb, hnb', hw, hh]

/-- The blocks a slice goes over exist in the store it writes (R246). -/
theorem nb_of_sliceChecks {s : State} (hm : s.MemoriesOk) (hc : ∀ c ∈ sliceChecks s, c.1 = true)
    (i : Bool) (hi : i = true ↔ s.coder.mode = .enc) : (s.store i).nb = s.cs0.nb := by
  cases i
  case false => rfl
  case true =>
    have henc := hi.1 rfl
    obtain ⟨⟨hv0, hv1⟩, hw, hh⟩ : (s.cs0.valid = true ∧ s.cs1.valid = true) ∧ s.cs1.iw = s.cs0.iw ∧
        s.cs1.ih = s.cs0.ih := by simpa [sliceChecks, henc] using hc
    exact (hm.store true).nb_eq (hm.store false) hv1 hv0 hw hh

theorem codeSlice_storesGrow {s : State} (hm : s.MemoriesOk) (hc : ∀ c ∈ sliceChecks s, c.1 = true) :
    s.codeSlice.Post s.StoresGrow fun _ => s.StoresGrow := by
  have hpost : s.codeSlice.Post (fun u => s.StoresGrow u ∧ u.coder.mode = s.coder.mode)
      fun _ => s.StoresGrow := by
    refine State.codeSlice_post (P := fun u => s.StoresGrow u ∧ u.coder.mode = s.coder.mode)
      ⟨hm.storesGrow, rfl⟩ (fun u k b hu _ => ?_) fun u i blk n v hu hi hblk hn => ?_
    · obtain ⟨c', m', e, -, -⟩ := u.code_spec k b
      exact ⟨by rw [e]; exact hu.1, by rw [State.code_mode]; exact hu.2⟩
    · obtain ⟨hg, hmode⟩ := hu
      have hnb := nb_of_sliceChecks hm hc i (hmode ▸ hi)
      have hgrow := hg.coefWrite (i := i) (hnb ▸ hblk) hn v
      rcases u.coefWrite_cases i blk n v with ⟨st, -, e⟩ | ⟨-, e⟩ <;> rw [e] at hgrow ⊢
      · exact ⟨hgrow, by simpa using hmode⟩
      · exact hgrow
  exact hpost.mono (fun _ hu => hu.1) fun _ _ hu => hu

/-- What a command can make of a store (R200, R204 to R206). -/
inductive Store.Becomes (cfg : Config) (st : Store) : Store → Prop where
  | grown {st' : Store} (h : st.Grows cfg st') : Store.Becomes cfg st st'
  | created {w h : Nat} (hv : st.valid = false) (hw : 0 < w ∧ w ≤ 65535) (hh : 0 < h ∧ h ≤ 65535) :
    Store.Becomes cfg st (Store.create w h)
  | emptied : Store.Becomes cfg st Store.empty

theorem exec_store_becomes {i : Instr} {s t : State} (hm : s.MemoriesOk) (h : exec i s = .next t)
    (j : Bool) : (s.store j).Becomes s.cfg (t.store j) := by
  have hsame := Store.Grows.refl s.cfg (hm.store j)
  by_cases hw : Writes i (.store j)
  case neg =>
    have e : t.store j = s.store j := exec_samePart (p := .store j) h nofun hw
    rw [e]
    exact .grown hsame
  case pos =>
    refine exec_keeps (P := fun u => (s.store j).Becomes s.cfg (u.store j)) h
      (fun _ => by cases j <;> exact .emptied) (.grown hsame) (fun _ _ _ hu => hu) fun hi hwf hc => ?_
    have hgrow : ∀ u, s.StoresGrow u → (s.store j).Becomes s.cfg (u.store j) :=
      fun u hu => .grown (hu.2 j)
    cases i
    case reset => exact absurd rfl hi
    case st rd sp ra =>
      refine Effect.Post.mono (P := s.StoresGrow) (Q := fun _ => s.StoresGrow) ?_ hgrow fun _ => hgrow
      exact st_post rd sp ra (fun _ _ _ => hm.storesGrow) (fun _ _ _ => hm.storesGrow)
        (fun i blk n v hblk hn => hm.storesGrow.coefWrite hblk hn v) hm.storesGrow
    case bpcSlice rd =>
      refine Effect.Post.mono (P := s.StoresGrow) (Q := fun _ => s.StoresGrow) ?_ hgrow fun _ => hgrow
      exact bpcSlice_post rd hm.storesGrow (fun _ => codeSlice_storesGrow hm hc) fun u hu _ => hu
    case csScatter i ra =>
      refine Effect.Post.mono (P := s.StoresGrow) (Q := fun _ => s.StoresGrow) ?_ hgrow fun _ => hgrow
      exact csScatter_post i ra hm.storesGrow fun u blk n v hu hblk hn => hu.coefWrite hblk hn v
    case csCreate i ra =>
      obtain rfl : j = i := by simpa using hw
      obtain ⟨hv, hdw, hdh⟩ : (s.store j).valid = false ∧
          (0 < s.regRun ra 0 ∧ s.regRun ra 0 ≤ 65535) ∧ 0 < s.regRun ra 1 ∧ s.regRun ra 1 ≤ 65535 := by
        simpa [dimensionOk] using hc
      show (s.store j).Becomes s.cfg ((s.setStore j _).store j)
      rw [State.setStore_store, if_pos rfl]
      exact .created hv hdw hdh
    case csDestroy i =>
      obtain rfl : j = i := by simpa using hw
      show (s.store j).Becomes s.cfg ((s.setStore j _).store j)
      rw [State.setStore_store, if_pos rfl]
      exact .emptied
    all_goals simp at hw

/-- Settles O55: a store that stays valid has only been written by CoefWrites, which keep its descriptor and
its buckets; a store made or emptied by the step was not valid before or is not valid after. -/
theorem allocationIsMonotonic : Obligations.AllocationIsMonotonic := by
  intro s t i hm h hv
  refine step_keeps (P := fun u => (u.store i).valid = true → (s.store i).SameDescriptor (u.store i) ∧
      (s.store i).nalloc ≤ (u.store i).nalloc ∧
      ∀ blk bk, (s.store i).Allocated blk bk → (u.store i).Allocated blk bk) h
    (fun _ => ⟨rfl, le_rfl, fun _ _ => id⟩) (fun _ _ hu => hu) (fun _ _ hu => hu)
    (fun _ _ hu _ => hu) (fun _ _ hu _ => hu) (fun _ hu _ => hu) fun rest c _ hexec ht => ?_
  have hm' : State.MemoriesOk { s with port := rest } := hm
  have hbecomes := exec_store_becomes hm' hexec i
  generalize t.store i = st at hbecomes ht ⊢
  cases hbecomes with
  | grown hg => exact ⟨hg.descriptor, hg.count, hg.allocated⟩
  | created hnv => exact absurd (hv.symm.trans hnv) (by decide)
  | emptied => cases ht

/-! ## The context memory and the work buffer -/

theorem State.code_ctx_wf {s : State} (h : s.ctx.wf 256 = true) (k : CodeKind) (b : Bool) :
    (s.code k b).2.ctx.wf 256 = true := by
  obtain ⟨c', m', e, -, rfl | ⟨c, v, -, rfl⟩⟩ := s.code_spec k b <;> rw [e]
  · exact h
  · exact Mem.wf_write h (BitVec.isLt _) v

/-- The context memory stays canonical: its addresses are bytes (R33, R69). -/
theorem exec_ctx_wf {i : Instr} {s t : State} (h : exec i s = .next t) (hs : s.ctx.wf 256 = true) :
    t.ctx.wf 256 = true := by
  by_cases hw : Writes i .ctx
  case neg =>
    have e : t.ctx = s.ctx := exec_samePart (p := .ctx) h nofun hw
    rw [e]
    exact hs
  case pos =>
    refine exec_keeps (P := fun u => u.ctx.wf 256 = true) h (fun _ => rfl) hs (fun _ _ _ hu => hu)
      fun hi hwf hc => ?_
    cases i
    case reset => exact absurd rfl hi
    case st rd sp ra =>
      exact st_post rd sp ra (fun _ v ha => Mem.wf_write hs ha v) (fun _ _ _ => hs)
        (fun i blk n v _ _ => State.coefWrite_post blk n v (fun st => by simpa using hs) hs) hs
    case acEnc rd c => exact Mem.wf_write hs c.isLt _
    case acDec rd c => exact Mem.wf_write hs c.isLt _
    case bpcInit =>
      rw [commandEffect_bpcInit, Effect.post_done, State.setCtx_ctx]
      exact (clearBpcContexts_spec hs).1
    case bpcSlice rd =>
      refine bpcSlice_post (P := fun u => u.ctx.wf 256 = true) rd hs (fun _ => ?_) fun _ hu _ => hu
      exact State.codeSlice_post hs (fun u k b hu _ => State.code_ctx_wf hu k b)
        fun u i blk n v hu _ _ _ => State.coefWrite_post blk n v (fun st => by simpa using hu) hu
    all_goals simp at hw

/-- The rectangle of CS.SCATTER and CS.GATHER lies inside WB (R207, R209). -/
theorem rect_of_moveChecks {s : State} {i : Bool} {ra : RegNum}
    (hc : ∀ c ∈ moveChecks s i ra, c.1 = true) :
    (s.store i).valid = true ∧ (s.store i).bw.toNat ≤ s.regRun ra 1 ∧
      s.regRun ra 0 + ((s.store i).bh.toNat - 1) * s.regRun ra 1 + (s.store i).bw.toNat ≤
        s.cfg.wbWords := by
  simpa [moveChecks] using hc

/-- The rectangle of a transform lies inside WB, and its first scale is one (R181). -/
theorem rect_of_scaleChecks {s : State} {ra : RegNum} {lo hi : Byte}
    (hc : ∀ c ∈ scaleChecks s ra lo hi, c.1 = true) :
    isScale lo.toNat = true ∧ (s.rectAt ra).base + ((s.rectAt ra).h - 1) * (s.rectAt ra).rs +
      (s.rectAt ra).w ≤ s.cfg.wbWords := by
  simp [scaleChecks] at hc
  obtain ⟨⟨⟨⟨⟨⟨hlo, -⟩, -⟩, -⟩, -⟩, -⟩, hr⟩ := hc
  exact ⟨hlo, hr⟩

/-- The three planes of a colour command lie inside WB (R189). -/
theorem planes_of_planeChecks {s : State} {ra : RegNum} (hc : ∀ c ∈ planeChecks s ra, c.1 = true) :
    (s.regRun ra 0 + s.regRun ra 3 ≤ s.cfg.wbWords ∧ s.regRun ra 1 + s.regRun ra 3 ≤ s.cfg.wbWords) ∧
      s.regRun ra 2 + s.regRun ra 3 ≤ s.cfg.wbWords := by
  simpa [planeChecks] using hc

/-- The work buffer stays canonical: every command that writes it has checked its samples to lie inside
(R39, R181, R189, R209). -/
theorem exec_wb_wf {i : Instr} {s t : State} (h : exec i s = .next t) (hm : s.MemoriesOk) :
    t.wb.wf s.cfg.wbWords = true := by
  obtain ⟨-, hs, -, -⟩ := id hm
  by_cases hw : Writes i .wb
  case neg =>
    have e : t.wb = s.wb := exec_samePart (p := .wb) h nofun hw
    rw [e]
    exact hs
  case pos =>
    refine exec_keeps (P := fun u => u.wb.wf s.cfg.wbWords = true) h (fun _ => hs) hs
      (fun _ _ _ hu => hu) fun hi hwf hc => ?_
    cases i
    case st rd sp ra =>
      exact st_post rd sp ra (fun _ _ _ => hs) (fun _ v ha => Mem.wf_write hs ha v)
        (fun i blk n v _ _ => State.coefWrite_post blk n v (fun st => by simpa using hs) hs) hs
    case csGather i ra =>
      obtain ⟨hv, hrs, hr⟩ := rect_of_moveChecks hc
      exact (gather_spec (hm.store i) hv hrs hr hs).1
    case wtFwd ra lo hi =>
      obtain ⟨hlo, hr⟩ := rect_of_scaleChecks hc
      exact (forwardTransform_spec hlo hr hs).1
    case wtBwd ra lo hi =>
      obtain ⟨hlo, hr⟩ := rect_of_scaleChecks hc
      exact (inverseTransform_spec hlo hr hs).1
    case wtRgb2ycc ra =>
      obtain ⟨⟨h0, h1⟩, h2⟩ := planes_of_planeChecks hc
      exact (colourLoop_spec _ h0 h1 h2 hs).1
    case wtYcc2rgb ra =>
      obtain ⟨⟨h0, h1⟩, h2⟩ := planes_of_planeChecks hc
      exact (colourLoop_spec _ h0 h1 h2 hs).1
    all_goals simp at hw

/-! ## The invariant -/

theorem State.ArenasOk.store {s : State} (h : s.ArenasOk) (j : Bool) :
    (s.store j).nalloc ≤ (s.store j).arenaLimit s.cfg := by
  obtain ⟨h0, h1⟩ := h
  cases j
  · exact h0
  · exact h1

/-- A command keeps the shape of a store and the bound of its arena. -/
theorem exec_store_ok {i : Instr} {s t : State} (hm : s.MemoriesOk) (ha : s.ArenasOk)
    (h : exec i s = .next t) (j : Bool) :
    (t.store j).WellShaped ∧ (t.store j).nalloc ≤ (t.store j).arenaLimit s.cfg := by
  have hbecomes := exec_store_becomes hm h j
  generalize t.store j = st at hbecomes ⊢
  cases hbecomes with
  | grown hg => exact ⟨hg.wellShaped (hm.store j), hg.arena (ha.store j)⟩
  | created _ hw hh => exact ⟨(Store.create_wellShaped hw.1 hw.2 hh.1 hh.2).1, Nat.zero_le _⟩
  | emptied => exact ⟨Store.empty_wellShaped, Nat.zero_le _⟩

theorem exec_memories_ok {i : Instr} {s t : State} (hm : s.MemoriesOk) (ha : s.ArenasOk)
    (h : exec i s = .next t) : t.MemoriesOk ∧ t.ArenasOk := by
  obtain ⟨hcfg, -, -⟩ := exec_host h
  obtain ⟨hshape0, harena0⟩ := exec_store_ok hm ha h false
  obtain ⟨hshape1, harena1⟩ := exec_store_ok hm ha h true
  refine ⟨⟨exec_ctx_wf h hm.1, ?_, hshape0, hshape1⟩, ?_, ?_⟩
  · rw [hcfg]
    exact exec_wb_wf h hm
  · rw [hcfg]
    exact harena0
  · rw [hcfg]
    exact harena1

/-- Settles O56: host actions and faults touch no memory, and a command keeps each of them well formed. -/
theorem memoriesStayWellFormed : Obligations.MemoriesStayWellFormed := by
  intro s t hm ha h
  exact step_keeps (P := fun u => u.MemoriesOk ∧ u.ArenasOk) h ⟨hm, ha⟩ (fun _ _ hu => hu)
    (fun _ _ hu => hu) (fun _ _ hu _ => hu) (fun _ _ hu _ => hu) (fun _ hu _ => hu)
    fun _ _ ⟨hm, ha⟩ hexec => exec_memories_ok hm ha hexec

end Sys2Proof.Machine
end

section
/-! # Registers, units and the fault record

The frames of `Writes`, read off for each command, and what follows for the fault record from the kinds of
fault a command can raise (R263). -/

namespace Sys2Proof.Machine

/-! ## The host's actions -/

theorem State.rejectWord_x (s : State) (w : Word) : (s.rejectWord w).x = s.x := by
  unfold State.rejectWord
  split <;> rfl

theorem State.attach_x (s : State) (bytes : List Byte) : (s.attach bytes).x = s.x := by
  unfold State.attach
  split <;> rfl

theorem State.take_x (s : State) : s.take.x = s.x := by
  unfold State.take
  split <;> rfl

/-- A step that executes no command writes no P register (R22). -/
theorem step_x_of_no_command {s t : State} (h : step s = .next t)
    (hno : ¬ ∃ w rest i, s.port = .command w :: rest ∧ decode w = .ok i) : t.x = s.x := by
  rcases step_cases s with ⟨-, h'⟩ | ⟨w, rest, hport, ⟨i, hi, -⟩ | ⟨e, -, h'⟩⟩ |
    ⟨rest, ⟨bytes, -, h'⟩ | ⟨-, h'⟩ | ⟨r, -, h', -⟩⟩
  case inr.inl.inl => exact absurd ⟨w, rest, i, hport, hi⟩ hno
  all_goals
    rw [h'] at h
    cases h
  case inl => rfl
  case inr.inl.inr => exact State.rejectWord_x _ _
  case inr.inr.inl => exact State.attach_x _ _
  case inr.inr.inr.inl => exact State.take_x _
  case inr.inr.inr.inr => rfl

/-! ## The P registers -/

theorem exec_x_eq {i : Instr} {s t : State} (h : exec i s = .next t) (hw : ∀ r, ¬ Writes i (.reg r)) :
    t.x = s.x :=
  (exec_writes h).x_eq fun r => not_or.2 ⟨hw r, nofun⟩

theorem exec_reg_eq {i : Instr} {s t : State} (h : exec i s = .next t) {r : RegNum}
    (hw : ¬ Writes i (.reg r)) : t.reg r = s.reg r :=
  exec_samePart (p := .reg r) h nofun hw

/-- A command that faults writes no P register (R22). -/
theorem exec_x_of_fault {i : Instr} {s t : State} (h : exec i s = .next t) (hf : s.faulted = false)
    (ht : t.faulted = true) : t.x = s.x := by
  rcases exec_fault_cases h with ⟨-, rfl⟩ | ⟨e, -, -⟩ | ⟨-, k, u, rfl, -, hx⟩
  · cases ht
  · rw [e, hf] at ht
    cases ht
  · exact hx

/-- Settles O10: the register part of the table of `Writes`, and the fault that has written no register. -/
theorem writersOfRegisters : Obligations.WritersOfRegisters := by
  refine ⟨rfl, fun s t h hno => step_x_of_no_command h hno, fun i s t h => ⟨exec_x_of_fault h, ?_⟩⟩
  cases i
  case li | lui | ld | acDec | acDecp | acDecb | bpcSlice =>
    exact fun r hr => exec_reg_eq h (by simp [hr])
  case reset =>
    cases h
    rfl
  all_goals exact exec_x_eq h fun r => by simp

/-! ## The units -/

/-- Settles O11: each clause is a column of the table of `Writes`. -/
theorem writersOfEachUnit : Obligations.WritersOfEachUnit := by
  intro i s t h
  have hcoder : ¬ Writes i .coder → t.coder = s.coder := exec_samePart (p := .coder) h nofun
  have hctx : ¬ Writes i .ctx → t.ctx = s.ctx := exec_samePart (p := .ctx) h nofun
  have hsched : ¬ Writes i .sched → t.sched = s.sched := exec_samePart (p := .sched) h nofun
  have hstore : ∀ j, ¬ Writes i (.store j) → t.store j = s.store j :=
    fun j => exec_samePart (p := .store j) h nofun
  have hwb : ¬ Writes i .wb → t.wb = s.wb := exec_samePart (p := .wb) h nofun
  obtain ⟨-, -, hreply⟩ := exec_host h
  refine ⟨?_, ?_, ?_, ?_, ?_, hreply⟩
  · cases i
    case acEinit | acDinit | acEnc | acDec | acEncp | acDecp | acEncb | acDecb | acClose | bpcSlice
        | reset => exact trivial
    all_goals exact hcoder (by simp)
  · cases i
    case acEnc | acDec | st | bpcInit | bpcSlice | reset => exact trivial
    all_goals exact hctx (by simp)
  · cases i
    case bpcInit | bpcSlice | reset => exact trivial
    all_goals exact hsched (by simp)
  · cases i
    case st | bpcSlice | reset => exact trivial
    case csCreate j _ | csDestroy j | csScatter j _ => exact hstore (!j) (by simp)
    all_goals exact ⟨hstore false (by simp), hstore true (by simp)⟩
  · cases i
    case st | wtFwd | wtBwd | wtRgb2ycc | wtYcc2rgb | csGather => exact trivial
    all_goals exact hwb (by simp)

/-! ## The fault record -/

/-- The engine raises every kind but FormatError, and these are their codes (R261, R262). -/
theorem faultWord_mem {k : FaultKind} (hk : k ≠ .format) :
    faultWord k ∈ ([0x0002, 0x0103, 0x0203, 0x0303, 0x0004, 0x0005] : List (BitVec 16)) := by
  cases k
  case format => exact absurd rfl hk
  all_goals decide

theorem format_not_mem_mayRaise (i : Instr) : FaultKind.format ∉ mayRaise i := by
  cases i <;> simp [mayRaise]

theorem State.FaultRecordOk.takeFault (u : State) {k : FaultKind} (hk : k ≠ .format) (w : Word) :
    (u.takeFault k w).FaultRecordOk := by
  unfold State.FaultRecordOk
  rw [if_pos (u.takeFault_faulted k w)]
  exact faultWord_mem hk

theorem State.FaultRecordOk.congr {s t : State} (h : s.FaultRecordOk) (hf : t.faulted = s.faulted)
    (hk : t.fault = s.fault) (hw : t.faultInfo = s.faultInfo) : t.FaultRecordOk := by
  unfold State.FaultRecordOk at *
  rwa [hf, hk, hw]

theorem exec_faultRecord_ok {i : Instr} {s t : State} (hs : s.FaultRecordOk) (h : exec i s = .next t) :
    t.FaultRecordOk := by
  rcases exec_fault_cases h with ⟨-, rfl⟩ | ⟨hf, hk, hw⟩ | ⟨-, k, u, rfl, hk, -⟩
  · exact ⟨rfl, rfl⟩
  · exact hs.congr hf hk hw
  · refine State.FaultRecordOk.takeFault u ?_ _
    rintro rfl
    rcases hk with hk | hk
    · cases hk
    · exact format_not_mem_mayRaise i hk

/-- Settles O15: the record changes by RESET, which clears it, and by a fault of a kind the engine raises. -/
theorem faultRecordIsKept : Obligations.FaultRecordIsKept := by
  intro s t hs h
  exact step_keeps h hs (fun _ _ hu => hu) (fun _ _ hu => hu)
    (fun u w _ _ => State.FaultRecordOk.takeFault u (k := .illegal) nofun w) (fun _ _ hu _ => hu) (fun _ hu _ => hu)
    fun _ _ hu hexec => exec_faultRecord_ok hu hexec

/-! ## The modes -/

/-- A legal command that a check stops. -/
theorem exec_of_failing_check {i : Instr} {s : State} {k : FaultKind} (hi : i ≠ .reset)
    (hf : s.faulted = false) (hk : firstFault ((i.wellFormed, .illegal) :: commandChecks i s) = some k) :
    exec i s = .next (s.takeFault k (encode i)) := by
  rw [exec_eq_runCommand hi, runCommand_stop _ hf hk]

/-- What a command that takes no fault leaves is what its effect ends in. -/
theorem exec_completed {i : Instr} {s t : State} {P : State → Prop} {Q : FaultKind → State → Prop}
    (h : exec i s = .next t) (hi : i ≠ .reset) (hf : s.faulted = false) (ht : t.faulted = false)
    (heff : (commandEffect i s).Post P Q) : P t := by
  rcases exec_cases h fun _ _ _ _ => heff with
    ⟨e, -⟩ | ⟨-, hs, -⟩ | ⟨-, -, k, -, rfl⟩ | ⟨-, -, hP⟩ | ⟨-, -, k, u, -, rfl⟩
  · exact absurd e hi
  · rw [hf] at hs
    cases hs
  · cases ht
  · exact hP
  · cases ht

/-- Whether a command is accepted in a mode; `none` for one that does not ask (R140). -/
@[simp] def acceptedIn : Instr → AcMode → Option Bool
  | .acEinit, m | .acDinit, m => some (m = .idle)
  | .acEnc _ _, m | .acEncp _, m | .acEncb _, m => some (m = .enc)
  | .acDec _ _, m | .acDecp _, m | .acDecb _, m => some (m = .dec)
  | .acClose, m | .bpcSlice _, m => some (m ≠ .idle)
  | _, _ => none

/-- A mode that is not accepted is the first check to fail (R97, R140). -/
theorem firstFault_of_not_accepted {i : Instr} {s : State}
    (h : acceptedIn i s.coder.mode = some false) :
    firstFault ((i.wellFormed, .illegal) :: commandChecks i s) = some .logicMode := by
  cases i
  case acEinit | acDinit | acEnc | acDec | acEncp | acDecp | acEncb | acDecb | acClose | bpcSlice =>
    simp at h
    simp [Instr.wellFormed, modeCheck, sliceChecks, h]
  all_goals cases h

/-- Only a mode that is not accepted makes the check of the mode fail (R140). -/
theorem not_accepted_of_check {i : Instr} {s : State}
    (h : (false, .logicMode) ∈ (i.wellFormed, .illegal) :: commandChecks i s) :
    acceptedIn i s.coder.mode = some false := by
  cases i
  case acEinit | acDinit | acEnc | acDec | acEncp | acDecp | acEncb | acDecb | acClose | bpcSlice =>
    simpa [modeCheck, sliceChecks] using h
  all_goals
    simp [moveChecks, scaleChecks, planeChecks] at h

theorem faultWord_eq_logicMode {k : FaultKind} (h : faultWord k = 0x0103) : k = .logicMode := by
  cases k
  case logicMode => rfl
  all_goals exact absurd h (by decide)

/-- No command in an accepted mode takes the fault of the mode (R140). -/
theorem exec_fault_of_accepted {i : Instr} {s t : State} (h : exec i s = .next t)
    (hf : s.faulted = false) (hok : acceptedIn i s.coder.mode ≠ some false) (ht : t.faulted = true) :
    t.fault ≠ 0x0103 := by
  intro hword
  rcases exec_cases h fun hi _ _ _ => commandEffect_writes hi s with
    ⟨-, rfl⟩ | ⟨-, hs, -⟩ | ⟨-, -, k, hk, rfl⟩ | ⟨hi, -, hP⟩ | ⟨-, -, k, u, ⟨hk, -⟩, rfl⟩
  · cases ht
  · rw [hf] at hs
    cases hs
  · obtain rfl := faultWord_eq_logicMode hword
    exact hok (not_accepted_of_check hk)
  · obtain ⟨e, -, -⟩ := hP .faults (not_writes_faults hi)
    rw [e, hf] at ht
    cases ht
  · obtain rfl := faultWord_eq_logicMode hword
    rcases hk with hk | hk <;> cases hk

/-- Settles O28: the mode check is the first of a command that has one, and the mode is what the coder was
loaded with or what a coding step keeps. -/
theorem coderModes : Obligations.CoderModes := by
  intro i s hf accepted
  have hacc : accepted = acceptedIn i s.coder.mode := by cases i <;> rfl
  rw [hacc]
  refine ⟨fun h => ?_, fun h t ht => exec_fault_of_accepted ht hf h, fun t h ht => ?_⟩
  · have hi : i ≠ .reset := by
      rintro rfl
      cases h
    exact exec_of_failing_check hi hf (firstFault_of_not_accepted h)
  · cases i
    case acEinit =>
      exact exec_completed (P := fun u => u.coder.mode = .enc) (Q := fun _ _ => True) h nofun hf ht rfl
    case acDinit =>
      exact exec_completed (P := fun u => u.coder.mode = .dec) (Q := fun _ _ => True) h nofun hf ht
        s.coder.openDecoder_streams.1
    case acClose =>
      exact exec_completed (P := fun u => u.coder.mode = .idle) (Q := fun _ _ => True) h nofun hf ht
        s.coder.close_streams.1
    case reset =>
      cases h
      rfl
    all_goals
      rcases exec_coder_cases h with hsteps | ⟨hi, -⟩ | ⟨hi, -⟩ | ⟨hi, -⟩ | ⟨hi, -⟩
      · exact hsteps.1
      all_goals cases hi

end Sys2Proof.Machine
end

section
/-! # The streams

OUT is appended to by coding steps and by the flush of AC.CLOSE; the words that empty it are the one word of
AC.EINIT and the one word of RESET. -/

namespace Sys2Proof

/-- A word of format Z is its opcode and zeros (R92). -/
theorem word_of_formatZ {w : Word} {i j : Instr} (h : formatZ w i = .ok j) :
    i = j ∧ w = packWord (opField w) 0 0 0 := by
  obtain ⟨hzero, -, hij⟩ := acceptWord_eq_ok.1 h
  simp only [Bool.and_eq_true, beq_iff_eq] at hzero
  obtain ⟨⟨hrd, hra⟩, himm⟩ := hzero
  refine ⟨hij, ?_⟩
  conv_lhs => rw [← packWord_fields w, hrd, hra, himm]

theorem opField_eq_of_toNat {w : Word} {n : Nat} (h : (opField w).toNat = n) :
    opField w = BitVec.ofNat 8 n := by
  rw [← h, BitVec.ofNat_toNat, BitVec.setWidth_eq]

/-- AC.EINIT has one word, and so has RESET (R94, R98). -/
theorem eq_encode_of_decode {w : Word} {i : Instr} (hi : i = .acEinit ∨ i = .reset)
    (h : decode w = .ok i) : w = encode i := by
  unfold decode at h
  split at h
  case h_6 hop | h_7 hop =>
    obtain ⟨rfl, hw⟩ := word_of_formatZ h
    rw [hw, opField_eq_of_toNat hop]
    rfl
  all_goals
    rcases hi with rfl | rfl <;>
      simp [formatZ, formatI, formatM, formatC, formatR, formatS, formatS0, formatW, formatK,
        acceptWord_eq_ok] at h

end Sys2Proof

namespace Sys2Proof.Machine

theorem State.rejectWord_coder (s : State) (w : Word) : (s.rejectWord w).coder = s.coder := by
  unfold State.rejectWord
  split <;> rfl

theorem State.attach_output (s : State) (bytes : List Byte) :
    (s.attach bytes).coder.output = s.coder.output := by
  unfold State.attach
  split <;> rfl

/-- *take* empties OUT or is refused, and leaves IN (R70). -/
theorem State.take_streams (s : State) :
    (s.take.coder.output = [] ∨ s.take.coder.output = s.coder.output) ∧
      s.take.coder.input = s.coder.input := by
  unfold State.take
  split
  · exact ⟨.inl rfl, rfl⟩
  · exact ⟨.inr rfl, rfl⟩

/-- Settles O36: what the step does to the coder, by the host's action or the command. -/
theorem streamsAreAppendOnly : Obligations.StreamsAreAppendOnly := by
  intro s t h
  have appended : t.coder.output = s.coder.output → ∃ out, t.coder.output = s.coder.output ++ out :=
    fun e => ⟨[], by rw [e, List.append_nil]⟩
  rcases step_cases s with ⟨-, h'⟩ | ⟨w, rest, hport, ⟨i, hi, h'⟩ | ⟨e, -, h'⟩⟩ |
    ⟨rest, ⟨bytes, hport, h'⟩ | ⟨hport, h'⟩ | ⟨r, -, h', -⟩⟩
  all_goals rw [h'] at h
  case inr.inl.inl =>
    rcases exec_coder_cases h with ⟨-, hin, hout, -⟩ | ⟨rfl, e⟩ | ⟨-, e⟩ | ⟨-, e⟩ | ⟨rfl, e⟩
    · exact ⟨.inl hout, .inl hin⟩
    · obtain rfl : w = 0x10000000 := eq_encode_of_decode (.inl rfl) hi
      exact ⟨.inr ⟨by rw [e]; rfl, rest, .inr (.inl hport)⟩, .inl (by rw [e]; rfl)⟩
    · obtain ⟨-, hin, hout⟩ := s.coder.openDecoder_streams
      exact ⟨.inl (appended (by rw [e]; exact hout)), .inl (by rw [e]; exact hin)⟩
    · obtain ⟨-, hin, hout⟩ := s.coder.close_streams
      rw [e]
      exact ⟨.inl hout, .inl hin⟩
    · obtain rfl : w = 0x0F000000 := eq_encode_of_decode (.inr rfl) hi
      exact ⟨.inr ⟨by rw [e]; rfl, rest, .inr (.inr hport)⟩, .inr ⟨rest, .inr hport⟩⟩
  all_goals cases h
  case inl => exact ⟨.inl (appended rfl), .inl rfl⟩
  case inr.inl.inr =>
    have hcoder := State.rejectWord_coder { s with port := rest } w
    exact ⟨.inl (appended (congrArg Coder.output hcoder)), .inl (congrArg Coder.input hcoder)⟩
  case inr.inr.inl =>
    exact ⟨.inl (appended (State.attach_output _ _)), .inr ⟨rest, .inl ⟨bytes, hport⟩⟩⟩
  case inr.inr.inr.inl =>
    obtain ⟨hout, hin⟩ := State.take_streams { s with port := rest }
    exact ⟨hout.symm.imp appended fun e => ⟨e, rest, .inl hport⟩, .inl hin⟩
  case inr.inr.inr.inr => exact ⟨.inl (appended rfl), .inl rfl⟩

/-! # Reset -/

/-- The values of R42, for every configuration, work buffer and pair of ports. -/
theorem State.resetWith_values (cfg : Config) (wb : Mem 16) (port : List HostAction) (reply : Reply)
    (r : RegNum) (c : Byte) (i : Bool) :
    (State.resetWith cfg wb port reply).reg r = 0 ∧ (State.resetWith cfg wb port reply).ctxAt c = 0 ∧
      (State.resetWith cfg wb port reply).store i = Store.empty := by
  refine ⟨Vector.getElem_replicate _, rfl, ?_⟩
  cases i <;> rfl

theorem State.reset_eq_resetWith :
    State.reset = State.resetWith State.reset.cfg State.reset.wb State.reset.port State.reset.reply := rfl

/-- Settles O16: both resets are `State.resetWith`. -/
theorem resetValues : Obligations.ResetValues := by
  refine ⟨⟨_, rfl, Mem.wf_ofCells _ _⟩, fun s => ⟨_, exec_reset s, rfl, rfl⟩, fun t ht => ?_⟩
  have hreset : ∃ cfg wb port reply, t = State.resetWith cfg wb port reply := by
    rcases ht with rfl | ⟨s, h⟩
    · exact ⟨_, _, _, _, State.reset_eq_resetWith⟩
    · cases h
      exact ⟨s.cfg, s.wb, s.port, s.reply, rfl⟩
  obtain ⟨cfg, wb, port, reply, rfl⟩ := hreset
  have hvalues := State.resetWith_values cfg wb port reply
  refine ⟨fun r => (hvalues r 0 false).1, rfl, rfl, rfl, rfl, fun c => (hvalues 0 c false).2.1, rfl, rfl,
    rfl, rfl, rfl, fun i => ?_⟩
  rw [(hvalues 0 0 i).2.2]
  exact ⟨rfl, rfl, rfl, rfl, rfl, rfl, rfl, rfl⟩

/-- Settles O17: the coder, the schedule and the stores by the lemma that each unit's initial value is sound,
the work buffer because a list of writes leaves a canonical memory. -/
theorem resetMeetsTheInvariants : Obligations.ResetMeetsTheInvariants :=
  ⟨Coder.reset_bounded,
    ⟨rfl, Mem.wf_ofCells _ _, Store.empty_wellShaped, Store.empty_wellShaped⟩,
    ⟨Nat.zero_le _, Nat.zero_le _⟩, Schedule.initial_onCourse _, ⟨rfl, rfl⟩⟩

end Sys2Proof.Machine
end

section
/-! # Control registers

One lemma says what LD makes of a register of space CSR; what is left is the table of the registers (R26). -/

namespace Sys2Proof.Machine

/-! ## LD from space CSR -/

theorem State.memRead_csr (s : State) (a : Nat) : s.memRead 0 a = s.csrRead a := rfl

/-- LD from an address that is a register (R63, R124). -/
theorem ld_csr_reads {s : State} (rd ra : RegNum) (hf : s.faulted = false) {v : Word}
    (h : s.csrRead (s.reg ra).toNat = some v) :
    ∃ t, exec (.ld rd 0 ra) s = .next t ∧ s.SameButRegisters t ∧ (t.reg rd).toNat = v.toNat ∧
      ∀ r, r ≠ rd → t.reg r = s.reg r := by
  have heff : commandEffect (.ld rd 0 ra) s = .done (s.setReg rd v) := by
    rw [commandEffect_ld, State.memRead_csr, h]
    rfl
  refine ⟨s.setReg rd v, ?_, rfl, by rw [State.setReg_reg_self], fun r hr => State.setReg_reg_ne s v hr⟩
  rw [exec_of_checks (i := .ld rd 0 ra) nofun hf rfl (by simp), heff, Effect.settle_done]

/-- LD from an address that is no register (R63, R124). -/
theorem ld_csr_faults {s : State} (rd ra : RegNum) (hf : s.faulted = false)
    (h : s.csrRead (s.reg ra).toNat = none) :
    exec (.ld rd 0 ra) s = .next (s.takeFault .address (encode (.ld rd 0 ra))) := by
  have heff : commandEffect (.ld rd 0 ra) s = .stop .address s := by
    rw [commandEffect_ld, State.memRead_csr, h]
    rfl
  rw [exec_of_checks (i := .ld rd 0 ra) nofun hf rfl (by simp), heff, Effect.settle_stop]

/-! ## The registers -/

/-- A register of at most 32 bits is shown zero-extended (R26). -/
theorem zeroExtended_toNat {n : Nat} (v : BitVec n) (h : n ≤ 32) : (v.setWidth 32).toNat = v.toNat :=
  BitVec.toNat_setWidth_of_le h

theorem saturate32_toNat (n : Nat) : (saturate32 n).toNat = min n (2 ^ 32 - 1) := by
  unfold saturate32
  rw [BitVec.toNat_ofNat]
  omega

/-- STATUS as a number, its bit of FAULTED being 0 where a command executes (R26, R271). -/
theorem State.status_toNat {s : State} (hf : s.faulted = false) :
    s.status.toNat = (modeBits s.coder.mode).toNat + 4 * s.sched.done.toNat + 8 * s.cs0.valid.toNat +
      16 * s.cs1.valid.toNat := by
  unfold State.status
  rw [hf]
  cases s.cs1.valid <;> cases s.cs0.valid <;> cases s.sched.done <;> cases s.coder.mode <;> rfl

/-- The schedule's registers stand below 0x50 (R26). -/
theorem State.csrRead_sched (s : State) {a : Nat} (h : 0x20 ≤ a) (h' : a < 0x50) :
    s.csrRead a = s.sched.csr a := by
  unfold State.csrRead
  rw [if_neg (by omega), if_neg (by omega), if_neg (by omega), if_neg (by omega), if_neg (by omega),
    if_pos h']

/-- QLO stands at 0x30 to 0x3F (R26). -/
theorem State.csrRead_qlo (s : State) (i : Fin 16) :
    s.csrRead (0x30 + i.val) = some (s.sched.qlo[i].setWidth 32) := by
  have hi := i.isLt
  rw [s.csrRead_sched (by omega) (by omega)]
  unfold Schedule.csr
  simp [show ¬ 0x30 + i.val = 0x20 by omega, show ¬ 0x30 + i.val = 0x21 by omega,
    show 0x30 + i.val < 0x40 by omega]

/-- QHI stands at 0x41 to 0x49 (R26). -/
theorem State.csrRead_qhi (s : State) (b : Fin 9) :
    s.csrRead (0x41 + b.val) = some (s.sched.qhi[b].setWidth 32) := by
  have hb := b.isLt
  rw [s.csrRead_sched (by omega) (by omega)]
  unfold Schedule.csr
  simp [show ¬ 0x41 + b.val = 0x20 by omega, show ¬ 0x41 + b.val = 0x21 by omega,
    show ¬ 0x41 + b.val < 0x40 by omega, show 0x30 ≤ 0x41 + b.val by omega]

/-- The six registers of a store stand from 0x50 for CS0 and from 0x58 for CS1 (R26). -/
theorem State.csrRead_store (s : State) (i : Bool) {k : Nat} (hk : k < 6) :
    s.csrRead ((if i then 0x58 else 0x50) + k) = (s.store i).csr k := by
  cases i <;> interval_cases k <;> rfl

/-! ## The holes -/

/-- The addresses of space CSR that are no register (R26). -/
def csrHole (a : Nat) : Prop :=
  a = 0x40 ∨ (0x03 ≤ a ∧ a ≤ 0x0F) ∨ (0x1D ≤ a ∧ a ≤ 0x1F) ∨ (0x22 ≤ a ∧ a ≤ 0x2F) ∨
    (0x4A ≤ a ∧ a ≤ 0x4F) ∨ a = 0x56 ∨ a = 0x57 ∨ 0x5E ≤ a

theorem Store.csr_none (st : Store) {k : Nat} (h : 6 ≤ k) : st.csr k = none := by
  obtain ⟨n, rfl⟩ := Nat.exists_eq_add_of_le' h
  rfl

theorem State.csrRead_hole (s : State) {a : Nat} (h : csrHole a) : s.csrRead a = none := by
  rcases h with rfl | ⟨h, h'⟩ | ⟨h, h'⟩ | ⟨h, h'⟩ | ⟨h, h'⟩ | rfl | rfl | h
  · rfl
  · interval_cases a <;> rfl
  · interval_cases a <;> rfl
  · interval_cases a <;> rfl
  · interval_cases a <;> rfl
  · rfl
  · rfl
  · have hstore : s.csrRead a = s.cs1.csr (a - 0x58) := by
      unfold State.csrRead
      rw [if_neg (by omega), if_neg (by omega), if_neg (by omega), if_neg (by omega), if_neg (by omega),
        if_neg (by omega), if_neg (by omega)]
    rw [hstore, Store.csr_none _ (by omega)]

/-- Settles O23: `ld_csr_reads` at each register of the table, `ld_csr_faults` at each hole. -/
theorem loadFromControlRegisters : Obligations.LoadFromControlRegisters := by
  intro s rd ra hf reads mode
  have read : ∀ {a v : Nat} (w : Word), s.csrRead a = some w → w.toNat = v → reads a v := by
    intro a v w hw hv ha
    subst hv
    exact ld_csr_reads rd ra hf (ha ▸ hw)
  have narrow : ∀ {a n : Nat} (v : BitVec n), s.csrRead a = some (v.setWidth 32) → n ≤ 32 →
      reads a v.toNat := fun v h hn => read _ h (zeroExtended_toNat v hn)
  have count : ∀ {a n : Nat}, s.csrRead a = some (saturate32 n) → reads a (min n (2 ^ 32 - 1)) :=
    fun h => read _ h (saturate32_toNat _)
  have hmode : (modeBits s.coder.mode).toNat = mode := by
    unfold mode
    cases s.coder.mode <;> rfl
  have store : ∀ (i : Bool) {k n : Nat} (v : BitVec n), k < 6 →
      (s.store i).csr k = some (v.setWidth 32) → n ≤ 32 →
      reads ((if i then 0x58 else 0x50) + k) v.toNat :=
    fun i _ _ v hk h hn => narrow v ((s.csrRead_store i hk).trans h) hn
  refine ⟨read s.status rfl (by rw [State.status_toNat hf, hmode]), narrow _ rfl (by decide),
    read _ rfl rfl, narrow _ rfl (by decide), narrow _ rfl (by decide), narrow _ rfl (by decide),
    count rfl, narrow _ rfl (by decide), narrow _ rfl (by decide), narrow _ rfl (by decide),
    narrow _ rfl (by decide), narrow _ rfl (by decide), read _ rfl rfl, narrow _ rfl (by decide),
    count rfl, count rfl, narrow _ rfl (by decide), ?_, fun i => narrow _ (s.csrRead_qlo i) (by decide),
    fun b => narrow _ (s.csrRead_qhi b) (by decide), fun i => ?_, fun h => ?_⟩
  · refine read _ rfl ?_
    rw [BitVec.toNat_ofNat]
    omega
  · refine ⟨store i (k := 0) _ (by decide) rfl (by decide), store i _ (by decide) rfl (by decide),
      store i _ (by decide) rfl (by decide), store i _ (by decide) rfl (by decide),
      store i _ (by decide) rfl (by decide), fun hlt => ?_⟩
    refine read _ ((s.csrRead_store i (k := 5) (by decide)).trans rfl) ?_
    rw [BitVec.toNat_ofNat]
    omega
  · exact ld_csr_faults rd ra hf (s.csrRead_hole h)

end Sys2Proof.Machine
end

section
/-! # The memories

LD and ST stop at no check, so what a space holds at the address is all there is to say of them (R62); the
equations of MemRead, MemWrite and CoefWrite are then read off for each space. -/

namespace Sys2Proof.Machine

/-! ## LD -/

/-- LD of an assigned space is decided by MemRead alone (R62, R124). -/
theorem exec_ld {s : State} (rd ra : RegNum) {sp : BitVec 4} (hf : s.faulted = false)
    (hsp : spaceAssigned sp = true) :
    exec (.ld rd sp ra) s = .next ((s.memRead sp (s.reg ra).toNat).elim
      (s.takeFault .address (encode (.ld rd sp ra))) fun v => s.setReg rd v) := by
  rw [exec_of_checks (i := .ld rd sp ra) nofun hf hsp (by simp), commandEffect_ld]
  cases s.memRead sp (s.reg ra).toNat <;> rfl

/-- LD from a space that has an element at the address exactly where `present` holds. -/
theorem ld_loads {s : State} (rd ra : RegNum) {sp : BitVec 4} {present : Prop} [Decidable present]
    {word : Word} {v : Int} (hf : s.faulted = false) (hsp : spaceAssigned sp = true)
    (hread : s.memRead sp (s.reg ra).toNat = if present then some word else none)
    (hv : word.toInt = v) :
    (present → ∃ t, exec (.ld rd sp ra) s = .next t ∧ s.SameButRegisters t ∧
        (t.reg rd).toInt = v ∧ ∀ r, r ≠ rd → t.reg r = s.reg r) ∧
      (¬ present → exec (.ld rd sp ra) s =
        .next (s.takeFault .address (encode (.ld rd sp ra)))) := by
  rw [exec_ld rd ra hf hsp, hread]
  constructor
  · intro hp
    rw [if_pos hp]
    exact ⟨s.setReg rd word, rfl, rfl, by rw [State.setReg_reg_self, hv],
      fun r hr => State.setReg_reg_ne s word hr⟩
  · intro hp
    rw [if_neg hp]
    rfl

/-- A context byte is loaded zero-extended (R62). -/
theorem toInt_zeroExtended (b : Byte) : (b.setWidth 32).toInt = b.toNat := by
  have hb := zeroExtended_toNat b (by decide)
  rw [BitVec.toInt_eq_toNat_of_lt (by omega), hb]

/-- A sample or coefficient is loaded sign-extended (R62). -/
theorem toInt_signExtended (v : Sample) : (v.signExtend 32).toInt = v.toInt :=
  BitVec.toInt_signExtend_of_le (by decide)

/-- Settles O22: MemRead of the space, and how the element it finds is extended to a word. -/
theorem loadFromMemories : Obligations.LoadFromMemories := by
  intro s rd ra hf a loads
  exact ⟨ld_loads rd ra hf rfl (s.memRead_ctx a) (toInt_zeroExtended _),
    ld_loads rd ra hf rfl (s.memRead_wb a) (toInt_signExtended _),
    ld_loads rd ra hf rfl (s.memRead_store false a) (toInt_signExtended _),
    ld_loads rd ra hf rfl (s.memRead_store true a) (toInt_signExtended _)⟩

/-! ## ST -/

/-- ST of an assigned space is MemWrite alone (R62, R125). -/
theorem exec_st {s : State} (rd ra : RegNum) {sp : BitVec 4} (hf : s.faulted = false)
    (hsp : spaceAssigned sp = true) :
    exec (.st rd sp ra) s =
      .next ((s.memWrite sp (s.reg ra).toNat (s.reg rd)).settle (encode (.st rd sp ra))) := by
  rw [exec_of_checks (i := .st rd sp ra) nofun hf hsp (by simp), commandEffect_st]

/-- Space CSR is read-only (R63). -/
theorem State.memWrite_csr (s : State) (a : Nat) (v : Word) : s.memWrite 0 a v = .stop .address s := rfl

/-- Settles O24: MemWrite of the space, and what a canonical memory reads after one write. -/
theorem storeToContextsAndWorkBuffer : Obligations.StoreToContextsAndWorkBuffer := by
  intro s rd ra hf hm a
  obtain ⟨hctx, hwb, -, -⟩ := hm
  refine ⟨?_, ?_, ?_⟩
  · rw [exec_st rd ra hf rfl, State.memWrite_ctx]
    by_cases ha : a < 256
    · rw [if_pos ha, if_pos ha, BitVec.setWidth_eq_extractLsb' (by decide)]
      exact ⟨_, rfl, rfl, fun b => Mem.read_write a _ b hctx⟩
    · rw [if_neg ha, if_neg ha, Effect.settle_stop]
  · rw [exec_st rd ra hf rfl, State.memWrite_wb]
    by_cases ha : a < s.cfg.wbWords
    · rw [if_pos ha, if_pos ha, BitVec.setWidth_eq_extractLsb' (by decide)]
      exact ⟨_, rfl, rfl, fun b => Mem.read_write a _ b hwb⟩
    · rw [if_neg ha, if_neg ha, Effect.settle_stop]
  · rw [exec_st rd ra hf rfl, State.memWrite_csr, Effect.settle_stop]

/-! ## ST to a store -/

/-- Giving one bucket new contents allocates that bucket and no other. -/
theorem Store.allocated_put (st : Store) (key : Nat) (b : Bucket) (blk bk : Nat) :
    Store.Allocated { st with buckets := st.buckets.put key b } blk bk ↔
      st.Allocated blk bk ∨ 64 * blk + bk = key := by
  unfold Store.Allocated
  rw [BucketMap.find_put]
  by_cases h : 64 * blk + bk = key <;> simp [h]

/-- A CoefWrite that has a bucket or room for one (R204): the store it leaves, coefficient by coefficient and
bucket by bucket. -/
theorem Store.coefWrite_writes {cfg : Config} {st : Store} {blk n : Nat} (v : Sample) (hn : n < 1024)
    (hst : st.WellShaped) (hroom : st.Allocated blk (n / 16) ∨ st.nalloc < st.arenaLimit cfg) :
    ∃ st', st.coefWrite cfg blk n v = some st' ∧ st.SameDescriptor st' ∧
      (∀ blk' n', n' < 1024 → st'.coefRead blk' n' =
        if blk' = blk ∧ n' = n then v else st.coefRead blk' n') ∧
      (∀ blk' bk, st'.Allocated blk' bk ↔ st.Allocated blk' bk ∨ 64 * blk' + bk = bucketKeyOf blk n) ∧
      st'.nalloc = if st.Allocated blk (n / 16) then st.nalloc else st.nalloc + 1 := by
  rcases st.coefWrite_spec cfg v hn (blk := blk) with ⟨-, hfind, hfull⟩ | ⟨b, hw, -, hread⟩
  · rcases hroom with hal | hlt
    · exact absurd hal (Option.not_isSome_iff_eq_none.2 hfind)
    · omega
  · exact ⟨_, hw, rfl, hread, st.allocated_put _ b, BucketMap.length_put b hst.wf⟩

/-- A CoefWrite that needs a bucket from a full arena fails (R204). -/
theorem Store.coefWrite_full {cfg : Config} {st : Store} {blk n : Nat} (v : Sample) (hn : n < 1024)
    (hfull : ¬ (st.Allocated blk (n / 16) ∨ st.nalloc < st.arenaLimit cfg)) :
    st.coefWrite cfg blk n v = none := by
  rcases st.coefWrite_spec cfg v hn (blk := blk) with ⟨h, -⟩ | ⟨-, -, hroom, -⟩
  · exact h
  · exact absurd hroom hfull

/-- CoefWrite on the state is CoefWrite on the store, a failure being AllocationError (R204). -/
theorem State.coefWrite_eq_elim (s : State) (i : Bool) (blk n : Nat) (v : Sample) :
    s.coefWrite i blk n v = ((s.store i).coefWrite s.cfg blk n v).elim (.stop .allocation s)
      fun st => .done (s.setStore i st) := by
  unfold State.coefWrite
  cases (s.store i).coefWrite s.cfg blk n v <;> rfl

/-- Settles O25: MemWrite of the store's space, then CoefWrite by whether its bucket is there or finds room. -/
theorem storeToCoefficients : Obligations.StoreToCoefficients := by
  intro s rd ra i hf hm a sp st
  have hsp : spaceAssigned sp = true := by cases i <;> rfl
  have hn : a % 1024 < 1024 := Nat.mod_lt a (by decide)
  rw [exec_st rd ra hf hsp, State.memWrite_store]
  split
  case isFalse => rw [Effect.settle_stop]
  case isTrue =>
    rw [BitVec.setWidth_eq_extractLsb' (by decide)]
    split
    case isTrue hroom =>
      obtain ⟨st', hw, hdesc, hread, hal, hcount⟩ :=
        Store.coefWrite_writes ((s.reg rd).extractLsb' 0 16) hn (hm.store i) hroom
      rw [State.coefWrite_eq_elim, hw]
      refine ⟨st', rfl, hdesc, fun blk n hlt => ?_, fun blk bk _ => ?_, ?_⟩
      · rw [hread blk n hlt]
        congr 1
        exact propext (by omega)
      · have hkey : bucketKeyOf (a / 1024) (a % 1024) = a / 16 := by
          unfold bucketKeyOf
          omega
        rw [hal blk bk, hkey]
      · rw [hcount]
        split <;> simp [st]
    case isFalse hfull =>
      rw [State.coefWrite_eq_elim, Store.coefWrite_full ((s.reg rd).extractLsb' 0 16) hn hfull]
      rfl

end Sys2Proof.Machine
end

section
/-! # The host's ports

What the step makes of each host action, and what is left of it while FAULTED. -/

namespace Sys2Proof.Machine

/-- A step sees the port and the state without the action it takes (R13, R70). -/
theorem step_of_port {s : State} {a : HostAction} {rest : List HostAction} (h : s.port = a :: rest) :
    step s = step { s with port := a :: rest } := by
  rw [← h]

/-- Settles O7: the equation of `step` for each host action, the action having left the port. -/
theorem hostActionsAtThePorts : Obligations.HostActionsAtThePorts := by
  refine ⟨fun s h => step_idle h, fun s rest => ⟨fun bytes h => ?attach, fun h => ?take,
    fun h => ?status, fun h => ?registers, fun i blk n h => ?coefficient⟩⟩
  all_goals exact (step_of_port h).trans rfl

/-- The one word of RESET (R126). -/
theorem decode_reset : decode 0x0F000000 = .ok .reset := by decide

theorem State.rejectWord_faulted {s : State} (w : Word) (hf : s.faulted = true) : s.rejectWord w = s :=
  if_pos hf

/-- A FAULTED engine only takes the word off the port, unless it is RESET's (R271). -/
theorem step_command_faulted {s : State} {w : Word} {rest : List HostAction} (hf : s.faulted = true)
    (h : s.port = .command w :: rest) (hw : w ≠ 0x0F000000) : step s = .next { s with port := rest } := by
  cases hd : decode w with
  | error e =>
    rw [step_rejected h hd]
    exact congrArg Host.Outcome.next (State.rejectWord_faulted w hf)
  | ok i =>
    have hi : i ≠ .reset := by
      rintro rfl
      exact hw (eq_encode_of_decode (.inr rfl) hd)
    rw [step_command h hd]
    exact exec_faulted hi hf

/-- Settles O8: a word by whether it is RESET's, a host action by what it is in any state (O7). -/
theorem faultedEngineRefuses : Obligations.FaultedEngineRefuses := by
  intro s rest hf
  obtain ⟨attach, take, status, registers, coefficient⟩ := hostActionsAtThePorts.2 s rest
  refine ⟨fun w h => ?_, fun bytes h => ?_, fun h => ?_, registers, fun h hm => ?_, coefficient⟩
  · by_cases hw : w = 0x0F000000
    · subst hw
      rw [if_pos rfl, step_command h decode_reset, exec_reset]
      rfl
    · rw [if_neg hw, step_command_faulted hf h hw]
  · rw [attach bytes h, if_neg (by simp [hf])]
  · rw [status h, hf]
  · rw [take h, if_pos hm]

end Sys2Proof.Machine
end

section
/-! # Decoding and encoding

A format of R92 says which fields of a word are operands and which are reserved, so a word is accepted in its
format exactly when it is packed from operands and zeros. Stated once for each format, that is both directions
of the agreement of decoder and encoder. -/

namespace Sys2Proof

/-! ## Fields -/

/-- A word is packed from its opcode and three given fields when they are its fields (R91). -/
theorem packWord_opField_eq_iff {rd ra : RegNum} {imm : BitVec 16} {w : Word} :
    packWord (opField w) rd ra imm = w ↔ rd = rdField w ∧ ra = raField w ∧ imm = immField w := by
  constructor
  · intro h
    rw [← h]
    simp
  · rintro ⟨rfl, rfl, rfl⟩
    exact packWord_fields w

theorem space_append_eq_iff {sp : BitVec 4} {imm : BitVec 16} :
    0#12 ++ sp = imm ↔ imm.extractLsb' 4 12 = 0 ∧ sp = imm.extractLsb' 0 4 := by
  constructor
  · rintro rfl
    exact ⟨reserved_of_imm sp, (space_of_imm sp).symm⟩
  · rintro ⟨hzero, rfl⟩
    exact imm_of_space hzero

theorem byte_append_eq_iff {c : Byte} {imm : BitVec 16} :
    0#8 ++ c = imm ↔ imm.extractLsb' 8 8 = 0 ∧ c = imm.extractLsb' 0 8 := by
  constructor
  · rintro rfl
    exact ⟨high_byte_append 0 c, (low_byte_append 0 c).symm⟩
  · rintro ⟨hzero, rfl⟩
    exact imm_of_byte hzero

theorem bytes_append_eq_iff {lo hi : Byte} {imm : BitVec 16} :
    lo ++ hi = imm ↔ lo = imm.extractLsb' 8 8 ∧ hi = imm.extractLsb' 0 8 := by
  constructor
  · rintro rfl
    exact ⟨(high_byte_append lo hi).symm, (low_byte_append lo hi).symm⟩
  · rintro ⟨rfl, rfl⟩
    exact imm_split (k := 8) (m := 8) rfl imm

theorem storeImm_eq_iff {s : Bool} {imm : BitVec 16} :
    storeImm s = imm ↔ imm.extractLsb' 1 15 = 0 ∧ s = imm.getLsbD 0 := by
  constructor
  · rintro rfl
    exact ⟨storeImm_reserved s, (storeImm_bit s).symm⟩
  · rintro ⟨hzero, rfl⟩
    exact imm_of_store hzero

/-! ## Formats (R92) -/

section formats

variable {w : Word} {i : Instr}

theorem formatZ_eq_ok {j : Instr} :
    formatZ w j = .ok i ↔ j = i ∧ i.wellFormed = true ∧ packWord (opField w) 0 0 0 = w := by
  simp only [formatZ, acceptWord_eq_ok, packWord_opField_eq_iff, Bool.and_eq_true, beq_iff_eq]
  constructor
  · rintro ⟨⟨⟨hrd, hra⟩, himm⟩, hwf, rfl⟩
    exact ⟨rfl, hwf, hrd.symm, hra.symm, himm.symm⟩
  · rintro ⟨rfl, hwf, hrd, hra, himm⟩
    exact ⟨⟨⟨hrd.symm, hra.symm⟩, himm.symm⟩, hwf, rfl⟩

theorem formatI_eq_ok {mk : RegNum → BitVec 16 → Instr} :
    formatI w mk = .ok i ↔ ∃ rd imm,
      mk rd imm = i ∧ i.wellFormed = true ∧ packWord (opField w) rd 0 imm = w := by
  simp only [formatI, acceptWord_eq_ok, packWord_opField_eq_iff, beq_iff_eq]
  constructor
  · rintro ⟨hra, hwf, rfl⟩
    exact ⟨_, _, rfl, hwf, rfl, hra.symm, rfl⟩
  · rintro ⟨_, _, rfl, hwf, rfl, hra, rfl⟩
    exact ⟨hra.symm, hwf, rfl⟩

theorem formatM_eq_ok {mk : RegNum → BitVec 4 → RegNum → Instr} :
    formatM w mk = .ok i ↔ ∃ rd sp ra,
      mk rd sp ra = i ∧ i.wellFormed = true ∧ packWord (opField w) rd ra (0#12 ++ sp) = w := by
  simp only [formatM, acceptWord_eq_ok, packWord_opField_eq_iff, space_append_eq_iff, beq_iff_eq]
  constructor
  · rintro ⟨hzero, hwf, rfl⟩
    exact ⟨_, _, _, rfl, hwf, rfl, rfl, hzero, rfl⟩
  · rintro ⟨_, _, _, rfl, hwf, rfl, rfl, hzero, rfl⟩
    exact ⟨hzero, hwf, rfl⟩

theorem formatC_eq_ok {mk : RegNum → Byte → Instr} :
    formatC w mk = .ok i ↔ ∃ rd c,
      mk rd c = i ∧ i.wellFormed = true ∧ packWord (opField w) rd 0 (0#8 ++ c) = w := by
  simp only [formatC, acceptWord_eq_ok, packWord_opField_eq_iff, byte_append_eq_iff,
    Bool.and_eq_true, beq_iff_eq]
  constructor
  · rintro ⟨⟨hra, hzero⟩, hwf, rfl⟩
    exact ⟨_, _, rfl, hwf, rfl, hra.symm, hzero, rfl⟩
  · rintro ⟨_, _, rfl, hwf, rfl, hra, hzero, rfl⟩
    exact ⟨⟨hra.symm, hzero⟩, hwf, rfl⟩

theorem formatR_eq_ok {mk : RegNum → Instr} :
    formatR w mk = .ok i ↔ ∃ rd,
      mk rd = i ∧ i.wellFormed = true ∧ packWord (opField w) rd 0 0 = w := by
  simp only [formatR, acceptWord_eq_ok, packWord_opField_eq_iff, Bool.and_eq_true, beq_iff_eq]
  constructor
  · rintro ⟨⟨hra, himm⟩, hwf, rfl⟩
    exact ⟨_, rfl, hwf, rfl, hra.symm, himm.symm⟩
  · rintro ⟨_, rfl, hwf, rfl, hra, himm⟩
    exact ⟨⟨hra.symm, himm.symm⟩, hwf, rfl⟩

theorem formatS_eq_ok {mk : Bool → RegNum → Instr} :
    formatS w mk = .ok i ↔ ∃ s ra,
      mk s ra = i ∧ i.wellFormed = true ∧ packWord (opField w) 0 ra (storeImm s) = w := by
  simp only [formatS, acceptWord_eq_ok, packWord_opField_eq_iff, storeImm_eq_iff,
    Bool.and_eq_true, beq_iff_eq]
  constructor
  · rintro ⟨⟨hrd, hzero⟩, hwf, rfl⟩
    exact ⟨_, _, rfl, hwf, hrd.symm, rfl, hzero, rfl⟩
  · rintro ⟨_, _, rfl, hwf, hrd, rfl, hzero, rfl⟩
    exact ⟨⟨hrd.symm, hzero⟩, hwf, rfl⟩

theorem formatS0_eq_ok {mk : Bool → Instr} :
    formatS0 w mk = .ok i ↔ ∃ s,
      mk s = i ∧ i.wellFormed = true ∧ packWord (opField w) 0 0 (storeImm s) = w := by
  simp only [formatS0, acceptWord_eq_ok, packWord_opField_eq_iff, storeImm_eq_iff,
    Bool.and_eq_true, beq_iff_eq]
  constructor
  · rintro ⟨⟨⟨hrd, hra⟩, hzero⟩, hwf, rfl⟩
    exact ⟨_, rfl, hwf, hrd.symm, hra.symm, hzero, rfl⟩
  · rintro ⟨_, rfl, hwf, hrd, hra, hzero, rfl⟩
    exact ⟨⟨⟨hrd.symm, hra.symm⟩, hzero⟩, hwf, rfl⟩

theorem formatW_eq_ok {mk : RegNum → Byte → Byte → Instr} :
    formatW w mk = .ok i ↔ ∃ ra lo hi,
      mk ra lo hi = i ∧ i.wellFormed = true ∧ packWord (opField w) 0 ra (lo ++ hi) = w := by
  simp only [formatW, acceptWord_eq_ok, packWord_opField_eq_iff, bytes_append_eq_iff, beq_iff_eq]
  constructor
  · rintro ⟨hrd, hwf, rfl⟩
    exact ⟨_, _, _, rfl, hwf, hrd.symm, rfl, rfl, rfl⟩
  · rintro ⟨_, _, _, rfl, hwf, hrd, rfl, rfl, rfl⟩
    exact ⟨hrd.symm, hwf, rfl⟩

theorem formatK_eq_ok {mk : RegNum → Instr} :
    formatK w mk = .ok i ↔ ∃ ra,
      mk ra = i ∧ i.wellFormed = true ∧ packWord (opField w) 0 ra 0 = w := by
  simp only [formatK, acceptWord_eq_ok, packWord_opField_eq_iff, Bool.and_eq_true, beq_iff_eq]
  constructor
  · rintro ⟨⟨hrd, himm⟩, hwf, rfl⟩
    exact ⟨_, rfl, hwf, hrd.symm, rfl, himm.symm⟩
  · rintro ⟨_, rfl, hwf, hrd, rfl, himm⟩
    exact ⟨⟨hrd.symm, himm.symm⟩, hwf, rfl⟩

end formats

/-! ## Both directions (R94) -/

/-- The encoding of a legal command is a word of its format, packed from its operands. -/
theorem decode_encode {i : Instr} (hwf : i.wellFormed = true) : decode (encode i) = .ok i := by
  cases i
  all_goals
    unfold decode encode
    dsimp only
    rw [opField_packWord]
  case nop | reset | acEinit | acDinit | acClose | bpcInit =>
    exact formatZ_eq_ok.2 ⟨rfl, hwf, by simp⟩
  case li rd imm | lui rd imm => exact formatI_eq_ok.2 ⟨rd, imm, rfl, hwf, by simp⟩
  case ld rd sp ra | st rd sp ra => exact formatM_eq_ok.2 ⟨rd, sp, ra, rfl, hwf, by simp⟩
  case acEnc rd c | acDec rd c => exact formatC_eq_ok.2 ⟨rd, c, rfl, hwf, by simp⟩
  case acEncp rd | acDecp rd | acEncb rd | acDecb rd | bpcSlice rd =>
    exact formatR_eq_ok.2 ⟨rd, rfl, hwf, by simp⟩
  case csCreate s ra | csScatter s ra | csGather s ra =>
    exact formatS_eq_ok.2 ⟨s, ra, rfl, hwf, by simp⟩
  case csDestroy s => exact formatS0_eq_ok.2 ⟨s, rfl, hwf, by simp⟩
  case wtFwd ra lo hi | wtBwd ra lo hi => exact formatW_eq_ok.2 ⟨ra, lo, hi, rfl, hwf, by simp⟩
  case wtRgb2ycc ra | wtYcc2rgb ra => exact formatK_eq_ok.2 ⟨ra, rfl, hwf, by simp⟩

/-- A word that decodes is packed from the operands of its command, in the format of its opcode. -/
theorem encode_of_decode {w : Word} {i : Instr} (h : decode w = .ok i) : encode i = w := by
  unfold decode at h
  split at h
  case h_26 => cases h
  all_goals
    rename_i hop
    replace hop := opField_eq_of_toNat hop
  case h_1 | h_6 | h_7 | h_8 | h_15 | h_16 =>
    obtain ⟨rfl, -, hw⟩ := formatZ_eq_ok.1 h
    rwa [hop] at hw
  case h_2 | h_3 =>
    obtain ⟨rd, imm, rfl, -, hw⟩ := formatI_eq_ok.1 h
    rwa [hop] at hw
  case h_4 | h_5 =>
    obtain ⟨rd, sp, ra, rfl, -, hw⟩ := formatM_eq_ok.1 h
    rwa [hop] at hw
  case h_9 | h_10 =>
    obtain ⟨rd, c, rfl, -, hw⟩ := formatC_eq_ok.1 h
    rwa [hop] at hw
  case h_11 | h_12 | h_13 | h_14 | h_17 =>
    obtain ⟨rd, rfl, -, hw⟩ := formatR_eq_ok.1 h
    rwa [hop] at hw
  case h_18 | h_20 | h_21 =>
    obtain ⟨s, ra, rfl, -, hw⟩ := formatS_eq_ok.1 h
    rwa [hop] at hw
  case h_19 =>
    obtain ⟨s, rfl, -, hw⟩ := formatS0_eq_ok.1 h
    rwa [hop] at hw
  case h_22 | h_23 =>
    obtain ⟨ra, lo, hi, rfl, -, hw⟩ := formatW_eq_ok.1 h
    rwa [hop] at hw
  case h_24 | h_25 =>
    obtain ⟨ra, rfl, -, hw⟩ := formatK_eq_ok.1 h
    rwa [hop] at hw

/-- Settles O4: the word of a legal command is accepted in its format, by the operands it was packed from. -/
theorem decodeOfEncode : Obligations.DecodeOfEncode := fun _ hwf => decode_encode hwf

/-- Settles O5: the decoder accepts only legal commands, and each from the word packed from its operands. -/
theorem encodeOfDecode : Obligations.EncodeOfDecode :=
  fun _ _ h => ⟨wellFormed_of_decode h, encode_of_decode h⟩

end Sys2Proof
end

section
/-! # Words that are no command

A word of an assigned opcode is put to `acceptWord` with the reserved bits of R92 as a mask, and its command
is legal as R95 asks; a word of any other opcode is refused as such (R96). -/

namespace Sys2Proof

/-! ## Masks of a word (R92) -/

theorem opField_and (v w : Word) : opField (v &&& w) = opField v &&& opField w :=
  BitVec.extractLsb'_and ..

theorem rdField_and (v w : Word) : rdField (v &&& w) = rdField v &&& rdField w :=
  BitVec.extractLsb'_and ..

theorem raField_and (v w : Word) : raField (v &&& w) = raField v &&& raField w :=
  BitVec.extractLsb'_and ..

theorem immField_and (v w : Word) : immField (v &&& w) = immField v &&& immField w :=
  BitVec.extractLsb'_and ..

theorem eq_zero_iff_fields {w : Word} :
    w = 0 ↔ opField w = 0 ∧ rdField w = 0 ∧ raField w = 0 ∧ immField w = 0 := by
  constructor
  · rintro rfl
    decide
  · rintro ⟨hop, hrd, hra, himm⟩
    rw [← packWord_fields w, hop, hrd, hra, himm]
    decide

/-- A mask packed from four masks meets no bit of a word when none of them meets a bit of its field. -/
theorem and_packWord_beq_zero (w : Word) (op : BitVec 8) (rd ra : RegNum) (imm : BitVec 16) :
    (w &&& packWord op rd ra imm == 0) = (opField w &&& op == 0 && (rdField w &&& rd == 0 &&
      (raField w &&& ra == 0 && immField w &&& imm == 0))) := by
  rw [Bool.eq_iff_iff]
  simp only [Bool.and_eq_true, beq_iff_eq]
  rw [eq_zero_iff_fields, opField_and, rdField_and, raField_and, immField_and, opField_packWord,
    rdField_packWord, raField_packWord, immField_packWord]

@[simp] theorem reg_and_ones (r : RegNum) : r &&& 15#4 = r := BitVec.and_allOnes

@[simp] theorem imm_and_ones (imm : BitVec 16) : imm &&& 65535#16 = imm := BitVec.and_allOnes

/-- The mask of all bits from bit `k` on meets no bit of an immediate when these are 0. -/
theorem imm_and_ones_beq_zero (k m : Nat) (h : k + m = 16) (imm : BitVec 16) :
    (imm &&& BitVec.allOnes 16 <<< k == 0#16) = (imm.extractLsb' k m == 0#m) := by
  rw [Bool.eq_iff_iff, beq_iff_eq, beq_iff_eq]
  simp only [BitVec.eq_of_getLsbD_eq_iff, BitVec.getLsbD_and, BitVec.getLsbD_shiftLeft,
    BitVec.getLsbD_extractLsb', BitVec.getLsbD_allOnes, BitVec.getLsbD_zero]
  constructor
  · intro hmask j hj
    have hbit := hmask (k + j) (by omega)
    simpa [hj, show k + j < 16 by omega, show j < 16 by omega] using hbit
  · intro hzero j hj
    by_cases hk : k ≤ j
    · have hbit := hzero (j - k) (by omega)
      rw [show k + (j - k) = j by omega, decide_eq_true (by omega), Bool.true_and] at hbit
      rw [hbit, Bool.false_and]
    · simp [show j < k by omega]

@[simp] theorem imm_and_aboveSpace (imm : BitVec 16) :
    (imm &&& 0xFFF0#16 == 0#16) = (imm.extractLsb' 4 12 == 0#12) := imm_and_ones_beq_zero 4 12 rfl imm

@[simp] theorem imm_and_highByte (imm : BitVec 16) :
    (imm &&& 0xFF00#16 == 0#16) = (imm.extractLsb' 8 8 == 0#8) := imm_and_ones_beq_zero 8 8 rfl imm

@[simp] theorem imm_and_aboveStore (imm : BitVec 16) :
    (imm &&& 0xFFFE#16 == 0#16) = (imm.extractLsb' 1 15 == 0#15) := imm_and_ones_beq_zero 1 15 rfl imm

section formats

variable (w : Word)

theorem formatZ_eq_acceptWord (i : Instr) :
    formatZ w i = acceptWord (w &&& 0x00FFFFFF == 0) .reservedBit i := by
  rw [show (0x00FFFFFF : Word) = packWord 0 0xF 0xF 0xFFFF by decide, and_packWord_beq_zero]
  simp [formatZ, Bool.and_assoc]

theorem formatI_eq_acceptWord (mk : RegNum → BitVec 16 → Instr) :
    formatI w mk = acceptWord (w &&& 0x000F0000 == 0) .reservedBit
      (mk (rdField w) (immField w)) := by
  rw [show (0x000F0000 : Word) = packWord 0 0 0xF 0 by decide, and_packWord_beq_zero]
  simp [formatI]

theorem formatM_eq_acceptWord (mk : RegNum → BitVec 4 → RegNum → Instr) :
    formatM w mk = acceptWord (w &&& 0x0000FFF0 == 0) .reservedSpace
      (mk (rdField w) ((immField w).extractLsb' 0 4) (raField w)) := by
  rw [show (0x0000FFF0 : Word) = packWord 0 0 0 0xFFF0 by decide, and_packWord_beq_zero]
  simp [formatM]

theorem formatC_eq_acceptWord (mk : RegNum → Byte → Instr) :
    formatC w mk = acceptWord (w &&& 0x000FFF00 == 0) .reservedBit
      (mk (rdField w) ((immField w).extractLsb' 0 8)) := by
  rw [show (0x000FFF00 : Word) = packWord 0 0 0xF 0xFF00 by decide, and_packWord_beq_zero]
  simp [formatC]

theorem formatR_eq_acceptWord (mk : RegNum → Instr) :
    formatR w mk = acceptWord (w &&& 0x000FFFFF == 0) .reservedBit
      (mk (rdField w)) := by
  rw [show (0x000FFFFF : Word) = packWord 0 0 0xF 0xFFFF by decide, and_packWord_beq_zero]
  simp [formatR]

theorem formatS_eq_acceptWord (mk : Bool → RegNum → Instr) :
    formatS w mk = acceptWord (w &&& 0x00F0FFFE == 0) .registerRun
      (mk ((immField w).getLsbD 0) (raField w)) := by
  rw [show (0x00F0FFFE : Word) = packWord 0 0xF 0 0xFFFE by decide, and_packWord_beq_zero]
  simp [formatS]

theorem formatS0_eq_acceptWord (mk : Bool → Instr) :
    formatS0 w mk = acceptWord (w &&& 0x00FFFFFE == 0) .reservedBit
      (mk ((immField w).getLsbD 0)) := by
  rw [show (0x00FFFFFE : Word) = packWord 0 0xF 0xF 0xFFFE by decide, and_packWord_beq_zero]
  simp [formatS0, Bool.and_assoc]

theorem formatW_eq_acceptWord (mk : RegNum → Byte → Byte → Instr) :
    formatW w mk = acceptWord (w &&& 0x00F00000 == 0) .registerRun
      (mk (raField w) ((immField w).extractLsb' 8 8) ((immField w).extractLsb' 0 8)) := by
  rw [show (0x00F00000 : Word) = packWord 0 0xF 0 0 by decide, and_packWord_beq_zero]
  simp [formatW]

theorem formatK_eq_acceptWord (mk : RegNum → Instr) :
    formatK w mk = acceptWord (w &&& 0x00F0FFFF == 0) .registerRun
      (mk (raField w)) := by
  rw [show (0x00F0FFFF : Word) = packWord 0 0xF 0 0xFFFF by decide, and_packWord_beq_zero]
  simp [formatK]

end formats

end Sys2Proof

namespace Sys2Proof.Machine

/-! ## Assigned and unassigned opcodes (R94 to R96) -/

/-- The space number of an immediate is its low four bits (R92). -/
theorem spaceAssigned_eq (imm : BitVec 16) :
    spaceAssigned (imm.extractLsb' 0 4) = decide (imm.toNat % 16 < 5) := by
  simp [spaceAssigned, BitVec.extractLsb'_toNat]

/-- R95's conditions on the operands of a word, by its opcode. -/
def LegalOperands (w : Word) : Prop :=
  (raField w).toNat + registerRun (opField w).toNat ≤ 16 ∧
    (opField w = 0x03 ∨ opField w = 0x04 → (immField w).toNat % 16 < 5)

/-- The assigned opcodes (R94). -/
def assignedOps : List Nat :=
  [0x00, 0x01, 0x02, 0x03, 0x04, 0x0F, 0x10, 0x11, 0x12, 0x13, 0x14, 0x15, 0x16, 0x17, 0x18, 0x20, 0x21,
    0x30, 0x31, 0x32, 0x33, 0x40, 0x41, 0x42, 0x43]

theorem mem_assignedOps {op : Nat} (h : (reservedBits op).isSome = true) : op ∈ assignedOps := by
  contrapose! h
  simp only [assignedOps, List.mem_cons, List.not_mem_nil, or_false, not_or] at h
  simp [reservedBits, h]

/-- A word of an assigned opcode is put to `acceptWord` with its reserved bits, and its command is legal
exactly when its operands are. -/
theorem decode_eq_acceptWord {w reserved : Word}
    (h : reservedBits (opField w).toNat = some reserved) :
    ∃ bad i, decode w = acceptWord (w &&& reserved == 0) bad i ∧
      (i.wellFormed = true ↔ LegalOperands w) := by
  have hra := (raField w).isLt
  unfold decode LegalOperands
  split
  case h_26 =>
    have hmem := mem_assignedOps (Option.isSome_of_mem h)
    simp only [assignedOps, List.mem_cons, List.not_mem_nil, or_false] at hmem
    grind
  all_goals
    rename_i hop
    rw [hop] at h ⊢
    obtain rfl := Option.some.inj h
    replace hop := opField_eq_of_toNat hop
  case h_1 | h_6 | h_7 | h_8 | h_15 | h_16 =>
    exact ⟨_, _, formatZ_eq_acceptWord w _, by simp [Instr.wellFormed, registerRun, hop]; omega⟩
  case h_2 | h_3 =>
    exact ⟨_, _, formatI_eq_acceptWord w _, by simp [Instr.wellFormed, registerRun, hop]; omega⟩
  case h_4 | h_5 =>
    exact ⟨_, _, formatM_eq_acceptWord w _, by
      simp [Instr.wellFormed, spaceAssigned_eq, registerRun, hop]; omega⟩
  case h_9 | h_10 =>
    exact ⟨_, _, formatC_eq_acceptWord w _, by simp [Instr.wellFormed, registerRun, hop]; omega⟩
  case h_11 | h_12 | h_13 | h_14 | h_17 =>
    exact ⟨_, _, formatR_eq_acceptWord w _, by simp [Instr.wellFormed, registerRun, hop]; omega⟩
  case h_18 | h_20 | h_21 =>
    exact ⟨_, _, formatS_eq_acceptWord w _, by
      simp [Instr.wellFormed, RegNum.runFits, registerRun, hop]⟩
  case h_19 =>
    exact ⟨_, _, formatS0_eq_acceptWord w _, by simp [Instr.wellFormed, registerRun, hop]; omega⟩
  case h_22 | h_23 =>
    exact ⟨_, _, formatW_eq_acceptWord w _, by
      simp [Instr.wellFormed, RegNum.runFits, registerRun, hop]⟩
  case h_24 | h_25 =>
    exact ⟨_, _, formatK_eq_acceptWord w _, by
      simp [Instr.wellFormed, RegNum.runFits, registerRun, hop]⟩

/-- A word of an unassigned opcode is refused as such, whatever its other bits (R96). -/
theorem decode_of_not_mem_assignedOps {w : Word} (h : (opField w).toNat ∉ assignedOps) :
    decode w = .error .unassignedOp := by
  unfold decode
  split
  case h_26 => rfl
  all_goals
    rename_i hop
    rw [hop] at h
    exact absurd (by decide) h

theorem acceptWord_eq_error {ok : Bool} {bad : DecodeError} {i : Instr}
    (h : ¬ (ok = true ∧ i.wellFormed = true)) : ∃ e, acceptWord ok bad i = .error e := by
  unfold acceptWord
  split_ifs with hok hwf
  · exact absurd ⟨hok, hwf⟩ h
  · exact ⟨_, rfl⟩
  · exact ⟨_, rfl⟩

/-- A word that is no command raises IllegalCommand and has no other effect (R95, R96). -/
theorem step_illegal {s : State} {w : Word} {rest : List HostAction} {e : DecodeError}
    (hport : s.port = .command w :: rest) (hf : s.faulted = false) (hd : decode w = .error e) :
    step s = .next { s with port := rest, faulted := true, fault := 0x0004, faultInfo := w } := by
  rw [step_rejected hport hd, State.rejectWord, if_neg (by simp [hf])]
  rfl

/-- Settles O2: a word of an assigned opcode is accepted exactly when its reserved bits are 0 and its operands
legal, and then it is the encoding of its command (O5). -/
theorem reservedFieldsAreIllegal : Obligations.ReservedFieldsAreIllegal := by
  intro s w reserved rest hport hf hres
  obtain ⟨bad, i, hdec, hwf⟩ := decode_eq_acceptWord hres
  have hlegal : (w &&& reserved == 0) = true ∧ i.wellFormed = true ↔
      ¬ (w &&& reserved ≠ 0 ∨ 16 < (raField w).toNat + registerRun (opField w).toNat ∨
        ((opField w = 0x03 ∨ opField w = 0x04) ∧ 5 ≤ (immField w).toNat % 16)) := by
    rw [hwf, LegalOperands, beq_iff_eq]
    simp only [ne_eq, not_or, not_not, not_and, not_lt, not_le]
  split
  case isTrue hbad =>
    obtain ⟨e, he⟩ := acceptWord_eq_error (bad := bad) (mt hlegal.1 (not_not.2 hbad))
    exact step_illegal hport hf (hdec.trans he)
  case isFalse hgood =>
    obtain ⟨hok, hwf⟩ := hlegal.2 hgood
    have hd : decode w = .ok i := hdec.trans (acceptWord_eq_ok.2 ⟨hok, hwf, rfl⟩)
    exact ⟨i, hd, encode_of_decode hd⟩

/-- Settles O3: the unassigned ranges hold no assigned opcode. -/
theorem unassignedOpcodesAreIllegal : Obligations.UnassignedOpcodesAreIllegal := by
  refine ⟨fun s w rest hport hf hop => ?_, by decide, by decide⟩
  have hun : (opField w).toNat ∉ assignedOps := by
    simp only [assignedOps, List.mem_cons, List.not_mem_nil, or_false]
    omega
  exact step_illegal hport hf (decode_of_not_mem_assignedOps hun)

/-- Settles O6: each of the words is the encoding of a legal command. -/
theorem writtenWordsDecode : Obligations.WrittenWordsDecode :=
  ⟨decode_encode (i := .li 1 0x70) rfl, decode_encode (i := .lui 3 0xDEAD) rfl,
    decode_encode (i := .ld 4 1 5) rfl, decode_encode (i := .st 1 3 2) rfl,
    decode_encode (i := .reset) rfl, decode_encode (i := .acEnc 2 0x70) rfl,
    decode_encode (i := .acDec 3 0x70) rfl, decode_encode (i := .bpcSlice 0) rfl,
    decode_encode (i := .csCreate true 2) rfl, decode_encode (i := .csDestroy true) rfl,
    decode_encode (i := .wtFwd 4 1 32) rfl⟩

end Sys2Proof.Machine
end

section
/-! # Clean faults

A check that fails stops a command before its effect; of the effects, LD and ST find a bad address before they
write, and BPC.SLICE and CS.SCATTER stop for want of room alone. -/

namespace Sys2Proof.Machine

/-- An effect stopped for another reason than want of room has done nothing (R265); one that runs to its end
leaves FAULTED as it was. -/
theorem commandEffect_stop_clean {i : Instr} (hi : i ≠ .reset) (s : State) :
    (commandEffect i s).Post (fun u => u.faulted = s.faulted) fun k u => k = .allocation ∨ u = s := by
  have hwrites := commandEffect_writes hi s
  have hdone : ∀ u, s.AgreesOutside (Writes i) u → u.faulted = s.faulted :=
    fun u hu => (hu .faults (not_writes_faults hi)).1
  cases i
  case ld rd sp ra =>
    rw [commandEffect_ld]
    cases s.memRead sp (s.reg ra).toNat with
    | some v => exact rfl
    | none => exact .inr rfl
  case st rd sp ra =>
    exact st_post rd sp ra (fun _ _ _ => rfl) (fun _ _ _ => rfl)
      (fun _ blk n v _ _ => State.coefWrite_post blk n v (fun _ => by simp) (.inl rfl)) (.inr rfl)
  case bpcSlice rd =>
    refine hwrites.mono hdone fun k u ⟨hkind, hrow, _⟩ => .inl (hkind.resolve_left ?_)
    rintro rfl
    simp [mayRaise] at hrow
  case csScatter j ra =>
    exact csScatter_post j ra rfl fun u blk n v hu _ _ =>
      State.coefWrite_post blk n v (fun st => by simpa using hu) (.inl rfl)
  all_goals exact hdone _ hwrites

/-- Settles O12: the fault was found by a check, or by the effect before it did anything. -/
theorem faultsAreClean : Obligations.FaultsAreClean := by
  intro i s t hf h ht hfault
  rcases exec_cases h fun hi _ _ _ => commandEffect_stop_clean hi s with
    ⟨-, rfl⟩ | ⟨-, hs, -⟩ | ⟨-, -, k, -, rfl⟩ | ⟨-, -, hdone⟩ | ⟨-, -, k, u, hk, rfl⟩
  · cases ht
  · rw [hf] at hs
    cases hs
  · rfl
  · rw [hdone, hf] at ht
    cases ht
  · obtain rfl | rfl := hk
    · exact absurd rfl hfault
    · rfl

end Sys2Proof.Machine
end

section
/-! # Moves between a store and the work buffer

CS.SCATTER and CS.GATHER share their checks. Past them CS.SCATTER runs through the buckets of its store, as
`Store.ScatteredTo` describes up to any bucket, until one finds the arena full. -/

namespace Sys2Proof.Machine

/-! ## The checks (R207, R209) -/

/-- The checks of a move from legality on, in order: the run of registers, the store, the stride and the
rectangle. -/
theorem firstFault_moveChecks (s : State) (i : Bool) (ra : RegNum) :
    firstFault ((RegNum.runFits ra 2, .illegal) :: moveChecks s i ra) =
      if 14 < ra.toNat then some .illegal
      else if (s.store i).valid = false then some .logicStore
      else if (s.reg (ra + 1)).toNat < (s.store i).bw.toNat then some .logicOperand
      else if s.cfg.wbWords < (s.reg ra).toNat + ((s.store i).bh.toNat - 1) * (s.reg (ra + 1)).toNat +
        (s.store i).bw.toNat then some .address
      else none := by
  have hreg : s.regRun ra 1 = (s.reg (ra + 1)).toNat := rfl
  have hrun : RegNum.runFits ra 2 = true ↔ ¬ 14 < ra.toNat := by
    rw [RegNum.runFits, decide_eq_true_eq]
    omega
  simp only [moveChecks, firstFault_cons, firstFault_nil, hrun, State.rectInWb_iff, State.regRun_zero, hreg,
    decide_eq_true_eq]
  simp only [← not_lt, ← Bool.not_eq_false, ite_not]

section moves

variable {s : State} {i : Bool} {ra : RegNum} {c : Instr}

theorem exec_move_of_failing_check (hc : c = .csScatter i ra ∨ c = .csGather i ra)
    (hf : s.faulted = false) {k : FaultKind}
    (hk : firstFault ((RegNum.runFits ra 2, .illegal) :: moveChecks s i ra) = some k) :
    exec c s = .next (s.takeFault k (encode c)) := by
  rcases hc with rfl | rfl <;> exact exec_of_failing_check nofun hf hk

/-- The commands that pass the checks can stop in one way alone: CS.SCATTER for want of room. -/
theorem exec_move_fault (hc : c = .csScatter i ra ∨ c = .csGather i ra) (hf : s.faulted = false)
    (hk : firstFault ((RegNum.runFits ra 2, .illegal) :: moveChecks s i ra) = none) {t : State}
    (h : exec c s = .next t) (ht : t.faulted = true) : t.fault = 0x0002 ∧ c = .csScatter i ra := by
  have hpass := firstFault_eq_none.1 hk
  have heff : (commandEffect c s).Post (fun u => u.faulted = false)
      fun k _ => k = .allocation ∧ c = .csScatter i ra := by
    rcases hc with rfl | rfl
    · exact csScatter_post i ra hf fun u blk n v hu _ _ =>
        State.coefWrite_post blk n v (fun st => by simpa using hu) ⟨rfl, rfl⟩
    · exact hf
  rcases exec_cases h fun _ _ _ _ => heff with
    ⟨rfl, -⟩ | ⟨-, hs, -⟩ | ⟨-, -, k, hk', -⟩ | ⟨-, -, hdone⟩ | ⟨-, -, k, u, ⟨rfl, hscatter⟩, rfl⟩
  · rcases hc with hc | hc <;> cases hc
  · rw [hf] at hs
    cases hs
  · have hfail := hpass (false, k) (by rcases hc with rfl | rfl <;> exact hk')
    cases hfail
  · rw [hdone] at ht
    cases ht
  · exact ⟨rfl, hscatter⟩

end moves

/-! ## Where CS.SCATTER ends (R204, R207) -/

/-- CS.SCATTER past its checks is its buckets in order. -/
theorem exec_csScatter_of_checks {s : State} {i : Bool} {ra : RegNum} (hf : s.faulted = false)
    (hk : firstFault ((RegNum.runFits ra 2, .illegal) :: moveChecks s i ra) = none) :
    exec (.csScatter i ra) s = .next ((State.scatterBuckets i (s.reg ra).toNat (s.reg (ra + 1)).toNat
      (List.range (64 * (s.store i).nb.toNat)) s).settle (encode (.csScatter i ra))) := by
  have hpass := firstFault_eq_none.1 hk
  rw [exec_of_checks (i := .csScatter i ra) (fun h => by cases h) hf (hpass _ (List.mem_cons_self ..))
    fun c hc => hpass c (List.mem_cons_of_mem _ hc), commandEffect, State.regRun_zero]
  rfl

/-- A bucket that stops CS.SCATTER stops it with the buckets before it done and those after it not reached. -/
theorem State.scatterBuckets_stop {s u v : State} {i : Bool} {base rs n q : Nat} {k : FaultKind}
    (hq : q < n) (hbefore : State.scatterBuckets i base rs (List.range q) s = .done u)
    (hat : State.scatterBucket i base rs (q / 64) (q % 64) u = .stop k v) :
    State.scatterBuckets i base rs (List.range n) s = .stop k v := by
  obtain ⟨m, rfl⟩ := Nat.exists_eq_add_of_lt hq
  have hrange : List.range (q + m + 1) = List.range q ++ q :: (List.range m).map (q + 1 + ·) := by
    rw [Nat.add_assoc, List.range_add, Nat.add_comm m 1, List.range_add]
    simp [Nat.add_assoc]
  rw [hrange, State.scatterBuckets_append, hbefore, Effect.done_andThen, State.scatterBuckets, hat,
    Effect.stop_andThen]

/-- The store CS.SCATTER leaves when it ends before its bucket number `q`. -/
theorem exec_csScatter_ends {s : State} {i : Bool} {ra : RegNum} (hf : s.faulted = false)
    (hwf : (s.store i).buckets.wf (64 * (s.store i).nb.toNat) = true)
    (hk : firstFault ((RegNum.runFits ra 2, .illegal) :: moveChecks s i ra) = none)
    {sample : Nat → Nat → Sample} (hsample : sample = fun blk n =>
      s.wb.read ((s.store i).sampleIndex (s.reg ra).toNat (s.reg (ra + 1)).toNat blk n))
    {needs : Nat → Bool} (hneeds : needs = fun p => !((s.store i).buckets.find p).isSome &&
      (List.range 16).any fun j => decide (sample (p / 64) (16 * (p % 64) + j) ≠ 0)) {q : Nat}
    (hroom : ∀ p, p < q → needs p = true →
      (s.store i).nalloc + (List.range p).countP needs < (s.store i).arenaLimit s.cfg)
    (hend : q = 64 * (s.store i).nb.toNat ∨ (q < 64 * (s.store i).nb.toNat ∧ needs q = true ∧
      (s.store i).arenaLimit s.cfg ≤ (s.store i).nalloc + (List.range q).countP needs)) :
    ∃ st', exec (.csScatter i ra) s = .next (if q = 64 * (s.store i).nb.toNat then s.setStore i st'
        else (s.setStore i st').takeFault .allocation (encode (.csScatter i ra))) ∧
      (s.store i).ScatteredTo st' sample needs q := by
  have hq : q ≤ 64 * (s.store i).nb.toNat := by omega
  obtain ⟨st', hrun, hst', hstop⟩ := State.scatterBuckets_scatters hwf hsample hneeds hq hroom
  refine ⟨st', ?_, hst'⟩
  rw [exec_csScatter_of_checks hf hk]
  rcases hend with hlast | ⟨hlt, hneed, hfull⟩
  · rw [if_pos hlast, ← hlast, hrun, Effect.settle_done]
  · rw [← hst'.count] at hfull
    rw [if_neg (by omega), State.scatterBuckets_stop hlt hrun (hstop hneed hfull), Effect.settle_stop]

/-- Settles O51: the checks by the first that fails; and the buckets before `q` as
`State.scatterBuckets_scatters` leaves them, the stop at `q` being the whole command's.
(`moveChecks` itself is the model's name for the checks.) -/
theorem moveChecksHold : Obligations.MoveChecks := by
  refine ⟨fun s i ra c hc hf => ?_, fun s i ra q hf hm => ?_⟩
  · intro st base rs stops
    replace hc : c = .csScatter i ra ∨ c = .csGather i ra := by simpa using hc
    have hk := firstFault_moveChecks s i ra
    split_ifs at hk ⊢ with hrun hvalid hstride hrect
    case neg => exact fun t h ht => exec_move_fault hc hf hk h ht
    all_goals exact exec_move_of_failing_check hc hf hk
  · intro st base rs sample needs newBefore hra hvalid hstride hrect hroom hend
    have hk := firstFault_moveChecks s i ra
    rw [if_neg (not_lt.2 hra), if_neg (ne_true_of_eq_false · hvalid), if_neg (not_lt.2 hstride),
      if_neg (not_lt.2 hrect)] at hk
    obtain ⟨st', hexec, hst'⟩ := exec_csScatter_ends hf (hm.store i).wf hk (sample := sample) rfl
      (needs := needs) rfl hroom hend
    refine ⟨st', hexec, hst'.descriptor, hst'.count, fun blk bk hblk hbk => ⟨hst'.allocated _, ?_⟩⟩
    intro j hj
    rw [hst'.value blk _ (by omega) hblk, show 64 * blk + (16 * bk + j) / 16 = 64 * blk + bk by omega]

end Sys2Proof.Machine
end

section
/-! # System commands

NOP, LI and LUI stop at no check, so each is one equation of `exec`; their statements are read off these and
off what a register reads after a write. The fault record is common to all command words: what a command does
to it, and what a word that is none does, is one alternative for both. -/

namespace Sys2Proof.Machine

/-! ## The commands that always complete -/

/-- NOP is the same in a FAULTED engine, which refuses it, and in any other (R121, R271). -/
theorem exec_nop (s : State) : exec .nop s = .next s := by
  cases hf : s.faulted
  case false => exact exec_of_checks nofun hf rfl (by simp)
  case true => exact exec_faulted (i := .nop) nofun hf

/-- Settles O18: NOP has no operands, so its equation is the statement. -/
theorem nopChangesNothing : Obligations.NopChangesNothing := exec_nop

theorem exec_li {s : State} (rd : RegNum) (imm : BitVec 16) (hf : s.faulted = false) :
    exec (.li rd imm) s = .next (s.setReg rd (imm.setWidth 32)) :=
  exec_of_checks nofun hf rfl (by simp)

theorem exec_lui {s : State} (rd : RegNum) (imm : BitVec 16) (hf : s.faulted = false) :
    exec (.lui rd imm) s = .next (s.setReg rd (imm ++ (s.reg rd).extractLsb' 0 16)) :=
  exec_of_checks nofun hf rfl (by simp)

/-! ## The halves of a word -/

/-- A word joined from two halves, as a number (R123). -/
theorem toNat_append_low (imm : BitVec 16) (v : Word) :
    (imm ++ v.extractLsb' 0 16 : Word).toNat = imm.toNat * 0x10000 + v.toNat % 0x10000 := by
  have hlow : v.toNat % 0x10000 < 2 ^ 16 := Nat.mod_lt _ (by decide)
  rw [BitVec.toNat_append, BitVec.extractLsb'_toNat, Nat.shiftRight_zero,
    ← Nat.shiftLeft_add_eq_or_of_lt hlow, Nat.shiftLeft_eq]

/-- The high half of a word joined to its zero-extended low half, as LUI leaves it after LI (R127). -/
theorem high_append_low (v : Word) :
    (v.extractLsb' 16 16 ++ ((v.extractLsb' 0 16).setWidth 32).extractLsb' 0 16 : Word) = v := by
  apply BitVec.eq_of_toNat_eq
  rw [toNat_append_low, zeroExtended_toNat _ (by decide), BitVec.extractLsb'_toNat,
    BitVec.extractLsb'_toNat, Nat.shiftRight_zero, Nat.shiftRight_eq_div_pow]
  omega

/-! ## Loading a constant -/

/-- Settles O19: LI is one register write. -/
theorem loadImmediate : Obligations.LoadImmediate := fun s rd imm hf =>
  ⟨s.setReg rd (imm.setWidth 32), exec_li rd imm hf, rfl, fun r => s.setReg_reg rd r _⟩

/-- Settles O20: LUI is one register write, of the immediate joined to the register's lower half. -/
theorem loadUpperImmediate : Obligations.LoadUpperImmediate := by
  intro s rd imm hf
  refine ⟨_, exec_lui rd imm hf, rfl, ?_, fun r hr => s.setReg_reg_ne _ hr⟩
  rw [State.setReg_reg_self, toNat_append_low]

/-- Settles O21: the second write covers the first, and joins the half that the first one left. -/
theorem loadImmediate32 : Obligations.LoadImmediate32 := by
  intro s rd v hf
  refine ⟨_, _, exec_li rd _ hf, exec_lui rd _ hf, rfl, fun r => ?_⟩
  rw [State.setReg_reg_self, high_append_low, State.setReg_reg]
  split
  case isTrue => rfl
  case isFalse hr => exact State.setReg_reg_ne s _ hr

/-! ## The fault record of a command word -/

theorem ne_format_of_raised {i : Instr} {k : FaultKind} (hk : k = .illegal ∨ k ∈ mayRaise i) :
    k ≠ .format := by
  rintro rfl
  exact hk.elim nofun (format_not_mem_mayRaise i)

/-- A command other than RESET leaves the fault record as it was, or records its own word with a fault of the
engine (R120, R270). -/
theorem exec_records_fault {i : Instr} {s t : State} (hi : i ≠ .reset) (h : exec i s = .next t) :
    (t.faulted = s.faulted ∧ t.fault = s.fault ∧ t.faultInfo = s.faultInfo) ∨
      ∃ (k : FaultKind) (u : State), k ≠ .format ∧ t = u.takeFault k (encode i) := by
  rcases exec_fault_cases h with ⟨hreset, -⟩ | hkept | ⟨-, k, u, ht, hk, -⟩
  · exact absurd hreset hi
  · exact .inl hkept
  · exact .inr ⟨k, u, ne_format_of_raised hk, ht⟩

/-- A command word other than RESET's does so too, one that is no command with IllegalCommand (R95, R96). -/
theorem step_records_fault {s t : State} {w : Word} {rest : List HostAction}
    (hport : s.port = .command w :: rest) (hf : s.faulted = false) (hw : w ≠ 0x0F000000)
    (h : step s = .next t) :
    (t.faulted = s.faulted ∧ t.fault = s.fault ∧ t.faultInfo = s.faultInfo) ∨
      ∃ (k : FaultKind) (u : State), k ≠ .format ∧ t = u.takeFault k w := by
  cases hd : decode w with
  | error e =>
    rw [step_illegal hport hf hd] at h
    cases h
    exact .inr ⟨.illegal, { s with port := rest }, nofun, rfl⟩
  | ok i =>
    have hi : i ≠ .reset := by
      rintro rfl
      exact hw (eq_encode_of_decode (.inr rfl) hd)
    rw [step_command hport hd] at h
    have hcases := exec_records_fault hi h
    rwa [encode_of_decode hd] at hcases

/-- Settles O14: the record is kept, and FAULTED with it, or it is the word's own. -/
theorem faultEntryRecordsTheWord : Obligations.FaultEntryRecordsTheWord := by
  intro s t w rest hport hf hw h
  rcases step_records_fault hport hf hw h with ⟨hfaulted, hfault, hinfo⟩ | ⟨k, u, hk, rfl⟩
  · rw [if_neg (by simp [hfaulted, hf])]
    exact ⟨hfault, hinfo⟩
  · rw [if_pos (u.takeFault_faulted k w)]
    exact ⟨u.takeFault_faultInfo k w, faultWord_mem hk⟩

end Sys2Proof.Machine
end

section
/-! # Coding a bit

Every coding call of an encoder narrows the interval to one side of a split and renormalises it; `CodesSide`
says so once for both sides. The values of A and SUBEND and the code number are read off the equation that
`Coder.Codes` states. -/

namespace Sys2Proof.Machine

/-! ## One side of a split -/

/-- `c'` is the encoder `c` after the side of `split` that `above` names and the renormalisation, in `m`
doublings, of the interval that then starts at `top` (R148, R149). -/
def Coder.CodesSide (c c' : Coder) (above : Bool) (split m : Nat) (digits : List Bool) : Prop :=
  let top := if above then split else c.a.toNat + 0x10000 - split
  (if top < 0x8000 then m = 0 else LeadingOnes top m) ∧
    c.Codes c' top (if above then 0 else 0x10000 - split) m digits

theorem clampSplit_eq (z a : Nat) : clampSplit z a = min z (0x6000 + (z + a) / 4) := by
  rw [clampSplit, Nat.shiftRight_eq_div_pow]

theorem splitPass_eq (a : Nat) : splitPass a = 0x8000 + a / 2 := by
  rw [splitPass, Nat.shiftRight_eq_div_pow]

theorem splitBalanced_eq (a : Nat) : splitBalanced a = 0x8000 + 3 * a / 8 := by
  rw [splitBalanced, Nat.shiftRight_eq_div_pow]

theorem Coder.Encodes.encodesTo {c c' : Coder} {out : List Byte} (h : c.Encodes c' out) :
    c.EncodesTo c' := by
  have hout : c'.output = c.output ++ out := by rw [h]
  refine ⟨?_, hout ▸ List.prefix_append ..⟩
  rw [hout]
  exact h

/-- A split from 0x8000 on takes one doubling above it, and as many as the new A has leading ones below
it. -/
theorem Coder.encodeSplit_codesSide {c : Coder} (hk : c.AssemblerOk) {z : Nat} (hz : 0x8000 ≤ z)
    (hz' : z < 0xC000) (ha : c.a.toNat < z) (hw : z ≤ c.a.toNat + 0x8000) (bit : Bool) :
    ∃ m digits, c.CodesSide (c.encodeSplit z bit) (!bit) z m digits := by
  cases bit with
  | false =>
    obtain ⟨digits, hones, hcodes⟩ := Coder.encMps_codes hk hz hz'
    exact ⟨1, digits, by simpa [hz] using hones, hcodes⟩
  | true =>
    obtain ⟨m, digits, hones, hcodes⟩ := Coder.encLps_codes hk ha (by omega) hw
    have htop : ¬ c.a.toNat + 0x10000 - z < 0x8000 := by omega
    exact ⟨m, digits, by simpa [htop] using hones, hcodes⟩

/-- Without a renormalisation the interval starts at the split and nothing is decided (R150). -/
theorem Coder.setA_codesSide {c : Coder} (hk : c.AssemblerOk) {z : Nat} (hz : z < 0x8000) :
    c.CodesSide { c with a := BitVec.ofNat 16 z } true z 0 [] := by
  refine ⟨by simp [hz], (Coder.Takes.refl hk).congr ⟨rfl, rfl, rfl, rfl⟩ ⟨rfl, rfl, rfl, rfl⟩, ?_, ?_, ?_⟩
  · simp
  · simp
  · simp

/-! ## The split of AC.ENC -/

section adaptive

variable (c : Coder) (prob : Nat) (mps : Bool)

theorem Coder.encodeAdaptive_low (h : c.a.toNat + prob < 0x8000) :
    c.encodeAdaptive prob mps mps = { c with a := BitVec.ofNat 16 (c.a.toNat + prob) } := by
  simp [Coder.encodeAdaptive, h]

/-- From 0x8000 on the predicted value takes the side above the clamped split. -/
theorem Coder.encodeAdaptive_high (h : 0x8000 ≤ c.a.toNat + prob) :
    c.encodeAdaptive prob mps mps = c.encMps (clampSplit (c.a.toNat + prob) c.a.toNat) := by
  simp [Coder.encodeAdaptive, h]

/-- The other value takes the side below the clamped split. -/
theorem Coder.encodeAdaptive_ne {bit : Bool} (h : bit ≠ mps) :
    c.encodeAdaptive prob mps bit = c.encLps (clampSplit (c.a.toNat + prob) c.a.toNat) := by
  simp [Coder.encodeAdaptive, h]

end adaptive

/-- AC.ENC takes a side of the split, clamped unless the predicted value leaves it below 0x8000 (R150). -/
theorem Coder.encodeAdaptive_codesSide {c : Coder} (hk : c.AssemblerOk) (ha : c.a.toNat < 0x8000)
    {prob : Nat} (hp : 1 ≤ prob) (hp' : prob ≤ 0x8000) (mps bit : Bool) :
    ∃ m digits, c.CodesSide (c.encodeAdaptive prob mps bit) (bit == mps)
      (if bit = mps ∧ c.a.toNat + prob < 0x8000 then c.a.toNat + prob
        else clampSplit (c.a.toNat + prob) c.a.toNat) m digits := by
  obtain ⟨hlo, hhi, hle, hhigh⟩ := clampSplit_bounds ha hp hp'
  by_cases hbit : bit = mps
  · subst hbit
    by_cases hz : c.a.toNat + prob < 0x8000
    · refine ⟨0, [], ?_⟩
      rw [if_pos ⟨rfl, hz⟩, c.encodeAdaptive_low prob bit hz, beq_self_eq_true]
      exact Coder.setA_codesSide hk hz
    · have hz' : 0x8000 ≤ c.a.toNat + prob := Nat.le_of_not_lt hz
      rw [if_neg (fun h => hz h.2), c.encodeAdaptive_high prob bit hz', beq_self_eq_true]
      exact Coder.encodeSplit_codesSide hk (hhigh hz') hhi hlo (by omega) false
  · obtain ⟨m, digits, hones, hcodes⟩ := Coder.encLps_codes hk hlo (by omega) (by omega)
    have htop : ¬ c.a.toNat + 0x10000 - clampSplit (c.a.toNat + prob) c.a.toNat < 0x8000 := by omega
    rw [if_neg (fun h => hbit h.1), c.encodeAdaptive_ne prob mps hbit, beq_false_of_ne hbit]
    exact ⟨m, digits, by simpa [htop] using hones, hcodes⟩

/-! ## A and SUBEND after a side is taken -/

/-- A value below 0xC000 has at most one leading one. -/
theorem LeadingOnes.eq_one {a m : Nat} (h : LeadingOnes a m) (ha : a < 0xC000) : m = 1 := by
  obtain ⟨hm, hm', hlo, -⟩ := h
  by_contra hne
  have hpow : 2 ^ (16 - m) ≤ 2 ^ 14 := Nat.pow_le_pow_right (by norm_num) (by omega)
  omega

/-- Modulo the window, SUBEND and what the interval lost at its end are doubled as often as A (R147). -/
theorem Coder.Codes.subend {c c' : Coder} {top loss m : Nat} {digits : List Bool}
    (h : c.Codes c' top loss m digits) :
    c'.subend.toNat = (c.subend.toNat + loss) * 2 ^ m % 0x10000 := by
  obtain ⟨-, -, -, hnumber⟩ := h
  have hlt := c'.subend.isLt
  obtain ⟨q, hq⟩ : ∃ q : Int,
      (((c.subend.toNat + loss) * 2 ^ m : Nat) : Int) = c'.subend.toNat + 0x10000 * q := by
    refine ⟨2 ^ m * (c.buffer.toNat + 1) -
      (signedValue digits * 2 ^ c'.nrun * 2 ^ 24 + c'.buffer.toNat + 1), ?_⟩
    push_cast
    linear_combination hnumber
  omega

/-- Above a split from 0x8000 on one doubling is made (R148). -/
theorem Coder.CodesSide.above {c c' : Coder} {z m : Nat} {digits : List Bool}
    (h : c.CodesSide c' true z m digits) (hz : 0x8000 ≤ z) (hz' : z < 0xC000) :
    c'.a.toNat = 2 * z - 0x10000 ∧ c'.subend.toNat = 2 * c.subend.toNat % 0x10000 := by
  obtain ⟨hm, hcodes⟩ := h
  have hones : LeadingOnes z m := by simpa [show ¬ z < 0x8000 by omega] using hm
  obtain rfl := hones.eq_one hz'
  have hsub := Coder.Codes.subend (loss := 0) hcodes
  have ha : c'.a.toNat = z * 2 ^ 1 % 0x10000 := hcodes.2.1
  omega

/-- Below a split A and SUBEND are rebased to it and doubled until A is below 0x8000 (R149). -/
theorem Coder.CodesSide.below {c c' : Coder} {z m : Nat} {digits : List Bool}
    (h : c.CodesSide c' false z m digits) (hz : z ≤ 0x10000) (hw : z ≤ c.a.toNat + 0x8000) :
    LeadingOnes (c.a.toNat + 0x10000 - z) m ∧
      c'.a.toNat = (c.a.toNat + 0x10000 - z) * 2 ^ m % 0x10000 ∧
      c'.subend.toNat = (c.subend.toNat + 0x10000 - z) * 2 ^ m % 0x10000 := by
  obtain ⟨hm, hcodes⟩ := h
  have htop : ¬ c.a.toNat + 0x10000 - z < 0x8000 := by omega
  have hloss : (0x10000 : Int) - z = (0x10000 - z : Nat) := by omega
  simp only [Bool.false_eq_true, if_false, htop, hloss] at hm hcodes
  obtain ⟨-, ha, -⟩ := id hcodes
  refine ⟨hm, ha, ?_⟩
  rw [hcodes.subend, ← Nat.add_sub_assoc hz]

/-! ## The encoding commands -/

theorem State.encodeCtx_eq (s : State) (c : Byte) (bit : Bool) :
    s.encodeCtx c bit =
      { s with
        coder := s.coder.encodeAdaptive (s.cfg.prob (s.ctxAt c)) ((s.ctxAt c).getLsbD 0) bit
        ctx := s.ctx.write c.toNat (s.cfg.adapt (s.ctxAt c) (bit == (s.ctxAt c).getLsbD 0)) } := rfl

/-- Settles O29: the equation of each path of AC.ENC, and the side of the split it takes. -/
theorem encodeAdaptiveBit : Obligations.EncodeAdaptiveBit := by
  intro s rd c hf hm hb bit k a z zc
  obtain ⟨ha, -, hk, -⟩ := hb
  replace hk := hk hm
  obtain ⟨hp, hp'⟩ := prob_bounds s.cfg k
  obtain ⟨hlo, hhi, hle, hhigh⟩ := clampSplit_bounds ha hp hp'
  obtain ⟨⟨out, hencodes⟩, -, -⟩ := s.coder.encodeAdaptive_spec hp hp' (k.getLsbD 0) bit
  obtain ⟨m, digits, hside⟩ := Coder.encodeAdaptive_codesSide hk ha hp hp' (k.getLsbD 0) bit
  have hzc : clampSplit z a = zc := clampSplit_eq z a
  refine ⟨s.encodeCtx c bit, exec_acEnc_of_enc rd c hf hm, rfl, hencodes.encodesTo, ?_, ?_, ?_⟩
  · intro hbit hz
    rw [State.encodeCtx_eq, hbit]
    exact s.coder.encodeAdaptive_low _ _ hz
  · intro hbit hz
    rw [if_neg (fun h => absurd h.2 (Nat.not_lt.2 hz)), beq_iff_eq.2 hbit] at hside
    exact hzc ▸ hside.above (hhigh hz) hhi
  · intro hbit
    rw [if_neg (fun h => hbit h.1), beq_false_of_ne hbit] at hside
    exact ⟨m, hzc ▸ hside.below (by omega) (by omega)⟩

/-- A command that takes a side of a split from 0x8000 on. -/
theorem exec_encodesSplit {i : Instr} {s : State} {z : Nat} {bit : Bool} (hk : s.coder.AssemblerOk)
    (hz : 0x8000 ≤ z ∧ s.coder.a.toNat < z ∧ z < 0xC000 ∧ z ≤ s.coder.a.toNat + 0x8000)
    (hexec : exec i s = .next (s.setCoder (s.coder.encodeSplit z bit))) :
    ∃ t m digits, exec i s = .next t ∧ s.SameButCoder t ∧ s.coder.EncodesTo t.coder ∧
      s.coder.CodesSide t.coder (!bit) z m digits := by
  obtain ⟨hz, hlo, hhi, hw⟩ := hz
  obtain ⟨⟨out, hencodes⟩, -, -⟩ := s.coder.encodeSplit_spec z bit
  obtain ⟨m, digits, hside⟩ := Coder.encodeSplit_codesSide hk hz hhi hlo hw bit
  exact ⟨_, m, digits, hexec, rfl, hencodes.encodesTo, hside⟩

theorem splitPass_range {a : Nat} (ha : a < 0x8000) :
    0x8000 ≤ 0x8000 + a / 2 ∧ a < 0x8000 + a / 2 ∧ 0x8000 + a / 2 < 0xC000 ∧
      0x8000 + a / 2 ≤ a + 0x8000 :=
  splitPass_eq a ▸ splitPass_bounds ha

theorem splitBalanced_range {a : Nat} (ha : a < 0x8000) :
    0x8000 ≤ 0x8000 + 3 * a / 8 ∧ a < 0x8000 + 3 * a / 8 ∧ 0x8000 + 3 * a / 8 < 0xC000 ∧
      0x8000 + 3 * a / 8 ≤ a + 0x8000 :=
  splitBalanced_eq a ▸ splitBalanced_bounds ha

section session

variable {s : State} (hf : s.faulted = false) (hm : s.coder.mode = .enc)
include hf hm

/-- AC.ENCP takes a side of the pass-through split (R151). -/
theorem exec_acEncp_eq (rd : RegNum) : exec (.acEncp rd) s =
    .next (s.setCoder (s.coder.encodeSplit (0x8000 + s.coder.a.toNat / 2) (s.regBit rd))) :=
  splitPass_eq s.coder.a.toNat ▸ exec_acEncp_of_enc rd hf hm

/-- AC.ENCB takes a side of the balanced split (R152). -/
theorem exec_acEncb_eq (rd : RegNum) : exec (.acEncb rd) s =
    .next (s.setCoder (s.coder.encodeSplit (0x8000 + 3 * s.coder.a.toNat / 8) (s.regBit rd))) :=
  splitBalanced_eq s.coder.a.toNat ▸ exec_acEncb_of_enc rd hf hm

end session

/-- Settles O30: bit 0 is the side above the split and bit 1 the side below it. -/
theorem encodeFixedSplitBit : Obligations.EncodeFixedSplitBit := by
  intro s rd hf hm hb bit a codes
  obtain ⟨ha, -, hk, -⟩ := hb
  replace hk := hk hm
  have hcodes {i : Instr} {z : Nat} (hz : 0x8000 ≤ z ∧ a < z ∧ z < 0xC000 ∧ z ≤ a + 0x8000)
      (hexec : exec i s = .next (s.setCoder (s.coder.encodeSplit z bit))) : codes i z := by
    obtain ⟨t, m, digits, ht, hframe, hencodes, hside⟩ := exec_encodesSplit hk hz hexec
    obtain ⟨hz, -, hhi, hw⟩ := hz
    refine ⟨t, ht, hframe, hencodes, fun hbit => ?_, fun hbit => ⟨m, ?_⟩⟩
    · rw [hbit] at hside
      exact hside.above hz hhi
    · rw [hbit] at hside
      exact hside.below (by omega) hw
  exact ⟨hcodes (splitPass_range ha) (exec_acEncp_eq hf hm rd),
    hcodes (splitBalanced_range ha) (exec_acEncb_eq hf hm rd)⟩

/-! ## The code number -/

/-- Digits that are all delivered carry the code number on (R141, R144). -/
theorem Coder.Codes.codeNumber {c c' : Coder} {top m : Nat} {loss : Int} {digits : List Bool}
    (h : c.Codes c' top loss m digits) (hd : c.delay = 0) :
    c'.codeNumber = 2 ^ m * (c.codeNumber - loss) := by
  obtain ⟨⟨hdelivered, -, -⟩, -, hlength, hnumber⟩ := h
  have hweight : (2 : Int) ^ digits.length * 2 ^ c'.nrun = 2 ^ c.nrun * 2 ^ m := by
    rw [← pow_add, ← pow_add, hlength]
  rw [hd] at hdelivered
  unfold Coder.codeNumber
  rw [hdelivered, show (0 : BitVec 8).toNat = 0 from rfl, List.drop_zero, signedValue_append]
  linear_combination hnumber + signedValue c.delivered * 2 ^ 40 * hweight

/-- The doublings that shift out the leading ones do not widen an interval past its window. -/
theorem LeadingOnes.width {a m : Nat} (h : LeadingOnes a m) : (0x10000 - a) * 2 ^ m ≤ 0x10000 := by
  obtain ⟨-, hm, hlo, -⟩ := h
  calc (0x10000 - a) * 2 ^ m ≤ 2 ^ (16 - m) * 2 ^ m := Nat.mul_le_mul_right _ (tsub_le_iff_tsub_le.1 hlo)
    _ = 0x10000 := by rw [← pow_add, Nat.sub_add_cancel hm]; norm_num

/-- The renormalised interval is as wide as the side taken, doubled `m` times. -/
theorem Coder.CodesSide.width {c c' : Coder} {above : Bool} {split m : Nat} {digits : List Bool}
    (h : c.CodesSide c' above split m digits) {top : Nat}
    (htop : top = if above then split else c.a.toNat + 0x10000 - split) (hlt : top < 0x10000) :
    (0x10000 : Int) - c'.a.toNat = 2 ^ m * (0x10000 - top) := by
  obtain ⟨hm, -, ha, -⟩ := h
  rw [← htop] at hm ha
  have hwidth : (0x10000 - top) * 2 ^ m ≤ 0x10000 := by
    split at hm
    · rw [hm]
      omega
    · exact hm.width
  have hpos : 0 < (0x10000 - top) * 2 ^ m := Nat.mul_pos (by omega) (Nat.two_pow_pos m)
  have hsum : top * 2 ^ m + (0x10000 - top) * 2 ^ m = 0x10000 * 2 ^ m := by
    rw [← Nat.add_mul]
    congr 1
    omega
  have hnat : 0x10000 = c'.a.toNat + (0x10000 - top) * 2 ^ m := by omega
  zify [hlt.le] at hnat
  linear_combination hnat

/-! ## Carries -/

/-- The split of AC.ENC on the path that the bit takes (R150). -/
theorem adaptiveSplit_range {a p : Nat} (ha : a < 0x8000) (hp : 1 ≤ p) (hp' : p ≤ 0x8000)
    (confirmed : Prop) [Decidable confirmed] :
    let split := if confirmed ∧ a + p < 0x8000 then a + p else clampSplit (a + p) a
    a < split ∧ split < 0x10000 := by
  obtain ⟨hlo, hhi, -, -⟩ := clampSplit_bounds ha hp hp'
  dsimp only
  split <;> omega

/-- What coding a bit with nothing swallowed does to the code number and to the interval (R141). -/
theorem Coder.CodesSide.carries {c c' : Coder} {above : Bool} {split m : Nat} {digits : List Bool}
    (h : c.CodesSide c' above split m digits) (hd : c.delay = 0) (ha : c.a.toNat < split)
    (hsplit : split < 0x10000) :
    ∃ (m d : Nat), d < 0x10000 ∧ c'.codeNumber = 2 ^ m * (c.codeNumber - d) ∧
      (∃ split : Nat, c.a.toNat < split ∧ split < 0x10000 ∧
        ((d = 0 ∧ (0x10000 : Int) - c'.a.toNat = 2 ^ m * (0x10000 - split)) ∨
          (d = 0x10000 - split ∧
            (0x10000 : Int) - c'.a.toNat = 2 ^ m * ((split : Int) - c.a.toNat)))) := by
  have hnumber := h.2.codeNumber hd
  cases above with
  | true =>
    exact ⟨m, 0, by norm_num, hnumber, split, ha, hsplit, .inl ⟨rfl, h.width rfl hsplit⟩⟩
  | false =>
    have hwidth := h.width (top := c.a.toNat + 0x10000 - split) rfl (by omega)
    refine ⟨m, 0x10000 - split, by omega, ?_, split, ha, hsplit, .inr ⟨rfl, ?_⟩⟩
    · rw [hnumber, Nat.cast_sub hsplit.le]
      rfl
    · rw [hwidth, Nat.cast_sub (by omega)]
      push_cast
      ring

/-- Settles O31: each command takes one side of its split, which decides the digits and, with DELAY 0, what
becomes of the code number. -/
theorem carriesAreResolvedExactly : Obligations.CarriesAreResolvedExactly := by
  constructor
  · intro s rd c hf hm hb bit k a z zc codes
    obtain ⟨ha, -, hk, -⟩ := hb
    replace hk := hk hm
    have hcodes {i : Instr} {t : State} {above : Bool} {split m : Nat} {digits : List Bool}
        (hexec : exec i s = .next t) (hside : s.coder.CodesSide t.coder above split m digits) :
        codes i above split := by
      obtain ⟨hdoublings, ⟨hdelivered, hdelay, -⟩, ha', hlength, hnumber⟩ := hside
      exact ⟨t, m, digits, hexec, hdoublings, ha', hlength, hnumber, hdelivered, hdelay⟩
    obtain ⟨hp, hp'⟩ := prob_bounds s.cfg k
    obtain ⟨m, digits, hside⟩ := Coder.encodeAdaptive_codesSide hk ha hp hp' (k.getLsbD 0) bit
    obtain ⟨tp, mp, dp, hexecp, -, -, hsidep⟩ :=
      exec_encodesSplit hk (splitPass_range ha) (exec_acEncp_eq hf hm rd)
    obtain ⟨tb, mb, db, hexecb, -, -, hsideb⟩ :=
      exec_encodesSplit hk (splitBalanced_range ha) (exec_acEncb_eq hf hm rd)
    rw [clampSplit_eq] at hside
    exact ⟨hcodes (exec_acEnc_of_enc rd c hf hm) hside, hcodes hexecp hsidep, hcodes hexecb hsideb⟩
  · intro i s t rd c hi hf hm hb hd h
    obtain ⟨ha, -, hk, -⟩ := hb
    replace hk := hk hm
    simp only [List.mem_cons, List.not_mem_nil, or_false] at hi
    rcases hi with rfl | rfl | rfl
    case inl =>
      rw [exec_acEnc_of_enc rd c hf hm] at h
      cases h
      obtain ⟨hp, hp'⟩ := prob_bounds s.cfg (s.ctxAt c)
      obtain ⟨m, digits, hside⟩ :=
        Coder.encodeAdaptive_codesSide hk ha hp hp' ((s.ctxAt c).getLsbD 0) (s.regBit rd)
      obtain ⟨hlo, hhi⟩ := adaptiveSplit_range ha hp hp' (s.regBit rd = (s.ctxAt c).getLsbD 0)
      exact hside.carries hd hlo hhi
    case inr.inl =>
      obtain ⟨-, hlo, hhi, -⟩ := splitPass_range ha
      obtain ⟨u, m, digits, hu, -, -, hside⟩ :=
        exec_encodesSplit hk (splitPass_range ha) (exec_acEncp_eq hf hm rd)
      cases h.symm.trans hu
      exact hside.carries hd hlo (by omega)
    case inr.inr =>
      obtain ⟨-, hlo, hhi, -⟩ := splitBalanced_range ha
      obtain ⟨u, m, digits, hu, -, -, hside⟩ :=
        exec_encodesSplit hk (splitBalanced_range ha) (exec_acEncb_eq hf hm rd)
      cases h.symm.trans hu
      exact hside.carries hd hlo (by omega)

end Sys2Proof.Machine
end

section
/-! # Decoding a bit

What a decoder has not shifted into CODE is one sequence of bits, `Coder.unread`: reading ahead leaves it as it
is, and a doubling takes its first bits off. -/

namespace Sys2Proof.Machine

/-! ## Reading ahead -/

/-- NextByte gives the byte of IN at INPOS, or the fill, and moves INPOS up to the end of IN (R157). -/
theorem Coder.nextByte_eq (c : Coder) :
    c.nextByte = (c.input.getD c.inpos Config.fill,
      { c with inpos := if c.inpos < c.input.length then c.inpos + 1 else c.inpos }) := by
  unfold Coder.nextByte
  by_cases h : c.inpos < c.input.length
  · simp [h]
  · simp [h]

/-- One byte read into IBUF (R158). -/
def Coder.loadByte (c : Coder) : Coder :=
  { c with
    inpos := if c.inpos < c.input.length then c.inpos + 1 else c.inpos
    ibuf := (c.ibuf <<< 8) ||| (c.input.getD c.inpos Config.fill).setWidth 32
    iscount := c.iscount + 8 }

theorem Coder.preload_zero (c : Coder) : Coder.preload 0 c = c := rfl

theorem Coder.preload_succ (fuel : Nat) (c : Coder) :
    Coder.preload (fuel + 1) c =
      if c.iscount.toNat ≤ 24 then Coder.preload fuel c.loadByte else c := by
  rw [Coder.preload, Coder.nextByte_eq]
  rfl

theorem Coder.loadByte_iscount {c : Coder} (h : c.iscount.toNat ≤ 24) :
    c.loadByte.iscount.toNat = c.iscount.toNat + 8 := by
  show (c.iscount + 8).toNat = _
  rw [BitVec.toNat_add]
  simp
  omega

/-- The byte of IN or of the fill that a bit past IBUF comes from, before and after INPOS moves (R157). -/
theorem Coder.loadByte_input (c : Coder) (i : Nat) :
    c.loadByte.input.getD (c.loadByte.inpos + i) Config.fill =
      c.input.getD (c.inpos + (i + 1)) Config.fill := by
  show c.input.getD ((if c.inpos < c.input.length then c.inpos + 1 else c.inpos) + i) _ = _
  split
  case isTrue => rw [Nat.add_assoc, Nat.add_comm 1]
  case isFalse h =>
    rw [List.getD_eq_default _ _ (by omega), List.getD_eq_default _ _ (by omega)]

/-- The bits of IBUF with a byte shifted in. -/
theorem getLsbD_shift_or_byte (v : BitVec 32) (b : Byte) {i : Nat} (hi : i < 32) :
    ((v <<< 8) ||| b.setWidth 32).getLsbD i = if i < 8 then b.getLsbD i else v.getLsbD (i - 8) := by
  simp only [BitVec.getLsbD_or, BitVec.getLsbD_shiftLeft, BitVec.getLsbD_setWidth, hi]
  split
  case isTrue h => simp [h]
  case isFalse h => simp [h, BitVec.getLsbD_of_ge b i (by omega)]

/-- A byte read ahead was the next one unread (R158). -/
theorem Coder.loadByte_unread {c : Coder} (h : c.iscount.toNat ≤ 24) (j : Nat) :
    c.loadByte.unread j = c.unread j := by
  unfold Coder.unread
  dsimp only
  rw [Coder.loadByte_iscount h]
  have hibuf : c.loadByte.ibuf = (c.ibuf <<< 8) ||| (c.input.getD c.inpos Config.fill).setWidth 32 := rfl
  by_cases hold : j < c.iscount.toNat
  · rw [if_pos (by omega), if_pos hold, hibuf, getLsbD_shift_or_byte _ _ (by omega), if_neg (by omega)]
    congr 1
    omega
  rw [if_neg hold]
  by_cases hnew : j < c.iscount.toNat + 8
  · rw [if_pos hnew, hibuf, getLsbD_shift_or_byte _ _ (by omega), if_pos (by omega),
      Nat.div_eq_of_lt (by omega), Nat.mod_eq_of_lt (by omega)]
    congr 1
    omega
  · rw [if_neg hnew, Coder.loadByte_input]
    congr 2 <;> omega

/-- Reading ahead leaves what is unread (R158). -/
theorem Coder.preload_unread (fuel : Nat) (c : Coder) (j : Nat) :
    (Coder.preload fuel c).unread j = c.unread j := by
  induction fuel generalizing c with
  | zero => rfl
  | succ fuel ih =>
    rw [Coder.preload_succ]
    split
    case isTrue h => rw [ih, Coder.loadByte_unread h]
    case isFalse => rfl

theorem Coder.refill_unread (c : Coder) (j : Nat) : c.refill.unread j = c.unread j := by
  unfold Coder.refill
  split
  · exact Coder.preload_unread 4 c j
  · rfl

/-! ## Shifting in -/

/-- The first unread bits are the highest unread bits of IBUF, while it holds that many. -/
theorem Coder.unreadNumber_eq {c : Coder} {m : Nat} (hm : m ≤ c.iscount.toNat) :
    c.unreadNumber m = c.ibuf.toNat / 2 ^ (c.iscount.toNat - m) % 2 ^ m := by
  induction m with
  | zero => simp [Coder.unreadNumber, Nat.mod_one]
  | succ m ih =>
    have hbit : c.unread m = c.ibuf.toNat.testBit (c.iscount.toNat - (m + 1)) := by
      unfold Coder.unread
      rw [if_pos (by omega), BitVec.getLsbD]
      congr 1
      omega
    have hnext : c.unreadNumber (m + 1) = 2 * c.unreadNumber m + (c.unread m).toNat := by
      simp [Coder.unreadNumber, List.range_succ]
    have hpow : 2 ^ (c.iscount.toNat - m) = 2 ^ (c.iscount.toNat - (m + 1)) * 2 := by
      rw [← pow_succ]
      congr 1
      omega
    rw [hnext, ih (by omega), hbit, Nat.toNat_testBit, hpow, ← Nat.div_div_eq_div_mul, pow_succ,
      Nat.mul_comm (2 ^ m) 2, Nat.mod_mul]
    omega

/-- The low bits that a shift clears take the new bits as a sum. -/
theorem shiftLeft_or_eq_add {m v : Nat} (code : Nat) (hm : m ≤ 16) (hv : v < 2 ^ m) :
    (code <<< m) % 0x10000 ||| v = code * 2 ^ m % 0x10000 + v ∧ code * 2 ^ m % 0x10000 + v < 0x10000 := by
  have hwindow : 0x10000 = 2 ^ (16 - m) * 2 ^ m := by
    rw [← pow_add, Nat.sub_add_cancel hm]
    norm_num
  have hhigh : code * 2 ^ m % 0x10000 = (code % 2 ^ (16 - m)) <<< m := by
    rw [hwindow, Nat.mul_mod_mul_right, Nat.shiftLeft_eq]
  rw [Nat.shiftLeft_eq code, hhigh, ← Nat.shiftLeft_add_eq_or_of_lt hv]
  refine ⟨rfl, ?_⟩
  have hlt : code % 2 ^ (16 - m) + 1 ≤ 2 ^ (16 - m) := Nat.mod_lt _ (Nat.two_pow_pos _)
  calc (code % 2 ^ (16 - m)) <<< m + v < (code % 2 ^ (16 - m) + 1) * 2 ^ m := by
        rw [Nat.shiftLeft_eq, Nat.add_mul]
        omega
    _ ≤ 2 ^ (16 - m) * 2 ^ m := Nat.mul_le_mul_right _ hlt
    _ = 0x10000 := hwindow.symm

section shift

variable {c : Coder} {m : Nat} (hm : m ≤ c.iscount.toNat)
include hm

/-- Fewer unread bits in IBUF put the bits of IN closer. -/
theorem Coder.unread_shorten {d : Coder} (hcount : d.iscount.toNat = c.iscount.toNat - m)
    (hibuf : d.ibuf = c.ibuf) (hinput : d.input = c.input) (hinpos : d.inpos = c.inpos) (j : Nat) :
    d.unread j = c.unread (j + m) := by
  unfold Coder.unread
  rw [hcount, hibuf, hinput, hinpos]
  by_cases hj : j + m < c.iscount.toNat
  · rw [if_pos (by omega), if_pos hj]
    congr 1
    omega
  · rw [if_neg (by omega), if_neg hj]
    have hi : j - (c.iscount.toNat - m) = j + m - c.iscount.toNat := by omega
    rw [hi]

/-- A shift by no more bits than IBUF has unread moves exactly the next input bits into CODE (R159, R160). -/
theorem Coder.shiftIn_decodesTo (a code : Nat) (hm' : m ≤ 16) :
    c.DecodesTo (c.shiftIn m a code) m a code := by
  obtain ⟨hframe, ha, -, hfence, -, -⟩ := c.shiftIn_spec m a code
  have hcount : c.iscount.toNat - m < 2 ^ 6 := by
    have := c.iscount.isLt
    omega
  refine ⟨hframe, ha, ?_, hfence, fun j => ?_⟩
  · have hbits : (c.ibuf.toNat >>> (c.iscount.toNat - m)) &&& (2 ^ m - 1) = c.unreadNumber m := by
      rw [Coder.unreadNumber_eq hm, Nat.and_two_pow_sub_one_eq_mod, Nat.shiftRight_eq_div_pow]
    have hnumber : c.unreadNumber m < 2 ^ m := by
      rw [Coder.unreadNumber_eq hm]
      exact Nat.mod_lt _ (Nat.two_pow_pos m)
    obtain ⟨hor, hlt⟩ := shiftLeft_or_eq_add code hm' hnumber
    unfold Coder.shiftIn
    rw [(Coder.refill_spec _).2.2.1]
    dsimp only
    rw [hbits, hor, BitVec.toNat_ofNat, Nat.mod_eq_of_lt hlt]
  · unfold Coder.shiftIn
    rw [Coder.refill_unread]
    apply Coder.unread_shorten hm
    case hcount => exact (BitVec.toNat_ofNat ..).trans (Nat.mod_eq_of_lt hcount)
    all_goals rfl

end shift

/-! ## One side of a split -/

section sides

variable {c : Coder} (hw : c.WindowOk) {z : Nat}
include hw

/-- DecLps takes the side below the split (R159). -/
theorem Coder.decLps_decodesTo (hz : c.a.toNat < z) (hz' : z ≤ 0x10000) (hle : z ≤ c.a.toNat + 0x8000) :
    ∃ m, LeadingOnes (c.a.toNat + 0x10000 - z) m ∧
      c.DecodesTo (c.decLps z) m (c.a.toNat + 0x10000 - z) (c.code.toNat + 0x10000 - z) := by
  obtain ⟨-, -, hcount, -⟩ := hw
  have hones : LeadingOnes (c.a.toNat + 0x10000 - z) (leadingOnes 16 (c.a.toNat + 0x10000 - z)) :=
    leadingOnes_count (by omega) (by omega)
  obtain ⟨-, hm, -, -⟩ := id hones
  refine ⟨_, hones, ?_⟩
  unfold Coder.decLps
  dsimp only
  rw [← Nat.add_sub_assoc hz', ← Nat.add_sub_assoc hz']
  exact Coder.shiftIn_decodesTo (by omega) _ _ hm

/-- DecMps takes the side above the split and doubles once (R160). -/
theorem Coder.decMps_decodesTo (z : Nat) : c.DecodesTo (c.decMps z) 1 z c.code.toNat := by
  obtain ⟨-, -, hcount, -⟩ := hw
  exact Coder.shiftIn_decodesTo (by omega) _ _ (by norm_num)

end sides

/-! ## The decoding commands -/

/-- A decoding command writes `rd` last (R161). -/
theorem State.setReg_bitWord_reg (u : State) (rd : RegNum) (b : Bool) (r : RegNum) :
    (u.setReg rd (bitWord b)).reg r = if r = rd then (if b then 1 else 0) else u.reg r :=
  u.setReg_reg rd r (bitWord b)

/-- Up to FENCE the predicted bit comes out and A moves to the split (R161). -/
theorem Coder.decodeAdaptive_fast (c : Coder) {prob : Nat} (mps : Bool)
    (h : c.a.toNat + prob ≤ c.fence.toNat) :
    c.decodeAdaptive prob mps = (mps, { c with a := BitVec.ofNat 16 (c.a.toNat + prob) }) := if_pos h

section slow

variable {c : Coder} (hw : c.WindowOk) {prob : Nat} (mps : Bool)
  (hz : c.fence.toNat < c.a.toNat + prob)
include hz

/-- Past FENCE the bit is told by the side of the clamped split that CODE lies on (R161). -/
theorem Coder.decodeAdaptive_slow :
    c.decodeAdaptive prob mps =
      if c.code.toNat < clampSplit (c.a.toNat + prob) c.a.toNat then
        (!mps, c.decLps (clampSplit (c.a.toNat + prob) c.a.toNat))
      else (mps, c.decMps (clampSplit (c.a.toNat + prob) c.a.toNat)) := if_neg (Nat.not_le.2 hz)

include hw

theorem Coder.decodeAdaptive_below (ha : c.a.toNat < 0x8000) (hp : 1 ≤ prob) (hp' : prob ≤ 0x8000)
    (hcode : c.code.toNat < clampSplit (c.a.toNat + prob) c.a.toNat) :
    (c.decodeAdaptive prob mps).1 = !mps ∧
      ∃ m, LeadingOnes (c.a.toNat + 0x10000 - clampSplit (c.a.toNat + prob) c.a.toNat) m ∧
        c.DecodesTo (c.decodeAdaptive prob mps).2 m
          (c.a.toNat + 0x10000 - clampSplit (c.a.toNat + prob) c.a.toNat)
          (c.code.toNat + 0x10000 - clampSplit (c.a.toNat + prob) c.a.toNat) := by
  obtain ⟨hlo, hhi, hle, -⟩ := clampSplit_bounds ha hp hp'
  rw [Coder.decodeAdaptive_slow mps hz, if_pos hcode]
  exact ⟨rfl, Coder.decLps_decodesTo hw hlo (by omega) (by omega)⟩

theorem Coder.decodeAdaptive_above
    (hcode : clampSplit (c.a.toNat + prob) c.a.toNat ≤ c.code.toNat) :
    (c.decodeAdaptive prob mps).1 = mps ∧
      c.DecodesTo (c.decodeAdaptive prob mps).2 1 (clampSplit (c.a.toNat + prob) c.a.toNat)
        c.code.toNat := by
  rw [Coder.decodeAdaptive_slow mps hz, if_neg (Nat.not_lt.2 hcode)]
  exact ⟨rfl, Coder.decMps_decodesTo hw _⟩

end slow

/-- Settles O32: the three paths of AC.DEC, the two past FENCE with the side of the split they take. -/
theorem decodeAdaptiveBit : Obligations.DecodeAdaptiveBit := by
  intro s rd c hf hm hb k mps a z zc
  obtain ⟨ha, -, -, hw⟩ := hb
  replace hw := hw hm
  obtain ⟨hp, hp'⟩ := prob_bounds s.cfg k
  have hzc : clampSplit z a = zc := clampSplit_eq z a
  rw [← hzc]
  refine ⟨_, (s.coder.decodeAdaptive (s.cfg.prob k) mps).1, exec_acDec_of_dec rd c hf hm, rfl,
    State.setReg_bitWord_reg _ _ _, fun hz => ?_, fun hz hcode => ?_, fun hz hcode => ?_⟩
  · have hfast := s.coder.decodeAdaptive_fast mps hz
    exact ⟨congrArg Prod.fst hfast, congrArg Prod.snd hfast⟩
  · exact Coder.decodeAdaptive_below hw mps hz ha hp hp' hcode
  · exact Coder.decodeAdaptive_above hw mps hz hcode

/-- A command that decodes at a split: `rd` says on which side CODE lies, and that side is taken
(R162, R163). -/
theorem exec_decodesSplit {i : Instr} {s : State} {rd : RegNum} {z : Nat} (hw : s.coder.WindowOk)
    (hz : 0x8000 ≤ z ∧ s.coder.a.toNat < z ∧ z < 0xC000 ∧ z ≤ s.coder.a.toNat + 0x8000)
    (hexec : exec i s = .next ((s.setCoder (s.coder.decodeSplit z).2).setReg rd
      (bitWord (s.coder.decodeSplit z).1))) :
    ∃ t, exec i s = .next t ∧ t = { s with coder := t.coder, x := t.x } ∧
      (∀ r, t.reg r = if r = rd then (if s.coder.code.toNat < z then 1 else 0) else s.reg r) ∧
      (s.coder.code.toNat < z → ∃ m, LeadingOnes (s.coder.a.toNat + 0x10000 - z) m ∧
        s.coder.DecodesTo t.coder m (s.coder.a.toNat + 0x10000 - z) (s.coder.code.toNat + 0x10000 - z)) ∧
      (z ≤ s.coder.code.toNat → s.coder.DecodesTo t.coder 1 z s.coder.code.toNat) := by
  obtain ⟨-, hlo, hhi, hle⟩ := hz
  refine ⟨_, hexec, rfl, fun r => ?_, fun hcode => ?_, fun hcode => ?_⟩
  · have hbit : (s.coder.decodeSplit z).1 = decide (s.coder.code.toNat < z) := by
      unfold Coder.decodeSplit
      split <;> simp_all
    rw [State.setReg_bitWord_reg, hbit]
    simp only [decide_eq_true_eq]
    rfl
  · obtain ⟨m, hones, hto⟩ := Coder.decLps_decodesTo hw hlo (by omega) hle
    have hbelow : s.coder.decodeSplit z = (true, s.coder.decLps z) := if_pos hcode
    exact ⟨m, hones, (congrArg Prod.snd hbelow).symm ▸ hto⟩
  · have habove : s.coder.decodeSplit z = (false, s.coder.decMps z) := if_neg (Nat.not_lt.2 hcode)
    exact (congrArg Prod.snd habove).symm ▸ Coder.decMps_decodesTo hw z

/-- Settles O33: AC.DECP and AC.DECB decode at their splits. -/
theorem decodeFixedSplitBit : Obligations.DecodeFixedSplitBit := by
  intro s rd hf hm hb a codes
  obtain ⟨ha, -, -, hw⟩ := hb
  replace hw := hw hm
  exact ⟨exec_decodesSplit hw (splitPass_range ha)
      (splitPass_eq a ▸ exec_acDecp_of_dec rd hf hm),
    exec_decodesSplit hw (splitBalanced_range ha)
      (splitBalanced_eq a ▸ exec_acDecb_of_dec rd hf hm)⟩

/-! ## Contexts -/

/-- Settles O34: the function is the choice between CONFIRM and FLIP. -/
theorem contextUpdateIsOneFunction : Obligations.ContextUpdateIsOneFunction := by
  refine ⟨Config.adapt, fun s t rd c hf hwf ht => ⟨fun h d => ?_, fun h d => ?_⟩⟩
  · obtain rfl : t = s.encodeCtx c (s.regBit rd) :=
      exec_completed (P := fun u => u = s.encodeCtx c (s.regBit rd)) (Q := fun _ _ => True) h nofun hf ht rfl
    exact State.setCtxAt_ctxAt hwf c d _
  · obtain rfl : t = (s.decodeCtx c).2.setReg rd (bitWord (s.decodeCtx c).1) :=
      exec_completed (P := fun u => u = (s.decodeCtx c).2.setReg rd (bitWord (s.decodeCtx c).1))
        (Q := fun _ _ => True) h nofun hf ht rfl
    rw [State.setReg_bitWord_bit, State.setReg_ctxAt]
    exact State.setCtxAt_ctxAt hwf c d _

end Sys2Proof.Machine
end

section
/-! # Opening and closing a session

AC.DINIT is six bytes read one after the other. AC.CLOSE is the flush loop, the final 1 with the release of the
run, and the padding; what each gives OutBit is put together to the bits of OUT. -/

namespace Sys2Proof.Machine

/-! ## Opening -/

theorem exec_acEinit_of_idle {s : State} (hf : s.faulted = false) (hm : s.coder.mode = .idle) :
    exec .acEinit s = .next (s.setCoder s.coder.openEncoder) :=
  exec_of_checks nofun hf rfl (by simp [modeCheck, hm])

theorem exec_acDinit_of_idle {s : State} (hf : s.faulted = false) (hm : s.coder.mode = .idle) :
    exec .acDinit s = .next (s.setCoder s.coder.openDecoder) :=
  exec_of_checks nofun hf rfl (by simp [modeCheck, hm])

/-- Settles O26: the registers that AC.EINIT loads are those of `Coder.openEncoder`. -/
theorem openEncoder : Obligations.OpenEncoder := fun _ hf hm => exec_acEinit_of_idle hf hm

/-- The byte of IN at an index, the fill past its end (R157). -/
def Coder.inputByte (c : Coder) (n : Nat) : Byte := c.input.getD n Config.fill

/-- `n` bytes of IN or fill have been read from its start. -/
def Coder.HasRead (c : Coder) (n : Nat) : Prop := c.inpos = min n c.input.length

section reading

variable {c : Coder} {n : Nat} (h : c.HasRead n)
include h

theorem Coder.HasRead.getD_eq : c.input.getD c.inpos Config.fill = c.inputByte n := by
  unfold Coder.HasRead at h
  unfold Coder.inputByte
  by_cases hn : n < c.input.length
  · rw [h, Nat.min_eq_left hn.le]
  · rw [List.getD_eq_default _ _ (by omega), List.getD_eq_default _ _ (by omega)]

theorem Coder.HasRead.inpos_next :
    (if c.inpos < c.input.length then c.inpos + 1 else c.inpos) = min (n + 1) c.input.length := by
  unfold Coder.HasRead at h
  split <;> omega

theorem Coder.HasRead.nextByte_eq :
    c.nextByte = (c.inputByte n, { c with inpos := min (n + 1) c.input.length }) := by
  rw [Coder.nextByte_eq, h.getD_eq, h.inpos_next]

theorem Coder.HasRead.loadByte_eq :
    c.loadByte = { c with
      inpos := min (n + 1) c.input.length
      ibuf := (c.ibuf <<< 8) ||| (c.inputByte n).setWidth 32
      iscount := c.iscount + 8 } := by
  rw [Coder.loadByte, h.getD_eq, h.inpos_next]

end reading

/-- A byte shifted into IBUF counts as its last digit to base 256, while there is room for it (R158). -/
theorem toNat_shift_or_byte {v : BitVec 32} (b : Byte) (hv : v.toNat < 2 ^ 24) :
    ((v <<< 8) ||| b.setWidth 32).toNat = v.toNat * 256 + b.toNat := by
  have hb := b.isLt
  rw [BitVec.toNat_or, BitVec.toNat_shiftLeft, Nat.shiftLeft_eq, BitVec.toNat_setWidth,
    Nat.mod_eq_of_lt (by omega), Nat.mod_eq_of_lt (by omega), ← Nat.shiftLeft_eq,
    ← Nat.shiftLeft_add_eq_or_of_lt hb, Nat.shiftLeft_eq]

/-- Bytes read into IBUF until it holds 32 bits: they are its digits to base 256, behind what it held
(R158). -/
theorem Coder.preload_digits (fuel : Nat) {c : Coder} {n : Nat} (h : c.HasRead n)
    (hcount : c.iscount.toNat + 8 * fuel = 32) (hibuf : c.ibuf.toNat < 2 ^ c.iscount.toNat) :
    ∃ v, Coder.preload fuel c =
        { c with ibuf := v, iscount := 32, inpos := min (n + fuel) c.input.length } ∧
      v.toNat = (List.range fuel).foldl (fun x j => x * 256 + (c.inputByte (n + j)).toNat)
        c.ibuf.toNat := by
  induction fuel generalizing c n with
  | zero =>
    have h32 : c.iscount = 32 := BitVec.eq_of_toNat_eq hcount
    refine ⟨c.ibuf, ?_, rfl⟩
    unfold Coder.HasRead at h
    rw [Coder.preload_zero, Nat.add_zero, ← h, ← h32]
  | succ fuel ih =>
    have hle : c.iscount.toNat ≤ 24 := by omega
    have hb := (c.inputByte n).isLt
    have hpow : 2 ^ c.iscount.toNat ≤ 2 ^ 24 := Nat.pow_le_pow_right (by norm_num) hle
    have hload := h.loadByte_eq
    have hcount' := Coder.loadByte_iscount hle
    have hibuf' : c.loadByte.ibuf.toNat = c.ibuf.toNat * 256 + (c.inputByte n).toNat := by
      rw [hload]
      exact toNat_shift_or_byte _ (by omega)
    have hread : c.loadByte.HasRead (n + 1) := by rw [hload]; rfl
    have hinput : ∀ j, c.loadByte.inputByte j = c.inputByte j := fun _ => rfl
    obtain ⟨v, hv, hdigits⟩ := ih hread (by omega) (by
      rw [hcount', hibuf', pow_add]
      omega)
    refine ⟨v, ?_, ?_⟩
    · rw [Coder.preload_succ, if_pos hle, hv, hload, Nat.add_right_comm, Nat.add_assoc]
    · rw [hdigits, hibuf', List.range_succ_eq_map, List.foldl_cons, List.foldl_map]
      simp only [hinput, Nat.add_assoc, Nat.add_zero, Nat.succ_eq_add_one, Nat.add_comm 1]

theorem toNat_bytes (hi lo : Byte) : (hi ++ lo : BitVec 16).toNat = hi.toNat * 256 + lo.toNat := by
  rw [BitVec.toNat_append, ← Nat.shiftLeft_add_eq_or_of_lt lo.isLt, Nat.shiftLeft_eq]

/-- The six reads of AC.DINIT (R156): the first two bytes to CODE, the others to IBUF. -/
theorem Coder.openDecoder_eq (c : Coder) :
    c.openDecoder =
      { (Coder.preload 4
          { c with inpos := min 2 c.input.length, a := 0, code := c.inputByte 0 ++ c.inputByte 1,
                   ibuf := 0, iscount := 0 }).setFence with mode := .dec } := by
  have h0 : Coder.nextByte { c with inpos := 0, a := 0 } =
      (c.inputByte 0, { c with inpos := min 1 c.input.length, a := 0 }) :=
    Coder.HasRead.nextByte_eq (Nat.zero_min _).symm
  have h1 : Coder.nextByte { c with inpos := min 1 c.input.length, a := 0 } =
      (c.inputByte 1, { c with inpos := min 2 c.input.length, a := 0 }) :=
    Coder.HasRead.nextByte_eq rfl
  dsimp only [Coder.openDecoder]
  rw [h0]
  dsimp only
  rw [h1]

/-- Settles O27: two bytes to CODE and four to IBUF, read from the start of IN. -/
theorem openDecoder : Obligations.OpenDecoder := by
  intro s hf hm byte
  obtain ⟨v, hv, hdigits⟩ := Coder.preload_digits 4 (n := 2)
    (c := { s.coder with inpos := min 2 s.coder.input.length, a := 0, ibuf := 0, iscount := 0,
                         code := s.coder.inputByte 0 ++ s.coder.inputByte 1 }) rfl rfl (by simp)
  have hopen := s.coder.openDecoder_eq
  rw [hv] at hopen
  have hcode : (s.coder.inputByte 0 ++ s.coder.inputByte 1 : BitVec 16).toNat = byte 0 * 256 + byte 1 :=
    toNat_bytes _ _
  refine ⟨_, exec_acDinit_of_idle hf hm, rfl, ?_⟩
  rw [State.setCoder_coder, hopen]
  refine ⟨rfl, hcode, ?_, ?_⟩
  · show (BitVec.ofNat 16 (min _ 0x7FFF)).toNat = _
    rw [BitVec.toNat_ofNat, hcode]
    omega
  · have hbytes : v.toNat = (List.range 4).foldl (fun x j => x * 256 + byte (2 + j)) 0 := hdigits
    exact hbytes.trans (by simp [List.range_succ])

/-! ## Closing -/

theorem roundSubend_cases (sub : Nat) :
    roundSubend sub = 0 ∨ roundSubend sub = 0x8000 ∨ roundSubend sub = 0x10000 := by
  unfold roundSubend
  split
  · exact .inr (.inr rfl)
  · split
    · exact .inr (.inl rfl)
    · exact .inl (by omega)

theorem roundSubend_eq (sub : Nat) :
    (roundSubend sub : Int) = if 0x8000 < sub then 0x10000 else if 0 < sub then 0x8000 else 0 := by
  unfold roundSubend
  split
  · rfl
  · split
    · rfl
    · omega

/-- What is pending in an encoder when AC.CLOSE has rounded SUBEND, as one number (R141, R153). -/
def Coder.pending (c : Coder) : Int :=
  ((c.buffer.toNat : Int) + 1) * 2 ^ 16 - roundSubend c.subend.toNat

/-- The flush loop, the final 1 and the release of the run (R153). -/
def Coder.flush (c : Coder) : Coder :=
  ((Coder.flushTurns 26 c (roundSubend c.subend.toNat)).outBit true).releaseRun false

theorem Coder.closeEncoder_eq (c : Coder) :
    c.closeEncoder =
      { Coder.padByte (c.flush.delay.toNat + 8) c.flush with delay := 0xFF, mode := .idle } := rfl

/-- The flush empties BUFFER, SUBEND and the run; the digits it decides, with 1 as 1 and 0 as -1, stand for
what was pending. -/
theorem Coder.flush_takes {c : Coder} (hk : c.AssemblerOk) :
    (c.flush.subend = 0 ∧ c.flush.buffer = 0xFFFFFF ∧ c.flush.nrun = 0) ∧
      ∃ k digits, c.Takes c.flush digits ∧
        digits.length = c.nrun + k + 1 ∧ (signedValue digits + 1) * 2 ^ 39 = 2 ^ k * c.pending ∧
        ∀ j, j < k ↔ ¬ (2 : Int) ^ 40 ∣ 2 ^ j * c.pending ∨ (c.pending = 0 ∧ j = 0) := by
  obtain ⟨k, digits, htakes, hlength, hvalue, hbuffer, hsub, hturns⟩ :=
    Coder.flushTurns_takes hk (roundSubend_cases c.subend.toNat)
  unfold Coder.flush
  generalize Coder.flushTurns 26 c (roundSubend c.subend.toNat) = c1 at *
  have hone := Coder.outBit_takes htakes.2.2 true
  have hrun := Coder.releaseRun_takes hone.2.2 false
  obtain ⟨⟨out, -, hassembles⟩, -⟩ := c1.outBit_spec true
  obtain ⟨⟨out', hemits⟩, -, hnrun, hbuffer'⟩ := (c1.outBit true).releaseRun_spec false
  have hnrun1 : (c1.outBit true).nrun = c1.nrun := by rw [hassembles]
  rw [hnrun1] at hrun
  refine ⟨⟨?_, ?_, hnrun⟩, k, _, (htakes.trans hone).trans hrun, ?_, ?_, hturns⟩
  · rw [hemits, hassembles]
    exact hsub
  · rw [hbuffer', hassembles]
    exact hbuffer
  · rw [List.length_append, List.length_append, List.length_replicate, List.length_singleton]
    omega
  · rw [signedValue_append, signedValue_append, signedValue_replicate, List.length_replicate]
    have hfinal : signedValue [true] = 1 := rfl
    rw [hfinal, List.length_singleton, if_neg Bool.false_ne_true, Coder.pending, ← hvalue]
    ring

/-- The padding of AC.CLOSE ends the byte with fewer than eight ones, and with none while bits are still
swallowed (R153). -/
theorem Coder.padByte_delivers (fuel : Nat) {c : Coder} (hk : c.AssemblerOk) (hf : 8 ≤ fuel) :
    ∃ pad, pad < 8 ∧ (Coder.padByte fuel c).delivered = c.delivered ++ List.replicate pad true ∧
      (Coder.padByte fuel c).scount = 0 ∧ (Coder.padByte fuel c).obyte = 0 := by
  have hdelay (hs : c.scount ≠ 0) : c.delay = 0 := by
    by_contra hd
    refine hs (BitVec.eq_of_toNat_eq (hk.2.1 (Nat.pos_of_ne_zero fun h => hd ?_)))
    exact BitVec.eq_of_toNat_eq h
  obtain ⟨pad, hpad, ⟨hdelivered, -, hk'⟩, hscount, hzero⟩ := Coder.padByte_takes fuel hk hdelay hf
  refine ⟨pad, hpad, ?_, hscount, ?_⟩
  · rw [hdelivered]
    by_cases h0 : pad = 0
    · simp [h0]
    · rw [hzero h0]
      rfl
  · obtain ⟨-, -, hobyte⟩ := hk'
    rw [hscount] at hobyte
    exact BitVec.eq_of_toNat_eq (Nat.lt_one_iff.1 hobyte)

/-- Nothing is collected at the end of a byte. -/
theorem Coder.delivered_of_scount {c : Coder} (h : c.scount = 0) :
    c.delivered = c.output.flatMap byteBits := by
  unfold Coder.delivered
  rw [h]
  exact List.append_nil _

/-- The registers of an encoder after AC.CLOSE (R153). -/
theorem Coder.closeEncoder_registers {c : Coder} (hsub : c.closeEncoder.subend = 0)
    (hbuffer : c.closeEncoder.buffer = 0xFFFFFF) (hnrun : c.closeEncoder.nrun = 0)
    (hobyte : c.closeEncoder.obyte = 0) (hscount : c.closeEncoder.scount = 0) :
    c.closeEncoder =
      { c with mode := .idle, subend := 0, buffer := 0xFFFFFF, nrun := 0, delay := 0xFF, obyte := 0,
               scount := 0, output := c.closeEncoder.output } := by
  obtain ⟨hmode, ha, hdelay, -, hcode, hfence, hibuf, hiscount, hinput, hinpos⟩ := c.closeEncoder_spec
  rw [← hmode, ← ha, ← hdelay, ← hcode, ← hfence, ← hibuf, ← hiscount, ← hinput, ← hinpos, ← hsub,
    ← hbuffer, ← hnrun, ← hobyte, ← hscount]

/-- What AC.CLOSE makes of an encoder (R153): the registers it leaves, and the bits of OUT. -/
theorem Coder.closeEncoder_flushes {c : Coder} (hk : c.AssemblerOk) :
    c.closeEncoder = { c with mode := .idle, subend := 0, buffer := 0xFFFFFF, nrun := 0, delay := 0xFF,
                              obyte := 0, scount := 0, output := c.closeEncoder.output } ∧
      ∃ (k pad : Nat) (digits : List Bool),
        (∀ j, j < k ↔ ¬ (2 : Int) ^ 40 ∣ 2 ^ j * c.pending ∨ (c.pending = 0 ∧ j = 0)) ∧
        digits.length = c.nrun + k + 1 ∧ (signedValue digits + 1) * 2 ^ 39 = 2 ^ k * c.pending ∧
        pad < 8 ∧ c.closeEncoder.output.flatMap byteBits =
          c.delivered ++ digits.drop c.delay.toNat ++ List.replicate pad true := by
  obtain ⟨⟨hsub, hbuffer, hnrun⟩, k, digits, ⟨hdelivered, -, hk2⟩, hlength, hvalue, hturns⟩ :=
    Coder.flush_takes hk
  have hclose := c.closeEncoder_eq
  generalize c.flush = c2 at *
  obtain ⟨pad, hpad, hpadded, hscount, hobyte⟩ :=
    Coder.padByte_delivers (c2.delay.toNat + 8) hk2 (by omega)
  obtain ⟨out, hframe⟩ := Coder.padByte_spec (c2.delay.toNat + 8) c2
  generalize Coder.padByte (c2.delay.toNat + 8) c2 = c3 at *
  refine ⟨Coder.closeEncoder_registers ?_ ?_ ?_ ?_ ?_, k, pad, digits, hturns, hlength, hvalue, hpad, ?_⟩
  · rw [hclose, hframe]
    exact hsub
  · rw [hclose, hframe]
    exact hbuffer
  · rw [hclose, hframe]
    exact hnrun
  · rw [hclose]
    exact hobyte
  · rw [hclose]
    exact hscount
  · rw [hclose, ← hdelivered, ← hpadded, Coder.delivered_of_scount hscount]

/-- Bits of whole bytes that are fewer than eight are none. -/
theorem eq_nil_of_flatMap_byteBits {out : List Byte} (h : (out.flatMap byteBits).length < 8) :
    out = [] := by
  cases out with
  | nil => rfl
  | cons b out =>
    rw [List.flatMap_cons, List.length_append] at h
    have : (byteBits b).length = 8 := rfl
    omega

/-- In a session with no bit coded the flush takes no turn, so its one digit is the final 1, which DELAY
swallows (R153). -/
theorem Coder.close_openEncoder_output (c : Coder) : c.openEncoder.closeEncoder.output = [] := by
  have hk : c.openEncoder.AssemblerOk :=
    ⟨show (25 : Nat) ≤ 25 by norm_num, fun _ => rfl, show (0 : Nat) < 2 ^ 0 by norm_num⟩
  obtain ⟨-, k, pad, digits, hturns, hlength, -, hpad, hbits⟩ := Coder.closeEncoder_flushes hk
  have hpending : c.openEncoder.pending = 2 ^ 40 := by
    have hbuffer : c.openEncoder.buffer.toNat = 0xFFFFFF := rfl
    have hround : roundSubend c.openEncoder.subend.toNat = 0 := rfl
    rw [Coder.pending, hbuffer, hround]
    norm_num
  have hk0 : k = 0 := by
    by_contra hk0
    rw [hpending] at hturns
    rcases (hturns 0).1 (Nat.pos_of_ne_zero hk0) with h | ⟨h, -⟩
    · exact h (Dvd.intro_left _ rfl)
    · norm_num at h
  have hswallowed : digits.drop 25 = [] := by
    have hnrun : c.openEncoder.nrun = 0 := rfl
    exact List.drop_eq_nil_of_le (by omega)
  apply eq_nil_of_flatMap_byteBits
  have hdelay : c.openEncoder.delay.toNat = 25 := rfl
  have hempty : c.openEncoder.delivered = [] := rfl
  rwa [hbits, hdelay, hempty, hswallowed, List.append_nil, List.nil_append, List.length_replicate]

theorem exec_acClose_of_open {s : State} (hf : s.faulted = false) (hm : s.coder.mode ≠ .idle) :
    exec .acClose s = .next (s.setCoder s.coder.close) :=
  exec_of_checks nofun hf rfl (by simp [hm])

theorem Coder.close_of_enc {c : Coder} (hm : c.mode = .enc) : c.close = c.closeEncoder := by
  unfold Coder.close
  rw [hm]

theorem Coder.close_of_dec {c : Coder} (hm : c.mode = .dec) : c.close = { c with mode := .idle } := by
  unfold Coder.close
  rw [hm]

/-- Settles O37: the flush of an encoder, the mode of a decoder, and the flush of a session just opened. -/
theorem closeFlushesTheEncoder : Obligations.CloseFlushesTheEncoder := by
  refine ⟨?_, fun s hf hm => ?_, fun s t u hf hm ht hu => ?_⟩
  · intro s hf hm hb sub r
    obtain ⟨-, -, hk, -⟩ := hb
    obtain ⟨hregisters, k, pad, digits, hturns, hlength, hvalue, hpad, hbits⟩ :=
      Coder.closeEncoder_flushes (hk hm)
    obtain ⟨-, -, -, ⟨out, hout⟩, -⟩ := s.coder.closeEncoder_spec
    have hr : r = s.coder.pending := by
      rw [Coder.pending, roundSubend_eq]
    rw [hr]
    have hexec := exec_acClose_of_open hf (s := s) (by simp [hm])
    rw [Coder.close_of_enc hm] at hexec
    exact ⟨_, k, pad, digits, hexec, rfl, hregisters, hout ▸ List.prefix_append .., hturns, hlength,
      hvalue, hpad, hbits⟩
  · rw [exec_acClose_of_open hf (by simp [hm]), Coder.close_of_dec hm]
    rfl
  · rw [exec_acEinit_of_idle hf hm] at ht
    cases ht
    have hopen : (s.setCoder s.coder.openEncoder).coder.mode ≠ .idle := by simp [Coder.openEncoder]
    cases (exec_acClose_of_open (s := s.setCoder s.coder.openEncoder) hf hopen).symm.trans hu
    exact s.coder.close_openEncoder_output

end Sys2Proof.Machine
end

section
/-! # The passes of the wavelet transform

WT.FWD and WT.BWD share their operand block and its checks, and differ in the passes they make over the
rectangle; `TransformCommand` pairs each command with its passes. -/

namespace Sys2Proof.Machine

/-! ## The checks (R181) -/

/-- A command of the transform and the passes it makes (R186, R187). -/
inductive TransformCommand (ra : RegNum) (lo hi : Byte) :
    Instr → (Rect → Nat → Nat → Mem 16 → Mem 16) → Prop where
  | forward : TransformCommand ra lo hi (.wtFwd ra lo hi) forwardTransform
  | backward : TransformCommand ra lo hi (.wtBwd ra lo hi) inverseTransform

/-- R181's conditions on the scales and the rectangle of a transform over `limit` samples. -/
structure Rect.Passes (r : Rect) (limit lo hi : Nat) : Prop where
  scale_lo : isScale lo = true
  scale_hi : isScale hi = true
  lo_le_hi : lo ≤ hi
  w_pos : 0 < r.w
  h_pos : 0 < r.h
  w_le_rs : r.w ≤ r.rs
  fits : r.base + (r.h - 1) * r.rs + r.w ≤ limit

/-- A legal command that no check stops takes its effect. -/
theorem exec_of_no_failing_check {i : Instr} {s : State} (hi : i ≠ .reset) (hf : s.faulted = false)
    (hk : firstFault ((i.wellFormed, .illegal) :: commandChecks i s) = none) :
    exec i s = .next ((commandEffect i s).settle (encode i)) :=
  have hpass := firstFault_eq_none.1 hk
  exec_of_checks hi hf (hpass _ (List.mem_cons_self ..)) fun c hc => hpass c (List.mem_cons_of_mem _ hc)

theorem runFits_four_iff (ra : RegNum) : RegNum.runFits ra 4 = true ↔ ¬ 12 < ra.toNat := by
  rw [RegNum.runFits, decide_eq_true_eq]
  omega

theorem isScale_iff (n : Nat) :
    isScale n = true ↔ n = 1 ∨ n = 2 ∨ n = 4 ∨ n = 8 ∨ n = 16 ∨ n = 32 := by
  simp [isScale]

theorem State.rectAt_eq (s : State) (ra : RegNum) : s.rectAt ra =
    { base := (s.reg ra).toNat, w := (s.reg (ra + 1)).toNat, h := (s.reg (ra + 2)).toNat,
      rs := (s.reg (ra + 3)).toNat } := by
  rw [← State.regRun_zero]
  rfl

@[simp] theorem State.setWb_rectAt (s : State) (m : Mem 16) (ra : RegNum) :
    (s.setWb m).rectAt ra = s.rectAt ra := rfl

/-- The checks of a transform from legality on, in order: the run of registers, the scales and the shape of
the rectangle, and its end. -/
theorem firstFault_scaleChecks (s : State) (ra : RegNum) (lo hi : Byte) :
    firstFault ((RegNum.runFits ra 4, .illegal) :: scaleChecks s ra lo hi) =
      if 12 < ra.toNat then some .illegal
      else if ¬ isScale lo.toNat = true ∨ ¬ isScale hi.toNat = true ∨ hi.toNat < lo.toNat ∨
        (s.rectAt ra).w = 0 ∨ (s.rectAt ra).h = 0 ∨ (s.rectAt ra).rs < (s.rectAt ra).w then
        some .logicOperand
      else if s.cfg.wbWords < (s.rectAt ra).base + ((s.rectAt ra).h - 1) * (s.rectAt ra).rs +
        (s.rectAt ra).w then some .address
      else none := by
  have hshape : (isScale lo.toNat = true ∧ isScale hi.toNat = true ∧ lo.toNat ≤ hi.toNat ∧
      (s.rectAt ra).w ≠ 0 ∧ (s.rectAt ra).h ≠ 0 ∧ (s.rectAt ra).w ≤ (s.rectAt ra).rs) ↔
      ¬ (¬ isScale lo.toNat = true ∨ ¬ isScale hi.toNat = true ∨ hi.toNat < lo.toNat ∨
        (s.rectAt ra).w = 0 ∨ (s.rectAt ra).h = 0 ∨ (s.rectAt ra).rs < (s.rectAt ra).w) := by
    simp only [not_or, not_not, not_lt, ne_eq]
  simp only [scaleChecks, firstFault_cons, firstFault_nil, runFits_four_iff, State.rectInWb_iff,
    Bool.and_eq_true, decide_eq_true_eq, and_assoc, hshape, ite_not]
  simp only [← not_lt, ite_not]

/-- A transform takes no fault exactly when its registers and its rectangle meet R181. -/
theorem firstFault_scaleChecks_eq_none (s : State) (ra : RegNum) (lo hi : Byte) :
    firstFault ((RegNum.runFits ra 4, .illegal) :: scaleChecks s ra lo hi) = none ↔
      ra.toNat ≤ 12 ∧ (s.rectAt ra).Passes s.cfg.wbWords lo.toNat hi.toNat := by
  simp only [firstFault_eq_none, scaleChecks, List.forall_mem_cons, List.not_mem_nil, runFits_four_iff,
    Bool.and_eq_true, decide_eq_true_eq, State.rectInWb_iff, false_implies, implies_true, and_true, not_lt,
    ← Nat.pos_iff_ne_zero]
  constructor
  · rintro ⟨hra, ⟨⟨⟨⟨⟨hlo, hhi⟩, hle⟩, hw⟩, hh⟩, hrs⟩, hfit⟩
    exact ⟨hra, hlo, hhi, hle, hw, hh, hrs, hfit⟩
  · rintro ⟨hra, hlo, hhi, hle, hw, hh, hrs, hfit⟩
    exact ⟨hra, ⟨⟨⟨⟨⟨hlo, hhi⟩, hle⟩, hw⟩, hh⟩, hrs⟩, hfit⟩

section command

variable {s : State} {ra : RegNum} {lo hi : Byte} {c : Instr}
  {passes : Rect → Nat → Nat → Mem 16 → Mem 16}

theorem TransformCommand.exec_of_failing_check (hc : TransformCommand ra lo hi c passes)
    (hf : s.faulted = false) {k : FaultKind}
    (hk : firstFault ((RegNum.runFits ra 4, .illegal) :: scaleChecks s ra lo hi) = some k) :
    exec c s = .next (s.takeFault k (encode c)) := by
  cases hc <;> exact Machine.exec_of_failing_check nofun hf hk

/-- A transform that meets R181 makes its passes over the work buffer (R186, R187). -/
theorem TransformCommand.exec_of_passes (hc : TransformCommand ra lo hi c passes)
    (hf : s.faulted = false) (hra : ra.toNat ≤ 12)
    (hr : (s.rectAt ra).Passes s.cfg.wbWords lo.toNat hi.toNat) :
    exec c s = .next (s.setWb (passes (s.rectAt ra) lo.toNat hi.toNat s.wb)) := by
  have hk := (firstFault_scaleChecks_eq_none s ra lo hi).2 ⟨hra, hr⟩
  cases hc <;> exact exec_of_no_failing_check nofun hf hk

/-- A transform that takes no fault has met R181 and made its passes. -/
theorem TransformCommand.of_completed (hc : TransformCommand ra lo hi c passes) (hf : s.faulted = false)
    {t : State} (h : exec c s = .next t) (ht : t.faulted = false) :
    ra.toNat ≤ 12 ∧ (s.rectAt ra).Passes s.cfg.wbWords lo.toNat hi.toNat ∧
      t = s.setWb (passes (s.rectAt ra) lo.toNat hi.toNat s.wb) := by
  cases hk : firstFault ((RegNum.runFits ra 4, .illegal) :: scaleChecks s ra lo hi) with
  | some k =>
    rw [hc.exec_of_failing_check hf hk] at h
    cases h
    cases ht
  | none =>
    obtain ⟨hra, hr⟩ := (firstFault_scaleChecks_eq_none s ra lo hi).1 hk
    rw [hc.exec_of_passes hf hra hr] at h
    cases h
    exact ⟨hra, hr, rfl⟩

end command

/-! ## The frame (R181, R186, R187, R192) -/

theorem scales_self (n : Nat) : scales n n = [] := by
  refine List.filter_eq_nil_iff.2 fun k _ => ?_
  simp

section frame

variable {ra : RegNum} {lo hi : Byte} {c : Instr} {passes : Rect → Nat → Nat → Mem 16 → Mem 16}

theorem TransformCommand.onlyGrid (hc : TransformCommand ra lo hi c passes) {r : Rect}
    {limit l h : Nat} (hr : r.Passes limit l h) {m : Mem 16} (hm : m.wf limit = true) :
    r.OnlyGrid limit l m (passes r l h m) := by
  cases hc
  case forward => exact forwardTransform_spec hr.scale_lo hr.fits hm
  case backward => exact inverseTransform_spec hr.scale_lo hr.fits hm

/-- An empty range of scales has no passes (R186, R187). -/
theorem TransformCommand.passes_self (hc : TransformCommand ra lo hi c passes) (r : Rect) (n : Nat)
    (m : Mem 16) : passes r n n m = m := by
  cases hc
  case forward => rw [forwardTransform, scales_self, List.foldl_nil]
  case backward => rw [inverseTransform, scales_self, List.reverse_nil, List.foldl_nil]

end frame

/-- Settles O57: the checks are R181's in order, and past them the passes change only the `begin`-grid. -/
theorem transformChecksAndFrame : Obligations.TransformChecksAndFrame := by
  intro s ra lo hi c hmem hf hwb base w h rs scale stops
  obtain ⟨passes, hc⟩ : ∃ passes, TransformCommand ra lo hi c passes := by
    rcases List.mem_pair.1 hmem with rfl | rfl
    · exact ⟨_, .forward⟩
    · exact ⟨_, .backward⟩
  have hchecks := firstFault_scaleChecks s ra lo hi
  rw [State.rectAt_eq] at hchecks
  simp only [isScale_iff] at hchecks
  split
  case isTrue hra =>
    rw [if_pos hra] at hchecks
    exact hc.exec_of_failing_check hf hchecks
  case isFalse hra =>
  rw [if_neg hra] at hchecks
  split
  case isTrue hshape =>
    rw [if_pos hshape] at hchecks
    exact hc.exec_of_failing_check hf hchecks
  case isFalse hshape =>
  rw [if_neg hshape] at hchecks
  split
  case isTrue hfit =>
    rw [if_pos hfit] at hchecks
    exact hc.exec_of_failing_check hf hchecks
  case isFalse hfit =>
    rw [if_neg hfit] at hchecks
    obtain ⟨hra, hr⟩ := (firstFault_scaleChecks_eq_none s ra lo hi).1 hchecks
    refine ⟨_, hc.exec_of_passes hf hra hr, rfl, ?_, fun a ha => ?_⟩
    · rintro rfl
      rw [hc.passes_self]
      rfl
    · refine (hc.onlyGrid hr hwb).2 a fun x hx y hy hgx hgy hxy => ?_
      rw [State.rectAt_eq] at hx hy hxy
      exact ha x y hx hy (Nat.mod_eq_zero_of_dvd hgx) (Nat.mod_eq_zero_of_dvd hgy) hxy.symm

end Sys2Proof.Machine
end

section
/-! # The forward transform

One scale is a pass over the rows and a pass over the columns, and the lines of a pass are disjoint; so each
line is lifted by itself, and a range of scales is any cut of it one part after the other. -/

namespace Sys2Proof.Machine

/-! ## The lines of a pass are disjoint (R184, R185) -/

section grid

variable {r : Rect} {limit lo hi g : Nat}

theorem Rect.Passes.index_lt (hr : r.Passes limit lo hi) (hg : 0 < g) {i j : Nat}
    (hi : i < ceilDiv r.w g) (hj : j < ceilDiv r.h g) : r.index (i * g) (j * g) < limit :=
  Rect.index_lt hr.fits (ceilDiv_mul_lt hg hi) (ceilDiv_mul_lt hg hj)

theorem Rect.Passes.index_inj (hr : r.Passes limit lo hi) (hg : 0 < g) {i i' j j' : Nat}
    (hi : i < ceilDiv r.w g) (hi' : i' < ceilDiv r.w g)
    (h : r.index (i * g) (j * g) = r.index (i' * g) (j' * g)) : i = i' ∧ j = j' := by
  obtain ⟨hx, hy⟩ := Rect.index_inj hr.w_le_rs (ceilDiv_mul_lt hg hi) (ceilDiv_mul_lt hg hi') h
  exact ⟨Nat.eq_of_mul_eq_mul_right hg hx, Nat.eq_of_mul_eq_mul_right hg hy⟩

/-- A horizontal pass lifts every row on the grid (R184). -/
theorem horizontalPass_lifts (hr : r.Passes limit lo hi) (hg : 0 < g) {m : Mem 16}
    (hm : m.wf limit = true) {y : Nat} (hy : y < r.h) (hgrid : y % g = 0) :
    LiftsTo (ceilDiv r.w g) (fun k => m.read (r.index (k * g) y))
      fun k => (horizontalPass Line.forward r g m).read (r.index (k * g) y) := by
  obtain ⟨hline, hmul⟩ := grid_lt hg hy hgrid
  have h := liftLines_lifts (index := fun j k => r.index (k * g) (j * g))
    (fun j hj k hk => hr.index_lt hg hk hj)
    (fun j _ j' _ k hk k' hk' e => (hr.index_inj hg hk hk' e).symm) hm hline
  simp only [hmul] at h
  exact h

/-- A vertical pass lifts every column on the grid (R185). -/
theorem verticalPass_lifts (hr : r.Passes limit lo hi) (hg : 0 < g) {m : Mem 16}
    (hm : m.wf limit = true) {x : Nat} (hx : x < r.w) (hgrid : x % g = 0) :
    LiftsTo (ceilDiv r.h g) (fun k => m.read (r.index x (k * g)))
      fun k => (verticalPass Line.forward r g m).read (r.index x (k * g)) := by
  obtain ⟨hline, hmul⟩ := grid_lt hg hx hgrid
  have h := liftLines_lifts (index := fun i k => r.index (i * g) (k * g))
    (fun i hi k hk => hr.index_lt hg hi hk)
    (fun i hi i' hi' k _ k' _ e => hr.index_inj hg hi hi' e) hm hline
  simp only [hmul] at h
  exact h

end grid

/-! ## One scale, and a range of scales (R186) -/

theorem forwardTransform_one {g : Nat} (hg : g = 1 ∨ g = 2 ∨ g = 4 ∨ g = 8 ∨ g = 16) (r : Rect)
    (m : Mem 16) : forwardTransform r g (2 * g) m =
      verticalPass Line.forward r g (horizontalPass Line.forward r g m) := by
  rw [forwardTransform, scales_one hg, List.foldl_cons, List.foldl_nil]

theorem forwardTransform_append {lo mid hi : Nat} (h : lo ≤ mid) (h' : mid ≤ hi) (r : Rect) (m : Mem 16) :
    forwardTransform r mid hi (forwardTransform r lo mid m) = forwardTransform r lo hi m := by
  simp only [forwardTransform, ← List.foldl_append, scales_append h h']

theorem isScale_of_one {g : Nat} (hg : g = 1 ∨ g = 2 ∨ g = 4 ∨ g = 8 ∨ g = 16) :
    isScale g = true ∧ isScale (2 * g) = true := by
  simp only [isScale_iff]
  omega

/-- `t` is `s` after one scale `g` of WT.FWD over `r`, and `mid` the picture between its two passes. -/
structure ForwardScale (r : Rect) (g : Nat) (s t mid : Mem 16) : Prop where
  rows : ∀ y < r.h, y % g = 0 → LiftsTo (ceilDiv r.w g) (fun k => s.read (r.index (k * g) y))
    fun k => mid.read (r.index (k * g) y)
  columns : ∀ x < r.w, x % g = 0 → LiftsTo (ceilDiv r.h g) (fun k => mid.read (r.index x (k * g)))
    fun k => t.read (r.index x (k * g))
  frame : ∀ a, (∀ x < r.w, ∀ y < r.h, g ∣ x → g ∣ y → r.index x y ≠ a) →
    mid.read a = s.read a ∧ t.read a = s.read a

theorem forwardTransform_scale {r : Rect} {limit g : Nat}
    (hg : g = 1 ∨ g = 2 ∨ g = 4 ∨ g = 8 ∨ g = 16) (hr : r.Passes limit g (2 * g)) {m : Mem 16}
    (hm : m.wf limit = true) :
    ForwardScale r g m (forwardTransform r g (2 * g) m) (horizontalPass Line.forward r g m) := by
  have hg0 : 0 < g := by omega
  have hhor := horizontalPass_spec Line.forward_length hg0 dvd_rfl hr.fits hm
  have hver := verticalPass_spec Line.forward_length hg0 dvd_rfl hr.fits hhor.1
  rw [forwardTransform_one hg]
  exact {
    rows := fun y hy hgrid => horizontalPass_lifts hr hg0 hm hy hgrid
    columns := fun x hx hgrid => verticalPass_lifts hr hg0 hhor.1 hx hgrid
    frame := fun a ha => ⟨hhor.2 a ha, (hhor.trans hver).2 a ha⟩ }

/-- WT.FWD at one scale (R186). -/
theorem exec_wtFwd_scale {s : State} {ra : RegNum} {lo hi : Byte} {r : Rect} (hf : s.faulted = false)
    (hwb : s.wb.wf s.cfg.wbWords = true) (hra : ra.toNat ≤ 12) (he : s.rectAt ra = r)
    (hlo : lo.toNat = 1 ∨ lo.toNat = 2 ∨ lo.toNat = 4 ∨ lo.toNat = 8 ∨ lo.toNat = 16)
    (hhi : hi.toNat = 2 * lo.toNat) (hr : r.Passes s.cfg.wbWords lo.toNat (2 * lo.toNat)) :
    ∃ t mid, exec (.wtFwd ra lo hi) s = .next t ∧ s.SameButWb t ∧ ForwardScale r lo.toNat s.wb t.wb mid := by
  subst he
  have hexec := TransformCommand.forward.exec_of_passes (hi := hi) hf hra (hhi ▸ hr)
  rw [hhi] at hexec
  exact ⟨_, _, hexec, rfl, forwardTransform_scale hlo hr hwb⟩

/-! ## One row (R182) -/

/-- A line of one sample stays. -/
theorem LiftsTo.one {v w : Nat → Sample} (h : LiftsTo 1 v w) : w 0 = v 0 := h 0 one_pos

/-- What `LiftsTo` says of the lifted line, it says of its `len` samples alone. -/
theorem LiftsTo.congr {len : Nat} {v w w' : Nat → Sample} (h : LiftsTo len v w)
    (hw : ∀ k < len, w' k = w k) : LiftsTo len v w' := by
  intro k hk
  dsimp only
  by_cases hlen : len < 2
  · rw [hw k hk, h k hk, if_pos hlen, if_pos hlen]
  · have hodd : ∀ j : Int, w' (min (max j 1) ((2 * (len / 2) : Nat) - 1)).toNat =
        w (min (max j 1) ((2 * (len / 2) : Nat) - 1)).toNat := fun j => hw _ (by omega)
    rw [hw k hk, h k hk, if_neg hlen, if_neg hlen, hodd, hodd]

/-- On a rectangle of one row, WT.FWD at scale 1 lifts the row and leaves it to the columns to keep it. -/
theorem ForwardScale.lifts_row {r : Rect} {s t mid : Mem 16} (h : ForwardScale r 1 s t mid)
    (hh : r.h = 1) : LiftsTo r.w (fun k => s.read (r.base + k)) fun k => t.read (r.base + k) := by
  have hone : ∀ n, ceilDiv n 1 = n := fun n => by simp [ceilDiv]
  have hrow := h.rows 0 (hh ▸ one_pos) rfl
  simp only [Rect.index, hone, Nat.mul_one, Nat.zero_mul, Nat.add_zero] at hrow
  refine hrow.congr fun k hk => ?_
  have hcol := h.columns k hk (Nat.mod_one k)
  rw [hone, hh] at hcol
  simpa [Rect.index] using hcol.one

/-- Settles O58: each line of a scale is lifted by itself, a row alone is a scale whose columns have one
sample, and the scales of two ranges in a row are those of the whole. -/
theorem forwardLiftingOfARow : Obligations.ForwardLiftingOfARow := by
  refine ⟨?_, ?_, ?_⟩
  · intro s ra hf hwb base w hra hw hh hrs hfit even odd
    have hr : Rect.Passes ⟨base, w, (s.reg (ra + 2)).toNat, (s.reg (ra + 3)).toNat⟩ s.cfg.wbWords 1 2 :=
      { scale_lo := rfl, scale_hi := rfl, lo_le_hi := one_le_two, w_pos := by dsimp only; omega
        h_pos := by dsimp only; omega, w_le_rs := hrs
        fits := by simpa only [hh, Nat.sub_self, Nat.zero_mul, Nat.add_zero] using hfit }
    obtain ⟨t, mid, hexec, hframe, hscale⟩ := exec_wtFwd_scale (lo := 1) (hi := 2) hf hwb hra
      (s.rectAt_eq ra) (.inl rfl) rfl hr
    refine ⟨t, hexec, hframe, fun k hk => ?_⟩
    exact (ForwardScale.lifts_row hscale hh k hk).trans (if_neg hw.not_gt)
  · intro s ra lo hi hf hwb base w h rs g hra hg hhi hw hh hrs hfit
    obtain ⟨hslo, hshi⟩ := isScale_of_one hg
    have hr : Rect.Passes ⟨base, w, h, rs⟩ s.cfg.wbWords g (2 * g) :=
      ⟨hslo, hshi, by omega, hw, hh, hrs, hfit⟩
    obtain ⟨t, mid, hexec, hframe, hscale⟩ := exec_wtFwd_scale hf hwb hra (s.rectAt_eq ra) hg hhi hr
    refine ⟨t, mid.read, hexec, hframe, fun y hy hgrid => ?_, fun x hx hgrid => ?_, fun a ha => ?_⟩
    · exact hscale.rows y hy hgrid
    · exact hscale.columns x hx hgrid
    · exact hscale.frame a fun x hx y hy hgx hgy e =>
        ha x y hx hy (Nat.mod_eq_zero_of_dvd hgx) (Nat.mod_eq_zero_of_dvd hgy) e.symm
  · intro s t u ra lo mid hi hf ht htf hu huf
    obtain ⟨hra, hr, rfl⟩ := TransformCommand.forward.of_completed hf ht htf
    obtain ⟨-, hr', rfl⟩ := TransformCommand.forward.of_completed htf hu huf
    have hall : (s.rectAt ra).Passes s.cfg.wbWords lo.toNat hi.toNat :=
      { hr with scale_hi := hr'.scale_hi, lo_le_hi := hr.lo_le_hi.trans hr'.lo_le_hi }
    rw [TransformCommand.forward.exec_of_passes hf hra hall,
      ← forwardTransform_append hr.lo_le_hi hr'.lo_le_hi]
    rfl

end Sys2Proof.Machine
end

section
/-! # The backward transform undoes the forward one

The inverse lifting of a line reads, at each step, just the samples that the forward step it undoes has read
and left alone; so it takes back what was added, modulo `2^16`. The lines of a pass are disjoint, so a pass
is undone line by line, and the scales are undone from the last to the first. -/

namespace Sys2Proof.Machine

/-! ## One line (R182, R183) -/

theorem wrap16_add_cancel (x : Sample) {d e : Int} (h : e = -d) :
    wrap16 ((wrap16 (x.toInt + d)).toInt + e) = x := by
  unfold wrap16
  rw [h, BitVec.ofInt_add, BitVec.ofInt_toInt, BitVec.ofInt_add, BitVec.ofInt_toInt,
    BitVec.ofInt_neg, add_neg_cancel_right]

theorem Line.onOdd_cancel (v : Line) {f g : Nat → Int} (h : ∀ k, k % 2 = 1 → g k = -f k) :
    (v.onOdd f).onOdd g = v := by
  refine List.ext_getElem (by simp) fun k _ _ => ?_
  simp only [Line.onOdd, List.getElem_mapIdx]
  split
  case isTrue hk => exact wrap16_add_cancel _ (h k hk)
  case isFalse => rfl

theorem Line.onEven_cancel (v : Line) {f g : Nat → Int} (h : ∀ k, k % 2 = 0 → g k = -f k) :
    (v.onEven f).onEven g = v := by
  refine List.ext_getElem (by simp) fun k _ _ => ?_
  simp only [Line.onEven, List.getElem_mapIdx]
  split
  case isTrue hk => exact wrap16_add_cancel _ (h k hk)
  case isFalse => rfl

theorem Line.getD_onOdd (v : Line) (f : Nat → Int) {i : Nat} (hi : i % 2 = 0) :
    (v.onOdd f).getD i 0 = v.getD i 0 := by
  have hodd : ¬ i % 2 = 1 := by omega
  simp only [Line.onOdd, List.getD_eq_getElem?_getD, List.getElem?_mapIdx, if_neg hodd, Option.map_id']

theorem Line.getD_onEven (v : Line) (f : Nat → Int) {i : Nat} (hi : i % 2 = 1) :
    (v.onEven f).getD i 0 = v.getD i 0 := by
  have heven : ¬ i % 2 = 0 := by omega
  simp only [Line.onEven, List.getD_eq_getElem?_getD, List.getElem?_mapIdx, if_neg heven, Option.map_id']

theorem Line.evenAt_onOdd (v : Line) (f : Nat → Int) {j : Int} (hj : j % 2 = 0) :
    Line.evenAt (v.onOdd f) j = Line.evenAt v j := by
  unfold Line.evenAt Line.clamped
  rw [Line.onOdd_length, Line.getD_onOdd _ _ (by omega)]

theorem Line.oddAt_onEven (v : Line) (f : Nat → Int) (hv : 2 ≤ v.length) {j : Int} (hj : j % 2 = 1) :
    Line.oddAt (v.onEven f) j = Line.oddAt v j := by
  unfold Line.oddAt Line.clamped
  rw [Line.onEven_length, Line.getD_onEven _ _ (by omega)]

/-- The prediction of an odd sample reads no odd sample. -/
theorem Line.predict_onOdd (v : Line) (f : Nat → Int) {k : Nat} (hk : k % 2 = 1) :
    Line.predict (v.onOdd f) k = Line.predict v k := by
  unfold Line.predict
  dsimp only
  rw [Line.evenAt_onOdd _ _ (by omega), Line.evenAt_onOdd _ _ (by omega), Line.evenAt_onOdd _ _ (by omega),
    Line.evenAt_onOdd _ _ (by omega)]

/-- The update of an even sample reads no even sample. -/
theorem Line.update_onEven (v : Line) (f : Nat → Int) (hv : 2 ≤ v.length) {k : Nat} (hk : k % 2 = 0) :
    Line.update (v.onEven f) k = Line.update v k := by
  unfold Line.update
  dsimp only
  rw [Line.oddAt_onEven _ _ hv (by omega), Line.oddAt_onEven _ _ hv (by omega)]

/-- Inverse lifting undoes forward lifting, also where samples wrap (R183, R188). -/
theorem Line.inverse_forward (v : Line) : v.forward.inverse = v := by
  by_cases hlen : v.length < 2
  · rw [Line.forward, if_pos hlen, Line.inverse, if_pos hlen]
  · rw [Line.inverse, Line.forward_length, if_neg hlen, Line.forward, if_neg hlen]
    dsimp only
    have hp : 2 ≤ (v.onOdd fun k => -Line.predict v k).length := by
      rw [Line.onOdd_length]
      omega
    rw [Line.onEven_cancel _ fun k hk => by rw [Line.update_onEven _ _ hp hk]]
    exact Line.onOdd_cancel _ fun k hk => by rw [Line.predict_onOdd _ _ hk, neg_neg]

/-! ## One pass (R184, R185) -/

theorem read_of_lineAt_eq {len : Nat} {index : Nat → Nat} {m m' : Mem 16}
    (h : lineAt len index m = lineAt len index m') {k : Nat} (hk : k < len) :
    m.read (index k) = m'.read (index k) :=
  List.map_inj_left.1 h k (List.mem_range.2 hk)

section pass

variable {limit n len : Nat} {index : Nat → Nat → Nat}
  (hi : ∀ y < n, ∀ k < len, index y k < limit)

include hi in
/-- A loop over lines changes no sample off them. -/
theorem liftLines_frame {lift : Line → Line} (hl : ∀ v, (lift v).length = v.length) {m : Mem 16}
    (hm : m.wf limit = true) {a : Nat} (ha : ∀ y < n, ∀ k < len, index y k ≠ a) :
    ((List.range n).foldl (fun m y => liftLine lift len (index y) m) m).read a = m.read a := by
  refine (foldl_keeps (P := fun m' => m'.wf limit = true ∧ m'.read a = m.read a)
    (fun m' y hy ⟨hw, hread⟩ => ?_) m ⟨hm, rfl⟩).2
  have hy := List.mem_range.1 hy
  obtain ⟨hw', hoff, -⟩ := liftLine_spec hl hw (hi y hy)
  exact ⟨hw', (hoff a (ha y hy)).trans hread⟩

include hi in
/-- A loop over disjoint lines is undone by a loop over the same lines that undoes each of them. -/
theorem liftLines_cancel {lift unlift : Line → Line} (hl : ∀ v, (lift v).length = v.length)
    (hl' : ∀ v, (unlift v).length = v.length) (hcancel : ∀ v, unlift (lift v) = v)
    (hinj : ∀ y < n, ∀ y' < n, ∀ k < len, ∀ k' < len, index y k = index y' k' → y = y' ∧ k = k')
    {m : Mem 16} (hm : m.wf limit = true) :
    (List.range n).foldl (fun m y => liftLine unlift len (index y) m)
      ((List.range n).foldl (fun m y => liftLine lift len (index y) m) m) = m := by
  obtain ⟨hw, hlines⟩ := liftLines_spec hl hi hinj hm le_rfl
  obtain ⟨hw', hlines'⟩ := liftLines_spec hl' hi hinj hw le_rfl
  refine Mem.ext hw' hm fun a => ?_
  by_cases ha : ∃ y < n, ∃ k < len, index y k = a
  · obtain ⟨y, hy, k, hk, rfl⟩ := ha
    refine read_of_lineAt_eq ?_ hk
    rw [hlines' y hy, if_pos hy, hlines y hy, if_pos hy, hcancel]
  · push Not at ha
    rw [liftLines_frame hi hl' hw ha, liftLines_frame hi hl hm ha]

end pass

section scale

variable {r : Rect} {limit lo hi g : Nat} {m : Mem 16}

theorem horizontalPass_cancel (hr : r.Passes limit lo hi) (hg : 0 < g) (hm : m.wf limit = true) :
    horizontalPass Line.inverse r g (horizontalPass Line.forward r g m) = m :=
  liftLines_cancel (index := fun y k => r.index (k * g) (y * g)) (fun _ hy _ hk => hr.index_lt hg hk hy)
    Line.forward_length Line.inverse_length Line.inverse_forward
    (fun _ _ _ _ _ hk _ hk' e => (hr.index_inj hg hk hk' e).symm) hm

theorem verticalPass_cancel (hr : r.Passes limit lo hi) (hg : 0 < g) (hm : m.wf limit = true) :
    verticalPass Line.inverse r g (verticalPass Line.forward r g m) = m :=
  liftLines_cancel (index := fun x k => r.index (x * g) (k * g)) (fun _ hx _ hk => hr.index_lt hg hx hk)
    Line.forward_length Line.inverse_length Line.inverse_forward
    (fun _ hx _ hx' _ _ _ _ e => hr.index_inj hg hx hx' e) hm

end scale

/-! ## The scales (R186, R187) -/

/-- Steps that are each undone in states with `P`, which each keeps, are undone together in reverse order. -/
theorem foldl_reverse_cancel {σ α : Type} {P : σ → Prop} {f g : σ → α → σ} {l : List α}
    (hf : ∀ m, ∀ x ∈ l, P m → P (f m x) ∧ g (f m x) x = m) :
    ∀ m, P m → l.reverse.foldl g (l.foldl f m) = m := by
  induction l with
  | nil => exact fun m _ => rfl
  | cons x l ih =>
    intro m hm
    obtain ⟨hP, hcancel⟩ := hf m x (List.mem_cons_self ..) hm
    rw [List.reverse_cons, List.foldl_append, List.foldl_cons (f := f),
      ih (fun m y hy => hf m y (List.mem_cons_of_mem _ hy)) _ hP, List.foldl_cons, List.foldl_nil]
    exact hcancel

/-- The passes of WT.BWD undo those of WT.FWD (R188). -/
theorem inverseTransform_forwardTransform {r : Rect} {limit lo hi : Nat} (hr : r.Passes limit lo hi)
    {m : Mem 16} (hm : m.wf limit = true) :
    inverseTransform r lo hi (forwardTransform r lo hi m) = m := by
  refine foldl_reverse_cancel (P := fun m => m.wf limit = true) (fun m g hg hm => ?_) m hm
  obtain ⟨hg0, -⟩ := scales_spec hr.scale_lo hg
  have hhor := (horizontalPass_spec Line.forward_length hg0 dvd_rfl hr.fits hm).1
  have hver := (verticalPass_spec Line.forward_length hg0 dvd_rfl hr.fits hhor).1
  refine ⟨hver, ?_⟩
  rw [verticalPass_cancel hr hg0 hhor, horizontalPass_cancel hr hg0 hm]

/-- Settles O59: WT.BWD finds the operand block that WT.FWD found, and its passes undo those of WT.FWD. -/
theorem backwardUndoesForward : Obligations.BackwardUndoesForward := by
  intro s t u ra lo hi hf hwb ht htf hu
  obtain ⟨hra, hr, rfl⟩ := TransformCommand.forward.of_completed hf ht htf
  rw [TransformCommand.backward.exec_of_passes htf hra hr] at hu
  cases hu
  rw [State.setWb_rectAt, State.setWb_wb, inverseTransform_forwardTransform hr hwb]
  rfl

end Sys2Proof.Machine
end

section
/-! # The colour commands

WT.RGB2YCC and WT.YCC2RGB are one loop over three planes with another body; `ColourCommand` pairs each command
with its body. Where the planes are disjoint, a turn of the loop reads samples that no turn before it has
written. -/

namespace Sys2Proof.Machine

/-! ## The checks (R189) -/

/-- A colour command and what it does to three samples (R189, R190). -/
inductive ColourCommand (ra : RegNum) :
    Instr → (Sample → Sample → Sample → Sample × Sample × Sample) → Prop where
  | rgb2ycc : ColourCommand ra (.wtRgb2ycc ra) rgbToYcc
  | ycc2rgb : ColourCommand ra (.wtYcc2rgb ra) yccToRgb

theorem firstFault_planeChecks (s : State) {ra : RegNum} (hra : ra.toNat ≤ 12) :
    firstFault ((RegNum.runFits ra 4, .illegal) :: planeChecks s ra) =
      if s.cfg.wbWords < s.regRun ra 0 + s.regRun ra 3 ∨ s.cfg.wbWords < s.regRun ra 1 + s.regRun ra 3 ∨
        s.cfg.wbWords < s.regRun ra 2 + s.regRun ra 3 then some .address else none := by
  have hrun : RegNum.runFits ra 4 = true := (runFits_four_iff ra).2 (by omega)
  simp only [planeChecks, firstFault_cons, firstFault_nil, hrun, State.planeInWb_iff, Bool.and_eq_true,
    and_assoc, if_true]
  simp only [← not_lt, ← not_or, ite_not]

section command

variable {s : State} {ra : RegNum} {c : Instr} {f : Sample → Sample → Sample → Sample × Sample × Sample}

theorem ColourCommand.exec_of_failing_check (hc : ColourCommand ra c f) (hf : s.faulted = false)
    {k : FaultKind} (hk : firstFault ((RegNum.runFits ra 4, .illegal) :: planeChecks s ra) = some k) :
    exec c s = .next (s.takeFault k (encode c)) := by
  cases hc <;> exact Machine.exec_of_failing_check nofun hf hk

theorem ColourCommand.exec_of_checks (hc : ColourCommand ra c f) (hf : s.faulted = false)
    (hk : firstFault ((RegNum.runFits ra 4, .illegal) :: planeChecks s ra) = none) :
    exec c s = .next (s.setWb
      (colourLoop f (s.regRun ra 0) (s.regRun ra 1) (s.regRun ra 2) (s.regRun ra 3) s.wb)) := by
  cases hc <;> exact exec_of_no_failing_check nofun hf hk

end command

/-! ## Disjoint planes (R189) -/

/-- The three samples at index `i` of three planes. -/
def planesAt (b0 b1 b2 : Nat) (m : Mem 16) (i : Nat) : Sample × Sample × Sample :=
  (m.read (b0 + i), m.read (b1 + i), m.read (b2 + i))

/-- No two of the planes share a sample among their first `n`. -/
def PlanesDisjoint (b0 b1 b2 n : Nat) : Prop :=
  ∀ i j, i < n → j < n → b0 + i ≠ b1 + j ∧ b0 + i ≠ b2 + j ∧ b1 + i ≠ b2 + j

section planes

variable {f : Sample → Sample → Sample → Sample × Sample × Sample} {limit b0 b1 b2 n : Nat}
  {m : Mem 16}

theorem colourLoop_succ (n : Nat) (m : Mem 16) :
    colourLoop f b0 b1 b2 (n + 1) m = colourStep f b0 b1 b2 (colourLoop f b0 b1 b2 n m) n := by
  rw [colourLoop, List.range_succ, List.foldl_append, List.foldl_cons, List.foldl_nil, colourLoop]

/-- One turn of the colour loop on disjoint planes writes the three samples at its index and no other of the
planes. -/
theorem planesAt_colourStep (hd : PlanesDisjoint b0 b1 b2 n) (h0 : b0 + n ≤ limit) (h1 : b1 + n ≤ limit)
    (hm : m.wf limit = true) {i j : Nat} (hi : i < n) (hj : j < n) :
    planesAt b0 b1 b2 (colourStep f b0 b1 b2 m i) j =
      if j = i then f (m.read (b0 + i)) (m.read (b1 + i)) (m.read (b2 + i)) else planesAt b0 b1 b2 m j := by
  have hw0 := fun v => Mem.wf_write hm (show b0 + i < limit by omega) v
  have hw1 := fun v v' => Mem.wf_write (hw0 v) (show b1 + i < limit by omega) v'
  obtain ⟨h01, h02, h12⟩ := hd i j hi hj
  obtain ⟨h01', h02', h12'⟩ := hd j i hj hi
  have hread : ∀ v0 v1 v2 a, (m.writeAll [(b0 + i, v0), (b1 + i, v1), (b2 + i, v2)]).read a =
      if a = b2 + i then v2 else if a = b1 + i then v1 else if a = b0 + i then v0 else m.read a := by
    intro v0 v1 v2 a
    simp only [Mem.writeAll, List.foldl_cons, List.foldl_nil]
    rw [Mem.read_write _ _ _ (hw1 v0 v1), Mem.read_write _ _ _ (hw0 v0), Mem.read_write _ _ _ hm]
  simp only [planesAt, colourStep, hread, if_neg h01', if_neg h02', if_neg h12', if_neg h01.symm,
    if_neg h02.symm, if_neg h12.symm, Nat.add_left_cancel_iff]
  split <;> rfl

/-- The colour loop on disjoint planes turns the samples at each index by its body (R189, R190). -/
theorem planesAt_colourLoop (hd : PlanesDisjoint b0 b1 b2 n) (h0 : b0 + n ≤ limit) (h1 : b1 + n ≤ limit)
    (h2 : b2 + n ≤ limit) (hm : m.wf limit = true) {k : Nat} (hk : k ≤ n) {i : Nat} (hi : i < n) :
    planesAt b0 b1 b2 (colourLoop f b0 b1 b2 k m) i =
      if i < k then f (m.read (b0 + i)) (m.read (b1 + i)) (m.read (b2 + i)) else planesAt b0 b1 b2 m i := by
  induction k generalizing i with
  | zero => rfl
  | succ k ih =>
    have hkn : k < n := hk
    obtain ⟨hloop, -⟩ := colourLoop_spec f (show b0 + k ≤ limit by omega) (show b1 + k ≤ limit by omega)
      (show b2 + k ≤ limit by omega) hm
    rw [colourLoop_succ, planesAt_colourStep hd h0 h1 hloop hkn hi]
    by_cases he : i = k
    · subst he
      have hold := ih hkn.le hkn
      rw [if_neg (lt_irrefl i)] at hold
      simp only [planesAt, Prod.mk.injEq] at hold
      obtain ⟨e0, e1, e2⟩ := hold
      rw [if_pos rfl, if_pos (Nat.lt_succ_self i), e0, e1, e2]
    · rw [if_neg he, ih hkn.le hi]
      simp only [show i < k + 1 ↔ i < k by omega]

end planes

/-! ## The colour functions (R189 to R191) -/

theorem toInt_setWidth_byte (b : Byte) : (b.setWidth 16).toInt = b.toNat := by
  rw [BitVec.toInt_eq_toNat_of_lt] <;> simp <;> omega

theorem toInt_signExtend_byte (b : Byte) : (b.signExtend 16).toInt = b.toInt :=
  BitVec.toInt_signExtend_of_le (by decide)

theorem byteOfSample_eq (v : Sample) : byteOfSample v = v.extractLsb' 0 8 := by
  rw [byteOfSample, BitVec.setWidth_eq_extractLsb' (by decide)]

/-- Three samples are read as the integers `y`. -/
def ReadsAs (v : Sample × Sample × Sample) (y0 y1 y2 : Int) : Prop :=
  v.1.toInt = y0 ∧ v.2.1.toInt = y1 ∧ v.2.2.toInt = y2

theorem rgbToYcc_readsAs (r g b : Sample) :
    let v := Config.rgb2ycc (r.extractLsb' 0 8) (g.extractLsb' 0 8) (b.extractLsb' 0 8)
    ReadsAs (rgbToYcc r g b) v.1.toInt v.2.1.toInt v.2.2.toInt := by
  simp only [ReadsAs, rgbToYcc, toInt_signExtend_byte, byteOfSample_eq, and_self]

theorem yccToRgb_readsAs (y cb cr : Sample) :
    let v := Config.ycc2rgb (clampToByte y) (clampToByte cb) (clampToByte cr)
    ReadsAs (yccToRgb y cb cr) v.1.toNat v.2.1.toNat v.2.2.toNat := by
  simp only [ReadsAs, yccToRgb, toInt_setWidth_byte, and_self]

/-- What a colour command does, by what its body makes of the samples read (R189, R190). -/
theorem ColourCommand.converts {s : State} {ra : RegNum} {c : Instr}
    {f : Sample → Sample → Sample → Sample × Sample × Sample} (hc : ColourCommand ra c f)
    (hf : s.faulted = false) (hwb : s.wb.wf s.cfg.wbWords = true) (hra : ra.toNat ≤ 12)
    {b0 b1 b2 n : Nat} (e0 : s.regRun ra 0 = b0) (e1 : s.regRun ra 1 = b1) (e2 : s.regRun ra 2 = b2)
    (en : s.regRun ra 3 = n) {y0 y1 y2 : Nat → Int}
    (hy : ∀ i, ReadsAs (f (s.wb.read (b0 + i)) (s.wb.read (b1 + i)) (s.wb.read (b2 + i)))
      (y0 i) (y1 i) (y2 i)) :
    if s.cfg.wbWords < b0 + n ∨ s.cfg.wbWords < b1 + n ∨ s.cfg.wbWords < b2 + n then
      exec c s = .next { s with faulted := true, fault := 0x0005, faultInfo := encode c }
    else ∃ t, exec c s = .next t ∧ s.SameButWb t ∧
      (∀ a, (∀ i, i < n → a ≠ b0 + i ∧ a ≠ b1 + i ∧ a ≠ b2 + i) → t.wb.read a = s.wb.read a) ∧
      (PlanesDisjoint b0 b1 b2 n → ∀ i, i < n → ReadsAs (planesAt b0 b1 b2 t.wb i) (y0 i) (y1 i) (y2 i)) := by
  have hchecks := firstFault_planeChecks s hra
  rw [e0, e1, e2, en] at hchecks
  split
  case isTrue hout =>
    rw [if_pos hout] at hchecks
    exact hc.exec_of_failing_check hf hchecks
  case isFalse hin =>
    rw [if_neg hin] at hchecks
    push Not at hin
    obtain ⟨h0, h1, h2⟩ := hin
    have hexec := hc.exec_of_checks hf hchecks
    rw [e0, e1, e2, en] at hexec
    refine ⟨_, hexec, rfl, (colourLoop_spec f h0 h1 h2 hwb).2, fun hd i hi => ?_⟩
    rw [State.setWb_wb, planesAt_colourLoop hd h0 h1 h2 hwb le_rfl hi, if_pos hi]
    exact hy i

/-- Settles O60: both commands are the colour loop, whose planes do not meet where they are disjoint. -/
theorem colourPlanes : Obligations.ColourPlanes := by
  intro s ra hf hwb hra
  constructor
  · exact ColourCommand.rgb2ycc.converts hf hwb hra (s.regRun_zero ra) rfl rfl rfl
      fun i => rgbToYcc_readsAs _ _ _
  · exact ColourCommand.ycc2rgb.converts hf hwb hra (s.regRun_zero ra) rfl rfl rfl
      fun i => yccToRgb_readsAs _ _ _

end Sys2Proof.Machine
end

section
/-! # The coefficient store

CS.CREATE and CS.DESTROY replace a store as a whole. What CS.SCATTER and CS.GATHER
leave is known from `Store.ScatteredTo` and `gather_spec`; added here is that the default arena has a place for
every bucket a store can have, and that the samples of the blocks lie in the padded rectangle. -/

namespace Sys2Proof.Machine

/-! ## Making and emptying a store (R205, R206) -/

theorem runFits_two_iff (ra : RegNum) : RegNum.runFits ra 2 = true ↔ ra.toNat ≤ 14 := by
  rw [RegNum.runFits, decide_eq_true_eq]
  omega

theorem dimensionOk_iff (n : Nat) : dimensionOk n = true ↔ ¬ (n = 0 ∨ 65535 < n) := by
  rw [dimensionOk, Bool.and_eq_true, decide_eq_true_eq, decide_eq_true_eq]
  omega

/-- The checks of CS.CREATE in order: the store, then the dimensions. -/
theorem firstFault_csCreate (s : State) (i : Bool) {ra : RegNum} (hra : ra.toNat ≤ 14) :
    firstFault ((Instr.wellFormed (.csCreate i ra), .illegal) :: commandChecks (.csCreate i ra) s) =
      if (s.store i).valid = true then some .logicStore
      else if (s.reg ra).toNat = 0 ∨ (s.reg (ra + 1)).toNat = 0 ∨ 65535 < (s.reg ra).toNat ∨
        65535 < (s.reg (ra + 1)).toNat then some .logicOperand
      else none := by
  have hreg : s.regRun ra 1 = (s.reg (ra + 1)).toNat := rfl
  have hwf : Instr.wellFormed (.csCreate i ra) = true := (runFits_two_iff ra).2 hra
  have hdims : ∀ w h : Nat, (¬ (w = 0 ∨ 65535 < w) ∧ ¬ (h = 0 ∨ 65535 < h)) ↔
      ¬ (w = 0 ∨ h = 0 ∨ 65535 < w ∨ 65535 < h) := by omega
  simp only [commandChecks, firstFault_cons, firstFault_nil, hwf, if_true, State.regRun_zero, hreg,
    Bool.and_eq_true, dimensionOk_iff, hdims, ite_not, Bool.not_eq_true', ← Bool.not_eq_true]

/-- A store that CS.CREATE has made holds no bucket, and so only zeros (R203, R205). -/
theorem Store.create_coefRead (w h blk n : Nat) : (Store.create w h).coefRead blk n = 0 :=
  Store.coefRead_unallocated rfl

theorem blocksAcross_le {n : Nat} (h : n ≤ 65535) : blocksAcross n ≤ 2048 := by
  unfold blocksAcross
  omega

/-- Settles O49: the checks by the first that fails; past them the store is `Store.create`, whose geometry is
that of a well-shaped store. -/
theorem createStore : Obligations.CreateStore := by
  intro s i ra hf hra w h
  have hk := firstFault_csCreate s i hra
  split_ifs at hk ⊢ with hvalid hdims
  case neg =>
    obtain ⟨hw, hh, hw', hh'⟩ : 0 < w ∧ 0 < h ∧ w ≤ 65535 ∧ h ≤ 65535 := by omega
    obtain ⟨-, hiw, hih, hbw, hbh, hnb⟩ := Store.create_wellShaped hw hw' hh hh'
    refine ⟨Store.create w h, ?_, rfl, hiw, hih, hbw, hbh, ?_, ?_, rfl, Store.create_coefRead w h⟩
    · rw [exec_of_no_failing_check (i := .csCreate i ra) nofun hf hk, commandEffect, State.regRun_zero]
      rfl
    · rw [hnb, hbw, hbh, Nat.mul_div_cancel_left _ (by decide), Nat.mul_div_cancel_left _ (by decide)]
    · rw [hnb]
      exact Nat.mul_le_mul (blocksAcross_le hw') (blocksAcross_le hh')
  all_goals exact exec_of_failing_check nofun hf hk

/-- Settles O50: validity is the only check of CS.DESTROY, and its effect is the empty store. -/
theorem destroyStore : Obligations.DestroyStore := by
  intro s i hf
  have hk : firstFault ((Instr.wellFormed (.csDestroy i), .illegal) :: commandChecks (.csDestroy i) s) =
      if (s.store i).valid = true then none else some .logicStore := rfl
  split_ifs at hk ⊢ with hvalid
  · exact exec_of_no_failing_check (i := .csDestroy i) nofun hf hk
  · exact exec_of_failing_check (i := .csDestroy i) nofun hf hk

/-! ## The zigzag order (R202) -/

/-- The row and the column of a coefficient number. -/
def zigzagPosition (n : Fin 1024) : Fin 32 × Fin 32 :=
  (⟨zigzagRow n, zigzagRow_lt n⟩, ⟨zigzagCol n, zigzagCol_lt n⟩)

theorem zigzagPosition_eq_iff {n : Fin 1024} {row col : Fin 32} :
    zigzagPosition n = (row, col) ↔ zigzagRow n = row ∧ zigzagCol n = col := by
  simp [zigzagPosition, Fin.ext_iff]

/-- There are as many numbers as positions, and no two numbers share one. -/
theorem zigzagPosition_bijective : zigzagPosition.Bijective := by
  refine (Fintype.bijective_iff_injective_and_card _).2 ⟨fun m n h => ?_, by simp⟩
  obtain ⟨hrow, hcol⟩ := zigzagPosition_eq_iff.1 h
  exact Fin.ext (zigzag_inj m.isLt n.isLt hrow hcol)

/-- Settles O52: every position is taken, as `zigzagPosition` is bijective, and by one number alone. -/
theorem zigzagIsABijection : Obligations.ZigzagIsABijection := by
  refine ⟨fun n _ => ⟨zigzagRow_lt n, zigzagCol_lt n⟩, fun row col hrow hcol => ?_⟩
  obtain ⟨n, hn⟩ := zigzagPosition_bijective.surjective (⟨row, hrow⟩, ⟨col, hcol⟩)
  obtain ⟨hr, hc⟩ := zigzagPosition_eq_iff.1 hn
  exact ⟨n, n.isLt, hr, hc, fun m hm hmr hmc =>
    zigzag_inj hm n.isLt (hmr.trans hr.symm) (hmc.trans hc.symm)⟩

/-! ## CS.SCATTER with the default arena (R204, R207) -/

/-- The checks of a move that stays inside the work buffer all pass. -/
theorem firstFault_moveChecks_eq_none {s : State} {i : Bool} {ra : RegNum} (hra : ra.toNat ≤ 14)
    (hvalid : (s.store i).valid = true) (hstride : (s.store i).bw.toNat ≤ (s.reg (ra + 1)).toNat)
    (hrect : (s.reg ra).toNat + ((s.store i).bh.toNat - 1) * (s.reg (ra + 1)).toNat +
      (s.store i).bw.toNat ≤ s.cfg.wbWords) :
    firstFault ((RegNum.runFits ra 2, .illegal) :: moveChecks s i ra) = none := by
  rw [firstFault_moveChecks, if_neg (not_lt.2 hra), if_neg (ne_true_of_eq_false · hvalid),
    if_neg (not_lt.2 hstride), if_neg (not_lt.2 hrect)]

/-- A canonical map that lacks a key below its limit is not full. -/
theorem BucketMap.length_lt_of_find_eq_none {limit a : Nat} {m : BucketMap} (hm : m.wf limit = true)
    (ha : a < limit) (hfind : m.find a = none) : m.length < limit := by
  have hput := BucketMap.length_put (a := a) zeroBucket hm
  have hle := BucketMap.length_le (BucketMap.wf_put hm ha zeroBucket)
  rw [hfind] at hput
  simp only [Option.isSome_none, Bool.false_eq_true, if_false] at hput
  omega

/-- The default arena has room for every bucket CS.SCATTER allocates: the store it has made before one that
needs room is canonical and lacks that bucket. -/
theorem scatter_room_of_default_arena {s : State} {i : Bool} {base rs : Nat} (harena : s.cfg.arena = none)
    (hwf : (s.store i).buckets.wf (64 * (s.store i).nb.toNat) = true) {sample : Nat → Nat → Sample}
    (hsample : sample = fun blk n => s.wb.read ((s.store i).sampleIndex base rs blk n))
    {needs : Nat → Bool} (hneeds : needs = fun p => !((s.store i).buckets.find p).isSome &&
      (List.range 16).any fun j => decide (sample (p / 64) (16 * (p % 64) + j) ≠ 0)) (p : Nat)
    (hp : p < 64 * (s.store i).nb.toNat) (hneed : needs p = true) :
    (s.store i).nalloc + (List.range p).countP needs < (s.store i).arenaLimit s.cfg := by
  induction p using Nat.strong_induction_on with
  | _ p ih =>
    obtain ⟨st', -, hst', -⟩ := State.scatterBuckets_scatters hwf hsample hneeds hp.le
      fun p' hlt hneed' => ih p' hlt (hlt.trans hp) hneed'
    have hold : ((s.store i).buckets.find p).isSome = false := by
      rw [hneeds, Bool.and_eq_true, Bool.not_eq_true'] at hneed
      exact hneed.1
    have hlacks : st'.buckets.find p = none := by
      rw [← Option.not_isSome_iff_eq_none, hst'.allocated p]
      simp [hold]
    rw [← hst'.count, Store.arenaLimit, harena, Option.getD_none]
    exact BucketMap.length_lt_of_find_eq_none hst'.canonical hp hlacks

/-- Settles O53: with room for every bucket CS.SCATTER ends past the last one, where `Store.ScatteredTo` is
about the whole store. -/
theorem scatterFillsTheStore : Obligations.ScatterFillsTheStore := by
  intro s i ra hf hm harena st base rs sample hra hvalid hstride hrect
  have hwf := (hm.store i).wf
  obtain ⟨st', hexec, hst'⟩ := exec_csScatter_ends hf hwf
    (firstFault_moveChecks_eq_none hra hvalid hstride hrect) (sample := sample) rfl rfl
    (scatter_room_of_default_arena harena hwf rfl rfl) (.inl rfl)
  rw [if_pos rfl] at hexec
  refine ⟨st', hexec, hst'.descriptor, ?_⟩
  intro blk (hblk : blk < (s.store i).nb.toNat)
  refine ⟨fun n hn => ?_, fun bk hbk => ?_⟩
  · rw [hst'.value blk n hn hblk, if_pos (by omega)]
  · have hlast : 64 * blk + bk < 64 * (s.store i).nb.toNat := by omega
    have hdiv : (64 * blk + bk) / 64 = blk := by omega
    have hmod : (64 * blk + bk) % 64 = bk := by omega
    rw [Store.Allocated, hst'.allocated, hdiv, hmod]
    by_cases hold : st.Allocated blk bk
    · exact iff_of_true (.inl hold) (.inl hold)
    · simp [hlast, st, Bool.eq_false_iff.2 hold]

/-! ## CS.GATHER (R209) -/

/-- The sample of a coefficient has a column and a row in the padded rectangle (R201, R202). -/
theorem Store.sampleIndex_eq_rect {st : Store} (h : st.WellShaped) (hv : st.valid = true)
    (base rs : Nat) {blk : Nat} (n : Nat) (hblk : blk < st.nb.toNat) :
    ∃ x y, x < st.bw.toNat ∧ y < st.bh.toNat ∧ st.sampleIndex base rs blk n = base + y * rs + x := by
  unfold Store.WellShaped at h
  rw [if_pos hv] at h
  obtain ⟨-, -, hbw, hbh, hnb, -⟩ := h
  have hacross : st.bw.toNat / 32 = blocksAcross st.iw.toNat := by
    rw [hbw, Nat.mul_div_cancel_left _ (by decide)]
  rw [hnb] at hblk
  have hpos : 0 < blocksAcross st.iw.toNat := Nat.pos_of_ne_zero fun h0 => by simp [h0] at hblk
  have hcol : blk % blocksAcross st.iw.toNat < blocksAcross st.iw.toNat := Nat.mod_lt _ hpos
  have hrow : blk / blocksAcross st.iw.toNat < blocksAcross st.ih.toNat := Nat.div_lt_of_lt_mul hblk
  have := zigzagCol_lt n
  have := zigzagRow_lt n
  refine ⟨32 * (blk % blocksAcross st.iw.toNat) + zigzagCol n,
    32 * (blk / blocksAcross st.iw.toNat) + zigzagRow n, by omega, by omega, ?_⟩
  simp only [Store.sampleIndex, hacross, Nat.add_assoc]

/-- Settles O54: the writes of CS.GATHER by `gather_spec`; a sample outside the rectangle is that of no
coefficient. -/
theorem gatherFillsTheRectangle : Obligations.GatherFillsTheRectangle := by
  intro s i ra hf hm st base rs hra hvalid hstride hrect
  obtain ⟨-, hwb, -, -⟩ := id hm
  have hexec : exec (.csGather i ra) s = .next (s.setWb (s.wb.writeAll (st.gatherCells base rs))) := by
    rw [exec_of_no_failing_check (i := .csGather i ra) nofun hf
      (firstFault_moveChecks_eq_none hra hvalid hstride hrect), commandEffect, State.regRun_zero]
    rfl
  obtain ⟨-, hsamples, hframe⟩ := gather_spec (hm.store i) hvalid hstride hrect hwb
  refine ⟨_, hexec, rfl, fun blk n => hsamples blk n, fun a ha => hframe a fun blk n hblk _ he => ?_⟩
  obtain ⟨x, y, hx, hy, hxy⟩ := Store.sampleIndex_eq_rect (hm.store i) hvalid base rs n hblk
  exact ha x y hx hy (he.symm.trans hxy)

end Sys2Proof.Machine
end

section
/-! # The schedule commands

BPC.INIT, the checks of BPC.SLICE, and the slices that code nothing. `exec_bpcSlice` says what BPC.SLICE is once
its checks pass; what each check asks for is said by `sliceChecks_pass`. -/

namespace Sys2Proof.Machine

/-- Settles O39: the effect is one equation, and its loop over the contexts is `clearBpcContexts_spec`. -/
theorem initialiseTheSchedule : Obligations.InitialiseTheSchedule := by
  intro s hf hctx
  have hexec := exec_of_checks (i := .bpcInit) nofun hf rfl (by simp)
  obtain ⟨-, hread⟩ := clearBpcContexts_spec hctx
  rw [commandEffect_bpcInit, Effect.settle_done] at hexec
  generalize clearBpcContexts s.ctx = m at hexec hread
  exact ⟨_, hexec, rfl, rfl, rfl, rfl, rfl, rfl, fun c => hread c.toNat⟩

/-! ## The checks (R246) -/

/-- A state in which the checks of BPC.SLICE pass, as the statements write it. -/
theorem sliceChecks_pass {s : State} (hm : s.coder.mode ≠ .idle) (hv : s.cs0.valid = true)
    (henc : s.coder.mode = .enc → s.cs1.valid = true ∧ s.cs1.iw = s.cs0.iw ∧ s.cs1.ih = s.cs0.ih) :
    ∀ c ∈ sliceChecks s, c.1 = true := by
  by_cases he : s.coder.mode = .enc
  · obtain ⟨hv1, hw, hh⟩ := henc he
    simp [sliceChecks, he, hv, hv1, hw, hh]
  · simp [sliceChecks, he, hm, hv]

theorem exec_bpcSlice {s : State} (rd : RegNum) (hf : s.faulted = false)
    (hc : ∀ c ∈ sliceChecks s, c.1 = true) :
    exec (.bpcSlice rd) s = .next ((commandEffect (.bpcSlice rd) s).settle (encode (.bpcSlice rd))) :=
  exec_of_checks nofun hf rfl hc

/-- The coding of a slice leaves FAULTED as it was; only AllocationError stops it. -/
theorem bpcSlice_faults (rd : RegNum) (s : State) :
    (commandEffect (.bpcSlice rd) s).Post (fun u => u.faulted = s.faulted) fun k _ => k = .allocation :=
  bpcSlice_post rd rfl (fun _ => s.codeSlice_frame.mono (P' := fun u => u.faulted = s.faulted)
    (fun u hu => by rw [hu.1]) fun _ _ hu => hu.1) fun _ hu _ => hu

/-- Settles O40: each clause is the first check that fails; past the checks only the coding can fault.
(`sliceChecks` is the name of the model's list.) -/
theorem sliceChecksInOrder : Obligations.SliceChecks := by
  intro s rd hf stops
  have stop : ∀ k, firstFault (sliceChecks s) = some k → stops (faultWord k) :=
    fun k hk => exec_of_failing_check nofun hf (by simpa [Instr.wellFormed] using hk)
  split
  case isTrue hidle => exact stop .logicMode (by simp [sliceChecks, hidle])
  case isFalse hidle =>
    split
    case isTrue hv =>
      refine stop .logicStore ?_
      rcases hv with hv | ⟨henc, hv⟩
      · simp [sliceChecks, hidle, hv]
      · simp [sliceChecks, henc, hv]
    case isFalse hv =>
      obtain ⟨hv0, hv1⟩ : s.cs0.valid = true ∧ (s.coder.mode = .enc → s.cs1.valid = true) := by
        simpa using hv
      split
      case isTrue hdim =>
        obtain ⟨henc, hdim⟩ := hdim
        refine stop .logicOperand ?_
        rcases hdim with hd | hd <;> simp [sliceChecks, henc, hv0, hv1 henc, hd]
      case isFalse hdim =>
        intro t ht hfault
        have hc := sliceChecks_pass hidle hv0 fun henc => ⟨hv1 henc, by simpa [henc] using hdim⟩
        rw [exec_bpcSlice rd hf hc] at ht
        cases ht
        have hpost := bpcSlice_faults rd s
        generalize commandEffect (.bpcSlice rd) s = e at hpost hfault ⊢
        cases e with
        | done u => exact absurd (hpost.symm.trans hfault) (by simp [hf])
        | stop k u =>
          obtain rfl : k = .allocation := hpost
          rfl

/-- Settles O44: a fault of the coding leaves it inside its part of the state; one of a check is clean. -/
theorem sliceAllocationError : Obligations.SliceAllocationError := by
  intro s t rd hf h ht _
  have hstop : (commandEffect (.bpcSlice rd) s).Post (fun u => u.faulted = s.faulted) fun _ u =>
      u.sched = s.sched ∧ u.x = s.x ∧ u.wb = s.wb ∧ u.coder.mode = s.coder.mode ∧
        u.store (!s.targetIndex) = s.store (!s.targetIndex) := by
    refine bpcSlice_post rd rfl (fun _ => s.codeSlice_frame.mono (P' := fun u => u.faulted = s.faulted)
      (fun u ⟨hu, _⟩ => by rw [hu]) fun k u ⟨_, hu, hcoder, hother⟩ => ?_) fun _ hu _ => hu
    exact ⟨by rw [hu], by rw [hu], by rw [hu], hcoder.1, hother⟩
  have hindex : decide (s.coder.mode ≠ .enc) = !s.targetIndex := decide_not
  rw [hindex]
  rcases exec_cases h fun _ _ _ _ => hstop with
    ⟨e, -⟩ | ⟨-, hs, -⟩ | ⟨-, -, k, -, rfl⟩ | ⟨-, -, hdone⟩ |
    ⟨-, -, k, u, ⟨hq, hx, hwb, hm, hother⟩, rfl⟩
  · cases e
  · rw [hf] at hs
    cases hs
  · exact ⟨rfl, rfl, rfl, rfl, rfl, by simp⟩
  · rw [hdone, hf] at ht
    cases ht
  · exact ⟨rfl, hq, hx, hwb, hm, by simpa using hother⟩

/-! ## Slices that code nothing (R227 to R229) -/

theorem Schedule.thr_pos (q : Schedule) {b : Fin 10} {c : Fin 9} (h : b.val = c.val + 1) (i : Fin 16) :
    q.thr b i = q.qhi[c].toNat := by
  unfold Schedule.thr
  rw [dif_neg (by omega)]
  simp only [h, Nat.add_sub_cancel]
  rfl

/-- A threshold is in range, as a proposition (R226). -/
theorem inRange_iff (t : Nat) : inRange t = true ↔ 0 < t ∧ t < 0x8000 := by simp [inRange]

/-- The slice is empty when no threshold of its subband is in range (R227). -/
theorem Schedule.sliceEmpty_of_out_of_range {q : Schedule} {b : Fin 10}
    (hlo : b = 0 → ∀ i : Fin 16, ¬ (0 < q.qlo[i].toNat ∧ q.qlo[i].toNat < 0x8000))
    (hhi : ∀ c : Fin 9, b.val = c.val + 1 → ¬ (0 < q.qhi[c].toNat ∧ q.qhi[c].toNat < 0x8000)) :
    q.sliceEmpty b = true := by
  refine List.all_eq_true.2 fun i _ => ?_
  rw [Bool.not_eq_true', Bool.eq_false_iff, Ne, inRange_iff]
  by_cases hb : b = 0
  · subst hb
    exact hlo rfl i
  · have hc : b.val = (⟨b.val - 1, by omega⟩ : Fin 9).val + 1 := by
      have : b.val ≠ 0 := fun h => hb (Fin.ext h)
      show b.val = b.val - 1 + 1
      omega
    rw [q.thr_pos hc]
    exact hhi _ hc

theorem State.codeSlice_of_empty {s : State} (h : s.sched.sliceEmpty s.sched.curband = true) :
    s.codeSlice = .done s := if_pos h

theorem bitWord_not (b : Bool) : bitWord (!b) = if b then 0 else 1 := by cases b <;> rfl

/-- What the end of a slice leaves in the registers (R247). -/
theorem State.finishSlice_reg (rd r : RegNum) (s : State) :
    (State.finishSlice rd s).reg r =
      if r = rd then (if (State.finishSlice rd s).sched.done then 0 else 1) else s.reg r := by
  unfold State.finishSlice
  dsimp only
  rw [State.setReg_reg, bitWord_not]
  rfl

/-- Settles O41: the effect is a write of `rd`, or the Advance of an unchanged state. -/
theorem sliceWithNothingToCode : Obligations.SliceWithNothingToCode := by
  intro s rd hf hm hv henc
  have hexec := exec_bpcSlice rd hf (sliceChecks_pass hm hv henc)
  rw [commandEffect_bpcSlice] at hexec
  refine ⟨fun hd => ?_, fun hd hlo hhi => ?_⟩
  · rw [if_pos hd] at hexec
    exact ⟨_, hexec, rfl, fun r => State.setReg_reg s rd r 0⟩
  · rw [if_neg (by simp [hd]), State.codeSlice_of_empty (Schedule.sliceEmpty_of_out_of_range hlo hhi)]
      at hexec
    exact ⟨_, hexec, rfl, s.sched.advance_spec, fun r => State.finishSlice_reg rd r s⟩

end Sys2Proof.Machine
end

section
/-! # Completion of a slice

With the default arena no CoefWrite of a slice fails, so its coding runs to its end; what it can have changed on
the way is a property that every Code call and every CoefWrite keeps. -/

namespace Sys2Proof.Machine

/-- With the default arena the coding of a slice runs to its end (R204, R246). -/
theorem codeSlice_completes {s : State} (hm : s.MemoriesOk) (hc : ∀ c ∈ sliceChecks s, c.1 = true)
    (harena : s.cfg.arena = none) : ∃ u, s.codeSlice = .done u := by
  have hpost : s.codeSlice.Post (fun u => s.StoresGrow u ∧ u.coder.mode = s.coder.mode)
      fun _ _ => False := by
    refine State.codeSlice_post ⟨hm.storesGrow, rfl⟩ (fun u k b hu _ => ?_)
      fun u i blk n v ⟨hg, hmode⟩ hi hblk hn => ?_
    · obtain ⟨c', m', e, -, -⟩ := u.code_spec k b
      exact ⟨by rw [e]; exact hu.1, by rw [State.code_mode]; exact hu.2⟩
    · have hnb := nb_of_sliceChecks hm hc i (hmode ▸ hi)
      have hstore := hg.2 i
      have hgrow := hg.coefWrite (i := i) (hnb ▸ hblk) hn v
      have hsome := Store.coefWrite_isSome (st := u.store i) (blk := blk) v (hg.1 ▸ harena)
        (hstore.descriptor.nb_eq ▸ hstore.canonical) (hstore.descriptor.nb_eq ▸ hnb ▸ hblk) hn
      rcases u.coefWrite_cases i blk n v with ⟨st, -, e⟩ | ⟨hnone, -⟩
      · rw [e] at hgrow ⊢
        exact ⟨hgrow, by simpa using hmode⟩
      · rw [hnone] at hsome
        cases hsome
  obtain ⟨u, hu, -⟩ := hpost.exists_done
  exact ⟨u, hu⟩

/-- The coding of a slice leaves the contexts from 112 on (R109, R230). -/
theorem codeSlice_ctx {s : State} (hctx : s.ctx.wf 256 = true) :
    s.codeSlice.Post (fun u => u.ctx.wf 256 = true ∧ ∀ a, 112 ≤ a → u.ctx.read a = s.ctx.read a)
      fun _ _ => True := by
  refine State.codeSlice_post ⟨hctx, fun _ _ => rfl⟩ (fun u k b ⟨hwf, hread⟩ hk => ?_)
    fun u i blk n v hu _ _ _ => State.coefWrite_post blk n v (fun st => by simpa using hu) trivial
  refine ⟨State.code_ctx_wf hwf k b, fun a ha => ?_⟩
  obtain ⟨c', m', e, -, hm⟩ := u.code_spec k b
  rw [e]
  rcases hm with rfl | ⟨c, v, hc, rfl⟩
  · exact hread a ha
  · have hlt := hk c hc
    have hne : a ≠ (BitVec.ofNat 8 c).toNat := by
      rw [BitVec.toNat_ofNat]
      omega
    rw [Mem.read_write _ _ _ hwf, if_neg hne]
    exact hread a ha

/-- Settles O42: the coding completes, the Advance follows it, and each part is kept by the coding. -/
theorem sliceCompletes : Obligations.SliceCompletes := by
  intro s rd hf hm hv henc hmem harena hd target
  have hc := sliceChecks_pass hm hv henc
  obtain ⟨u, hu⟩ := codeSlice_completes hmem hc harena
  have hexec := exec_bpcSlice rd hf hc
  rw [commandEffect_bpcSlice, if_neg (by simp [hd]), hu] at hexec
  obtain ⟨hframe, hcoder, hother⟩ : _ ∧ s.coder.Steps u.coder ∧ _ := by
    simpa only [hu, Effect.post_done] using s.codeSlice_frame
  have hgrow : s.StoresGrow u := by simpa only [hu, Effect.post_done] using codeSlice_storesGrow hmem hc
  obtain ⟨-, hctx⟩ : _ ∧ ∀ a, 112 ≤ a → u.ctx.read a = s.ctx.read a := by
    simpa only [hu, Effect.post_done] using codeSlice_ctx hmem.1
  have hsched : u.sched = s.sched := by rw [hframe]
  have hx : ∀ r, u.reg r = s.reg r := fun r => by rw [hframe]; rfl
  refine ⟨_, hexec, ?_, ?_, ?_, fun r => ?_, hcoder.1, fun c hc => hctx _ hc, hother,
    (hgrow.2 target).descriptor, (hgrow.2 target).allocated⟩
  · show u.faulted = false
    rw [hframe]
    exact hf
  · show State.finishSlice rd u = _
    unfold State.finishSlice
    rw [hframe]
    rfl
  · show s.sched.AdvancedTo (u.sched.advance u.sched.curband)
    rw [hsched]
    exact s.sched.advance_spec
  · exact (State.finishSlice_reg rd r u).trans (by rw [hx]; rfl)

end Sys2Proof.Machine
end

section
/-! # One coefficient

What BPC.SLICE prepares for one coefficient, and what activating or refining it leaves. -/

namespace Sys2Proof.Machine

/-! ## The flags of a coefficient (R232, R233) -/

theorem Store.coefInt_eq_zero {st : Store} {blk n : Nat} : st.coefInt blk n = 0 ↔ st.coefRead blk n = 0 :=
  BitVec.toInt_inj (y := 0)

/-- The flags an encoder prepares (R232). -/
theorem State.prepareCoef_enc {s : State} (hm : s.coder.mode = .enc) (b : Fin 10) (blk n : Nat) (i : Fin 16) :
    s.prepareCoef b blk n i =
      if b = 0 ∧ inRange (s.sched.thr b i) = false then flagZero
      else if s.cs1.coefRead blk n ≠ 0 then flagActive
      else if s.sched.thr b i ≤ (s.cs0.coefInt blk n).natAbs then flagNew ||| flagUnk
      else flagUnk := by
  simp [State.prepareCoef, State.targetIndex, hm, Store.coefInt_eq_zero]

/-- The flags a decoder prepares (R233). -/
theorem State.prepareCoef_dec {s : State} (hm : s.coder.mode = .dec) (b : Fin 10) (blk n : Nat) (i : Fin 16) :
    s.prepareCoef b blk n i =
      if b = 0 ∧ inRange (s.sched.thr b i) = false then flagZero
      else if s.cs0.coefRead blk n ≠ 0 then flagActive
      else flagUnk := by
  simp [State.prepareCoef, State.targetIndex, hm, Store.coefInt_eq_zero]

/-- Settles O46: by the three cases of R232, of which the third alone asks the source. -/
theorem bothSidesPrepareAlike : Obligations.BothSidesPrepareAlike := by
  intro e d b blk n i he hd hsched hnz t f g
  have hf : f = _ := e.prepareCoef_enc he b blk n i
  have hg : g = _ := d.prepareCoef_dec hd b blk n i
  rw [← hsched] at hg
  have hout : inRange t = false ↔ ¬ (0 < t ∧ t < 0x8000) := by rw [← inRange_iff, Bool.not_eq_true]
  have habs : t ≤ (e.cs0.coefInt blk n).natAbs ↔ (t : Int) ≤ |(e.cs0.coefRead blk n).toInt| := by
    rw [← Int.natCast_natAbs, Int.ofNat_le]
    rfl
  rw [← hout, ← habs]
  by_cases hzero : b = 0 ∧ inRange t = false
  case pos =>
    rw [if_pos hzero] at hf hg
    simp [hf, hg, hzero, flagZero, flagActive, flagNew, flagUnk]
  case neg =>
    rw [if_neg hzero] at hf hg
    by_cases hactive : d.cs0.coefRead blk n ≠ 0
    case pos =>
      rw [if_pos (hnz.2 hactive)] at hf
      rw [if_pos hactive] at hg
      simpa [hf, hg, hzero, flagZero, flagActive, flagNew, flagUnk] using hactive
    case neg =>
      rw [if_neg fun h => hactive (hnz.1 h)] at hf
      rw [if_neg hactive] at hg
      split at hf
      case isTrue h => simpa [hf, hg, hzero, flagZero, flagActive, flagNew, flagUnk] using And.intro hactive h
      case isFalse h => simpa [hf, hg, hzero, flagZero, flagActive, flagNew, flagUnk] using And.intro hactive h

end Sys2Proof.Machine
end

section
/-! # What a piece of a slice codes and writes

`State.Codes` is the one relation the coding of a slice is described by: from a state to a later one, by the
Code calls made and the CoefWrites done in between. Pieces of a slice compose by appending their lists. -/

namespace Sys2Proof.Machine

/-! ## Code calls -/

theorem State.code_cfg (s : State) (k : CodeKind) (b : Bool) : (s.code k b).2.cfg = s.cfg := by
  obtain ⟨c', m', e, -, -⟩ := s.code_spec k b
  rw [e]

theorem State.codeAll_cfg {calls : List CodeCall} {s u : State} (h : State.codeAll calls s = some u) :
    u.cfg = s.cfg := by
  induction calls generalizing s with
  | nil =>
    cases h
    rfl
  | cons c calls ih =>
    obtain ⟨k, bit⟩ := c
    rw [State.codeAll] at h
    split at h
    · exact (ih h).trans (s.code_cfg k bit)
    · cases h

/-- A list of Code calls reads the coder, the contexts and the configuration alone (R230). -/
theorem State.codeAll_congr {calls : List CodeCall} {s s' u : State} (hc : s'.coder = s.coder)
    (hm : s'.ctx = s.ctx) (hg : s'.cfg = s.cfg) (h : State.codeAll calls s = some u) :
    ∃ u', State.codeAll calls s' = some u' ∧ u'.coder = u.coder ∧ u'.ctx = u.ctx := by
  induction calls generalizing s s' with
  | nil =>
    cases h
    exact ⟨s', rfl, hc, hm⟩
  | cons c calls ih =>
    obtain ⟨k, bit⟩ := c
    obtain ⟨hbit, hc', hm'⟩ := State.code_congr hc hm hg k bit
    rw [State.codeAll] at h ⊢
    rw [hbit]
    split at h
    · next hb =>
      rw [if_pos hb]
      exact ih hc' hm' (by rw [State.code_cfg, State.code_cfg, hg]) h
    · cases h

/-- One Code call with the bit it answers. -/
theorem State.codeAll_single {s v : State} {k : CodeKind} {b : Bool}
    (h : State.codeAll [(k, (s.code k b).1)] s = some v) : v = (s.code k b).2 := by
  rw [State.codeAll, State.code_answer, if_pos rfl] at h
  exact (Option.some.inj h).symm

/-! ## CoefWrites -/

/-- A CoefWrite: its block, its coefficient number, its value. -/
abbrev CoefWritten := Nat × Nat × Sample

/-- The value of coefficient `n` of block `blk` after these CoefWrites, when it was `old`. -/
def writtenOver (ws : List CoefWritten) (blk n : Nat) (old : Sample) : Sample :=
  ws.foldl (fun v w => if w.1 = blk ∧ w.2.1 = n then w.2.2 else v) old

theorem writtenOver_append (ws ws' : List CoefWritten) (blk n : Nat) (old : Sample) :
    writtenOver (ws ++ ws') blk n old = writtenOver ws' blk n (writtenOver ws blk n old) :=
  List.foldl_append

/-- A coefficient that no CoefWrite names keeps its value. -/
theorem writtenOver_of_untouched {ws : List CoefWritten} {blk n : Nat}
    (h : ∀ w ∈ ws, ¬ (w.1 = blk ∧ w.2.1 = n)) (old : Sample) : writtenOver ws blk n old = old := by
  induction ws generalizing old with
  | nil => rfl
  | cons w ws ih =>
    rw [writtenOver, List.foldl_cons, if_neg (h w (by simp))]
    exact ih (fun w' hw' => h w' (by simp [hw'])) old

/-- A coefficient that CoefWrites name with one value has it. -/
theorem writtenOver_of_mem {ws : List CoefWritten} {blk n : Nat} {v : Sample} (hmem : (blk, n, v) ∈ ws)
    (hone : ∀ v', (blk, n, v') ∈ ws → v' = v) (old : Sample) : writtenOver ws blk n old = v := by
  obtain ⟨pre, post, rfl, hpost⟩ :
      ∃ pre post, ws = pre ++ (blk, n, v) :: post ∧ (blk, n, v) ∉ post := by
    obtain ⟨pre, post, e, hpre⟩ := List.eq_append_cons_of_mem (List.mem_reverse.2 hmem)
    refine ⟨post.reverse, pre.reverse, ?_, by simpa using hpre⟩
    simpa using congrArg List.reverse e
  have hrest : ∀ w ∈ post, ¬ (w.1 = blk ∧ w.2.1 = n) := by
    rintro ⟨blk', n', v'⟩ hw ⟨rfl, rfl⟩
    obtain rfl := hone v' (by simp [hw])
    exact hpost hw
  rw [writtenOver_append, writtenOver, List.foldl_cons, if_pos ⟨rfl, rfl⟩]
  exact writtenOver_of_untouched hrest v

/-! ## The relation -/

/-- From `s` to `u` these Code calls are made, each giving its bit, and these CoefWrites to the
decoder-visible store are done, and nothing else changes. -/
structure State.Codes (s u : State) (calls : List CodeCall) (ws : List CoefWritten) : Prop where
  frame : u = { s with coder := u.coder, ctx := u.ctx, cs0 := u.cs0, cs1 := u.cs1 }
  mode : u.coder.mode = s.coder.mode
  other : u.store (!s.targetIndex) = s.store (!s.targetIndex)
  coding : ∃ v, State.codeAll calls s = some v ∧ u.coder = v.coder ∧ u.ctx = v.ctx
  value : ∀ blk n, n < 1024 → (u.store s.targetIndex).coefRead blk n =
    writtenOver ws blk n ((s.store s.targetIndex).coefRead blk n)
  allocated : ∀ blk bk, bk < 64 → ((u.store s.targetIndex).Allocated blk bk ↔
    (s.store s.targetIndex).Allocated blk bk ∨ ∃ w ∈ ws, w.1 = blk ∧ w.2.1 / 16 = bk)

section codes

variable {s u v : State} {calls calls' : List CodeCall} {ws ws' : List CoefWritten}

theorem State.Codes.cfg (h : s.Codes u calls ws) : u.cfg = s.cfg := by rw [h.frame]

theorem State.Codes.sched (h : s.Codes u calls ws) : u.sched = s.sched := by rw [h.frame]

theorem State.Codes.targetIndex (h : s.Codes u calls ws) : u.targetIndex = s.targetIndex := by
  unfold State.targetIndex
  rw [h.mode]

/-- An encoder's source is never written (R221). -/
theorem State.Codes.source (h : s.Codes u calls ws) (hm : s.coder.mode = .enc) : u.cs0 = s.cs0 := by
  have hother := h.other
  rwa [show (!s.targetIndex) = false by simp [State.targetIndex, hm]] at hother

theorem State.Codes.refl (s : State) : s.Codes s [] [] :=
  ⟨rfl, rfl, rfl, ⟨s, rfl, rfl, rfl⟩, fun _ _ _ => rfl, fun _ _ _ => by simp⟩

theorem State.Codes.trans (h : s.Codes u calls ws) (h' : u.Codes v calls' ws') :
    s.Codes v (calls ++ calls') (ws ++ ws') := by
  have hi := h.targetIndex
  obtain ⟨frame, mode, other, ⟨a, ha, hac, ham⟩, value, allocated⟩ := h
  obtain ⟨frame', mode', other', ⟨b, hb, hbc, hbm⟩, value', allocated'⟩ := h'
  rw [hi] at other' value' allocated'
  have hcfg : a.cfg = u.cfg := by rw [State.codeAll_cfg ha, frame]
  obtain ⟨b', hb', hb'c, hb'm⟩ := State.codeAll_congr hac.symm ham.symm hcfg hb
  refine ⟨by rw [frame', frame], mode'.trans mode, other'.trans other, ⟨b', ?_, ?_, ?_⟩,
    fun blk n hn => ?_, fun blk bk hbk => ?_⟩
  · rw [State.codeAll_append, ha, Option.bind_some, hb']
  · rw [hbc, hb'c]
  · rw [hbm, hb'm]
  · rw [value' blk n hn, value blk n hn, writtenOver_append]
  · rw [allocated' blk bk hbk, allocated blk bk hbk]
    simp only [List.mem_append, or_and_right, exists_or, or_assoc]

end codes

/-- A Code call, with the bit it answers. -/
theorem State.Codes.code (s : State) (k : CodeKind) (b : Bool) :
    s.Codes (s.code k b).2 [(k, (s.code k b).1)] [] := by
  have hcoding := State.codeAll_snoc (calls := []) (s := s) rfl k b
  have hmode := s.code_mode k b
  obtain ⟨c', m', e, -, -⟩ := s.code_spec k b
  have hstore : ∀ i, (s.code k b).2.store i = s.store i := fun i => by rw [e]; cases i <;> rfl
  refine ⟨by rw [e], hmode, hstore _, ⟨_, hcoding, rfl, rfl⟩, fun blk n _ => by rw [hstore]; rfl,
    fun blk bk _ => by rw [hstore]; simp⟩

/-- A CoefWrite to the decoder-visible store that succeeds. -/
theorem State.Codes.coefWrite (s : State) (blk : Nat) {n : Nat} (v : Sample) (hn : n < 1024) :
    (s.coefWrite s.targetIndex blk n v).Post (fun u => s.Codes u [] [(blk, n, v)]) fun _ _ => True := by
  rw [State.coefWrite_eq_elim]
  rcases (s.store s.targetIndex).coefWrite_spec s.cfg v hn (blk := blk) with
    ⟨e, -⟩ | ⟨b, e, -, hread⟩ <;> rw [e]
  · trivial
  · refine ⟨?_, by simp, by simp, ⟨s, rfl, by simp, by simp⟩, fun blk' n' hn' => ?_,
      fun blk' bk hbk => ?_⟩
    · cases s.targetIndex <;> rfl
    · rw [State.setStore_store, if_pos rfl, hread blk' n' hn']
      simp only [writtenOver, List.foldl_cons, List.foldl_nil]
      congr 1
      simp only [eq_comm]
    · rw [State.setStore_store, if_pos rfl, Store.allocated_put]
      have hkey : 64 * blk' + bk = bucketKeyOf blk n ↔ blk = blk' ∧ n / 16 = bk := by
        unfold bucketKeyOf
        omega
      simp [hkey]

/-- A Code call, and a CoefWrite that succeeds. -/
theorem State.Codes.code_coefWrite (s : State) (k : CodeKind) (b : Bool) (blk : Nat) {n : Nat} (v : Sample)
    (hn : n < 1024) : ((s.code k b).2.coefWrite s.targetIndex blk n v).Post
      (fun u => s.Codes u [(k, (s.code k b).1)] [(blk, n, v)]) fun _ _ => True := by
  have hcode := State.Codes.code s k b
  rw [← hcode.targetIndex]
  exact (State.Codes.coefWrite _ blk v hn).mono (fun u hu => hcode.trans hu) fun _ _ => id

/-! ## Activation and refinement -/

/-- The value an activation at threshold `t` writes (R238). -/
def State.announcedValue (s : State) (t : Int) (negative : Bool) : Sample :=
  if s.coder.mode = .enc then wrap16 (t + t / 2)
  else wrap16 ((if negative then -1 else 1) * (t + t / 2 - t / 2 / 4))

/-- The value a refinement at threshold `t` writes over `v` (R239, R240). -/
def State.refinedTo (s : State) (v t : Int) (upper : Bool) : Sample :=
  let step := if upper then t / 2 else t / 2 - t
  if s.coder.mode = .enc then wrap16 (v + step)
  else wrap16 ((if 0 < v then 1 else -1) * (|v| + (if |v| ≤ 3 * t then t / 4 else 0) + step))

/-- The kind of call a refinement at threshold `t` makes (R241). -/
def refinementKind (v t : Int) : CodeKind := if v ≤ 3 * t then .adaptive 1 else .balanced

/-- The sign bit of an activation (R238). -/
def State.signBit (s : State) (blk n : Nat) : Bool :=
  (s.code .balanced (decide ((s.cs0.coefRead blk n).toInt < 0))).1

/-- The bit of a refinement (R239, R240). -/
def State.refinementBit (s : State) (blk n t : Nat) : Bool :=
  (s.code (refinementKind (s.refinedValue blk n) t)
    (decide (s.visible blk n ≤ |(s.cs0.coefRead blk n).toInt|))).1

/-- Activation is a sign bit by the balanced coder and one CoefWrite (R238). -/
theorem State.activate_eq (s : State) (blk n t : Nat) :
    s.activate blk n t = (s.code .balanced (decide ((s.cs0.coefRead blk n).toInt < 0))).2.coefWrite
      s.targetIndex blk n (s.announcedValue t (s.signBit blk n)) := by
  have hneg : decide (s.cs0.coefInt blk n < 0) = decide ((s.cs0.coefRead blk n).toInt < 0) := rfl
  unfold State.activate State.announcedValue State.targetIndex State.signBit
  dsimp only
  rw [hneg]
  split
  case isTrue hm =>
    simp only [hm, decide_true, Nat.shiftRight_eq_div_pow]
    congr 2
  case isFalse hm =>
    simp only [hm, decide_false, Nat.shiftRight_eq_div_pow]
    congr 2
    push_cast
    generalize (s.code .balanced (decide ((s.cs0.coefRead blk n).toInt < 0))).1 = negative
    cases negative <;> simp

theorem State.activate_codes (s : State) (blk : Nat) {n : Nat} (t : Nat) (hn : n < 1024) :
    (s.activate blk n t).Post (fun u => s.Codes u [(.balanced, s.signBit blk n)]
      [(blk, n, s.announcedValue t (s.signBit blk n))]) fun _ _ => True := by
  rw [State.activate_eq]
  exact State.Codes.code_coefWrite s _ _ blk _ hn

/-- The decoder does not look at the bit it is given (R230). -/
theorem State.code_dec {s : State} (hm : s.coder.mode = .dec) (k : CodeKind) (b b' : Bool) :
    s.code k b = s.code k b' := by
  unfold State.code
  rw [hm]
  cases k <;> rfl

/-- Refinement is one bit and one CoefWrite, in the encoder (R239). -/
theorem State.refineEnc_eq {s : State} (hm : s.coder.mode = .enc) (blk n t : Nat) :
    s.refineEnc blk n t = (s.code (refinementKind (s.refinedValue blk n) t)
      (decide (s.visible blk n ≤ |(s.cs0.coefRead blk n).toInt|))).2.coefWrite s.targetIndex blk n
        (s.refinedTo (s.visible blk n) t (s.refinementBit blk n t)) := by
  have hbit : s.refinementBit blk n t = decide (s.visible blk n ≤ |(s.cs0.coefRead blk n).toInt|) :=
    s.code_enc _ _ hm
  have hv : s.cs1.coefInt blk n = s.visible blk n := by simp [State.visible, hm, Store.coefInt]
  have hco : ((s.cs0.coefInt blk n).natAbs : Int) = |(s.cs0.coefRead blk n).toInt| :=
    Int.natCast_natAbs _
  have hi : s.targetIndex = true := by simp [State.targetIndex, hm]
  unfold State.refineEnc State.refinedTo
  rw [hbit, hv, hco, hi]
  simp only [State.refinedValue, refinementKind, hm, if_true, Nat.shiftRight_eq_div_pow]
  congr 2
  push_cast
  split <;> omega

/-- Refinement is one bit and one CoefWrite, in the decoder (R240). -/
theorem State.refineDec_eq {s : State} (hm : s.coder.mode = .dec) (blk n t : Nat) :
    s.refineDec blk n t = (s.code (refinementKind (s.refinedValue blk n) t)
      (decide (s.visible blk n ≤ |(s.cs0.coefRead blk n).toInt|))).2.coefWrite s.targetIndex blk n
        (s.refinedTo (s.visible blk n) t (s.refinementBit blk n t)) := by
  have hne : s.coder.mode ≠ .enc := by simp [hm]
  have hv : s.cs0.coefInt blk n = s.visible blk n := by simp [State.visible, hm, Store.coefInt]
  have hi : s.targetIndex = false := by simp [State.targetIndex, hm]
  unfold State.refineDec State.refinedTo State.refinementBit
  rw [hv, hi, s.code_dec hm _ _ false]
  simp only [State.refinedValue, refinementKind, hne, if_false, Int.natCast_natAbs, decide_eq_true_eq,
    Nat.shiftRight_eq_div_pow]
  congr 2
  push_cast
  generalize (s.code _ false).1 = upper
  split <;> split <;> split <;> omega

/-- Refinement of one coefficient, in either direction. -/
theorem State.refine_codes {s : State} (hm : s.coder.mode ≠ .idle) (blk : Nat) {n : Nat} (t : Nat)
    (hn : n < 1024) :
    (if s.coder.mode = .enc then s.refineEnc blk n t else s.refineDec blk n t).Post
      (fun u => s.Codes u [(refinementKind (s.refinedValue blk n) t, s.refinementBit blk n t)]
        [(blk, n, s.refinedTo (s.visible blk n) t (s.refinementBit blk n t))]) fun _ _ => True := by
  have hcodes := State.Codes.code_coefWrite s (refinementKind (s.refinedValue blk n) t)
    (decide (s.visible blk n ≤ |(s.cs0.coefRead blk n).toInt|)) blk
    (s.refinedTo (s.visible blk n) t (s.refinementBit blk n t)) hn
  split
  case isTrue he =>
    rw [State.refineEnc_eq he]
    exact hcodes
  case isFalse he =>
    have hd : s.coder.mode = .dec := by
      cases hmode : s.coder.mode
      case idle => exact absurd hmode hm
      case enc => exact absurd hmode he
      case dec => rfl
    rw [State.refineDec_eq hd]
    exact hcodes

/-! ## The values of single coefficients -/

/-- A number in the range of a sample is the value of its pattern (R11). -/
theorem toInt_wrap16 {v : Int} (h : -0x8000 ≤ v) (h' : v < 0x8000) : (wrap16 v).toInt = v := by
  unfold wrap16
  rw [BitVec.toInt_ofInt, Int.bmod_eq_of_le] <;> omega

/-- With the default arena a CoefWrite to an existing coefficient succeeds (R204). -/
theorem State.coefWrite_completes {s : State} {i : Bool} {blk n : Nat} (harena : s.cfg.arena = none)
    (hst : (s.store i).WellShaped) (hblk : blk < (s.store i).nb.toNat) (hn : n < 1024) (v : Sample) :
    ∃ u, s.coefWrite i blk n v = .done u := by
  obtain ⟨st, hst⟩ := Option.isSome_iff_exists.1 (Store.coefWrite_isSome v harena hst.wf hblk hn)
  exact ⟨_, by rw [State.coefWrite_eq_elim, hst]; rfl⟩

/-- A Code call and a CoefWrite to an existing coefficient, with the default arena: they succeed, and these
are the coder, the contexts, the store that is only read and the coefficient after them. -/
theorem State.code_coefWrite_completes {s : State} (harena : s.cfg.arena = none) (hmem : s.MemoriesOk)
    (k : CodeKind) (b : Bool) {blk n : Nat} (hblk : blk < (s.store s.targetIndex).nb.toNat)
    (hn : n < 1024) (v : Sample) :
    ∃ u, (s.code k b).2.coefWrite s.targetIndex blk n v = .done u ∧ u.coder = (s.code k b).2.coder ∧
      u.ctx = (s.code k b).2.ctx ∧ u.store (!s.targetIndex) = s.store (!s.targetIndex) ∧
      (u.store s.targetIndex).coefRead blk n = v := by
  have hstore : ∀ i, (s.code k b).2.store i = s.store i := fun i => by
    obtain ⟨c', m', e, -, -⟩ := s.code_spec k b
    rw [e]
    cases i <;> rfl
  obtain ⟨u, hu⟩ := State.coefWrite_completes (s := (s.code k b).2) (i := s.targetIndex)
    (by rw [State.code_cfg, harena]) (by rw [hstore]; exact hmem.store _) (by rwa [hstore]) hn v
  have hcodes : s.Codes u [(k, (s.code k b).1)] [(blk, n, v)] := by
    simpa only [hu, Effect.post_done] using State.Codes.code_coefWrite s k b blk v hn
  obtain ⟨w, hw, hcoder, hctx⟩ := hcodes.coding
  obtain rfl := State.codeAll_single hw
  refine ⟨u, hu, hcoder, hctx, hcodes.other, ?_⟩
  rw [hcodes.value blk n hn]
  exact writtenOver_of_mem (by simp) (by simp) _

theorem State.code_enc_eq {s : State} (hm : s.coder.mode = .enc) (b : Bool) :
    s.code .balanced b = (b, s.encodeBalanced b) ∧ s.code (.adaptive 1) b = (b, s.encodeCtx 1 b) := by
  unfold State.code
  rw [hm]
  exact ⟨rfl, rfl⟩

theorem State.code_dec_eq {s : State} (hm : s.coder.mode = .dec) (b : Bool) :
    s.code .balanced b = s.decodeBalanced ∧ s.code (.adaptive 1) b = s.decodeCtx 1 := by
  unfold State.code
  rw [hm]
  exact ⟨rfl, rfl⟩

/-- A shadow after a refinement, in the bounds of R239. -/
theorem State.toInt_refinedTo_enc {s : State} (hm : s.coder.mode = .enc) {v t : Int} (ht : 0 < t)
    (hlo : t ≤ v) (hhi : v + t ≤ 0x8000) (upper : Bool) :
    (s.refinedTo v t upper).toInt = if upper then v + t / 2 else v - t + t / 2 := by
  rw [State.refinedTo, if_pos hm]
  cases upper
  · exact (toInt_wrap16 (by simp; omega) (by simp; omega)).trans (by simp; omega)
  · exact (toInt_wrap16 (by simp; omega) (by simp; omega)).trans (by simp)

/-- A target after a refinement: level with the shadow `ec`, then moved by half the threshold, with its sign
(R240). -/
theorem State.toInt_refinedTo_dec {s : State} (hm : s.coder.mode ≠ .enc) {v t ec : Int} (ht : 0 < t)
    (hlevel : |v| + (if |v| ≤ 3 * t then t / 4 else 0) = ec) (hlo : 3 * t ≤ ec) (hhi : ec + t ≤ 0x8000)
    (upper : Bool) : (s.refinedTo v t upper).toInt =
      (if 0 < v then 1 else -1) * (if upper then ec + t / 2 else ec - t + t / 2) := by
  rw [State.refinedTo, if_neg hm, hlevel]
  split <;> split <;> rw [toInt_wrap16] <;> omega

/-- A power of two in range is at most 0x4000 (R226). -/
theorem pow_two_in_range {t : Nat} (h : t < 0x8000) (hpow : ∃ k, t = 2 ^ k) : t ≤ 0x4000 := by
  obtain ⟨k, rfl⟩ := hpow
  have hk : k < 15 := (Nat.pow_lt_pow_iff_right (a := 2) (by decide)).1 h
  exact Nat.pow_le_pow_right (n := 2) (by decide) (Nat.le_of_lt_succ hk)

/-- Settles O47: an activation is one Code call and one CoefWrite, of a value that is a sample. -/
theorem activationValues : Obligations.ActivationValues := by
  intro s blk n t harena hmem hn hpos hlt hpow
  have ht := pow_two_in_range hlt hpow
  refine ⟨fun hm hv hblk => ?_, fun hm hv hblk => ?_⟩
  · have hi : s.targetIndex = true := by simp [State.targetIndex, hm]
    obtain ⟨hcode, -⟩ := State.code_enc_eq hm (decide ((s.cs0.coefRead blk n).toInt < 0))
    obtain ⟨u, hu, hcoder, hctx, hother, hvalue⟩ := State.code_coefWrite_completes harena hmem .balanced
      (decide ((s.cs0.coefRead blk n).toInt < 0)) (by rwa [hi]) hn (s.announcedValue t (s.signBit blk n))
    rw [hi] at hother hvalue
    rw [hcode] at hcoder hctx
    refine ⟨u, (s.activate_eq blk n t).trans hu, hctx, hother, ?_, hcoder.symm⟩
    show ((u.store true).coefRead blk n).toInt = _
    rw [hvalue, State.announcedValue, if_pos hm]
    exact toInt_wrap16 (by omega) (by omega)
  · have hi : s.targetIndex = false := by simp [State.targetIndex, hm]
    obtain ⟨hcode, -⟩ := State.code_dec_eq hm (decide ((s.cs0.coefRead blk n).toInt < 0))
    obtain ⟨u, hu, hcoder, hctx, hother, hvalue⟩ := State.code_coefWrite_completes harena hmem .balanced
      (decide ((s.cs0.coefRead blk n).toInt < 0)) (by rwa [hi]) hn (s.announcedValue t (s.signBit blk n))
    rw [hi] at hother hvalue
    rw [hcode] at hcoder hctx
    refine ⟨u, (s.activate_eq blk n t).trans hu, hctx, hother, ?_, hcoder.symm⟩
    show ((u.store false).coefRead blk n).toInt = _
    rw [hvalue, State.announcedValue, if_neg (by simp [hm]), State.signBit, hcode]
    cases s.decodeBalanced.1
    · simp only [Bool.false_eq_true, if_false, one_mul]
      rw [toInt_wrap16] <;> omega
    · simp only [if_true]
      rw [toInt_wrap16] <;> omega

/-- Settles O48: a refinement is one Code call and one CoefWrite, of a value that is a sample. -/
theorem refinementValues : Obligations.RefinementValues := by
  intro s blk n t harena hmem hn hpow
  obtain ⟨hpos, ht⟩ : 0 < t ∧ t ≤ 0x2000 := by
    obtain ⟨k, rfl, hk⟩ := hpow
    exact ⟨Nat.two_pow_pos k, Nat.pow_le_pow_right (n := 2) (by decide) hk⟩
  have hcompletes := fun hblk : blk < (s.store s.targetIndex).nb.toNat => State.code_coefWrite_completes harena hmem
    (refinementKind (s.refinedValue blk n) t) (decide (s.visible blk n ≤ |(s.cs0.coefRead blk n).toInt|)) hblk
    hn (s.refinedTo (s.visible blk n) t (s.refinementBit blk n t))
  constructor
  case left =>
    intro hm hv hblk hlo hhi ec bit coded
    have hi : s.targetIndex = true := by simp [State.targetIndex, hm]
    have hvis : s.visible blk n = ec := by simp [State.visible, hm, ec]
    have href : s.refinedValue blk n = ec := by rw [State.refinedValue, if_pos hm, hvis]
    obtain ⟨hbal, hada⟩ := State.code_enc_eq hm bit
    have hcode : s.code (refinementKind ec t) bit = (bit, coded) := by
      unfold refinementKind coded
      split
      · exact hada
      · exact hbal
    obtain ⟨u, hu, hcoder, hctx, hother, hvalue⟩ := hcompletes (by rwa [hi])
    rw [← State.refineEnc_eq hm] at hu
    rw [State.refinementBit, href, hvis] at hvalue
    rw [href, hvis] at hcoder hctx
    rw [hcode] at hcoder hctx hvalue
    rw [hi] at hother hvalue
    refine ⟨u, hu, hother, hcoder, hctx, ?_⟩
    show ((u.store true).coefRead blk n).toInt = _
    rw [hvalue, State.toInt_refinedTo_enc hm (by omega) hlo hhi]
    simp only [bit, decide_eq_true_eq, ec]
  case right =>
    intro hm hv hblk ec hec
    have hi : s.targetIndex = false := by simp [State.targetIndex, hm]
    have hne : s.coder.mode ≠ .enc := by simp [hm]
    have hvis : s.visible blk n = (s.cs0.coefRead blk n).toInt := by simp [State.visible, hm]
    have href : s.refinedValue blk n = |(s.cs0.coefRead blk n).toInt| := by
      rw [State.refinedValue, if_neg hne, hvis]
    obtain ⟨u, hu, hcoder, hctx, hother, hvalue⟩ := hcompletes (by rwa [hi])
    rw [← State.refineDec_eq hm] at hu
    rw [State.refinementBit, href, hvis] at hvalue
    rw [href, hvis] at hcoder hctx
    generalize (s.cs0.coefRead blk n).toInt = v at *
    have hclose : |v| ≤ 3 * t ↔ ec ≤ 3 * t := by omega
    have hlevel : |v| + (if |v| ≤ 3 * (t : Int) then (t : Int) / 4 else 0) = ec := by split <;> omega
    obtain ⟨hbal, hada⟩ := State.code_dec_eq hm (decide (v ≤ |v|))
    obtain ⟨coded, hcoded⟩ : ∃ c, c = if ec ≤ 3 * (t : Int) then s.decodeCtx 1 else s.decodeBalanced :=
      ⟨_, rfl⟩
    have hcode : s.code (refinementKind |v| t) (decide (v ≤ |v|)) = coded := by
      unfold refinementKind
      rw [hcoded]
      simp only [hclose]
      split
      · exact hada
      · exact hbal
    rw [hcode] at hcoder hctx hvalue
    rw [hi] at hother hvalue
    have hafter := hvalue ▸ State.toInt_refinedTo_dec hne (by omega) hlevel (by omega) (by omega) coded.1
    have hpos' : 0 < if coded.1 then ec + (t : Int) / 2 else ec - t + t / 2 := by split <;> omega
    refine ⟨u, coded.1, hu, hother, ?_, ?_, ?_⟩
    · rw [← State.store_false, hafter, abs_mul, abs_of_pos hpos']
      split <;> simp
    · rw [← State.store_false, hafter]
      split <;> omega
    · rw [← hcoded]
      exact ⟨rfl, hcoder, hctx⟩

end Sys2Proof.Machine
end

section
/-! # The loops of a slice

The blocks, the buckets of the two passes and the positions of the refinement are loops of one shape. An item of
such a loop settles the values of its own bits (given to it by an encoder's source, or decoded), and a loop over
distinct items settles them all: `forEach_codes`. -/

namespace Sys2Proof.Machine

/-- A body run for each item, in order, up to the first fault. -/
def Effect.forEach {ι : Type} (body : ι → State → Effect) : List ι → State → Effect
  | [], s => .done s
  | i :: is, s => (body i s).andThen (Effect.forEach body is)

theorem Effect.forEach_map {ι κ : Type} (f : ι → κ) (body : κ → State → Effect) (is : List ι)
    (s : State) : Effect.forEach body (is.map f) s = Effect.forEach (fun i => body (f i)) is s := by
  induction is generalizing s with
  | nil => rfl
  | cons i is ih => exact congrArg (Effect.andThen _) (funext ih)

theorem codeBlocks_eq_forEach (b : Fin 10) (blks : List Nat) (s : State) :
    State.codeBlocks b blks s = Effect.forEach (State.codeBlock b) blks s := by
  induction blks generalizing s with
  | nil => rfl
  | cons blk blks ih => exact congrArg (Effect.andThen _) (funext ih)

theorem newPass_eq_forEach (b : Fin 10) (blk : Nat) (ws : List BucketWork) (s : State) :
    State.newPass b blk ws s = Effect.forEach (fun w s => if Flags.has w.bstate flagNew then
      State.newCoefs b blk w positions w.undecided s else .done s) ws s := by
  induction ws generalizing s with
  | nil => rfl
  | cons w ws ih => exact congrArg (Effect.andThen _) (funext ih)

theorem refineCoefs_eq_forEach (b : Fin 10) (blk : Nat) (w : BucketWork) (is : List (Fin 16)) (s : State) :
    State.refineCoefs b blk w is s = Effect.forEach (fun i s => if Flags.has (w.cstate i) flagActive then
      (if s.coder.mode = .enc then s.refineEnc blk (w.coef i) (s.sched.thr b i)
        else s.refineDec blk (w.coef i) (s.sched.thr b i)) else .done s) is s := by
  induction is generalizing s with
  | nil => rfl
  | cons i is ih => exact congrArg (Effect.andThen _) (funext ih)

theorem refinePass_eq_forEach (b : Fin 10) (blk : Nat) (ws : List BucketWork) (s : State) :
    State.refinePass b blk ws s = Effect.forEach (fun w s => if Flags.has w.bstate flagActive then
      State.refineCoefs b blk w positions s else .done s) ws s := by
  induction ws generalizing s with
  | nil => rfl
  | cons w ws ih => exact congrArg (Effect.andThen _) (funext ih)

/-- A loop over distinct items codes and writes what its items do, one after the other. An item is run in a
state that differs from the first only by what other items have coded and written; the values of its bits are
the source's when encoding. -/
theorem forEach_codes {ι β : Type} [DecidableEq ι] {body : ι → State → Effect}
    {calls : ι → β → List CodeCall} {writes : ι → β → List CoefWritten} {source : ι → β}
    {items : List ι} (hdistinct : items.Nodup) {s : State}
    (hbody : ∀ i ∈ items, ∀ u cs ws, s.Codes u cs ws →
      (∀ w ∈ ws, ∃ j ≠ i, ∃ bits, w ∈ writes j bits) →
      (body i u).Post (fun v => ∃ bits, (s.coder.mode = .enc → bits = source i) ∧
        u.Codes v (calls i bits) (writes i bits)) fun _ _ => True) :
    (Effect.forEach body items s).Post (fun v => ∃ bits : ι → β,
      (s.coder.mode = .enc → bits = source) ∧
      s.Codes v (items.flatMap fun i => calls i (bits i)) (items.flatMap fun i => writes i (bits i)))
      fun _ _ => True := by
  induction items generalizing s with
  | nil => exact ⟨source, fun _ => rfl, State.Codes.refl s⟩
  | cons i is ih =>
    obtain ⟨hi, his⟩ := List.nodup_cons.1 hdistinct
    refine Effect.Post.andThen (hbody i (by simp) s [] [] (State.Codes.refl s) (by simp)) ?_
    rintro u ⟨bit, hsource, hu⟩
    have hother : ∀ j ∈ is, i ≠ j := by
      rintro j hj rfl
      exact hi hj
    refine (ih his (s := u) fun j hj v cs ws hv hws => ?_).mono ?_ fun _ _ => id
    · rw [hu.mode]
      refine hbody j (by simp [hj]) v _ _ (hu.trans hv) fun w hw => ?_
      rcases List.mem_append.1 hw with hw | hw
      · exact ⟨i, hother j hj, bit, hw⟩
      · exact hws w hw
    · rintro v ⟨bits, hsources, hv⟩
      have hrest : ∀ {γ : Type} (f : ι → β → List γ),
          is.flatMap (fun j => f j (Function.update bits i bit j)) = is.flatMap fun j => f j (bits j) :=
        fun f => List.flatMap_congr fun j hj => by rw [Function.update_of_ne (hother j hj).symm]
      refine ⟨Function.update bits i bit, fun hm => ?_, ?_⟩
      · rw [hsources (hu.mode.trans hm), hsource hm, Function.update_eq_self]
      · rw [List.flatMap_cons, List.flatMap_cons, hrest calls, hrest writes, Function.update_self]
        exact hu.trans hv

end Sys2Proof.Machine
end

section
/-! # The flags of a block

What BPC.SLICE prepares for a block, in the terms the statements list the calls of a slice in. -/

namespace Sys2Proof.Machine

/-! ## Sets of flags (R101) -/

theorem Flags.has_or (f g h : Flags) : Flags.has (f ||| g) h = (Flags.has f h || Flags.has g h) := by
  simp only [Flags.has, BitVec.and_or_distrib_right, ne_eq, ← Bool.decide_or]
  congr 1
  have := BitVec.or_eq_zero_iff (x := f &&& h) (y := g &&& h)
  exact propext (by simp only [BitVec.ofNat_eq_ofNat, this, Classical.not_and_iff_not_or_not])

theorem Flags.has_union (fs : List Flags) (g : Flags) :
    Flags.has (Flags.union fs) g = fs.any fun f => Flags.has f g := by
  have hfold : ∀ (fs : List Flags) (f : Flags),
      Flags.has (fs.foldl (· ||| ·) f) g = (Flags.has f g || fs.any fun f => Flags.has f g) := by
    intro fs
    induction fs with
    | nil => simp
    | cons f' fs ih =>
      intro f
      rw [List.foldl_cons, ih, Flags.has_or, List.any_cons, Bool.or_assoc]
  exact (hfold fs 0).trans (by simp [Flags.has])

/-! ## The coefficients of the current subband -/

theorem bandTable_get : ∀ b : Fin 10, bandTable.getD b.val (0, 0) = (bandFirst b, bandBuckets b) := by decide

theorem State.sliceBuckets_eq (s : State) : s.sliceBuckets =
    (List.range (bandBuckets s.sched.curband)).map (bandFirst s.sched.curband + ·) := by
  unfold State.sliceBuckets
  rw [bandTable_get]

theorem State.sliceBuckets_length (s : State) : s.sliceBuckets.length = bandBuckets s.sched.curband := by
  rw [State.sliceBuckets_eq, List.length_map, List.length_range]

theorem State.sliceBuckets_nodup (s : State) : s.sliceBuckets.Nodup := by
  rw [State.sliceBuckets_eq]
  exact List.nodup_range.map fun _ _ => Nat.add_left_cancel

theorem State.sliceBuckets_lt {s : State} {bk : Nat} (h : bk ∈ s.sliceBuckets) : bk < 64 := by
  rw [State.sliceBuckets_eq] at h
  obtain ⟨k, hk, rfl⟩ := List.mem_map.1 h
  exact bandFirst_add_lt _ (List.mem_range.1 hk)

/-- The position of a coefficient that is given by its bucket and position. -/
theorem posOf_coef (bk : Nat) (i : Fin 16) : posOf (16 * bk + i.val) = i :=
  Fin.ext (by show (16 * bk + i.val) % 16 = i.val; omega)

theorem State.sliceThr_coef (s : State) (bk : Nat) (i : Fin 16) :
    s.sliceThr (16 * bk + i.val) = s.sched.thr s.sched.curband i := by
  unfold State.sliceThr
  rw [posOf_coef]

/-- The flags of a coefficient of the current subband (R232, R233). -/
theorem State.prepareCoef_eq (s : State) (blk bk : Nat) (i : Fin 16) :
    s.prepareCoef s.sched.curband blk (16 * bk + i.val) i =
      if s.takesPart (16 * bk + i.val) = false then flagZero
      else if s.visible blk (16 * bk + i.val) ≠ 0 then flagActive
      else if s.coder.mode = .enc ∧
        s.sliceThr (16 * bk + i.val) ≤ ((s.cs0.coefRead blk (16 * bk + i.val)).toInt).natAbs then
        flagNew ||| flagUnk
      else flagUnk := by
  have hzero : s.takesPart (16 * bk + i.val) = false ↔
      s.sched.curband = 0 ∧ inRange (s.sched.thr s.sched.curband i) = false := by
    unfold State.takesPart inRange
    rw [State.sliceThr_coef]
    simp
  simp only [hzero, State.sliceThr_coef]
  rfl

/-- The source of an encoder has reached the threshold of an undecided coefficient (R232). -/
def State.reaches (s : State) (blk n : Nat) : Bool :=
  s.isUnknown blk n && decide (s.sliceThr n ≤ ((s.cs0.coefRead blk n).toInt).natAbs)

section coefficient

variable (s : State) (blk bk : Nat) (i : Fin 16)

theorem State.prepareCoef_unk :
    Flags.has (s.prepareCoef s.sched.curband blk (16 * bk + i.val) i) flagUnk =
      s.isUnknown blk (16 * bk + i.val) := by
  rw [State.prepareCoef_eq, State.isUnknown]
  split
  case isTrue hout => rw [hout]; rfl
  case isFalse hpart =>
    rw [Bool.not_eq_false] at hpart
    rw [hpart, Bool.true_and]
    split
    case isTrue hv => rw [decide_eq_false hv]; rfl
    case isFalse hv => rw [decide_eq_true (not_not.1 hv)]; split <;> rfl

theorem State.prepareCoef_active :
    Flags.has (s.prepareCoef s.sched.curband blk (16 * bk + i.val) i) flagActive =
      s.isActive blk (16 * bk + i.val) := by
  rw [State.prepareCoef_eq, State.isActive]
  split
  case isTrue hout => rw [hout]; rfl
  case isFalse hpart =>
    rw [Bool.not_eq_false] at hpart
    rw [hpart, Bool.true_and]
    split
    case isTrue hv => rw [decide_eq_true hv]; rfl
    case isFalse hv => rw [decide_eq_false hv]; split <;> rfl

theorem State.prepareCoef_new :
    Flags.has (s.prepareCoef s.sched.curband blk (16 * bk + i.val) i) flagNew =
      (decide (s.coder.mode = .enc) && s.reaches blk (16 * bk + i.val)) := by
  rw [State.prepareCoef_eq, State.reaches, State.isUnknown]
  split
  case isTrue hout => rw [hout]; exact (Bool.and_false _).symm
  case isFalse hpart =>
    rw [Bool.not_eq_false] at hpart
    rw [hpart, Bool.true_and]
    split
    case isTrue hv => rw [decide_eq_false hv]; exact (Bool.and_false _).symm
    case isFalse hv =>
      rw [decide_eq_true (not_not.1 hv), Bool.true_and, ← Bool.decide_and]
      split
      case isTrue hreached => rw [decide_eq_true hreached]; rfl
      case isFalse hreached => rw [decide_eq_false hreached]; rfl

end coefficient

/-! ## The buckets of a block -/

/-- The sixteen positions as numbers. -/
theorem positions_val : positions.map Fin.val = List.range 16 := rfl

theorem positions_any (p : Nat → Bool) (bk : Nat) :
    (positions.any fun i => p (16 * bk + i.val)) = anyInBucket p bk := by
  unfold anyInBucket
  rw [← positions_val, List.any_map]
  rfl

/-- The working state of a bucket of the current subband. -/
def State.work (s : State) (blk bk : Nat) : BucketWork := s.prepareBucket s.sched.curband blk bk

section bucket

variable (s : State) (blk bk : Nat)

theorem State.work_bucket : (s.work blk bk).bucket = bk := rfl

theorem State.work_cstate (i : Fin 16) :
    (s.work blk bk).cstate i = s.prepareCoef s.sched.curband blk (16 * bk + i.val) i := rfl

theorem State.work_bstate :
    (s.work blk bk).bstate = Flags.union (positions.map (s.work blk bk).cstate) := rfl

theorem State.work_has (g : Flags) : Flags.has (s.work blk bk).bstate g =
    positions.any fun i => Flags.has ((s.work blk bk).cstate i) g := by
  rw [State.work_bstate, Flags.has_union, List.any_map]
  rfl

theorem State.work_unk : Flags.has (s.work blk bk).bstate flagUnk = anyInBucket (s.isUnknown blk) bk := by
  simp only [State.work_has, State.work_cstate, State.prepareCoef_unk, positions_any]

theorem State.work_active : Flags.has (s.work blk bk).bstate flagActive = anyInBucket (s.isActive blk) bk := by
  simp only [State.work_has, State.work_cstate, State.prepareCoef_active, positions_any]

theorem State.work_new : Flags.has (s.work blk bk).bstate flagNew =
    (decide (s.coder.mode = .enc) && anyInBucket (s.reaches blk) bk) := by
  simp only [State.work_has, State.work_cstate, State.prepareCoef_new]
  rw [← positions_any]
  cases decide (s.coder.mode = .enc) <;> simp

theorem State.prepare_eq : s.prepare s.sched.curband blk = s.sliceBuckets.map (s.work blk) := by
  rw [State.sliceBuckets_eq, List.map_map]
  rfl

end bucket

/-- The aggregate of a block (R232). -/
def State.aggregate (s : State) (blk : Nat) : Flags :=
  Flags.union ((s.sliceBuckets.map (s.work blk)).map (·.bstate))

theorem State.aggregate_has (s : State) (blk : Nat) (g : Flags) : Flags.has (s.aggregate blk) g =
    s.sliceBuckets.any fun bk => Flags.has (s.work blk bk).bstate g := by
  unfold State.aggregate
  rw [Flags.has_union, List.map_map, List.any_map]
  rfl

theorem State.aggregate_unk (s : State) (blk : Nat) :
    Flags.has (s.aggregate blk) flagUnk = s.anyInBlock (s.isUnknown blk) := by
  simp only [State.aggregate_has, State.work_unk, State.anyInBlock]

theorem State.aggregate_active (s : State) (blk : Nat) :
    Flags.has (s.aggregate blk) flagActive = s.anyInBlock (s.isActive blk) := by
  simp only [State.aggregate_has, State.work_active, State.anyInBlock]

theorem State.aggregate_new (s : State) (blk : Nat) : Flags.has (s.aggregate blk) flagNew =
    (decide (s.coder.mode = .enc) && s.anyInBlock (s.reaches blk)) := by
  simp only [State.aggregate_has, State.work_new, State.anyInBlock]
  cases decide (s.coder.mode = .enc) <;> simp

/-- Only an undecided coefficient can be reached, so a bucket or block with one has an undecided one. -/
theorem State.isUnknown_of_reaches {s : State} {blk n : Nat} (h : s.reaches blk n = true) :
    s.isUnknown blk n = true := (Bool.and_eq_true_iff.1 h).1

theorem anyInBucket_mono {p q : Nat → Bool} (h : ∀ n, p n = true → q n = true) {bk : Nat}
    (hp : anyInBucket p bk = true) : anyInBucket q bk = true := by
  obtain ⟨i, hi, hpi⟩ := List.any_eq_true.1 hp
  exact List.any_eq_true.2 ⟨i, hi, h _ hpi⟩

theorem State.anyInBlock_mono {s : State} {p q : Nat → Bool} (h : ∀ n, p n = true → q n = true)
    (hp : s.anyInBlock p = true) : s.anyInBlock q = true := by
  obtain ⟨bk, hbk, hpb⟩ := List.any_eq_true.1 hp
  exact List.any_eq_true.2 ⟨bk, hbk, anyInBucket_mono h hpb⟩

end Sys2Proof.Machine
end

section
/-! # The stages of a block

The root bit, the bucket bits and the two passes over a block, each with the Code calls and the CoefWrites the
statements list for it. `State.Sees` carries what a stage may read: it is as it was before the slice. -/

namespace Sys2Proof.Machine

/-! ## What a stage reads -/

/-- Of block `blk`, `u` reads what `s` reads: the schedule, the mode, an encoder's source and the
decoder-visible values of the coefficients in `p`. -/
structure State.Sees (s u : State) (blk : Nat) (p : Nat → Prop) : Prop where
  sched : u.sched = s.sched
  mode : u.coder.mode = s.coder.mode
  source : s.coder.mode = .enc → u.cs0 = s.cs0
  visible : ∀ n, n < 1024 → p n → u.visible blk n = s.visible blk n

theorem State.Sees.refl (s : State) (blk : Nat) (p : Nat → Prop) : s.Sees s blk p :=
  ⟨rfl, rfl, fun _ => rfl, fun _ _ _ => rfl⟩

theorem State.Sees.mono {s u : State} {blk : Nat} {p q : Nat → Prop} (h : s.Sees u blk p)
    (hq : ∀ n, q n → p n) : s.Sees u blk q :=
  ⟨h.sched, h.mode, h.source, fun n hn hp => h.visible n hn (hq n hp)⟩

/-- A coefficient that no CoefWrite names is seen as before. -/
theorem State.Codes.visible {u v : State} {calls : List CodeCall} {ws : List CoefWritten}
    (h : u.Codes v calls ws) {blk n : Nat} (hn : n < 1024) (hws : ∀ w ∈ ws, ¬ (w.1 = blk ∧ w.2.1 = n)) :
    v.visible blk n = u.visible blk n := by
  show ((v.store v.targetIndex).coefRead blk n).toInt = ((u.store u.targetIndex).coefRead blk n).toInt
  rw [h.targetIndex, h.value blk n hn, writtenOver_of_untouched hws]

theorem State.Sees.codes {s u v : State} {blk : Nat} {p : Nat → Prop} {calls : List CodeCall}
    {ws : List CoefWritten} (h : s.Sees u blk p) (hv : u.Codes v calls ws)
    (hws : ∀ w ∈ ws, w.1 = blk → ¬ p w.2.1) : s.Sees v blk p := by
  refine ⟨hv.sched.trans h.sched, hv.mode.trans h.mode,
    fun hm => (hv.source (h.mode.trans hm)).trans (h.source hm), fun n hn hp => ?_⟩
  refine (hv.visible hn fun w hw => ?_).trans (h.visible n hn hp)
  rintro ⟨hblk, rfl⟩
  exact hws w hw hblk hp

/-- The key of a bucket's context (R236), in the terms of the statements. -/
theorem State.bucketKey_eq (u : State) (b : Fin 10) (blk bk : Nat) (bb : Flags) :
    u.bucketKey b blk bk bb =
      (if b = 0 then 0
        else min 3 ((List.range 4).countP fun j => decide (u.visible blk (4 * bk + j) ≠ 0))) +
        if Flags.has bb flagActive then 4 else 0 := by
  have hzero : b.val = 0 ↔ b = 0 := ⟨fun h => Fin.ext h, fun h => by rw [h]; rfl⟩
  unfold State.bucketKey
  simp only [hzero, Nat.min_comm 3]
  split <;> rfl

section sees

variable {s u : State} {blk : Nat}

theorem State.Sees.prepareCoef (h : s.Sees u blk fun _ => True) {bk : Nat} (hbk : bk < 64) (i : Fin 16) :
    u.prepareCoef u.sched.curband blk (16 * bk + i.val) i =
      s.prepareCoef s.sched.curband blk (16 * bk + i.val) i := by
  have hthr : ∀ n, u.sliceThr n = s.sliceThr n := fun n => by
    unfold State.sliceThr
    rw [h.sched]
  have htakes : ∀ n, u.takesPart n = s.takesPart n := fun n => by
    unfold State.takesPart
    rw [hthr, h.sched]
  rw [State.prepareCoef_eq, State.prepareCoef_eq, htakes, hthr, h.mode,
    h.visible (16 * bk + i.val) (by omega) trivial]
  by_cases hm : s.coder.mode = .enc
  · rw [h.source hm]
  · simp only [hm, false_and]

theorem State.Sees.work (h : s.Sees u blk fun _ => True) {bk : Nat} (hbk : bk < 64) :
    u.work blk bk = s.work blk bk := by
  have hcstate : (u.work blk bk).cstate = (s.work blk bk).cstate := funext fun i => h.prepareCoef hbk i
  have hbstate : (u.work blk bk).bstate = (s.work blk bk).bstate := by
    rw [State.work_bstate, State.work_bstate, hcstate]
  show BucketWork.mk bk (u.work blk bk).cstate (u.work blk bk).bstate = _
  rw [hcstate, hbstate]
  rfl

theorem State.Sees.prepare (h : s.Sees u blk fun _ => True) :
    u.prepare s.sched.curband blk = s.sliceBuckets.map (s.work blk) := by
  have hbuckets : u.sliceBuckets = s.sliceBuckets := by unfold State.sliceBuckets; rw [h.sched]
  rw [← h.sched, State.prepare_eq, hbuckets]
  exact List.map_congr_left fun bk hbk => h.work (State.sliceBuckets_lt hbk)

/-- The key of a bucket's context is that of the state before the slice (R236). -/
theorem State.Sees.bucketKey (h : s.Sees u blk fun _ => True) {bk : Nat} (hbk : bk < 64) {bb : Flags}
    (hbb : Flags.has bb flagActive = s.anyInBlock (s.isActive blk)) :
    u.bucketKey s.sched.curband blk bk bb = s.sliceKey blk bk := by
  have hcount : ((List.range 4).countP fun j => decide (u.visible blk (4 * bk + j) ≠ 0)) =
      (List.range 4).countP fun j => decide (s.visible blk (4 * bk + j) ≠ 0) := by
    refine List.countP_congr fun j hj => ?_
    rw [h.visible (4 * bk + j) (by have := List.mem_range.1 hj; omega) trivial]
  rw [State.bucketKey_eq, hbb, hcount]
  rfl

end sees

/-! ## Root bit and bucket bits -/

/-- The root bit (R234). -/
theorem rootBit_codes (s u : State) (blk : Nat) (hu : s.Sees u blk fun _ => True) :
    ∃ root : Bool, (s.coder.mode = .enc → root = s.anyInBlock (s.reaches blk)) ∧
      ∀ bits : SliceBits, bits.root blk = root →
        let r := u.rootBit s.sched.curband (s.aggregate blk)
        u.Codes r.2 (s.rootCalls bits blk) [] ∧ Flags.has r.1 flagNew = s.goesOn bits blk ∧
          Flags.has r.1 flagActive = s.anyInBlock (s.isActive blk) := by
  have hnew : Flags.has (s.aggregate blk ||| flagNew) flagNew = true := by
    rw [Flags.has_or]
    exact Bool.or_true _
  have hactive : Flags.has (s.aggregate blk ||| flagNew) flagActive = s.anyInBlock (s.isActive blk) := by
    rw [Flags.has_or, State.aggregate_active]
    exact Bool.or_false _
  unfold State.rootBit State.rootCalls State.goesOn
  rw [State.aggregate_active, State.aggregate_unk, State.aggregate_new, s.sliceBuckets_length]
  by_cases hgo : bandBuckets s.sched.curband < 16 ∨ s.anyInBlock (s.isActive blk) = true
  case pos =>
    refine ⟨_, fun _ => rfl, fun bits _ => ?_⟩
    have hgo' : (decide (bandBuckets s.sched.curband < 16) || s.anyInBlock (s.isActive blk)) = true := by
      simpa using hgo
    simp only [if_pos hgo, hgo', Bool.true_or, if_true]
    exact ⟨State.Codes.refl u, hnew, hactive⟩
  case neg =>
    obtain ⟨hmany, hquiet⟩ := not_or.1 hgo
    have hquiet' : s.anyInBlock (s.isActive blk) = false := Bool.eq_false_iff.2 hquiet
    simp only [hmany, hquiet', decide_false, Bool.or_false, Bool.false_or, Bool.false_eq_true, or_self,
      if_false]
    by_cases hunk : s.anyInBlock (s.isUnknown blk) = true
    case pos =>
      rw [if_pos hunk]
      generalize hbit : (decide (s.coder.mode = .enc) && s.anyInBlock (s.reaches blk)) = bit
      have hanswer : bit = true → (u.code (.adaptive 0) bit).1 = true := fun hb => by
        have hm : s.coder.mode = .enc := by
          rw [hb, Bool.and_eq_true, decide_eq_true_eq] at hbit
          exact hbit.1
        rw [State.code_enc u _ _ (hu.mode.trans hm), hb]
      have hprepared := hbit ▸ s.aggregate_new blk
      refine ⟨(u.code (.adaptive 0) bit).1, fun hm => ?_, fun bits hroot => ?_⟩
      · rw [State.code_enc u _ _ (hu.mode.trans hm), ← hbit, decide_eq_true hm, Bool.true_and]
      · rw [hroot, hunk, Bool.true_and]
        refine ⟨State.Codes.code u _ _, ?_, ?_⟩
        · cases hr : (u.code (.adaptive 0) bit).1
          · rw [if_neg (by simp), hprepared]
            cases bit
            · rfl
            · rw [hanswer rfl] at hr
              cases hr
          · exact hnew
        · split
          · rw [hactive, hquiet']
          · rw [State.aggregate_active, hquiet']
    case neg =>
      have hunreached : s.anyInBlock (s.reaches blk) ≠ true :=
        fun h => hunk (State.anyInBlock_mono (fun _ => State.isUnknown_of_reaches) h)
      refine ⟨_, fun _ => rfl, fun bits _ => ?_⟩
      rw [if_neg hunk, if_neg hunk, Bool.eq_false_iff.2 hunk]
      refine ⟨State.Codes.refl u, ?_, ?_⟩
      · rw [State.aggregate_new, Bool.eq_false_iff.2 hunreached]
        simp
      · rw [State.aggregate_active, hquiet']

/-- The working state of a bucket after its bit (R235). -/
def State.marked (s : State) (blk bk : Nat) (bit : Bool) : BucketWork :=
  { s.work blk bk with
    bstate := if anyInBucket (s.isUnknown blk) bk && bit then (s.work blk bk).bstate ||| flagNew
      else (s.work blk bk).bstate }

/-- The bucket bits of some buckets (R235). -/
theorem bucketBits_codes (s : State) (blk : Nat) {bb : Flags}
    (hbb : Flags.has bb flagActive = s.anyInBlock (s.isActive blk)) {bks : List Nat} (hdistinct : bks.Nodup)
    (hlt : ∀ bk ∈ bks, bk < 64) (u : State) (hu : s.Sees u blk fun _ => True) :
    ∃ bit : Nat → Bool, (s.coder.mode = .enc → bit = anyInBucket (s.reaches blk)) ∧
      let r := State.bucketBits s.sched.curband blk bb (bks.map (s.work blk)) u
      r.1 = bks.map (fun bk => s.marked blk bk (bit bk)) ∧
        u.Codes r.2 (bks.flatMap fun bk => if anyInBucket (s.isUnknown blk) bk then
          [(.adaptive (32 + 8 * s.sched.curband.val + s.sliceKey blk bk), bit bk)] else []) [] := by
  induction bks generalizing u with
  | nil => exact ⟨_, fun _ => rfl, rfl, State.Codes.refl u⟩
  | cons bk bks ih =>
    obtain ⟨hbk, hrest⟩ := List.nodup_cons.1 hdistinct
    replace ih := ih hrest fun k hk => hlt k (by simp [hk])
    have hother : ∀ k ∈ bks, k ≠ bk := by
      rintro k hk rfl
      exact hbk hk
    rw [List.map_cons, State.bucketBits, State.work_unk, State.work_new]
    by_cases hunk : anyInBucket (s.isUnknown blk) bk = true
    case pos =>
      rw [if_pos hunk, State.work_bucket, hu.bucketKey (hlt bk (by simp)) hbb]
      dsimp only
      generalize hbit : (decide (s.coder.mode = .enc) && anyInBucket (s.reaches blk) bk) = arg
      generalize hkind : CodeKind.adaptive (32 + 8 * s.sched.curband.val + s.sliceKey blk bk) = kind
      have hcode := State.Codes.code u kind arg
      obtain ⟨bit, hsource, hws, hcodes⟩ := ih _ (hu.codes hcode (by simp))
      have hupdate : ∀ k ∈ bks, Function.update bit bk (u.code kind arg).1 k = bit k :=
        fun k hk => Function.update_of_ne (hother k hk) ..
      refine ⟨Function.update bit bk (u.code kind arg).1, fun hm => ?_, ?_, ?_⟩
      · rw [hsource hm, State.code_enc u _ _ (hu.mode.trans hm), ← hbit, decide_eq_true hm, Bool.true_and,
          Function.update_eq_self]
      · rw [hws, List.map_cons, Function.update_self]
        congr 1
        · rw [State.marked, hunk, Bool.true_and]
          rfl
        · exact List.map_congr_left fun k hk => by rw [hupdate k hk]
      · rw [List.flatMap_cons, if_pos hunk, Function.update_self,
          List.flatMap_congr fun k hk => by rw [hupdate k hk], hkind]
        exact hcode.trans hcodes
    case neg =>
      rw [if_neg hunk]
      dsimp only
      obtain ⟨bit, hsource, hws, hcodes⟩ := ih u hu
      refine ⟨bit, hsource, ?_, ?_⟩
      · rw [hws, List.map_cons, State.marked, Bool.eq_false_iff.2 hunk]
        rfl
      · rw [List.flatMap_cons, if_neg hunk]
        exact hcodes

section marked

variable {s : State} {blk bk : Nat} {bit : Bool}

theorem State.marked_active :
    Flags.has (s.marked blk bk bit).bstate flagActive = anyInBucket (s.isActive blk) bk := by
  unfold State.marked
  dsimp only
  split
  · rw [Flags.has_or, State.work_active]
    exact Bool.or_false _
  · exact s.work_active blk bk

/-- The buckets of the new-coefficient pass are those with an undecided coefficient whose bit is 1 (R237). -/
theorem State.marked_new (hbit : s.coder.mode = .enc → bit = anyInBucket (s.reaches blk) bk) :
    Flags.has (s.marked blk bk bit).bstate flagNew = (anyInBucket (s.isUnknown blk) bk && bit) := by
  unfold State.marked
  dsimp only
  split
  case isTrue h =>
    rw [h, Flags.has_or]
    exact Bool.or_true _
  case isFalse h =>
    rw [State.work_new, Bool.eq_false_iff.2 h, Bool.and_eq_false_iff]
    by_cases hm : s.coder.mode = .enc
    · right
      rw [hbit hm, Bool.and_eq_true] at h
      exact Bool.eq_false_iff.2 fun hr => h ⟨anyInBucket_mono (fun _ => State.isUnknown_of_reaches) hr, hr⟩
    · exact .inl (decide_eq_false hm)

end marked

end Sys2Proof.Machine
end

section
/-! # The passes of a block

The new-coefficient pass and the refinement pass over a block (R237 to R241). -/

namespace Sys2Proof.Machine

/-! ## The calls of one bucket in the new-coefficient pass -/

/-- The calls of the new-coefficient pass at the positions listed, `run` being the run before the first of
them; `bit i` holds the bit of position `i` and its sign (R237, R238). -/
def startCalls (unknown : Nat → Bool) (flag : Nat) (bit : Nat → Bool × Bool) :
    List Nat → Nat → List CodeCall
  | [], _ => []
  | i :: is, run =>
    if unknown i then
      (.adaptive (16 + (min run 7 + flag)), (bit i).1) ::
        if (bit i).1 then (.balanced, (bit i).2) :: startCalls unknown flag bit is 0
        else startCalls unknown flag bit is (run - 1)
    else startCalls unknown flag bit is run

theorem startCalls_congr {unknown : Nat → Bool} {flag : Nat} {bit bit' : Nat → Bool × Bool} {is : List Nat}
    (h : ∀ i ∈ is, bit i = bit' i) (run : Nat) :
    startCalls unknown flag bit is run = startCalls unknown flag bit' is run := by
  induction is generalizing run with
  | nil => rfl
  | cons i is ih =>
    replace ih := ih fun j hj => h j (by simp [hj])
    rw [startCalls, startCalls, h i (by simp), ih, ih, ih]

/-- The run at position `i` of a bucket (R237). -/
def runAt (unknown : Nat → Bool) (bit : Nat → Bool × Bool) (i : Nat) : Nat :=
  if (List.range i).any fun j => unknown j && (bit j).1 then 0
  else (List.range 16).countP fun j => decide (i ≤ j) && unknown j

/-- Counting from `i` on is counting the rest of the range. -/
theorem countP_from (p : Nat → Bool) {i : Nat} (hi : i ≤ 16) :
    ((List.range 16).countP fun j => decide (i ≤ j) && p j) = (List.range' i (16 - i)).countP p := by
  have hsplit := List.range'_append_1 (s := 0) (m := i) (n := 16 - i)
  rw [Nat.zero_add, Nat.add_sub_cancel' hi, ← List.range_eq_range', ← List.range_eq_range'] at hsplit
  have hlow : ((List.range i).countP fun j => decide (i ≤ j) && p j) = 0 :=
    List.countP_eq_zero.2 fun j hj => by simp [List.mem_range.1 hj]
  rw [← hsplit, List.countP_append, hlow, Nat.zero_add]
  refine List.countP_congr fun j hj => ?_
  have := (List.mem_range'_1.1 hj).1
  simp [this]

theorem runAt_succ (unknown : Nat → Bool) (bit : Nat → Bool × Bool) {i : Nat} (hi : i < 16) :
    runAt unknown bit (i + 1) =
      if unknown i then (if (bit i).1 then 0 else runAt unknown bit i - 1) else runAt unknown bit i := by
  have hany : ((List.range (i + 1)).any fun j => unknown j && (bit j).1) =
      (((List.range i).any fun j => unknown j && (bit j).1) || (unknown i && (bit i).1)) := by
    rw [List.range_succ, List.any_append]
    simp
  have hcount : (List.range' i (16 - i)).countP unknown =
      (List.range' (i + 1) (16 - (i + 1))).countP unknown + if unknown i then 1 else 0 := by
    rw [show 16 - i = 16 - (i + 1) + 1 by omega, List.range'_succ, List.countP_cons]
  unfold runAt
  rw [hany, countP_from unknown hi, countP_from unknown hi.le, hcount]
  cases (List.range i).any fun j => unknown j && (bit j).1
  case true => simp
  case false =>
    cases unknown i
    case false => simp
    case true => cases (bit i).1 <;> simp

/-- The calls of a bucket, position by position (R237, R238). -/
theorem startCalls_eq (unknown : Nat → Bool) (flag : Nat) (bit : Nat → Bool × Bool) (m : Nat) {i : Nat}
    (hi : i + m = 16) : startCalls unknown flag bit (List.range' i m) (runAt unknown bit i) =
      (List.range' i m).flatMap fun j => if unknown j then
        (.adaptive (16 + min (runAt unknown bit j) 7 + flag), (bit j).1) ::
          (if (bit j).1 then [(.balanced, (bit j).2)] else [])
        else [] := by
  induction m generalizing i with
  | zero => rfl
  | succ m ih =>
    replace ih := ih (i := i + 1) (by omega)
    rw [runAt_succ unknown bit (by omega)] at ih
    rw [List.range'_succ, startCalls, List.flatMap_cons, ← ih, Nat.add_assoc]
    cases unknown i
    case false => rfl
    case true => cases (bit i).1 <;> rfl

/-! ## The new-coefficient pass -/

/-- The bits an encoder gives a coefficient in the new-coefficient pass: whether it becomes nonzero, and its
sign (R237, R238). -/
def State.sourceStart (s : State) (blk n : Nat) : Bool × Bool :=
  (s.sourceBits.announced blk n, s.sourceBits.negative blk n)

/-- The CoefWrites of the positions listed in the new-coefficient pass (R238). -/
def State.startWrites (s : State) (blk bk : Nat) (bit : Nat → Bool × Bool) (is : List Nat) :
    List CoefWritten :=
  is.flatMap fun i => if s.isUnknown blk (16 * bk + i) && (bit i).1 then
    [(blk, 16 * bk + i, s.announcedValue (s.sliceThr (16 * bk + i)) (bit i).2)] else []

theorem State.startWrites_congr {s : State} {blk bk : Nat} {bit bit' : Nat → Bool × Bool} {is : List Nat}
    (h : ∀ i ∈ is, bit i = bit' i) : s.startWrites blk bk bit is = s.startWrites blk bk bit' is :=
  List.flatMap_congr fun i hi => by rw [h i hi]

theorem State.startWrites_cons (s : State) (blk bk : Nat) (bit : Nat → Bool × Bool) (i : Nat)
    (is : List Nat) : s.startWrites blk bk bit (i :: is) = (if s.isUnknown blk (16 * bk + i) && (bit i).1 then
      [(blk, 16 * bk + i, s.announcedValue (s.sliceThr (16 * bk + i)) (bit i).2)] else []) ++
        s.startWrites blk bk bit is :=
  List.flatMap_cons

/-- The sign bit of an encoder is that of its source (R238). -/
theorem State.Sees.signBit {s u : State} {blk : Nat} {p : Nat → Prop} (h : s.Sees u blk p)
    (hm : s.coder.mode = .enc) (n : Nat) : u.signBit blk n = s.sourceBits.negative blk n := by
  unfold State.signBit
  rw [State.code_enc u _ _ (h.mode.trans hm), h.source hm]
  rfl

theorem State.Sees.announcedValue {s u : State} {blk : Nat} {p : Nat → Prop} (h : s.Sees u blk p) :
    u.announcedValue = s.announcedValue := by
  unfold State.announcedValue
  rw [h.mode]

/-- The positions of a bucket whose bit is 1 (R237). -/
theorem newCoefs_codes {s : State} {blk bk : Nat} {bit : Bool} (hbk : bk < 64) {is : List (Fin 16)}
    (hdistinct : is.Nodup) (run : Nat) (u : State) (hu : s.Sees u blk fun _ => False) :
    (State.newCoefs s.sched.curband blk (s.marked blk bk bit) is run u).Post
      (fun v => ∃ start : Nat → Bool × Bool,
        (s.coder.mode = .enc → start = fun i => s.sourceStart blk (16 * bk + i)) ∧
        u.Codes v (startCalls (fun i => s.isUnknown blk (16 * bk + i))
          (if anyInBucket (s.isActive blk) bk then 8 else 0) start (is.map Fin.val) run)
          (s.startWrites blk bk start (is.map Fin.val))) fun _ _ => True := by
  induction is generalizing run u with
  | nil => exact ⟨_, fun _ => rfl, State.Codes.refl u⟩
  | cons i is ih =>
    obtain ⟨hi, hrest⟩ := List.nodup_cons.1 hdistinct
    replace ih := ih hrest
    have hother : ∀ j ∈ is.map Fin.val, j ≠ i.val := by
      intro j hj hji
      obtain ⟨k, hk, rfl⟩ := List.mem_map.1 hj
      exact hi (Fin.ext hji ▸ hk)
    have hcstate : (s.marked blk bk bit).cstate = (s.work blk bk).cstate := rfl
    have hcoef : (s.marked blk bk bit).coef i = 16 * bk + i.val := rfl
    unfold State.newCoefs
    rw [hcstate, hcoef, State.work_cstate, State.prepareCoef_unk, State.prepareCoef_new, State.marked_active,
      hu.sched, ← s.sliceThr_coef bk i]
    simp only [List.map_cons, startCalls, State.startWrites_cons]
    by_cases hunk : s.isUnknown blk (16 * bk + i.val) = true
    case neg =>
      simp only [hunk, Bool.false_and, if_false, Bool.false_eq_true, List.nil_append]
      exact ih run u hu
    case pos =>
      simp only [hunk, Bool.true_and, if_true]
      generalize hflag : (if anyInBucket (s.isActive blk) bk then 8 else 0) = flag at ih ⊢
      generalize hkind : CodeKind.adaptive (16 + (min run 7 + flag)) = kind
      generalize harg : (decide (s.coder.mode = .enc) && s.reaches blk (16 * bk + i.val)) = arg
      have hcode := State.Codes.code u kind arg
      have hseen := hu.codes hcode (by simp)
      have hanswer : s.coder.mode = .enc → (u.code kind arg).1 = (s.sourceStart blk (16 * bk + i.val)).1 := by
        intro hm
        rw [State.code_enc u _ _ (hu.mode.trans hm), ← harg, decide_eq_true hm, Bool.true_and, State.reaches,
          hunk, Bool.true_and]
        rfl
      generalize hr : u.code kind arg = r at hcode hseen hanswer ⊢
      have hupdate : ∀ (start : Nat → Bool × Bool) x, ∀ j ∈ is.map Fin.val,
          start j = Function.update start i.val x j :=
        fun start x j hj => (Function.update_of_ne (hother j hj) ..).symm
      have hsources : ∀ {start : Nat → Bool × Bool} {x : Bool × Bool},
          start = (fun i => s.sourceStart blk (16 * bk + i)) → x = s.sourceStart blk (16 * bk + i.val) →
          Function.update start i.val x = fun i => s.sourceStart blk (16 * bk + i) := by
        rintro start x rfl rfl
        exact Function.update_eq_self i.val _
      cases hone : r.1
      case true =>
        rw [if_pos rfl]
        rw [hone] at hcode hanswer
        refine (State.activate_codes r.2 blk _ (by omega)).andThen fun v hv => ?_
        rw [hseen.announcedValue] at hv
        have hsign := fun hm => hseen.signBit hm (16 * bk + i.val)
        generalize r.2.signBit blk (16 * bk + i.val) = negative at hv hsign
        refine (ih 0 v (hseen.codes hv (by simp))).mono ?_ fun _ _ => id
        rintro t ⟨start, hsource, ht⟩
        refine ⟨Function.update start i.val (true, negative), fun hm => hsources (hsource hm) ?_, ?_⟩
        · rw [hsign hm, hanswer hm]
          rfl
        · rw [Function.update_self, startCalls_congr (fun j hj => (hupdate start _ j hj).symm),
            State.startWrites_congr fun j hj => (hupdate start _ j hj).symm]
          exact (hcode.trans hv).trans ht
      case false =>
        rw [if_neg (by simp)]
        rw [hone] at hcode hanswer
        refine (ih (run - 1) r.2 hseen).mono ?_ fun _ _ => id
        rintro t ⟨start, hsource, ht⟩
        refine ⟨Function.update start i.val (false, (s.sourceStart blk (16 * bk + i.val)).2),
          fun hm => hsources (hsource hm) ?_, ?_⟩
        · rw [hanswer hm]
        · rw [Function.update_self, if_neg (by simp),
            startCalls_congr (fun j hj => (hupdate start _ j hj).symm),
            State.startWrites_congr fun j hj => (hupdate start _ j hj).symm]
          exact hcode.trans ht

/-- The calls of a bucket in the new-coefficient pass (R237). -/
def State.bucketStartCalls (s : State) (blk bk : Nat) (bit : Bool) (start : Nat → Bool × Bool) :
    List CodeCall :=
  if anyInBucket (s.isUnknown blk) bk && bit then
    startCalls (fun i => s.isUnknown blk (16 * bk + i)) (if anyInBucket (s.isActive blk) bk then 8 else 0)
      start (List.range 16) ((List.range 16).countP fun i => s.isUnknown blk (16 * bk + i))
  else []

/-- The CoefWrites of a bucket in the new-coefficient pass (R238). -/
def State.bucketStartWrites (s : State) (blk bk : Nat) (bit : Bool) (start : Nat → Bool × Bool) :
    List CoefWritten :=
  if anyInBucket (s.isUnknown blk) bk && bit then s.startWrites blk bk start (List.range 16) else []

theorem State.mem_bucketStartWrites {s : State} {blk bk : Nat} {bit : Bool} {start : Nat → Bool × Bool}
    {w : CoefWritten} (h : w ∈ s.bucketStartWrites blk bk bit start) :
    w.1 = blk ∧ s.isUnknown blk w.2.1 = true := by
  unfold State.bucketStartWrites State.startWrites at h
  split at h
  case isFalse => cases h
  case isTrue =>
    obtain ⟨i, -, hw⟩ := List.mem_flatMap.1 h
    split at hw
    case isFalse => cases hw
    case isTrue hi =>
      rw [List.mem_singleton] at hw
      subst hw
      exact ⟨rfl, (Bool.and_eq_true_iff.1 hi).1⟩

theorem State.marked_undecided (s : State) (blk bk : Nat) (bit : Bool) : (s.marked blk bk bit).undecided =
    (List.range 16).countP fun i => s.isUnknown blk (16 * bk + i) := by
  show (positions.countP fun i => Flags.has ((s.work blk bk).cstate i) flagUnk) = _
  simp only [State.work_cstate, State.prepareCoef_unk]
  rw [← positions_val, List.countP_map]
  rfl

theorem positions_nodup : positions.Nodup := by decide

/-- The new-coefficient pass (R237, R238). -/
theorem newPass_codes {s : State} {blk : Nat} {bit : Nat → Bool}
    (hbit : s.coder.mode = .enc → bit = anyInBucket (s.reaches blk)) (u : State)
    (hu : s.Sees u blk fun _ => False) :
    (State.newPass s.sched.curband blk (s.sliceBuckets.map fun bk => s.marked blk bk (bit bk)) u).Post
      (fun v => ∃ start : Nat → Nat → Bool × Bool,
        (s.coder.mode = .enc → start = fun bk i => s.sourceStart blk (16 * bk + i)) ∧
        u.Codes v (s.sliceBuckets.flatMap fun bk => s.bucketStartCalls blk bk (bit bk) (start bk))
          (s.sliceBuckets.flatMap fun bk => s.bucketStartWrites blk bk (bit bk) (start bk)))
      fun _ _ => True := by
  rw [newPass_eq_forEach, Effect.forEach_map, ← hu.mode]
  refine forEach_codes (calls := fun bk => s.bucketStartCalls blk bk (bit bk))
    (writes := fun bk => s.bucketStartWrites blk bk (bit bk)) s.sliceBuckets_nodup
    fun bk hbk v cs ws hv hws => ?_
  have hseen : s.Sees v blk fun _ => False := hu.codes hv fun _ _ _ => id
  rw [State.marked_new fun hm => by rw [hbit hm], hu.mode]
  unfold State.bucketStartCalls State.bucketStartWrites
  split
  case isTrue hgo =>
    rw [State.marked_undecided, ← positions_val]
    exact newCoefs_codes (State.sliceBuckets_lt hbk) positions_nodup _ v hseen
  case isFalse hgo => exact ⟨_, fun _ => rfl, State.Codes.refl v⟩

/-! ## The refinement pass -/

/-- The call of a coefficient in the refinement pass (R239 to R241). -/
def State.refineCall (s : State) (blk n : Nat) (upper : Bool) : List CodeCall :=
  if s.isActive blk n then [(refinementKind (s.refinedValue blk n) (s.sliceThr n), upper)] else []

/-- The CoefWrite of a coefficient in the refinement pass (R239, R240). -/
def State.refineWrite (s : State) (blk n : Nat) (upper : Bool) : List CoefWritten :=
  if s.isActive blk n then [(blk, n, s.refinedTo (s.visible blk n) (s.sliceThr n) upper)] else []

theorem State.mem_refineWrite {s : State} {blk n : Nat} {upper : Bool} {w : CoefWritten}
    (h : w ∈ s.refineWrite blk n upper) : w.1 = blk ∧ w.2.1 = n := by
  unfold State.refineWrite at h
  split at h
  case isTrue =>
    rw [List.mem_singleton] at h
    subst h
    exact ⟨rfl, rfl⟩
  case isFalse => cases h

/-- The refinement of one coefficient that is seen as it was before the slice. -/
theorem refine_codes_seen {s u : State} (hm : s.coder.mode ≠ .idle) {blk n : Nat} (hn : n < 1024)
    (hu : s.Sees u blk fun k => k = n) (t : Nat) :
    (if u.coder.mode = .enc then u.refineEnc blk n t else u.refineDec blk n t).Post
      (fun v => ∃ upper, (s.coder.mode = .enc → upper = s.sourceBits.upper blk n) ∧
        u.Codes v [(refinementKind (s.refinedValue blk n) t, upper)]
          [(blk, n, s.refinedTo (s.visible blk n) t upper)]) fun _ _ => True := by
  have hvisible := hu.visible n hn rfl
  have hrefined : u.refinedValue blk n = s.refinedValue blk n := by
    rw [State.refinedValue, State.refinedValue, hvisible, hu.mode]
  have hto : u.refinedTo = s.refinedTo := by
    unfold State.refinedTo
    rw [hu.mode]
  refine (State.refine_codes (hu.mode.symm ▸ hm) blk t hn).mono (fun v hv => ?_) fun _ _ => id
  rw [hrefined, hvisible, hto] at hv
  refine ⟨_, fun henc => ?_, hv⟩
  rw [State.refinementBit, State.code_enc u _ _ (hu.mode.trans henc), hvisible, hu.source henc]
  rfl

/-- The positions of a bucket in the refinement pass (R239, R240). -/
theorem refineCoefs_codes {s : State} (hm : s.coder.mode ≠ .idle) {blk bk : Nat} {bit : Bool} (hbk : bk < 64)
    {is : List (Fin 16)} (hdistinct : is.Nodup) (u : State)
    (hu : s.Sees u blk fun n => s.isActive blk n = true ∧ n / 16 = bk) :
    (State.refineCoefs s.sched.curband blk (s.marked blk bk bit) is u).Post
      (fun v => ∃ upper : Fin 16 → Bool,
        (s.coder.mode = .enc → upper = fun i => s.sourceBits.upper blk (16 * bk + i.val)) ∧
        u.Codes v (is.flatMap fun i => s.refineCall blk (16 * bk + i.val) (upper i))
          (is.flatMap fun i => s.refineWrite blk (16 * bk + i.val) (upper i)))
      fun _ _ => True := by
  rw [refineCoefs_eq_forEach, ← hu.mode]
  refine forEach_codes (ι := Fin 16) (β := Bool) (calls := fun i => s.refineCall blk (16 * bk + i.val))
    (writes := fun i => s.refineWrite blk (16 * bk + i.val))
    (source := fun i => s.sourceBits.upper blk (16 * bk + i.val)) hdistinct ?_
  intro i _ v cs ws hv hws
  have hcstate : (s.marked blk bk bit).cstate = (s.work blk bk).cstate := rfl
  have hcoef : (s.marked blk bk bit).coef i = 16 * bk + i.val := rfl
  rw [hcstate, hcoef, State.work_cstate, State.prepareCoef_active, hv.sched, hu.sched, ← s.sliceThr_coef bk i,
    hu.mode]
  unfold State.refineCall State.refineWrite
  split
  case isTrue hactive =>
    refine refine_codes_seen hm (by omega) ?_ _
    refine (hu.mono ?_).codes hv ?_
    · rintro n rfl
      exact ⟨hactive, by omega⟩
    · intro w hw _ hn
      obtain ⟨j, hj, upper, hwj⟩ := hws w hw
      have hwn := (State.mem_refineWrite hwj).2
      exact hj (Fin.ext (by omega))
  case isFalse => exact ⟨_, fun _ => rfl, State.Codes.refl v⟩

/-- A bucket with no announced coefficient has no part in the refinement pass. -/
theorem refine_of_quiet {s : State} {blk bk : Nat} (h : anyInBucket (s.isActive blk) bk ≠ true)
    (is : List (Fin 16)) (upper : Fin 16 → Bool) :
    (is.flatMap fun i => s.refineCall blk (16 * bk + i.val) (upper i)) = [] ∧
      (is.flatMap fun i => s.refineWrite blk (16 * bk + i.val) (upper i)) = [] := by
  have hnone : ∀ i : Fin 16, ¬ s.isActive blk (16 * bk + i.val) = true :=
    fun i hi => h (List.any_eq_true.2 ⟨i.val, List.mem_range.2 i.isLt, hi⟩)
  exact ⟨List.flatMap_eq_nil_iff.2 fun i _ => if_neg (hnone i),
    List.flatMap_eq_nil_iff.2 fun i _ => if_neg (hnone i)⟩

/-- A block with no announced coefficient has no part in the refinement pass. -/
theorem refine_of_quiet_block {s : State} {blk : Nat} (h : s.anyInBlock (s.isActive blk) ≠ true)
    (upper : Nat → Fin 16 → Bool) :
    (s.sliceBuckets.flatMap fun bk =>
        positions.flatMap fun i => s.refineCall blk (16 * bk + i.val) (upper bk i)) = [] ∧
      (s.sliceBuckets.flatMap fun bk =>
        positions.flatMap fun i => s.refineWrite blk (16 * bk + i.val) (upper bk i)) = [] := by
  have hnone : ∀ bk ∈ s.sliceBuckets, anyInBucket (s.isActive blk) bk ≠ true :=
    fun bk hbk hb => h (List.any_eq_true.2 ⟨bk, hbk, hb⟩)
  exact ⟨List.flatMap_eq_nil_iff.2 fun bk hbk => (refine_of_quiet (hnone bk hbk) _ _).1,
    List.flatMap_eq_nil_iff.2 fun bk hbk => (refine_of_quiet (hnone bk hbk) _ _).2⟩

/-- The refinement pass, which the model enters when the block has an announced coefficient (R239, R240). -/
theorem refinePass_codes {s : State} (hm : s.coder.mode ≠ .idle) {blk : Nat} {bit : Nat → Bool} (u : State)
    (hu : s.Sees u blk fun n => s.isActive blk n = true) :
    (if s.anyInBlock (s.isActive blk) then
      State.refinePass s.sched.curband blk (s.sliceBuckets.map fun bk => s.marked blk bk (bit bk)) u
      else .done u).Post
      (fun v => ∃ upper : Nat → Fin 16 → Bool,
        (s.coder.mode = .enc → upper = fun bk i => s.sourceBits.upper blk (16 * bk + i.val)) ∧
        u.Codes v (s.sliceBuckets.flatMap fun bk =>
            positions.flatMap fun i => s.refineCall blk (16 * bk + i.val) (upper bk i))
          (s.sliceBuckets.flatMap fun bk =>
            positions.flatMap fun i => s.refineWrite blk (16 * bk + i.val) (upper bk i)))
      fun _ _ => True := by
  split
  case isFalse hquiet =>
    refine ⟨_, fun _ => rfl, ?_⟩
    rw [(refine_of_quiet_block hquiet _).1, (refine_of_quiet_block hquiet _).2]
    exact State.Codes.refl u
  case isTrue =>
    have hpositions := positions_nodup
    rw [refinePass_eq_forEach, Effect.forEach_map, ← hu.mode]
    generalize positions = is at hpositions ⊢
    refine forEach_codes (ι := Nat) (β := Fin 16 → Bool)
      (calls := fun bk upper => is.flatMap fun i => s.refineCall blk (16 * bk + i.val) (upper i))
      (writes := fun bk upper => is.flatMap fun i => s.refineWrite blk (16 * bk + i.val) (upper i))
      (source := fun bk i => s.sourceBits.upper blk (16 * bk + i.val)) s.sliceBuckets_nodup ?_
    intro bk hbk v cs ws hv hws
    rw [State.marked_active, hu.mode]
    split
    case isTrue =>
      refine refineCoefs_codes hm (State.sliceBuckets_lt hbk) hpositions v ?_
      refine (hu.mono fun n hn => hn.1).codes hv fun w hw _ hn => ?_
      obtain ⟨j, hj, upper, hwj⟩ := hws w hw
      obtain ⟨i, -, hwi⟩ := List.mem_flatMap.1 hwj
      have hwn := (State.mem_refineWrite hwi).2
      exact hj (by omega)
    case isFalse h =>
      refine ⟨_, fun _ => rfl, ?_⟩
      rw [(refine_of_quiet h is _).1, (refine_of_quiet h is _).2]
      exact State.Codes.refl v

end Sys2Proof.Machine
end

section
/-! # The Code calls of a slice

The stages of a block put together, and the blocks of a slice; then the values of the coefficients are read off
the CoefWrites. -/

namespace Sys2Proof.Machine

/-! ## One block -/

/-- The Code calls of a block (R231). -/
def State.blockCalls (s : State) (bits : SliceBits) (blk : Nat) : List CodeCall :=
  s.rootCalls bits blk ++
    (if s.goesOn bits blk then s.bucketCalls bits blk ++ s.announceCalls bits blk else []) ++
    s.refineCalls bits blk

/-- The CoefWrites of the new-coefficient pass over a block (R238). -/
def State.announceWrites (s : State) (bits : SliceBits) (blk : Nat) : List CoefWritten :=
  s.sliceBuckets.flatMap fun bk => s.bucketStartWrites blk bk (bits.bucket blk bk)
    fun i => (bits.announced blk (16 * bk + i), bits.negative blk (16 * bk + i))

/-- The CoefWrites of the refinement pass over a block (R239, R240). -/
def State.refineWrites (s : State) (bits : SliceBits) (blk : Nat) : List CoefWritten :=
  s.sliceBuckets.flatMap fun bk => (List.range 16).flatMap fun i =>
    s.refineWrite blk (16 * bk + i) (bits.upper blk (16 * bk + i))

/-- The CoefWrites of a block (R231). -/
def State.blockWrites (s : State) (bits : SliceBits) (blk : Nat) : List CoefWritten :=
  (if s.goesOn bits blk then s.announceWrites bits blk else []) ++ s.refineWrites bits blk

theorem State.sliceCalls_eq (s : State) (bits : SliceBits) : s.sliceCalls bits =
    if s.sliceIsEmpty then [] else (List.range s.cs0.nb.toNat).flatMap (s.blockCalls bits) := rfl

theorem State.announceCalls_eq (s : State) (bits : SliceBits) (blk : Nat) : s.announceCalls bits blk =
    s.sliceBuckets.flatMap fun bk => s.bucketStartCalls blk bk (bits.bucket blk bk)
      fun i => (bits.announced blk (16 * bk + i), bits.negative blk (16 * bk + i)) := by
  refine List.flatMap_congr fun bk _ => ?_
  unfold State.bucketStartCalls
  split
  case isTrue =>
    have hcalls := startCalls_eq (fun i => s.isUnknown blk (16 * bk + i))
      (if anyInBucket (s.isActive blk) bk then 8 else 0)
      (fun i => (bits.announced blk (16 * bk + i), bits.negative blk (16 * bk + i))) 16 (i := 0) rfl
    rw [← List.range_eq_range'] at hcalls
    have hrun : runAt (fun i => s.isUnknown blk (16 * bk + i))
        (fun i => (bits.announced blk (16 * bk + i), bits.negative blk (16 * bk + i))) 0 =
        (List.range 16).countP fun i => s.isUnknown blk (16 * bk + i) := by
      simp [runAt]
    rw [hrun] at hcalls
    rw [hcalls]
    rfl
  case isFalse => rfl

theorem State.refineCalls_eq (s : State) (bits : SliceBits) (blk : Nat) : s.refineCalls bits blk =
    s.sliceBuckets.flatMap fun bk => (List.range 16).flatMap fun i =>
      s.refineCall blk (16 * bk + i) (bits.upper blk (16 * bk + i)) := rfl

/-- The values of the bits of a block, stage by stage, are those of a `SliceBits`, an encoder's those of its
source. -/
theorem exists_sliceBits (s : State) (blk : Nat) {root : Bool} {bucket : Nat → Bool}
    {start : Nat → Nat → Bool × Bool} {upper : Nat → Fin 16 → Bool}
    (hroot : s.coder.mode = .enc → root = s.sourceBits.root blk)
    (hbucket : s.coder.mode = .enc → bucket = s.sourceBits.bucket blk)
    (hstart : s.coder.mode = .enc → start = fun bk i => s.sourceStart blk (16 * bk + i))
    (hupper : s.coder.mode = .enc → upper = fun bk i => s.sourceBits.upper blk (16 * bk + i.val)) :
    ∃ bits : SliceBits, (s.coder.mode = .enc → bits = s.sourceBits) ∧ bits.root blk = root ∧
      bits.bucket blk = bucket ∧
      (∀ bk i, i < 16 →
        (bits.announced blk (16 * bk + i), bits.negative blk (16 * bk + i)) = start bk i) ∧
      ∀ bk (i : Fin 16), bits.upper blk (16 * bk + i.val) = upper bk i := by
  by_cases hm : s.coder.mode = .enc
  case pos =>
    exact ⟨s.sourceBits, fun _ => rfl, (hroot hm).symm, (hbucket hm).symm,
      fun bk i _ => by rw [hstart hm]; rfl, fun bk i => by rw [hupper hm]⟩
  case neg =>
    refine ⟨⟨fun _ => root, fun _ => bucket, fun _ n => (start (n / 16) (n % 16)).1,
      fun _ n => (start (n / 16) (n % 16)).2, fun _ n => upper (n / 16) (posOf n)⟩,
      fun h => absurd h hm, rfl, rfl, fun bk i hi => ?_, fun bk i => ?_⟩
    · dsimp only
      rw [show (16 * bk + i) / 16 = bk by omega, show (16 * bk + i) % 16 = i by omega]
    · dsimp only
      rw [posOf_coef, show (16 * bk + i.val) / 16 = bk by omega]

/-- The calls and the CoefWrites of the new-coefficient pass, in the terms of the statements. -/
theorem State.announce_lists {s : State} {bits : SliceBits} {blk : Nat} {bit : Nat → Bool}
    {start : Nat → Nat → Bool × Bool} (hbit : bits.bucket blk = bit)
    (hstart : ∀ bk i, i < 16 →
      (bits.announced blk (16 * bk + i), bits.negative blk (16 * bk + i)) = start bk i) :
    (s.sliceBuckets.flatMap fun bk => s.bucketStartCalls blk bk (bit bk) (start bk)) =
        s.announceCalls bits blk ∧
      (s.sliceBuckets.flatMap fun bk => s.bucketStartWrites blk bk (bit bk) (start bk)) =
        s.announceWrites bits blk := by
  rw [State.announceCalls_eq, State.announceWrites, hbit]
  constructor
  · refine List.flatMap_congr fun bk _ => ?_
    unfold State.bucketStartCalls
    rw [startCalls_congr fun i hi => (hstart bk i (List.mem_range.1 hi)).symm]
  · refine List.flatMap_congr fun bk _ => ?_
    unfold State.bucketStartWrites
    rw [State.startWrites_congr fun i hi => (hstart bk i (List.mem_range.1 hi)).symm]

/-- The calls and the CoefWrites of the refinement pass, in the terms of the statements. -/
theorem State.refine_lists {s : State} {bits : SliceBits} {blk : Nat} {upper : Nat → Fin 16 → Bool}
    (hupper : ∀ bk (i : Fin 16), bits.upper blk (16 * bk + i.val) = upper bk i) :
    (s.sliceBuckets.flatMap fun bk =>
        positions.flatMap fun i => s.refineCall blk (16 * bk + i.val) (upper bk i)) = s.refineCalls bits blk ∧
      (s.sliceBuckets.flatMap fun bk =>
        positions.flatMap fun i => s.refineWrite blk (16 * bk + i.val) (upper bk i)) =
        s.refineWrites bits blk := by
  rw [State.refineCalls_eq, State.refineWrites, ← positions_val]
  simp only [List.flatMap_map, hupper, and_self]

theorem State.not_isActive_of_isUnknown {s : State} {blk n : Nat} (h : s.isUnknown blk n = true) :
    s.isActive blk n ≠ true := by
  obtain ⟨-, hv⟩ := Bool.and_eq_true_iff.1 h
  intro ha
  obtain ⟨-, hv'⟩ := Bool.and_eq_true_iff.1 ha
  exact of_decide_eq_true hv' (of_decide_eq_true hv)

/-- The stages of a block, once it is prepared (R231). -/
theorem codeBlock_eq (b : Fin 10) (blk : Nat) (u : State) {ws : List BucketWork} (hws : u.prepare b blk = ws) :
    State.codeBlock b blk u =
      (let r := u.rootBit b (Flags.union (ws.map (·.bstate)))
       let p := if Flags.has r.1 flagNew then State.bucketBits b blk r.1 ws r.2 else (ws, r.2)
       let e := if Flags.has r.1 flagNew then State.newPass b blk p.1 p.2 else .done p.2
       e.andThen fun t => if Flags.has r.1 flagActive then State.refinePass b blk p.1 t else .done t) := by
  rw [← hws]
  rfl

/-- One block (R231): its Code calls and its CoefWrites are those of the statements' lists. -/
theorem codeBlock_codes {s : State} (hm : s.coder.mode ≠ .idle) (blk : Nat) (u : State)
    (hu : s.Sees u blk fun _ => True) :
    (State.codeBlock s.sched.curband blk u).Post
      (fun v => ∃ bits : SliceBits, (s.coder.mode = .enc → bits = s.sourceBits) ∧
        u.Codes v (s.blockCalls bits blk) (s.blockWrites bits blk)) fun _ _ => True := by
  obtain ⟨root, hroot, hrootbit⟩ := rootBit_codes s u blk hu
  have hagg : Flags.union ((s.sliceBuckets.map (s.work blk)).map (·.bstate)) = s.aggregate blk := rfl
  rw [codeBlock_eq _ _ _ hu.prepare, hagg]
  generalize u.rootBit s.sched.curband (s.aggregate blk) = r at hrootbit ⊢
  dsimp only at hrootbit ⊢
  cases hgo : Flags.has r.1 flagNew
  case true =>
    simp only [if_true]
    obtain ⟨-, -, hactive⟩ := hrootbit { s.sourceBits with root := fun _ => root } rfl
    have hcodes : ∀ bits : SliceBits, bits.root blk = root → u.Codes r.2 (s.rootCalls bits blk) [] :=
      fun bits h => (hrootbit bits h).1
    have hseen := hu.codes (hcodes { s.sourceBits with root := fun _ => root } rfl) (by simp)
    obtain ⟨bit, hbit, hmarked, hbuckets⟩ := bucketBits_codes s blk hactive s.sliceBuckets_nodup
      (fun bk => State.sliceBuckets_lt) r.2 hseen
    rw [hmarked]
    have hseen' := hseen.codes hbuckets (by simp)
    refine (newPass_codes hbit _ (hseen'.mono fun _ h => h.elim)).andThen ?_
    rintro v ⟨start, hstart, hv⟩
    have hseen'' : s.Sees v blk fun n => s.isActive blk n = true := by
      refine (hseen'.mono fun _ _ => trivial).codes hv fun w hw _ hwa => ?_
      obtain ⟨bk, -, hwb⟩ := List.mem_flatMap.1 hw
      exact State.not_isActive_of_isUnknown (State.mem_bucketStartWrites hwb).2 hwa
    rw [hactive]
    refine (refinePass_codes hm v hseen'').mono ?_ fun _ _ => id
    rintro t ⟨upper, hupper, ht⟩
    obtain ⟨bits, hsource, hbroot, hbbucket, hbstart, hbupper⟩ :=
      exists_sliceBits s blk hroot hbit hstart hupper
    refine ⟨bits, hsource, ?_⟩
    obtain ⟨hrootcodes, hgoes, -⟩ := hrootbit bits hbroot
    rw [(State.announce_lists hbbucket hbstart).1, (State.announce_lists hbbucket hbstart).2] at hv
    rw [(State.refine_lists hbupper).1, (State.refine_lists hbupper).2] at ht
    have hall := hrootcodes.trans ((hbuckets.trans hv).trans ht)
    unfold State.blockCalls State.blockWrites State.bucketCalls
    rw [← hgoes, hgo, if_pos rfl, if_pos rfl, hbbucket]
    simpa only [List.append_assoc, List.nil_append] using hall
  case false =>
    obtain ⟨bits, hsource, hbroot, -, -, -⟩ := exists_sliceBits s blk hroot (fun _ => rfl) (fun _ => rfl)
      fun _ => rfl
    obtain ⟨hrootcodes, hgoes, hactive⟩ := hrootbit bits hbroot
    have hquiet : s.anyInBlock (s.isActive blk) ≠ true := fun h => by
      rw [hgo, State.goesOn, h] at hgoes
      simp at hgoes
    have hlists := State.refine_lists (s := s) (bits := bits) (blk := blk) fun _ _ => rfl
    rw [(refine_of_quiet_block hquiet _).1, (refine_of_quiet_block hquiet _).2] at hlists
    simp only [Bool.false_eq_true, if_false, Effect.done_andThen, hactive, hquiet]
    refine ⟨bits, hsource, ?_⟩
    unfold State.blockCalls State.blockWrites
    rw [← hgoes, hgo, ← hlists.1, ← hlists.2]
    simpa using hrootcodes

/-! ## All blocks -/

/-- The CoefWrites of a slice (R231). -/
def State.sliceWrites (s : State) (bits : SliceBits) : List CoefWritten :=
  if s.sliceIsEmpty then [] else (List.range s.cs0.nb.toNat).flatMap (s.blockWrites bits)

theorem State.mem_blockWrites_block {s : State} {bits : SliceBits} {blk : Nat} {w : CoefWritten}
    (h : w ∈ s.blockWrites bits blk) : w.1 = blk := by
  rcases List.mem_append.1 h with h | h
  · split at h
    case isTrue =>
      obtain ⟨bk, -, hw⟩ := List.mem_flatMap.1 h
      exact (State.mem_bucketStartWrites hw).1
    case isFalse => cases h
  · obtain ⟨bk, -, hw⟩ := List.mem_flatMap.1 h
    obtain ⟨i, -, hwi⟩ := List.mem_flatMap.1 hw
    exact (State.mem_refineWrite hwi).1

/-- The coding of a slice (R227, R231): its Code calls and its CoefWrites are those of the statements' lists. -/
theorem codeSlice_codes {s : State} (hm : s.coder.mode ≠ .idle) :
    s.codeSlice.Post (fun v => ∃ bits : SliceBits, (s.coder.mode = .enc → bits = s.sourceBits) ∧
      s.Codes v (s.sliceCalls bits) (s.sliceWrites bits)) fun _ _ => True := by
  by_cases hempty : s.sliceIsEmpty = true
  case pos =>
    have hcalls : s.sliceCalls s.sourceBits = [] := if_pos hempty
    have hwrites : s.sliceWrites s.sourceBits = [] := if_pos hempty
    rw [State.codeSlice_of_empty hempty]
    exact ⟨s.sourceBits, fun _ => rfl, by rw [hcalls, hwrites]; exact State.Codes.refl s⟩
  case neg =>
    have hcalls : ∀ bits, s.sliceCalls bits = _ := fun bits => (s.sliceCalls_eq bits).trans (if_neg hempty)
    have hwrites : ∀ bits, s.sliceWrites bits = (List.range s.cs0.nb.toNat).flatMap (s.blockWrites bits) :=
      fun bits => if_neg hempty
    have hblocks : s.codeSlice = State.codeBlocks s.sched.curband (List.range s.cs0.nb.toNat) s := if_neg hempty
    simp only [hcalls, hwrites, hblocks]
    rw [codeBlocks_eq_forEach]
    refine (forEach_codes (calls := fun blk bits => s.blockCalls bits blk)
      (writes := fun blk bits => s.blockWrites bits blk) (source := fun _ => s.sourceBits)
      List.nodup_range fun blk _ u cs ws hu hws => ?_).mono ?_ fun _ _ => id
    · refine codeBlock_codes hm blk u (((State.Sees.refl s blk _).codes hu) fun w hw hblk => ?_)
      obtain ⟨j, hj, bits, hwj⟩ := hws w hw
      exact absurd ((State.mem_blockWrites_block hwj).symm.trans hblk) hj
    · rintro v ⟨bits, hsource, hv⟩
      refine ⟨⟨fun blk => (bits blk).root blk, fun blk => (bits blk).bucket blk,
        fun blk => (bits blk).announced blk, fun blk => (bits blk).negative blk,
        fun blk => (bits blk).upper blk⟩, fun henc => by rw [hsource henc], hv⟩

/-! ## The coefficients after a slice -/

/-- A coefficient of some of the buckets, given by bucket and position. -/
theorem exists_coef_iff {bks : List Nat} {p : Nat → Prop} {n : Nat} :
    (∃ bk ∈ bks, ∃ i ∈ List.range 16, n = 16 * bk + i ∧ p (16 * bk + i)) ↔ n / 16 ∈ bks ∧ p n := by
  constructor
  · rintro ⟨bk, hbk, i, hi, rfl, hp⟩
    have := List.mem_range.1 hi
    rw [show (16 * bk + i) / 16 = bk by omega]
    exact ⟨hbk, hp⟩
  · rintro ⟨hbk, hp⟩
    have e : n = 16 * (n / 16) + n % 16 := by omega
    exact ⟨n / 16, hbk, n % 16, List.mem_range.2 (by omega), e, e ▸ hp⟩

/-- What the new-coefficient pass over a block writes (R238). -/
theorem State.mem_announceWrites {s : State} {bits : SliceBits} {blk blk' n : Nat} {v : Sample} :
    (blk', n, v) ∈ s.announceWrites bits blk ↔ n / 16 ∈ s.sliceBuckets ∧
      (blk' = blk ∧ bits.bucket blk (n / 16) = true ∧ s.isUnknown blk n = true ∧
        bits.announced blk n = true ∧ v = s.announcedValue (s.sliceThr n) (bits.negative blk n)) := by
  rw [← exists_coef_iff (p := fun n => blk' = blk ∧ bits.bucket blk (n / 16) = true ∧
    s.isUnknown blk n = true ∧ bits.announced blk n = true ∧
    v = s.announcedValue (s.sliceThr n) (bits.negative blk n))]
  unfold State.announceWrites
  rw [List.mem_flatMap]
  refine exists_congr fun bk => and_congr_right fun _ => ?_
  have hdiv : ∀ i ∈ List.range 16, (16 * bk + i) / 16 = bk := fun i hi => by
    have := List.mem_range.1 hi
    omega
  unfold State.bucketStartWrites State.startWrites
  constructor
  · intro h
    split at h
    case isFalse => cases h
    case isTrue hgo =>
      obtain ⟨i, hi, hw⟩ := List.mem_flatMap.1 h
      split at hw
      case isFalse => cases hw
      case isTrue hunk =>
        cases List.mem_singleton.1 hw
        rw [Bool.and_eq_true] at hgo hunk
        exact ⟨i, hi, rfl, rfl, (hdiv i hi).symm ▸ hgo.2, hunk.1, hunk.2, rfl⟩
  · rintro ⟨i, hi, rfl, rfl, hbit, hunk, hann, rfl⟩
    have hgo : (anyInBucket (s.isUnknown blk') bk && bits.bucket blk' bk) = true :=
      Bool.and_eq_true_iff.2 ⟨List.any_eq_true.2 ⟨i, hi, hunk⟩, hdiv i hi ▸ hbit⟩
    rw [if_pos hgo]
    exact List.mem_flatMap.2 ⟨i, hi, by simp [hunk, hann]⟩

/-- What the refinement pass over a block writes (R239, R240). -/
theorem State.mem_refineWrites {s : State} {bits : SliceBits} {blk blk' n : Nat} {v : Sample} :
    (blk', n, v) ∈ s.refineWrites bits blk ↔ n / 16 ∈ s.sliceBuckets ∧
      (blk' = blk ∧ s.isActive blk n = true ∧
        v = s.refinedTo (s.visible blk n) (s.sliceThr n) (bits.upper blk n)) := by
  rw [← exists_coef_iff (p := fun n => blk' = blk ∧ s.isActive blk n = true ∧
        v = s.refinedTo (s.visible blk n) (s.sliceThr n) (bits.upper blk n))]
  unfold State.refineWrites
  simp only [List.mem_flatMap]
  refine exists_congr fun bk => and_congr_right fun _ => exists_congr fun i => and_congr_right fun _ => ?_
  unfold State.refineWrite
  split
  case isTrue h => simp [h]; tauto
  case isFalse h => simp [h]

/-- What the CoefWrites of a slice name, and with which value (R238 to R240). -/
theorem State.mem_sliceWrites {s : State} {bits : SliceBits} {blk n : Nat} {v : Sample} :
    (blk, n, v) ∈ s.sliceWrites bits ↔
      (s.isAnnounced bits blk n = true ∧ v = s.announcedValue (s.sliceThr n) (bits.negative blk n)) ∨
        (s.isRefined blk n = true ∧
          v = s.refinedTo (s.visible blk n) (s.sliceThr n) (bits.upper blk n)) := by
  unfold State.sliceWrites State.isAnnounced State.isRefined
  cases s.sliceIsEmpty
  case true => simp
  case false =>
    have hblock : (blk, n, v) ∈ (List.range s.cs0.nb.toNat).flatMap (s.blockWrites bits) ↔
        blk < s.cs0.nb.toNat ∧ (blk, n, v) ∈ s.blockWrites bits blk := by
      rw [List.mem_flatMap]
      constructor
      · rintro ⟨b, hb, hw⟩
        obtain rfl := State.mem_blockWrites_block hw
        exact ⟨List.mem_range.1 hb, hw⟩
      · rintro ⟨hb, hw⟩
        exact ⟨blk, List.mem_range.2 hb, hw⟩
    have hann : (blk, n, v) ∈ (if s.goesOn bits blk then s.announceWrites bits blk else []) ↔
        s.goesOn bits blk = true ∧ (blk, n, v) ∈ s.announceWrites bits blk := by
      split
      case isTrue h => simp [h]
      case isFalse h => simp [h]
    simp only [Bool.false_eq_true, if_false, hblock, State.blockWrites, List.mem_append, hann,
      State.mem_announceWrites, State.mem_refineWrites, Bool.and_eq_true, Bool.not_false, decide_eq_true_eq,
      true_and]
    constructor
    · rintro ⟨hb, ⟨hgo, hbk, hbit, hunk, hann, hv⟩ | ⟨hbk, hact, hv⟩⟩
      · exact .inl ⟨⟨⟨⟨⟨⟨hb, hbk⟩, hgo⟩, hbit⟩, hunk⟩, hann⟩, hv⟩
      · exact .inr ⟨⟨⟨hb, hbk⟩, hact⟩, hv⟩
    · rintro (⟨⟨⟨⟨⟨⟨hb, hbk⟩, hgo⟩, hbit⟩, hunk⟩, hann⟩, hv⟩ | ⟨⟨⟨hb, hbk⟩, hact⟩, hv⟩)
      · exact ⟨hb, .inl ⟨hgo, hbk, hbit, hunk, hann, hv⟩⟩
      · exact ⟨hb, .inr ⟨hbk, hact, hv⟩⟩

theorem State.valueAfterSlice_eq (s : State) (bits : SliceBits) (blk n : Nat) : s.valueAfterSlice bits blk n =
    if s.isAnnounced bits blk n then s.announcedValue (s.sliceThr n) (bits.negative blk n)
    else if s.isRefined blk n then s.refinedTo (s.visible blk n) (s.sliceThr n) (bits.upper blk n)
    else wrap16 (s.visible blk n) := rfl

/-- A coefficient announced in a slice is not refined in it (R239). -/
theorem State.not_isRefined_of_isAnnounced {s : State} {bits : SliceBits} {blk n : Nat}
    (h : s.isAnnounced bits blk n = true) : s.isRefined blk n ≠ true := by
  obtain ⟨hundecided, -⟩ := Bool.and_eq_true_iff.1 h
  obtain ⟨-, hunk⟩ := Bool.and_eq_true_iff.1 hundecided
  intro hr
  obtain ⟨-, hactive⟩ := Bool.and_eq_true_iff.1 hr
  exact State.not_isActive_of_isUnknown hunk hactive

/-- The value of a coefficient after the CoefWrites of a slice (R238 to R240). -/
theorem State.writtenOver_sliceWrites (s : State) (bits : SliceBits) (blk n : Nat) :
    writtenOver (s.sliceWrites bits) blk n ((s.store s.targetIndex).coefRead blk n) =
      s.valueAfterSlice bits blk n := by
  rw [State.valueAfterSlice_eq]
  by_cases ha : s.isAnnounced bits blk n = true
  case pos =>
    rw [if_pos ha]
    refine writtenOver_of_mem (State.mem_sliceWrites.2 (.inl ⟨ha, rfl⟩)) (fun v' hv' => ?_) _
    rcases State.mem_sliceWrites.1 hv' with ⟨-, rfl⟩ | ⟨hr, -⟩
    · rfl
    · exact absurd hr (State.not_isRefined_of_isAnnounced ha)
  case neg =>
    rw [if_neg ha]
    by_cases hr : s.isRefined blk n = true
    case pos =>
      rw [if_pos hr]
      refine writtenOver_of_mem (State.mem_sliceWrites.2 (.inr ⟨hr, rfl⟩)) (fun v' hv' => ?_) _
      rcases State.mem_sliceWrites.1 hv' with ⟨ha', -⟩ | ⟨-, rfl⟩
      · exact absurd ha' ha
      · rfl
    case neg =>
      rw [if_neg hr]
      refine (writtenOver_of_untouched ?_ _).trans (BitVec.ofInt_toInt).symm
      rintro ⟨blk', n', v'⟩ hw ⟨rfl, rfl⟩
      rcases State.mem_sliceWrites.1 hw with ⟨ha', -⟩ | ⟨hr', -⟩
      · exact ha ha'
      · exact hr hr'

/-- A coefficient refined in a slice has its bucket already, being nonzero (R203, R239). -/
theorem State.allocated_of_isRefined {s : State} {blk n : Nat} (h : s.isRefined blk n = true) :
    (s.store s.targetIndex).Allocated blk (n / 16) := by
  obtain ⟨-, hactive⟩ := Bool.and_eq_true_iff.1 h
  obtain ⟨-, hv⟩ := Bool.and_eq_true_iff.1 hactive
  refine Option.isSome_iff_ne_none.2 fun hnone => of_decide_eq_true hv ?_
  show ((s.store s.targetIndex).coefRead blk n).toInt = 0
  rw [Store.coefRead_unallocated hnone]
  rfl

/-- Settles O43: the coding completes, and its Code calls and CoefWrites are the listed ones. -/
theorem sliceCodesTheseCalls : Obligations.SliceCodesTheseCalls := by
  intro s rd hf hm hv henc hmem harena hd target
  have hc := sliceChecks_pass hm hv henc
  obtain ⟨u, hu⟩ := codeSlice_completes hmem hc harena
  have hexec := exec_bpcSlice rd hf hc
  rw [commandEffect_bpcSlice, if_neg (by simp [hd]), hu] at hexec
  obtain ⟨bits, hsource, hcodes⟩ : ∃ bits : SliceBits, (s.coder.mode = .enc → bits = s.sourceBits) ∧
      s.Codes u (s.sliceCalls bits) (s.sliceWrites bits) := by
    simpa only [hu, Effect.post_done] using codeSlice_codes hm
  obtain ⟨w, hw, hcoder, hctx⟩ := hcodes.coding
  refine ⟨_, w, bits, hexec, hsource, hw, hcoder, hctx, fun blk n hn => ?_, fun blk bk hbk => ?_⟩
  · exact (hcodes.value blk n hn).trans (s.writtenOver_sliceWrites bits blk n)
  · refine (hcodes.allocated blk bk hbk).trans ⟨?_, ?_⟩
    · rintro (h | ⟨⟨blk', n, v⟩, hmemw, rfl, rfl⟩)
      · exact .inl h
      · rcases State.mem_sliceWrites.1 hmemw with ⟨ha, -⟩ | ⟨hr, -⟩
        · refine .inr ⟨n % 16, by omega, ?_⟩
          rwa [show 16 * (n / 16) + n % 16 = n by omega]
        · exact .inl (State.allocated_of_isRefined hr)
    · rintro (h | ⟨j, hj, ha⟩)
      · exact .inl h
      · exact .inr ⟨_, State.mem_sliceWrites.2 (.inl ⟨ha, rfl⟩), rfl, by dsimp only; omega⟩

end Sys2Proof.Machine
end

section
/-! # The faults of each command

An ill-formed command never gets past its legality check; past it, a fault is of a kind of the command's own
checks or of its effect, and both lie in its row of R263. -/

namespace Sys2Proof.Machine

/-- The legality check comes before all others, so an illegal command is IllegalCommand (R95, R97). -/
theorem exec_of_illFormed {i : Instr} {s : State} (hf : s.faulted = false) (hwf : i.wellFormed = false) :
    exec i s = .next (s.takeFault .illegal (encode i)) := by
  refine exec_of_failing_check ?_ hf (by rw [hwf]; rfl)
  rintro rfl
  cases hwf

/-- A legal command in an unfaulted state ends unfaulted or with a fault of its row of R263. -/
theorem exec_of_wellFormed_fault {i : Instr} {s t : State} (hwf : i.wellFormed = true)
    (hf : s.faulted = false) (h : exec i s = .next t) :
    t.faulted = false ∨ ∃ k ∈ mayRaise i, t.fault = faultWord k := by
  rcases exec_cases h fun hi _ _ _ => commandEffect_writes hi s with
    ⟨-, rfl⟩ | ⟨-, -, rfl⟩ | ⟨-, -, k, hk, rfl⟩ | ⟨hi, -, ht⟩ | ⟨-, -, k, u, ⟨-, hk, -, -⟩, rfl⟩
  · exact .inl rfl
  · exact .inl hf
  · rcases List.mem_cons.1 hk with hlegal | hcheck
    · cases hwf.symm.trans (Prod.mk.inj hlegal).1.symm
    · exact .inr ⟨k, kind_of_commandChecks i s _ hcheck, s.takeFault_fault k _⟩
  · exact .inl ((ht .faults (not_writes_faults hi)).1.trans hf)
  · exact .inr ⟨k, hk, u.takeFault_fault k _⟩

/-- Settles O13: by the legality of the command, which its first check decides. -/
theorem faultsOfEachCommand : Obligations.FaultsOfEachCommand := by
  intro i s t hf h ht
  split
  case isTrue hwf =>
    refine (exec_of_wellFormed_fault hwf hf h).resolve_left fun hunfaulted => ?_
    cases ht.symm.trans hunfaulted
  case isFalse hwf =>
    rw [exec_of_illFormed hf (Bool.eq_false_iff.2 hwf)] at h
    cases h
    rfl

end Sys2Proof.Machine
end

section
/-! # Every step goes on

The host's action leaves the port first, and nothing that then happens writes the port or the configuration. -/

namespace Sys2Proof.Machine

theorem State.rejectWord_cfg_port (s : State) (w : Word) :
    (s.rejectWord w).cfg = s.cfg ∧ (s.rejectWord w).port = s.port := by
  unfold State.rejectWord
  split <;> exact ⟨rfl, rfl⟩

theorem State.attach_cfg_port (s : State) (bytes : List Byte) :
    (s.attach bytes).cfg = s.cfg ∧ (s.attach bytes).port = s.port := by
  unfold State.attach
  split <;> exact ⟨rfl, rfl⟩

theorem State.take_cfg_port (s : State) : s.take.cfg = s.cfg ∧ s.take.port = s.port := by
  unfold State.take
  split <;> exact ⟨rfl, rfl⟩

/-- Settles O9: by what the step can be; a command answers a state and keeps the host's part of it. -/
theorem everyStepGoesOn : Obligations.EveryStepGoesOn := by
  intro s
  rcases step_cases s with ⟨hport, h⟩ | ⟨w, rest, hport, ⟨i, -, h⟩ | ⟨e, -, h⟩⟩ |
    ⟨rest, ⟨bytes, hport, h⟩ | ⟨hport, h⟩ | ⟨r, -, h, htail⟩⟩
  case inl => exact ⟨s, h, rfl, by rw [hport]; rfl⟩
  case inr.inl.inl =>
    obtain ⟨t, ht⟩ := exec_next i { s with port := rest }
    obtain ⟨hcfg, hkept, -⟩ := exec_host ht
    exact ⟨t, h.trans ht, hcfg, by rw [hkept, hport]; rfl⟩
  case inr.inl.inr =>
    obtain ⟨hcfg, hkept⟩ := State.rejectWord_cfg_port { s with port := rest } w
    exact ⟨_, h, hcfg, by rw [hkept, hport]; rfl⟩
  case inr.inr.inl =>
    obtain ⟨hcfg, hkept⟩ := State.attach_cfg_port { s with port := rest } bytes
    exact ⟨_, h, hcfg, by rw [hkept, hport]; rfl⟩
  case inr.inr.inr.inl =>
    obtain ⟨hcfg, hkept⟩ := State.take_cfg_port { s with port := rest }
    exact ⟨_, h, hcfg, by rw [hkept, hport]; rfl⟩
  case inr.inr.inr.inr => exact ⟨_, h, rfl, htail.symm⟩

end Sys2Proof.Machine
end
